-- ==== Sys2Proof/Word.lean ====
section
/-! DEFINITION. The word types of the module and their plainest arithmetic (R3, R4, R9 of spec/00_scope.md). -/
namespace Sys2Proof

/-- A byte (R4). -/
abbrev Byte := BitVec 8
/-- A word of 32 bits (R4); also one lane of a lane register (R190). -/
abbrev Word := BitVec 32
/-- A dword of 64 bits (R4); also a uniform register (R191). -/
abbrev Dword := BitVec 64
/-- A mask register or an active mask: one bit for each of 1,024 lanes (R195). -/
abbrev LaneMask := BitVec 1024

/-- The low `n` bits of an integer's two's-complement pattern (the wrapping write of R234). -/
def wrapInt (n : Nat) (x : Int) : BitVec n := BitVec.ofInt n x

/-- `sat(x, T)` of R9 for the signed `n`-bit type. -/
def satSigned (n : Nat) (x : Int) : Int :=
  if x < -(2 ^ (n - 1) : Int) then -(2 ^ (n - 1) : Int)
  else if x > (2 ^ (n - 1) : Int) - 1 then (2 ^ (n - 1) : Int) - 1 else x

/-- `sat(x, T)` of R9 for the unsigned `n`-bit type. -/
def satUnsigned (n : Nat) (x : Int) : Int :=
  if x < 0 then 0 else if x > (2 ^ n : Int) - 1 then (2 ^ n : Int) - 1 else x

end Sys2Proof
end

