-- ==== Sys2Proof/Syntax.lean ====
section
/-! DEFINITION. The syntax: operand forms and the ONE inductive `Instr`, a constructor for each row of spec/opcode_table.json
(171 instruction forms, 92 events of the hardware). -/
namespace Sys2Proof

/-- Type codes of the TY field (R35), in the order of their codes 0x00 to 0x13. -/
inductive Ty where
  | b32 | b64 | i8 | i16 | i32 | i64 | n8 | n16 | n32 | n64 | f16 | bf16 | f32 | f64 | e4m3 | e5m2 | cb4 | i4 | x2f16 | x2bf16
  deriving DecidableEq, Repr

/-- A lane register v0 to v255 (R190). -/
abbrev LaneReg := BitVec 8
/-- A uniform register s0 to s127 (R191). -/
abbrev UReg := BitVec 7
/-- A mask register m0 to m14 (R191); 15 is no mask register. -/
abbrev MReg := BitVec 4
/-- An accumulator tile a0 to a7 (R191). -/
abbrev Tile := BitVec 3

/-- The guard of an instruction (R29, R36): GM = 15 with GN = 0 is unguarded. -/
structure Guard where
  gm : BitVec 4
  gn : Bool
  deriving DecidableEq, Repr

/-- The fields of the low word that every form shares (R29): guard, SB, STL and END. -/
structure Hdr where
  guard : Guard
  sb    : Bool
  stl   : BitVec 4
  fin   : Bool
  deriving DecidableEq, Repr

/-- Rounding mode (R34, R220). -/
inductive RMode where
  | rne | rz | ru | rd
  deriving DecidableEq, Repr

/-- Condition of SCMP, VCMP and AWAITW (R243). -/
inductive Cond where
  | eq | ne | lt | le | gt | ge
  deriving DecidableEq, Repr

/-- Condition of FCMP (R254). -/
inductive FCond where
  | eq | ne | lt | le | gt | ge | un | ord
  deriving DecidableEq, Repr

/-- Operand B of a vector form (R235, R236): a lane register, a uniform register (BU) or the I word. -/
inductive VSrc where
  | lane (r : LaneReg)
  | unif (r : UReg)
  | imm (i : Word)
  deriving DecidableEq, Repr

/-- Operand B of a uniform or mask form: a uniform register or the I word. -/
inductive USrc where
  | reg (r : UReg)
  | imm (i : Word)
  deriving DecidableEq, Repr

/-- An immediate of SLI or VLI: the 96-bit form's I word, or the 128-bit form's J and I words (R242, R245). -/
inductive LongImm where
  | short (i : Word)
  | long (v : Dword)
  deriving DecidableEq, Repr

/-- Uniform two-source and control shapes (R238); `sat` is VAR 1. -/
structure U2 where
  ty : Ty
  sat : Bool
  d : UReg
  a : UReg
  b : USrc
  deriving DecidableEq, Repr

/-- Uniform insert shape (R238). -/
structure U3 where
  ty : Ty
  d : UReg
  a : UReg
  b : USrc
  c : UReg
  deriving DecidableEq, Repr

/-- Uniform unary shape (R238). -/
structure U1 where
  ty : Ty
  d : UReg
  a : UReg
  deriving DecidableEq, Repr

/-- SCMP (R242). -/
structure UCmp where
  ty : Ty
  cc : Cond
  d : UReg
  a : UReg
  b : USrc
  deriving DecidableEq, Repr

/-- SSEL (R242). -/
structure USel where
  d : UReg
  a : UReg
  b : USrc
  c : UReg
  deriving DecidableEq, Repr

/-- A destination and one source, both uniform: SMOV, BIND, QSTALE, PREEMPT. -/
structure UDA where
  d : UReg
  a : UReg
  deriving DecidableEq, Repr

/-- SLI (R242). -/
structure ULi where
  d : UReg
  v : LongImm
  deriving DecidableEq, Repr

/-- Vector two-source and control shapes (R238). -/
structure V2 where
  ty : Ty
  sat : Bool
  d : LaneReg
  a : LaneReg
  b : VSrc
  deriving DecidableEq, Repr

/-- Vector shapes with a third lane source: VBFI, VMAD, VCLAMP (R238, R244). -/
structure V3 where
  ty : Ty
  sat : Bool
  d : LaneReg
  a : LaneReg
  b : VSrc
  c : LaneReg
  deriving DecidableEq, Repr

/-- Vector unary shape: VPOPC, VCLZ, VABS, VNEG, VBREV. -/
structure V1 where
  ty : Ty
  sat : Bool
  d : LaneReg
  a : LaneReg
  deriving DecidableEq, Repr

/-- VCMP (R244). -/
structure VCmp where
  ty : Ty
  cc : Cond
  d : MReg
  a : LaneReg
  b : VSrc
  deriving DecidableEq, Repr

/-- VSEL (R244). -/
structure VSelO where
  ty : Ty
  d : LaneReg
  a : LaneReg
  b : VSrc
  c : MReg
  deriving DecidableEq, Repr

/-- Source of VMOV: a lane register (VAR 0) or a uniform register (VAR 1). -/
inductive MovSrc where
  | lane (r : LaneReg)
  | unif (r : UReg)
  deriving DecidableEq, Repr

/-- VMOV (R244). -/
structure VMovO where
  ty : Ty
  d : LaneReg
  a : MovSrc
  deriving DecidableEq, Repr

/-- VLI (R244). -/
structure VLiO where
  ty : Ty
  d : LaneReg
  v : LongImm
  deriving DecidableEq, Repr

/-- VADDC (R244). -/
structure VAddc where
  ty : Ty
  sub : Bool
  d : LaneReg
  a : LaneReg
  b : VSrc
  c : MReg
  deriving DecidableEq, Repr

/-- VIDX (R244): `off` is the I word of the 96-bit form. -/
structure VIdx where
  d : LaneReg
  off : Option Word
  deriving DecidableEq, Repr

/-- Float two-source shape, and FSCALE (R229, R249). -/
structure F2 where
  ty : Ty
  rm : RMode
  ftz : Bool
  d : LaneReg
  a : LaneReg
  b : VSrc
  deriving DecidableEq, Repr

/-- Float three-source shape: FFMA and FDOT2 (R249). -/
structure F3 where
  ty : Ty
  rm : RMode
  ftz : Bool
  d : LaneReg
  a : LaneReg
  b : VSrc
  c : LaneReg
  deriving DecidableEq, Repr

/-- Float unary shape: FABS, FNEG, FSQRT, FRND and the approximate functions (R229, R249). -/
structure F1 where
  ty : Ty
  rm : RMode
  ftz : Bool
  d : LaneReg
  a : LaneReg
  deriving DecidableEq, Repr

/-- FCMP (R254). -/
structure FCmpO where
  ty : Ty
  cc : FCond
  d : MReg
  a : LaneReg
  b : VSrc
  deriving DecidableEq, Repr

/-- FCLASS (R255). -/
structure FClassO where
  ty : Ty
  d : LaneReg
  a : LaneReg
  deriving DecidableEq, Repr

/-- FCVT and ICVT (R226): destination type, source type. -/
structure CvtO where
  dt : Ty
  st : Ty
  rm : RMode
  sat : Bool
  d : LaneReg
  a : LaneReg
  deriving DecidableEq, Repr

/-- FCVT, pack form (R226). -/
structure PackO where
  dt : Ty
  rm : RMode
  sat : Bool
  d : LaneReg
  a : LaneReg
  b : LaneReg
  deriving DecidableEq, Repr

/-- FCVT, unpack form (R226); `k` is the element. -/
structure UnpackO where
  st : Ty
  d : LaneReg
  a : LaneReg
  k : Bool
  deriving DecidableEq, Repr

/-- Modes of VSHFL (R204). -/
inductive ShflMode where
  | idx | up | down | bfly
  deriving DecidableEq, Repr

/-- VSHFL (R203, R204). -/
structure ShflO where
  mode : ShflMode
  ty : Ty
  d : LaneReg
  a : LaneReg
  b : VSrc
  deriving DecidableEq, Repr

/-- VBCAST (R205). -/
structure BcastO where
  ty : Ty
  d : LaneReg
  a : LaneReg
  b : USrc
  deriving DecidableEq, Repr

/-- Operations of VRED; the first six are those of VSCAN (R208, R210). -/
inductive RedOp where
  | add | min | max | and | or | xor | fadd | fmin | fmax
  deriving DecidableEq, Repr

/-- VRED (R208). -/
structure RedO where
  op : RedOp
  ty : Ty
  d : UReg
  a : LaneReg
  deriving DecidableEq, Repr

/-- VSCAN (R210). -/
structure ScanO where
  op : RedOp
  exc : Bool
  ty : Ty
  d : LaneReg
  a : LaneReg
  deriving DecidableEq, Repr

/-- VBALLOT (R207). -/
structure BallotO where
  d : MReg
  a : LaneReg
  deriving DecidableEq, Repr

/-- VTOS (R206). -/
structure VtosO where
  ty : Ty
  d : UReg
  a : LaneReg
  b : USrc
  deriving DecidableEq, Repr

/-- MAND, MOR, MXOR (R213). -/
structure M2 where
  d : MReg
  a : MReg
  b : MReg
  deriving DecidableEq, Repr

/-- MNOT (R213). -/
structure M1 where
  d : MReg
  a : MReg
  deriving DecidableEq, Repr

/-- MCNT and MTEST.sum (R213). -/
structure MToU where
  d : UReg
  a : MReg
  deriving DecidableEq, Repr

/-- MFIRST (R213). -/
structure MFirstO where
  last : Bool
  d : UReg
  a : MReg
  deriving DecidableEq, Repr

/-- MSET.range and MSET.word (R213). -/
structure MSetO where
  d : MReg
  a : UReg
  b : USrc
  deriving DecidableEq, Repr

/-- MTEST and MTEST.word (R213). -/
structure MTestO where
  d : UReg
  a : MReg
  b : USrc
  deriving DecidableEq, Repr

/-- An index of a lane memory operand (R152): the lane register and log2 of the scale. -/
structure MIdx where
  r : LaneReg
  sc : BitVec 2
  deriving DecidableEq, Repr

/-- A lane memory operand (R152); `off = none` is the 64-bit form. -/
structure MemOp where
  base : UReg
  idx : Option MIdx
  off : Option Word
  deriving DecidableEq, Repr

/-- LD (R157). -/
structure LdO where
  ty : Ty
  na : Bool
  d : LaneReg
  mem : MemOp
  deriving DecidableEq, Repr

/-- ST (R157). -/
structure StO where
  ty : Ty
  na : Bool
  b : LaneReg
  mem : MemOp
  deriving DecidableEq, Repr

/-- LDK and LDS (R157, R159). -/
structure LdkO where
  ty : Ty
  d : LaneReg
  mem : MemOp
  deriving DecidableEq, Repr

/-- STS (R159). -/
structure StsO where
  ty : Ty
  b : LaneReg
  mem : MemOp
  deriving DecidableEq, Repr

/-- SLD (R160). -/
structure SldO where
  ty : Ty
  d : UReg
  a : UReg
  off : Option Word
  deriving DecidableEq, Repr

/-- SST, PUB.st and PUB.add (R160, R368). -/
structure SstO where
  ty : Ty
  b : UReg
  a : UReg
  off : Option Word
  deriving DecidableEq, Repr

/-- Atomic operations (R162). -/
inductive Aop where
  | add | and | or | xor | min | max | swap | cas | fadd | fmin | fmax
  deriving DecidableEq, Repr

/-- AMO (R161, R164); `cmp` is the compare register of CAS, 0 otherwise. -/
structure AmoO where
  ty : Ty
  aop : Aop
  d : LaneReg
  b : LaneReg
  cmp : LaneReg
  base : UReg
  idx : Option MIdx
  off : Word
  deriving DecidableEq, Repr

/-- RED (R161, R164). -/
structure RedMemO where
  ty : Ty
  aop : Aop
  b : LaneReg
  base : UReg
  idx : Option MIdx
  off : Word
  deriving DecidableEq, Repr

/-- SAMO (R161, R164). -/
structure SamoO where
  ty : Ty
  aop : Aop
  d : UReg
  b : UReg
  cmp : UReg
  a : UReg
  off : Word
  deriving DecidableEq, Repr

/-- PREF (R165); `l2` is NA. -/
structure PrefO where
  l2 : Bool
  mem : MemOp
  deriving DecidableEq, Repr

/-- PERSIST (R166). -/
structure PersistO where
  a : UReg
  off : Option Word
  b : UReg
  deriving DecidableEq, Repr

/-- COPY (R170): `ss` and `ds` say that source and destination are the staging window; `c` is the stride register of the 2-D form. -/
structure CopyO where
  ss : Bool
  ds : Bool
  d : UReg
  a : UReg
  b : UReg
  c : Option UReg
  tag : BitVec 6
  deriving DecidableEq, Repr

/-- A tag or command ID: COPYW, CHAINW, MWAIT. -/
structure TagO where
  tag : BitVec 6
  deriving DecidableEq, Repr

/-- CHAIN (R185). -/
structure ChainO where
  a : UReg
  b : UReg
  tag : BitVec 6
  deriving DecidableEq, Repr

/-- FESET (R180). -/
structure FesetO where
  full : Bool
  a : UReg
  off : Option Word
  b : UReg
  deriving DecidableEq, Repr

/-- FEQ (R181). -/
structure FeqO where
  d : UReg
  a : UReg
  off : Option Word
  b : UReg
  deriving DecidableEq, Repr

/-- An operand of MMA (R275): a window operand with its offset in units of 128 bytes, or the first lane register. -/
inductive MmaSrc where
  | win (base : UReg) (off : BitVec 16)
  | lane (r : LaneReg)
  deriving DecidableEq, Repr

/-- The J word of a 128-bit MMA (R275). -/
structure MmaJ where
  freg : UReg
  p1 : Option (BitVec 6)
  p2 : Option (BitVec 6)
  deriving DecidableEq, Repr

/-- MMA (R275). -/
structure MmaO where
  ty : Ty
  ovr : Bool
  d : Tile
  a : MmaSrc
  b : MmaSrc
  id : BitVec 6
  j : Option MmaJ
  deriving DecidableEq, Repr

/-- MZERO. -/
structure TileO where
  d : Tile
  deriving DecidableEq, Repr

/-- MLDA and MSTA (R286). -/
structure TileMemO where
  t : Tile
  a : UReg
  off : Option Word
  deriving DecidableEq, Repr

/-- MCBL (R286). -/
structure McblO where
  slot : BitVec 2
  a : UReg
  off : Option Word
  deriving DecidableEq, Repr

/-- DRAIN (R288). -/
structure DrainO where
  ty : Ty
  rm : RMode
  sat : Bool
  int : Bool
  d : Tile
  a : UReg
  off : Option Word
  deriving DecidableEq, Repr

/-- One uniform destination: MSTAT, FQPOP. -/
structure UD where
  d : UReg
  deriving DecidableEq, Repr

/-- One uniform source: RET, SRET, UNBIND, SETTLE, AWAIT sA, PSWR.spawn. -/
structure UA where
  a : UReg
  deriving DecidableEq, Repr

/-- The length of a NOP (R341). -/
inductive NopLen where
  | l64 | l96 | l128
  deriving DecidableEq, Repr

/-- A PC-relative target: BRA and BRD (R342). -/
structure RelO where
  off : Word
  deriving DecidableEq, Repr

/-- BRX (R342). -/
structure BrxO where
  a : UReg
  off : Option Word
  deriving DecidableEq, Repr

/-- CALL (R342). -/
structure CallO where
  d : UReg
  off : Word
  deriving DecidableEq, Repr

/-- YLD (R346). -/
structure YldO where
  dl : BitVec 16
  live : BitVec 9
  deriving DecidableEq, Repr

/-- TRAP (R347). -/
structure TrapO where
  n : Word
  deriving DecidableEq, Repr

/-- SRD (R349). -/
structure SrdO where
  d : UReg
  num : BitVec 6
  deriving DecidableEq, Repr

/-- SWR (R349). -/
structure SwrO where
  num : BitVec 6
  b : USrc
  deriving DecidableEq, Repr

/-- Affinity of a SPAWN (R353). -/
inductive Aff where
  | sub | core | quad | die | any
  deriving DecidableEq, Repr

/-- The lane count of a SPAWN: LANES of J, or s[B] (R353). -/
inductive LaneCount where
  | imm (n : BitVec 11)
  | reg (b : UReg)
  deriving DecidableEq, Repr

/-- The fields that the three SPAWN forms share (R353); `args = 0` means a zero argument block. -/
structure SpawnO where
  aff : Aff
  lanes : LaneCount
  args : UReg
  d : UReg
  off : Word
  deriving DecidableEq, Repr

/-- Cohort SPAWN (R353): `a` holds the cohort size. -/
structure SpawnCohO where
  base : SpawnO
  a : UReg
  deriving DecidableEq, Repr

/-- Eager SPAWN (R353). -/
structure SpawnEO where
  base : SpawnO
  live : BitVec 9
  deriving DecidableEq, Repr

/-- The compare value of AWAITW (R370). -/
inductive AwCmp where
  | reg (b : UReg)
  | regOff (off : Word) (b : UReg)
  | imm (off : Word) (v : Word)
  deriving DecidableEq, Repr

/-- AWAITW (R370). -/
structure AwaitwO where
  ty : Ty
  cc : Cond
  d : UReg
  a : UReg
  cmp : AwCmp
  deriving DecidableEq, Repr

/-- XSHUF (R129): the rally word's register and the list of 1 to 8 lane registers. -/
structure XshufO where
  a : UReg
  regs : List LaneReg
  deriving DecidableEq, Repr

/-- TLBI.va and CINV.va (R412). -/
structure RangeO where
  a : UReg
  b : UReg
  c : UReg
  deriving DecidableEq, Repr

/-- TLBI.asid and CINV.asid (R412). -/
structure UC where
  c : UReg
  deriving DecidableEq, Repr

/-- REPLAY (R412). -/
structure ReplayO where
  d : UReg
  a : UReg
  b : UReg
  c : UReg
  deriving DecidableEq, Repr

/-- KILL (R412). -/
structure KillO where
  d : UReg
  a : UReg
  b : UReg
  deriving DecidableEq, Repr

/-- PSWR FN 0 (R412, R417). -/
structure PswrO where
  num : BitVec 6
  b : UReg
  deriving DecidableEq, Repr

/-- PSWR FN 1 (R412, R417). -/
structure PswrXO where
  off : Word
  b : UReg
  deriving DecidableEq, Repr

/-- The causes of a partition's error state (R425 XERR, in the order of its bits). -/
inductive ErrCause where
  | poison | reject | tdisp | spdm | ide
  deriving DecidableEq, Repr

/-- States of a TDISP interface (R439). -/
inductive Tdisp where
  | unlocked | locked | run | error
  deriving DecidableEq, Repr

/-- What the management command that creates or changes a partition names (R421, R422): physical quads, banks and channels, the weight, the
key slot, the ASID ranges and the host window. -/
structure PartSpec where
  pid : BitVec 5
  quads : List Nat
  banks : List Nat
  channels : List Nat
  weight : Nat
  keyslot : Nat
  base0 : Nat
  last0 : Nat
  base1 : Nat
  last1 : Nat
  hwBase : Nat
  hwLast : Nat
  deriving DecidableEq, Repr

/-- One image check of the boot sequence (R441): the signature holds, and the image's security version. -/
structure ImageCheck where
  ok : Bool
  version : Nat
  deriving DecidableEq, Repr

/-- A register outside the rows of their own, written by the host, the partition manager or the management function (R7, R388, R425, R117, R442); and what
the partition manager sets beside registers: an entry of a second-stage array (R66), and the channel set of a system frame (R58). -/
inductive RegName where
  | xasid (pid : BitVec 5) | xfpool (pid : BitVec 5) | xfpsz (pid : BitVec 5) | xsched (pid : BitVec 5) | xfq (pid : BitVec 5)
  | xfqdb (pid : BitVec 5) | xtrapent (pid : BitVec 5) | xsvpool (pid : BitVec 5) | xsvcnt (pid : BitVec 5) | xlaunch (pid : BitVec 5)
  | xhwin (pid : BitVec 5) | xhpm (pid : BitVec 5) | fabsus | mpwr | stage2 (pid : BitVec 5) (index : Nat)
  | channelSet (frame : Nat) (set : List Nat)
  /-- The object record of a code object that the runtime has loaded: `size` bytes of code at `base` (R459). -/
  | object (pid : BitVec 5) (asid : BitVec 16) (base size vregs tiles window : Nat)
  /-- A unit joins the retirement list (R422): quads by number, banks from 64, channels from 1024. -/
  | retire (unit : Nat)
  deriving DecidableEq, Repr

/-- A queue or table of the module whose entries the read-back window shows (R444). -/
inductive UnitName where
  | deque (core : Nat) | overflow (pid : BitVec 5) | frameStore (core : Nat) | acks (core : Nat)
  | copies (teamId : Nat) | chains (teamId : Nat) | matrix (teamId : Nat) | loads
  | packets | lane | inbox | held | bunker | rally | watches | tlb | walks
  | portCache | portRequests | posted | onLink | hostAtoms | homeAgents
  | bindings | captureLog (slot : Nat) | holdQueue (slot : Nat)
  deriving DecidableEq, Repr

/-- What the management function reads through its read-back window (R444). -/
inductive ReadTarget where
  | hbm (spa : Nat)
  /-- Line `index` of a bank, or of a core's L1; entry `index` of a bank's directory. -/
  | bank (phys : Nat) (index : Nat)
  | l1 (core : Nat) (index : Nat)
  | directory (phys : Nat) (index : Nat)
  | uniform (teamId : Nat) (r : UReg)
  | lane (teamId : Nat) (r : LaneReg) (l : Nat)
  | mask (teamId : Nat) (m : MReg)
  /-- Element `k` of the team's tiles: tile × 4,096 + row × 64 + column. -/
  | tile (teamId : Nat) (k : Nat)
  | window (teamId : Nat) (off : Nat)
  | special (teamId : Nat) (slot : Bool) (num : BitVec 6)
  /-- A path's pc and active mask. -/
  | path (teamId : Nat) (slot : Bool)
  /-- Dword `k` of entry `index` of the fault queue. -/
  | fault (index : Nat) (k : Nat)
  /-- The register of a function's block at an offset. -/
  | function (pid : BitVec 5) (off : Nat)
  /-- Word `k` of entry `index` of a queue or table; a register of the management function; a die's certificate, by slot. -/
  | entry (unit : UnitName) (index k : Nat)
  | management (off : Nat)
  | certificate (slot : Nat)
  deriving DecidableEq, Repr

/-- A module port's packet that a peer link delivers (R110). -/
structure PeerPacket where
  pid : BitVec 6
  dst : Nat
  flits : Nat
  deriving DecidableEq, Repr

/-- The link's current mode, of the rows of R431 and R434 (which protocols it carries and which atomics the host completes). -/
inductive LinkMode where
  | cxl3 | cxl2 | pcieAtomics | pcieCasOnly | pcie
  deriving DecidableEq, Repr

/-- A host answer to a request of the port (R433). -/
inductive HostAnswer where
  | shared | exclusive | owned | readDone
  deriving DecidableEq, Repr

/-- One constructor for each row of spec/opcode_table.json. -/
inductive Instr where
  -- control (R341 to R349)
  | nop (h : Hdr) (n : NopLen)
  | bra (h : Hdr) (o : RelO)
  | brx (h : Hdr) (o : BrxO)
  | brd (h : Hdr) (o : RelO)
  | join (h : Hdr)
  | call (h : Hdr) (o : CallO)
  | ret (h : Hdr) (o : UA)
  | exit (h : Hdr)
  | yld (h : Hdr) (o : YldO)
  | trap (h : Hdr) (o : TrapO)
  | sret (h : Hdr) (o : UA)
  | srd (h : Hdr) (o : SrdO)
  | swr (h : Hdr) (o : SwrO)
  -- graph and sync (R353 to R371, R129)
  | spawn (h : Hdr) (o : SpawnO)
  | spawnCoh (h : Hdr) (o : SpawnCohO)
  | spawnE (h : Hdr) (o : SpawnEO)
  | await (h : Hdr)
  | awaitHandle (h : Hdr) (o : UA)
  | cbar (h : Hdr)
  | pub (h : Hdr)
  | pubSt (h : Hdr) (o : SstO)
  | pubAdd (h : Hdr) (o : SstO)
  | awaitw (h : Hdr) (o : AwaitwO)
  | xshuf (h : Hdr) (o : XshufO)
  -- standing products (R300)
  | bind (h : Hdr) (o : UDA)
  | unbind (h : Hdr) (o : UA)
  | settle (h : Hdr) (o : UA)
  | qstaleCnt (h : Hdr) (o : UDA)
  | qstaleState (h : Hdr) (o : UDA)
  | qstaleCap (h : Hdr) (o : UDA)
  | qstaleApp (h : Hdr) (o : UDA)
  -- uniform (R238, R242)
  | sadd (h : Hdr) (o : U2)
  | ssub (h : Hdr) (o : U2)
  | smul (h : Hdr) (o : U2)
  | smulh (h : Hdr) (o : U2)
  | sdiv (h : Hdr) (o : U2)
  | srem (h : Hdr) (o : U2)
  | sand (h : Hdr) (o : U2)
  | sor (h : Hdr) (o : U2)
  | sxor (h : Hdr) (o : U2)
  | sshl (h : Hdr) (o : U2)
  | sshr (h : Hdr) (o : U2)
  | ssar (h : Hdr) (o : U2)
  | smin (h : Hdr) (o : U2)
  | smax (h : Hdr) (o : U2)
  | scmp (h : Hdr) (o : UCmp)
  | ssel (h : Hdr) (o : USel)
  | smov (h : Hdr) (o : UDA)
  | sli (h : Hdr) (o : ULi)
  | sbfe (h : Hdr) (o : U2)
  | sbfi (h : Hdr) (o : U3)
  | spopc (h : Hdr) (o : U1)
  | sclz (h : Hdr) (o : U1)
  -- vector integer (R238, R244)
  | vadd (h : Hdr) (o : V2)
  | vsub (h : Hdr) (o : V2)
  | vmul (h : Hdr) (o : V2)
  | vmulh (h : Hdr) (o : V2)
  | vmad (h : Hdr) (o : V3)
  | vdiv (h : Hdr) (o : V2)
  | vrem (h : Hdr) (o : V2)
  | vand (h : Hdr) (o : V2)
  | vor (h : Hdr) (o : V2)
  | vxor (h : Hdr) (o : V2)
  | vshl (h : Hdr) (o : V2)
  | vshr (h : Hdr) (o : V2)
  | vsar (h : Hdr) (o : V2)
  | vmin (h : Hdr) (o : V2)
  | vmax (h : Hdr) (o : V2)
  | vabs (h : Hdr) (o : V1)
  | vneg (h : Hdr) (o : V1)
  | vclamp (h : Hdr) (o : V3)
  | vpopc (h : Hdr) (o : V1)
  | vclz (h : Hdr) (o : V1)
  | vbfe (h : Hdr) (o : V2)
  | vbfi (h : Hdr) (o : V3)
  | vbrev (h : Hdr) (o : V1)
  | vcmp (h : Hdr) (o : VCmp)
  | vsel (h : Hdr) (o : VSelO)
  | vmov (h : Hdr) (o : VMovO)
  | vli (h : Hdr) (o : VLiO)
  | vaddc (h : Hdr) (o : VAddc)
  | vidx (h : Hdr) (o : VIdx)
  -- vector float and conversion (R226, R229, R249)
  | fadd (h : Hdr) (o : F2)
  | fsub (h : Hdr) (o : F2)
  | fmul (h : Hdr) (o : F2)
  | ffma (h : Hdr) (o : F3)
  | fmin (h : Hdr) (o : F2)
  | fmax (h : Hdr) (o : F2)
  | fabs (h : Hdr) (o : F1)
  | fneg (h : Hdr) (o : F1)
  | fcmp (h : Hdr) (o : FCmpO)
  | fclass (h : Hdr) (o : FClassO)
  | fdiv (h : Hdr) (o : F2)
  | fsqrt (h : Hdr) (o : F1)
  | frcp (h : Hdr) (o : F1)
  | frsq (h : Hdr) (o : F1)
  | fexp2 (h : Hdr) (o : F1)
  | flog2 (h : Hdr) (o : F1)
  | fsin (h : Hdr) (o : F1)
  | fcos (h : Hdr) (o : F1)
  | frnd (h : Hdr) (o : F1)
  | fscale (h : Hdr) (o : F2)
  | fcvt (h : Hdr) (o : CvtO)
  | fcvtPack (h : Hdr) (o : PackO)
  | fcvtUnpack (h : Hdr) (o : UnpackO)
  | icvt (h : Hdr) (o : CvtO)
  | fdot2 (h : Hdr) (o : F3)
  -- lane exchange and mask (R203, R212)
  | vshfl (h : Hdr) (o : ShflO)
  | vbcast (h : Hdr) (o : BcastO)
  | vred (h : Hdr) (o : RedO)
  | vscan (h : Hdr) (o : ScanO)
  | vballot (h : Hdr) (o : BallotO)
  | vtos (h : Hdr) (o : VtosO)
  | mand (h : Hdr) (o : M2)
  | mor (h : Hdr) (o : M2)
  | mxor (h : Hdr) (o : M2)
  | mnot (h : Hdr) (o : M1)
  | mcnt (h : Hdr) (o : MToU)
  | mfirst (h : Hdr) (o : MFirstO)
  | msetRange (h : Hdr) (o : MSetO)
  | msetActive (h : Hdr) (d : MReg)
  | msetWord (h : Hdr) (o : MSetO)
  | mtest (h : Hdr) (o : MTestO)
  | mtestWord (h : Hdr) (o : MTestO)
  | mtestSum (h : Hdr) (o : MToU)
  -- memory (R157 to R166)
  | ld (h : Hdr) (o : LdO)
  | st (h : Hdr) (o : StO)
  | ldk (h : Hdr) (o : LdkO)
  | lds (h : Hdr) (o : LdkO)
  | sts (h : Hdr) (o : StsO)
  | sld (h : Hdr) (o : SldO)
  | sst (h : Hdr) (o : SstO)
  | amo (h : Hdr) (o : AmoO)
  | red (h : Hdr) (o : RedMemO)
  | samo (h : Hdr) (o : SamoO)
  | pref (h : Hdr) (o : PrefO)
  | persist (h : Hdr) (o : PersistO)
  -- engines (R170 to R185)
  | copy (h : Hdr) (o : CopyO)
  | copyw (h : Hdr) (o : TagO)
  | copywAll (h : Hdr)
  | chain (h : Hdr) (o : ChainO)
  | chainw (h : Hdr) (o : TagO)
  | chainwAll (h : Hdr)
  | feset (h : Hdr) (o : FesetO)
  | feq (h : Hdr) (o : FeqO)
  -- matrix (R275 to R292)
  | mma (h : Hdr) (o : MmaO)
  | mwait (h : Hdr) (o : TagO)
  | mwaitAll (h : Hdr)
  | mzero (h : Hdr) (o : TileO)
  | mlda (h : Hdr) (o : TileMemO)
  | msta (h : Hdr) (o : TileMemO)
  | drain (h : Hdr) (o : DrainO)
  | mcbl (h : Hdr) (o : McblO)
  | mstat (h : Hdr) (o : UD)
  | mstatIds (h : Hdr) (o : UD)
  | mstatClr (h : Hdr) (o : UD)
  -- privileged (R412)
  | tlbiVa (h : Hdr) (o : RangeO)
  | tlbiAsid (h : Hdr) (o : UC)
  | tlbiAll (h : Hdr)
  | cinvVa (h : Hdr) (o : RangeO)
  | cinvAsid (h : Hdr) (o : UC)
  | cinvAll (h : Hdr)
  | replay (h : Hdr) (o : ReplayO)
  | replayDlv (h : Hdr) (o : ReplayO)
  | kill (h : Hdr) (o : KillO)
  | fqpop (h : Hdr) (o : UD)
  | pswr (h : Hdr) (o : PswrO)
  | pswrX (h : Hdr) (o : PswrXO)
  | pswrSpawn (h : Hdr) (o : UA)
  | preempt (h : Hdr) (o : UDA)
  | preemptHard (h : Hdr) (o : UDA)
  -- events of scheduling, pre-emption and faults
  | runArbitration (sub : Nat)
  | starvationPromotion (team : Nat) (slot : Bool)
  | dequeTake (sub : Nat)
  | continuationTakeBack (sub : Nat) (team : Nat)
  | cbarWake (core : Nat) (cohort : Nat)
  | softPreemptionGrant (team : Nat)
  | graceExpiry (team : Nat)
  | residencyStarvationRequest (core : Nat) (index : Nat)
  | hardPreemption (team : Nat)
  | teamRestore (sub : Nat) (team : Nat)
  | responseArrival (index : Nat)
  | sbResultWrite (team : Nat) (slot : Bool)
  | faultEnqueue (pid : BitVec 5)
  -- events of translation, memory and the die cache
  | mtuWalk (pid : BitVec 5) (asid : BitVec 16) (va : Nat)
  | permissionMiss (core : Nat) (asid : BitVec 16) (va : Nat) (fetch : Bool)
  | homeAgentRequest (index : Nat) (uncorrectable : Bool)
  | l2Fill (bank : Nat) (index : Nat) (sector : BitVec 2)
  | l2LineEviction (bank : Nat) (index : Nat)
  | l1Replacement (core : Nat) (set : BitVec 7)
  | rd (index : Nat)
  | upg (index : Nat)
  | rdx (index : Nat)
  | wb (index : Nat)
  | inv (index : Nat)
  | invWb (index : Nat)
  | fwd (index : Nat)
  | nullAck (index : Nat)
  | probeFilterDrop (index : Nat)
  | upgGrant (index : Nat)
  | homeAtomic (index : Nat)
  | seqOrderRelease (index : Nat)
  | rwayEpochEnd (pid : BitVec 5) (die : BitVec 2)
  -- events of the fabric
  | packetSuspect (index : Nat)
  | bunkerDelivery (index : Nat)
  | bunkerSlotService (stop : Nat)
  | packetReject (index : Nat)
  | rallyPair (index : Nat)
  | rallyTimeout (index : Nat)
  -- events of the engines and arrays
  | copyLineRequest (core : Nat)
  | copyLand (core : Nat) (index : Nat)
  | engineFault (core : Nat) (chain : Bool)
  | engineCompletion (core : Nat) (chain : Bool) (index : Nat)
  | chainBlock (core : Nat)
  | mmaStart (team : Nat) (id : BitVec 6)
  | mmaRetire (team : Nat) (id : BitVec 6)
  | tileOpExecute (team : Nat)
  | drainExecute (team : Nat)
  -- events of standing products
  | operandCapture (pid : BitVec 5) (asid : BitVec 16) (va : Nat) (data : Word) (be : BitVec 4)
  | speInitialProduct (slot : Nat)
  | speApplyEntry (slot : Nat)
  | speApplyGroup (slot : Nat) (count : Nat)
  | bindingError (slot : Nat)
  -- events of the host link
  | awaitwPoll (team : Nat)
  | snpdata (line : Nat)
  | snpinv (line : Nat) (addr : Nat) (data : List Byte)
  | portLineEviction (line : Nat)
  | hostAtomic (index : Nat)
  | hostApertureRead (pid : BitVec 5) (off : Nat) (len : Nat)
  | hostApertureWrite (pid : BitVec 5) (off : Nat) (data : List Byte) (relaxed : Bool)
  | backInvalidate (pid : BitVec 5) (line : Nat)
  -- events of partitions, trust and the module
  | partitionError (pid : BitVec 5) (cause : ErrCause)
  | perFunctionReset (pid : BitVec 5)
  | partitionCreate (p : PartSpec)
  | bankMove (bank : Nat) (dst : BitVec 5)
  | tdispStateChange (pid : BitVec 5) (st : Tdisp)
  | notLegalInstruction (code : BitVec 8)
  | routerForward (index : Nat) (dir : BitVec 2) (vc : BitVec 2)
  | requestAcknowledge (core : Nat) (index : Nat)
  | peerLinkArrival (port : BitVec 3) (p : PeerPacket)
  | hostLinkResponse (line : Nat) (ans : HostAnswer)
  | cbarPlacementPreemption (cohort : Nat)
  -- events that no other event or step gives rise to, and those without operands (last, for the sake of the compiled code's constructor tags)
  | yieldWatchdog
  | caddieArrival
  | caddieReissue
  | globalPersistentFlush
  | fatalError
  | powerLoss
  | physicalFunction0Reset
  | spdmRequest (pid : BitVec 5) (index : Nat)
  | powerOnBoot (images : List ImageCheck)
  | powerSample (watts : Nat)
  | readBack (t : ReadTarget)
  | xrwayWrite (pid : BitVec 5) (v : Dword)
  | xnullackRead (pid : BitVec 5)
  | xrecovRead (pid : BitVec 5)
  | xrejectRead (pid : BitVec 5)
  | xhstatRead (pid : BitVec 5)
  | xerrWrite (pid : BitVec 5) (v : Dword)
  | registerWrite (r : RegName) (v : Dword)
  | spdmSessionExpiry (pid : BitVec 5)
  | ideIntegrityFailure (stream : Nat)
  | partitionChange (p : PartSpec)
  deriving DecidableEq, Repr

end Sys2Proof
end

