-- ==== Sys2Proof/WellFormed.lean ====
section
/-! DEFINITION. Which instructions are well formed: the checks that a form's own encoding table names (R31, R35, R36, R44, R51 and the tables of
the forms), as far as the syntax does not already rule the rest out. -/
namespace Sys2Proof

namespace Ty

/-- The type is 64 bits wide, so that a lane operand names an even pair (R31). -/
def is64 : Ty → Bool
  | b64 | i64 | n64 | f64 => true
  | _ => false

def isB : Ty → Bool
  | b32 | b64 => true
  | _ => false

/-- I32, N32, I64, N64 (R238). -/
def isArith : Ty → Bool
  | i32 | n32 | i64 | n64 => true
  | _ => false

/-- I32, I64. -/
def isSignedArith : Ty → Bool
  | i32 | i64 => true
  | _ => false

/-- The six integer types of R231. -/
def isUniform : Ty → Bool
  | b32 | i32 | n32 | b64 | i64 | n64 => true
  | _ => false

/-- The six floating-point formats of R214. -/
def isFloat : Ty → Bool
  | f64 | f32 | f16 | bf16 | e5m2 | e4m3 => true
  | _ => false

/-- X2F16, X2BF16. -/
def isPacked : Ty → Bool
  | x2f16 | x2bf16 => true
  | _ => false

/-- The types of FADD (R249). -/
def isVFloat : Ty → Bool
  | f64 | f32 | f16 | bf16 | x2f16 | x2bf16 => true
  | _ => false

/-- I8 to I64 and N8 to N64 (R226). -/
def isInt : Ty → Bool
  | i8 | i16 | i32 | i64 | n8 | n16 | n32 | n64 => true
  | _ => false

/-- The types of LD and ST (R157). -/
def isMem : Ty → Bool
  | i8 | i16 | n8 | n16 | b32 | b64 => true
  | _ => false

/-- The types of SLD and SST (R160). -/
def isSMem : Ty → Bool
  | i8 | i16 | i32 | n8 | n16 | n32 | b32 | b64 => true
  | _ => false

/-- The operand formats of an MMA (R273). -/
def isMma : Ty → Bool
  | bf16 | f16 | e4m3 | e5m2 | cb4 | i8 | i4 => true
  | _ => false

/-- The output types of DRAIN (R288). -/
def isDrain : Ty → Bool
  | f32 | f16 | bf16 | e4m3 | e5m2 | i8 | i32 => true
  | _ => false

end Ty

/-- GM = 15 with GN = 1 is illegal (R36). -/
def Guard.wf (g : Guard) : Bool := !(g.gm == 15 && g.gn)

/-- No guard (R36). -/
def Guard.none (g : Guard) : Bool := g.gm == 15 && !g.gn

/-- A header of a form that need not end a run nor carry SB. -/
def Hdr.wf (h : Hdr) : Bool := h.guard.wf
/-- A header of a run-ending form (R44). -/
def Hdr.wfEnd (h : Hdr) : Bool := h.guard.wf && h.fin
/-- A header of a form of variable latency (R51). -/
def Hdr.wfSb (h : Hdr) : Bool := h.guard.wf && h.sb
/-- A header of a run-ending form whose Guard column says "none" (R341). -/
def Hdr.wfEndBare (h : Hdr) : Bool := h.guard.none && h.fin

/-- A lane register named for a value of type `t` (R31): an even register for a 64-bit type. -/
def pairOk (t : Ty) (r : LaneReg) : Bool := !t.is64 || !r.getLsbD 0

/-- Operand B of a vector form, as a value of type `t`. -/
def VSrc.valOk (t : Ty) : VSrc → Bool
  | .lane r => pairOk t r
  | .unif _ => true
  | .imm _ => true

/-- m0 to m14 (R31). -/
def mregOk (m : MReg) : Bool := m != 15

/-- Types of an atomic operation (R162). -/
def Aop.tyOk : Aop → Ty → Bool
  | .add, t | .min, t | .max, t => t.isArith
  | .and, t | .or, t | .xor, t | .swap, t | .cas, t => t.isB
  | .fadd, t | .fmin, t | .fmax, t => t == .f32 || t == .f64

/-- Types of VRED (R208). -/
def RedOp.tyOk : RedOp → Ty → Bool
  | .add, t | .min, t | .max, t => t == .i32 || t == .n32
  | .and, t | .or, t | .xor, t => t == .b32
  | .fadd, t | .fmin, t | .fmax, t => t == .f32

/-- Operations of VSCAN (R210). -/
def RedOp.scanOk : RedOp → Bool
  | .fadd | .fmin | .fmax => false
  | _ => true

/-- Conditions of a compare on type `t` (R243): B types allow only `eq` and `ne`. -/
def Cond.tyOk : Cond → Ty → Bool
  | .eq, t | .ne, t => t.isUniform
  | _, t => t.isArith

def V2.wf (o : V2) (tys : Ty → Bool) (satOk control : Bool) : Bool :=
  tys o.ty && (satOk || !o.sat) && pairOk o.ty o.d && pairOk o.ty o.a && (control || o.b.valOk o.ty)

def V3.wf (o : V3) (tys : Ty → Bool) (satOk control : Bool) : Bool :=
  tys o.ty && (satOk || !o.sat) && pairOk o.ty o.d && pairOk o.ty o.a && pairOk o.ty o.c && (control || o.b.valOk o.ty)

/-- `count` says that the destination is one 32-bit register whatever the type (R232). -/
def V1.wf (o : V1) (tys : Ty → Bool) (satOk count : Bool) : Bool :=
  tys o.ty && (satOk || !o.sat) && (count || pairOk o.ty o.d) && pairOk o.ty o.a

def U2.wf (o : U2) (tys : Ty → Bool) (satOk : Bool) : Bool := tys o.ty && (satOk || !o.sat)

def F2.wf (o : F2) (rmFixed : Bool) : Bool :=
  o.ty.isVFloat && (!rmFixed || o.rm == .rne) && pairOk o.ty o.d && pairOk o.ty o.a && o.b.valOk o.ty

def F1.wf (o : F1) (rmFixed : Bool) : Bool :=
  o.ty.isVFloat && (!rmFixed || o.rm == .rne) && pairOk o.ty o.d && pairOk o.ty o.a

def SpawnO.wf (o : SpawnO) : Bool :=
  (match o.lanes with
   | .imm n => decide (1 ≤ n.toNat) && decide (n.toNat ≤ 1024)
   | .reg _ => true) && decide (o.args.toNat ≤ 120)

/-- The instruction is one that its form's table allows. Events carry no encoding and are always well formed. -/
def Instr.wf : Instr → Bool
  | .nop h _ => h.wf
  | .bra h _ | .brx h _ | .brd h _ | .call h _ | .ret h _ | .trap h _ => h.wfEnd
  | .exit h => h.wfEnd
  | .join h => h.wfEndBare
  | .yld h o => h.wfEndBare && o.dl != 0 && decide (o.live.toNat ≤ 256)
  | .sret h _ => h.wfEndBare
  | .srd h _ | .swr h _ => h.wf
  | .spawn h o => h.wfEnd && o.wf
  | .spawnCoh h o => h.wfEnd && o.base.wf
  | .spawnE h o => h.wfEnd && o.base.wf && decide (o.live.toNat ≤ 256)
  | .await h | .cbar h => h.wfEnd
  | .awaitHandle h _ => h.wfEnd
  | .pub h => h.wf
  | .pubSt h o => h.wf && o.ty.isB
  | .pubAdd h o => h.wf && o.ty.isArith
  | .awaitw h o => h.wfEnd && o.cc.tyOk o.ty
  | .xshuf h o => h.wfEnd && decide (1 ≤ o.regs.length) && decide (o.regs.length ≤ 8)
  | .bind h _ | .unbind h _ => h.wf
  | .settle h _ => h.wfEnd
  | .qstaleCnt h _ | .qstaleState h _ | .qstaleCap h _ | .qstaleApp h _ => h.wfSb
  | .sadd h o | .ssub h o | .smul h o => h.wf && o.wf Ty.isArith true
  | .smulh h o | .smin h o | .smax h o | .sbfe h o => h.wf && o.wf Ty.isArith false
  | .sdiv h o | .srem h o => h.wfSb && o.wf Ty.isArith false
  | .sand h o | .sor h o | .sxor h o | .sshl h o | .sshr h o => h.wf && o.wf Ty.isB false
  | .ssar h o => h.wf && o.wf Ty.isSignedArith false
  | .scmp h o => h.wf && o.cc.tyOk o.ty
  | .ssel h _ => h.wf
  | .smov h _ => h.wf
  | .sli h _ => h.wf
  | .sbfi h o => h.wf && o.ty.isB
  | .spopc h o | .sclz h o => h.wf && o.ty.isB
  | .vadd h o | .vsub h o | .vmul h o => h.wf && o.wf Ty.isArith true false
  | .vmulh h o | .vmin h o | .vmax h o => h.wf && o.wf Ty.isArith false false
  | .vdiv h o | .vrem h o => h.wfSb && o.wf Ty.isArith false false
  | .vand h o | .vor h o | .vxor h o => h.wf && o.wf Ty.isB false false
  | .vshl h o | .vshr h o => h.wf && o.wf Ty.isB false true
  | .vsar h o => h.wf && o.wf Ty.isSignedArith false true
  | .vbfe h o => h.wf && o.wf Ty.isArith false true
  | .vmad h o => h.wf && o.wf Ty.isArith true false
  | .vclamp h o => h.wf && o.wf Ty.isArith false false
  | .vbfi h o => h.wf && o.wf Ty.isB false true
  | .vabs h o | .vneg h o => h.wf && o.wf Ty.isSignedArith true false
  | .vpopc h o | .vclz h o => h.wf && o.wf Ty.isB false true
  | .vbrev h o => h.wf && o.wf Ty.isB false false
  | .vcmp h o => h.wf && o.cc.tyOk o.ty && mregOk o.d && pairOk o.ty o.a && o.b.valOk o.ty
  | .vsel h o => h.wf && o.ty.isB && mregOk o.c && pairOk o.ty o.d && pairOk o.ty o.a && o.b.valOk o.ty
  | .vmov h o => h.wf && o.ty.isB && pairOk o.ty o.d && (match o.a with | .lane r => pairOk o.ty r | .unif _ => true)
  | .vli h o => h.wf && pairOk o.ty o.d && (match o.v with | .short _ => o.ty.isB | .long _ => o.ty == .b64)
  | .vaddc h o => h.wf && (o.ty == .n32 || o.ty == .n64) && mregOk o.c && pairOk o.ty o.d && pairOk o.ty o.a && o.b.valOk o.ty
  | .vidx h _ => h.wf
  | .fadd h o | .fsub h o | .fmul h o => h.wf && o.wf false
  | .fmin h o | .fmax h o => h.wf && o.wf true
  | .fdiv h o => h.wfSb && o.wf false
  | .ffma h o => h.wf && o.ty.isVFloat && pairOk o.ty o.d && pairOk o.ty o.a && o.b.valOk o.ty && pairOk o.ty o.c
  | .fabs h o | .fneg h o => h.wf && o.wf true
  | .fcmp h o => h.wf && (o.ty == .f64 || o.ty == .f32 || o.ty == .f16 || o.ty == .bf16) && mregOk o.d && pairOk o.ty o.a && o.b.valOk o.ty
  | .fclass h o => h.wf && o.ty.isVFloat && pairOk o.ty o.a
  | .fsqrt h o => h.wfSb && o.wf false
  | .frcp h o | .frsq h o | .fexp2 h o | .flog2 h o | .fsin h o | .fcos h o => h.wf && o.wf true && o.ty != .f64
  | .frnd h o => h.wf && o.wf false
  | .fscale h o => h.wf && o.ty.isVFloat && pairOk o.ty o.d && pairOk o.ty o.a
  | .fcvt h o => h.wf && o.dt.isFloat && o.st.isFloat && o.dt != o.st && pairOk o.dt o.d && pairOk o.st o.a
  | .fcvtPack h o => h.wf && o.dt.isPacked
  | .fcvtUnpack h o => h.wf && o.st.isPacked
  | .icvt h o => h.wf && (o.dt.isInt || o.dt.isFloat) && (o.st.isInt || o.st.isFloat) && (o.dt.isInt || o.st.isInt) && o.dt != o.st
      && pairOk o.dt o.d && pairOk o.st o.a
  | .fdot2 h o => h.wf && o.ty.isPacked
  | .vshfl h o => h.wf && o.ty.isB && pairOk o.ty o.d && pairOk o.ty o.a
  | .vbcast h o => h.wf && o.ty.isB && pairOk o.ty o.d && pairOk o.ty o.a
  | .vred h o => h.wfSb && o.op.tyOk o.ty
  | .vscan h o => h.wfSb && o.op.scanOk && o.op.tyOk o.ty
  | .vballot h o => h.wf && mregOk o.d
  | .vtos h o => h.wf && (o.ty == .b32 || o.ty == .i32 || o.ty == .b64) && pairOk o.ty o.a
  | .mand h o | .mor h o | .mxor h o => h.wf && mregOk o.d && mregOk o.a && mregOk o.b
  | .mnot h o => h.wf && mregOk o.d && mregOk o.a
  | .mcnt h o | .mtestSum h o => h.wf && mregOk o.a
  | .mfirst h o => h.wf && mregOk o.a
  | .msetRange h o | .msetWord h o => h.wf && mregOk o.d
  | .msetActive h d => h.wf && mregOk d
  | .mtest h o | .mtestWord h o => h.wf && mregOk o.a
  | .ld h o => h.wfSb && o.ty.isMem && pairOk o.ty o.d
  | .ldk h o | .lds h o => h.wfSb && o.ty.isMem && pairOk o.ty o.d
  | .st h o => h.wf && o.ty.isMem && pairOk o.ty o.b
  | .sts h o => h.wf && o.ty.isMem && pairOk o.ty o.b
  | .sld h o => h.wfSb && o.ty.isSMem
  | .sst h o => h.wf && o.ty.isSMem
  | .amo h o => h.wfSb && o.aop.tyOk o.ty && pairOk o.ty o.d && pairOk o.ty o.b
      && (if o.aop == .cas then pairOk o.ty o.cmp else o.cmp == 0)
  | .red h o => h.wf && o.aop.tyOk o.ty && o.aop != .swap && o.aop != .cas && pairOk o.ty o.b
  | .samo h o => h.wfSb && o.aop.tyOk o.ty && (o.aop == .cas || o.cmp == 0)
  | .pref h _ | .persist h _ => h.wf
  | .copy h _ | .copyw h _ | .chain h _ | .chainw h _ | .feset h _ | .feq h _ => h.wf
  | .copywAll h | .chainwAll h => h.wf
  | .mma h o => h.wf && (match o.j with
      | none => o.ty.isMma
      | some j => if j.freg == 0 then o.ty.isMma else o.ty == .b32)
  | .mwait h _ | .mzero h _ | .mlda h _ | .msta h _ | .mcbl h _ => h.wf
  | .mwaitAll h => h.wf
  | .drain h o => h.wf && o.ty.isDrain
  | .mstat h _ | .mstatIds h _ | .mstatClr h _ => h.wfSb
  | .tlbiVa h _ | .cinvVa h _ | .tlbiAsid h _ | .cinvAsid h _ => h.wf
  | .tlbiAll h | .cinvAll h => h.wf
  | .replay h _ | .replayDlv h _ | .kill h _ | .pswr h _ | .pswrX h _ | .pswrSpawn h _ | .preempt h _ | .preemptHard h _ => h.wf
  | .fqpop h o => h.wfSb && decide (1 ≤ o.d.toNat) && decide (o.d.toNat ≤ 124)
  | _ => true

/-- The constructor stands for an instruction form, not for an event of the hardware. -/
def Instr.isForm : Instr → Bool
  | .runArbitration _ | .starvationPromotion _ _ | .yieldWatchdog | .dequeTake _ | .continuationTakeBack _ _ | .cbarWake _ _ | .softPreemptionGrant _
  | .graceExpiry _ | .residencyStarvationRequest _ _ | .hardPreemption _ | .teamRestore _ _ | .responseArrival _ | .sbResultWrite _ _ | .faultEnqueue _
  | .mtuWalk _ _ _ | .permissionMiss _ _ _ _ | .homeAgentRequest _ _ | .l2Fill _ _ _ | .l2LineEviction _ _ | .l1Replacement _ _ | .rd _ | .upg _ | .rdx _
  | .wb _ | .inv _ | .invWb _ | .fwd _ | .nullAck _ | .probeFilterDrop _ | .upgGrant _ | .homeAtomic _ | .seqOrderRelease _ | .rwayEpochEnd _ _
  | .packetSuspect _ | .caddieArrival | .bunkerDelivery _ | .bunkerSlotService _ | .caddieReissue | .packetReject _ | .rallyPair _ | .rallyTimeout _
  | .copyLineRequest _ | .copyLand _ _ | .engineFault _ _ | .engineCompletion _ _ _ | .chainBlock _ | .mmaStart _ _ | .mmaRetire _ _ | .tileOpExecute _
  | .drainExecute _ | .operandCapture _ _ _ _ _ | .speInitialProduct _ | .speApplyEntry _ | .speApplyGroup _ _ | .bindingError _ | .awaitwPoll _
  | .snpdata _ | .snpinv _ _ _ | .portLineEviction _ | .hostAtomic _ | .hostApertureRead _ _ _ | .hostApertureWrite _ _ _ _ | .backInvalidate _ _
  | .globalPersistentFlush | .partitionError _ _ | .perFunctionReset _ | .partitionCreate _ | .bankMove _ _ | .tdispStateChange _ _
  | .ideIntegrityFailure _ | .spdmSessionExpiry _ | .spdmRequest _ _ | .powerOnBoot _ | .powerSample _ | .fatalError | .readBack _ | .xrwayWrite _ _
  | .xnullackRead _ | .xrecovRead _ | .xrejectRead _ | .xhstatRead _ | .xerrWrite _ _ | .registerWrite _ _ | .notLegalInstruction _
  | .routerForward _ _ _ | .requestAcknowledge _ _ | .powerLoss | .physicalFunction0Reset | .peerLinkArrival _ _ | .hostLinkResponse _ _
  | .partitionChange _ | .cbarPlacementPreemption _ => false
  | _ => true

end Sys2Proof
end

