-- ==== Sys2Proof/Decode.lean ====
section
/-! DEFINITION. The encoder and the decoder, written from the encoding tables of the spec (R29 to R35, R52 and the tables of the forms).
The decoder reads a candidate from the fields its opcode uses and accepts it exactly when it is well formed and its own encoding is the pattern
that was read: an unused byte, a reserved bit or an unlisted LEN, TY or FN makes the two differ. -/
namespace Sys2Proof

/-- The fields of an instruction's words beside the header (R29, R30). -/
structure Enc where
  op  : BitVec 8
  ty  : BitVec 5
  fn  : BitVec 4
  len : BitVec 2
  d   : BitVec 8
  a   : BitVec 8
  b   : BitVec 8
  c   : BitVec 8
  i   : Word
  j   : Word
  deriving DecidableEq, Repr

/-- The code of a type (R35). -/
def Ty.code : Ty → BitVec 5
  | .b32 => 0x00 | .b64 => 0x01 | .i8 => 0x02 | .i16 => 0x03 | .i32 => 0x04 | .i64 => 0x05 | .n8 => 0x06 | .n16 => 0x07 | .n32 => 0x08
  | .n64 => 0x09 | .f16 => 0x0A | .bf16 => 0x0B | .f32 => 0x0C | .f64 => 0x0D | .e4m3 => 0x0E | .e5m2 => 0x0F | .cb4 => 0x10 | .i4 => 0x11
  | .x2f16 => 0x12 | .x2bf16 => 0x13

/-- The type of a code; 0x14 to 0x1F are reserved (R35). -/
def Ty.ofCode (c : BitVec 5) : Option Ty :=
  match c.toNat with
  | 0x00 => some .b32 | 0x01 => some .b64 | 0x02 => some .i8 | 0x03 => some .i16 | 0x04 => some .i32 | 0x05 => some .i64 | 0x06 => some .n8
  | 0x07 => some .n16 | 0x08 => some .n32 | 0x09 => some .n64 | 0x0A => some .f16 | 0x0B => some .bf16 | 0x0C => some .f32 | 0x0D => some .f64
  | 0x0E => some .e4m3 | 0x0F => some .e5m2 | 0x10 => some .cb4 | 0x11 => some .i4 | 0x12 => some .x2f16 | 0x13 => some .x2bf16
  | _ => none

def RMode.code : RMode → BitVec 2
  | .rne => 0 | .rz => 1 | .ru => 2 | .rd => 3

def RMode.ofCode (c : BitVec 2) : RMode :=
  match c.toNat with
  | 0 => .rne | 1 => .rz | 2 => .ru | _ => .rd

/-- R243. -/
def Cond.code : Cond → BitVec 3
  | .eq => 0 | .ne => 1 | .lt => 2 | .le => 3 | .gt => 4 | .ge => 5

def Cond.ofCode (c : BitVec 3) : Option Cond :=
  match c.toNat with
  | 0 => some .eq | 1 => some .ne | 2 => some .lt | 3 => some .le | 4 => some .gt | 5 => some .ge | _ => none

/-- R254. -/
def FCond.code : FCond → BitVec 3
  | .eq => 0 | .ne => 1 | .lt => 2 | .le => 3 | .gt => 4 | .ge => 5 | .un => 6 | .ord => 7

def FCond.ofCode (c : BitVec 3) : FCond :=
  match c.toNat with
  | 0 => .eq | 1 => .ne | 2 => .lt | 3 => .le | 4 => .gt | 5 => .ge | 6 => .un | _ => .ord

/-- R204. -/
def ShflMode.code : ShflMode → BitVec 2
  | .idx => 0 | .up => 1 | .down => 2 | .bfly => 3

def ShflMode.ofCode (c : BitVec 2) : ShflMode :=
  match c.toNat with
  | 0 => .idx | 1 => .up | 2 => .down | _ => .bfly

/-- R208. -/
def RedOp.code : RedOp → BitVec 4
  | .add => 0 | .min => 1 | .max => 2 | .and => 3 | .or => 4 | .xor => 5 | .fadd => 6 | .fmin => 7 | .fmax => 8

def RedOp.ofCode (c : BitVec 4) : Option RedOp :=
  match c.toNat with
  | 0 => some .add | 1 => some .min | 2 => some .max | 3 => some .and | 4 => some .or | 5 => some .xor | 6 => some .fadd | 7 => some .fmin
  | 8 => some .fmax | _ => none

/-- R162. -/
def Aop.code : Aop → BitVec 4
  | .add => 0 | .and => 1 | .or => 2 | .xor => 3 | .min => 4 | .max => 5 | .swap => 6 | .cas => 7 | .fadd => 8 | .fmin => 9 | .fmax => 10

def Aop.ofCode (c : BitVec 4) : Option Aop :=
  match c.toNat with
  | 0 => some .add | 1 => some .and | 2 => some .or | 3 => some .xor | 4 => some .min | 5 => some .max | 6 => some .swap | 7 => some .cas
  | 8 => some .fadd | 9 => some .fmin | 10 => some .fmax | _ => none

/-- R353. -/
def Aff.code : Aff → BitVec 3
  | .sub => 0 | .core => 1 | .quad => 2 | .die => 3 | .any => 4

def Aff.ofCode (c : BitVec 3) : Option Aff :=
  match c.toNat with
  | 0 => some .sub | 1 => some .core | 2 => some .quad | 3 => some .die | 4 => some .any | _ => none

/-- An encoding of opcode `op` with every other field zero. -/
def Enc.base (op : BitVec 8) : Enc :=
  { op := op, ty := 0, fn := 0, len := 0, d := 0, a := 0, b := 0, c := 0, i := 0, j := 0 }

/-- Register bytes. -/
def ub (r : UReg) : BitVec 8 := r.setWidth 8
def mb (r : MReg) : BitVec 8 := r.setWidth 8
def tb (r : Tile) : BitVec 8 := r.setWidth 8
def Enc.uD (e : Enc) : UReg := e.d.setWidth 7
def Enc.uA (e : Enc) : UReg := e.a.setWidth 7
def Enc.uB (e : Enc) : UReg := e.b.setWidth 7
def Enc.uC (e : Enc) : UReg := e.c.setWidth 7
def Enc.mD (e : Enc) : MReg := e.d.setWidth 4
def Enc.mA (e : Enc) : MReg := e.a.setWidth 4
def Enc.mB (e : Enc) : MReg := e.b.setWidth 4
def Enc.mC (e : Enc) : MReg := e.c.setWidth 4

/-- One bit as a field of width `n`, at place `k`. -/
def bitAt (n k : Nat) (v : Bool) : BitVec n := if v then BitVec.twoPow n k else 0

/-- Operand B of a vector form (R235, R236). -/
def Enc.putV (e : Enc) : VSrc → Enc
  | .lane r => { e with b := r }
  | .unif r => { e with b := ub r, fn := e.fn ||| 8 }
  | .imm i => { e with len := 1, i := i }

def Enc.getV (e : Enc) : VSrc :=
  if e.len = 1 then .imm e.i else if e.fn.getLsbD 3 then .unif e.uB else .lane e.b

/-- Operand B of a uniform or mask form (R236, R212). -/
def Enc.putU (e : Enc) : USrc → Enc
  | .reg r => { e with b := ub r }
  | .imm i => { e with len := 1, i := i }

def Enc.getU (e : Enc) : USrc := if e.len = 1 then .imm e.i else .reg e.uB

/-- An offset in I, absent in the 64-bit form (R152). -/
def Enc.putOff (e : Enc) : Option Word → Enc
  | none => e
  | some i => { e with len := 1, i := i }

def Enc.getOff (e : Enc) : Option Word := if e.len = 1 then some e.i else none

/-- A lane memory operand's index (R152). -/
def Enc.putIdx (e : Enc) : Option MIdx → Enc
  | none => e
  | some x => { e with c := x.r, fn := e.fn ||| 8 ||| x.sc.setWidth 4 }

def Enc.getIdx (e : Enc) : Option MIdx :=
  if e.fn.getLsbD 3 then some ⟨e.c, e.fn.setWidth 2⟩ else none

def Enc.putMem (e : Enc) (m : MemOp) : Enc := ({ e with a := ub m.base }.putIdx m.idx).putOff m.off

def Enc.getMem (e : Enc) : MemOp := ⟨e.uA, e.getIdx, e.getOff⟩

/-- An immediate of SLI and VLI (R242, R245). -/
def Enc.putLong (e : Enc) : LongImm → Enc
  | .short i => { e with len := 1, i := i }
  | .long v => { e with len := 2, i := v.setWidth 32, j := (v >>> 32).setWidth 32 }

def Enc.getLong (e : Enc) : LongImm := if e.len = 2 then .long (e.j ++ e.i) else .short e.i

/-- RM and FTZ or SAT in FN (R34). -/
def fnFloat (rm : RMode) (z : Bool) : BitVec 4 := rm.code.setWidth 4 ||| bitAt 4 2 z

def encU2 (op : BitVec 8) (o : U2) : Enc :=
  { Enc.base op with ty := o.ty.code, fn := bitAt 4 0 o.sat, d := ub o.d, a := ub o.a }.putU o.b
def encV2 (op : BitVec 8) (o : V2) : Enc :=
  { Enc.base op with ty := o.ty.code, fn := bitAt 4 0 o.sat, d := o.d, a := o.a }.putV o.b
def encV3 (op : BitVec 8) (o : V3) : Enc :=
  { Enc.base op with ty := o.ty.code, fn := bitAt 4 0 o.sat, d := o.d, a := o.a, c := o.c }.putV o.b
def encV1 (op : BitVec 8) (o : V1) : Enc :=
  { Enc.base op with ty := o.ty.code, fn := bitAt 4 0 o.sat, d := o.d, a := o.a }
def encU1 (op : BitVec 8) (o : U1) : Enc := { Enc.base op with ty := o.ty.code, d := ub o.d, a := ub o.a }
def encF2 (op : BitVec 8) (o : F2) : Enc :=
  { Enc.base op with ty := o.ty.code, fn := fnFloat o.rm o.ftz, d := o.d, a := o.a }.putV o.b
def encF3 (op : BitVec 8) (o : F3) : Enc :=
  { Enc.base op with ty := o.ty.code, fn := fnFloat o.rm o.ftz, d := o.d, a := o.a, c := o.c }.putV o.b
def encF1 (op : BitVec 8) (o : F1) : Enc :=
  { Enc.base op with ty := o.ty.code, fn := fnFloat o.rm o.ftz, d := o.d, a := o.a }
def encM2 (op : BitVec 8) (o : M2) : Enc := { Enc.base op with d := mb o.d, a := mb o.a, b := mb o.b }
def encCvt (op : BitVec 8) (o : CvtO) : Enc :=
  { Enc.base op with ty := o.dt.code, fn := fnFloat o.rm o.sat, d := o.d, a := o.a, c := o.st.code.setWidth 8 }
/-- The J word of AMO, RED and SAMO (R161). -/
def encAop (op : Aop) (cmp : BitVec 8) : Word := (op.code.setWidth 32) ||| (cmp.setWidth 32 <<< 8)
/-- The J word of SPAWN (R353). -/
def encSpawnJ (o : SpawnO) (live : BitVec 9) : Word :=
  (live.setWidth 32 <<< 16) ||| (o.aff.code.setWidth 32 <<< 12) |||
    (match o.lanes with | .imm n => n.setWidth 32 | .reg _ => 0)
def encSpawn (fn : BitVec 4) (o : SpawnO) (a : BitVec 8) (live : BitVec 9) : Enc :=
  { Enc.base 0x10 with
      fn := fn, len := 2, d := ub o.d, a := a, b := (match o.lanes with | .imm _ => 0 | .reg r => ub r), c := ub o.args, i := o.off,
      j := encSpawnJ o live }
/-- The J word of a 128-bit MMA (R275). -/
def encMmaJ (o : MmaJ) : Word :=
  ((ub o.freg).setWidth 32) |||
    (match o.p1 with | none => 0 | some p => (p.setWidth 32 <<< 8) ||| 0x4000) |||
    (match o.p2 with | none => 0 | some p => (p.setWidth 32 <<< 16) ||| 0x400000)
def MmaSrc.isLane : MmaSrc → Bool
  | .lane _ => true
  | .win _ _ => false
def MmaSrc.byte : MmaSrc → BitVec 8
  | .lane r => r
  | .win b _ => ub b
def MmaSrc.off : MmaSrc → BitVec 16
  | .lane _ => 0
  | .win _ o => o
/-- The bytes of an XSHUF list in I and J, position 0 lowest (R129). -/
def listBytes : List LaneReg → Nat
  | [] => 0
  | r :: rs => r.toNat + 256 * listBytes rs

/-- The header and the fields of an instruction form; `none` for an event. -/
def Instr.enc : Instr → Option (Hdr × Enc)
  | .nop h n => some (h, { Enc.base 0x00 with len := (match n with | .l64 => 0 | .l96 => 1 | .l128 => 2) })
  | .bra h o => some (h, { Enc.base 0x01 with len := 1, i := o.off })
  | .brx h o => some (h, { Enc.base 0x02 with a := ub o.a }.putOff o.off)
  | .brd h o => some (h, { Enc.base 0x03 with len := 1, i := o.off })
  | .join h => some (h, Enc.base 0x04)
  | .call h o => some (h, { Enc.base 0x05 with len := 1, d := ub o.d, i := o.off })
  | .ret h o => some (h, { Enc.base 0x06 with a := ub o.a })
  | .exit h => some (h, Enc.base 0x07)
  | .yld h o => some (h, { Enc.base 0x08 with len := 1, i := o.dl.setWidth 32 ||| (o.live.setWidth 32 <<< 16) })
  | .trap h o => some (h, { Enc.base 0x09 with len := 1, i := o.n })
  | .sret h o => some (h, { Enc.base 0x0A with a := ub o.a })
  | .srd h o => some (h, { Enc.base 0x0B with d := ub o.d, a := o.num.setWidth 8 })
  | .swr h o => some (h, { Enc.base 0x0C with d := o.num.setWidth 8 }.putU o.b)
  | .spawn h o => some (h, encSpawn 0 o 0 0)
  | .spawnCoh h o => some (h, encSpawn 1 o.base (ub o.a) 0)
  | .spawnE h o => some (h, encSpawn 2 o.base 0 o.live)
  | .await h => some (h, Enc.base 0x11)
  | .awaitHandle h o => some (h, { Enc.base 0x11 with fn := 1, a := ub o.a })
  | .cbar h => some (h, Enc.base 0x12)
  | .pub h => some (h, Enc.base 0x13)
  | .pubSt h o => some (h, { Enc.base 0x13 with ty := o.ty.code, fn := 1, a := ub o.a, b := ub o.b }.putOff o.off)
  | .pubAdd h o => some (h, { Enc.base 0x13 with ty := o.ty.code, fn := 2, a := ub o.a, b := ub o.b }.putOff o.off)
  | .awaitw h o => some (h, 
      (match o.cmp with
       | .reg b => { Enc.base 0x14 with ty := o.ty.code, fn := o.cc.code.setWidth 4, d := ub o.d, a := ub o.a, b := ub b }
       | .regOff off b => { Enc.base 0x14 with ty := o.ty.code, fn := o.cc.code.setWidth 4, d := ub o.d, a := ub o.a, b := ub b, len := 1, i := off }
       | .imm off v => { Enc.base 0x14 with ty := o.ty.code, fn := o.cc.code.setWidth 4, d := ub o.d, a := ub o.a, len := 2, i := off, j := v }))
  | .xshuf h o => some (h, 
      { Enc.base 0x15 with fn := BitVec.ofNat 4 (o.regs.length - 1), len := 2, a := ub o.a, i := BitVec.ofNat 32 (listBytes (o.regs.take 4)),
                           j := BitVec.ofNat 32 (listBytes (o.regs.drop 4)) })
  | .bind h o => some (h, { Enc.base 0x16 with d := ub o.d, a := ub o.a })
  | .unbind h o => some (h, { Enc.base 0x17 with a := ub o.a })
  | .settle h o => some (h, { Enc.base 0x18 with a := ub o.a })
  | .qstaleCnt h o => some (h, { Enc.base 0x19 with fn := 0, d := ub o.d, a := ub o.a })
  | .qstaleState h o => some (h, { Enc.base 0x19 with fn := 1, d := ub o.d, a := ub o.a })
  | .qstaleCap h o => some (h, { Enc.base 0x19 with fn := 2, d := ub o.d, a := ub o.a })
  | .qstaleApp h o => some (h, { Enc.base 0x19 with fn := 3, d := ub o.d, a := ub o.a })
  | .sadd h o => some (h, encU2 0x20 o)
  | .ssub h o => some (h, encU2 0x21 o)
  | .smul h o => some (h, encU2 0x22 o)
  | .smulh h o => some (h, encU2 0x23 o)
  | .sdiv h o => some (h, encU2 0x24 o)
  | .srem h o => some (h, encU2 0x25 o)
  | .sand h o => some (h, encU2 0x26 o)
  | .sor h o => some (h, encU2 0x27 o)
  | .sxor h o => some (h, encU2 0x28 o)
  | .sshl h o => some (h, encU2 0x29 o)
  | .sshr h o => some (h, encU2 0x2A o)
  | .ssar h o => some (h, encU2 0x2B o)
  | .smin h o => some (h, encU2 0x2C o)
  | .smax h o => some (h, encU2 0x2D o)
  | .scmp h o => some (h, { Enc.base 0x2E with ty := o.ty.code, fn := o.cc.code.setWidth 4, d := ub o.d, a := ub o.a }.putU o.b)
  | .ssel h o => some (h, { Enc.base 0x2F with d := ub o.d, a := ub o.a, c := ub o.c }.putU o.b)
  | .smov h o => some (h, { Enc.base 0x30 with d := ub o.d, a := ub o.a })
  | .sli h o => some (h, { Enc.base 0x31 with d := ub o.d }.putLong o.v)
  | .sbfe h o => some (h, encU2 0x32 o)
  | .sbfi h o => some (h, { Enc.base 0x33 with ty := o.ty.code, d := ub o.d, a := ub o.a, c := ub o.c }.putU o.b)
  | .spopc h o => some (h, encU1 0x34 o)
  | .sclz h o => some (h, encU1 0x35 o)
  | .vadd h o => some (h, encV2 0x40 o)
  | .vsub h o => some (h, encV2 0x41 o)
  | .vmul h o => some (h, encV2 0x42 o)
  | .vmulh h o => some (h, encV2 0x43 o)
  | .vdiv h o => some (h, encV2 0x45 o)
  | .vrem h o => some (h, encV2 0x46 o)
  | .vand h o => some (h, encV2 0x47 o)
  | .vor h o => some (h, encV2 0x48 o)
  | .vxor h o => some (h, encV2 0x49 o)
  | .vshl h o => some (h, encV2 0x4A o)
  | .vshr h o => some (h, encV2 0x4B o)
  | .vsar h o => some (h, encV2 0x4C o)
  | .vmin h o => some (h, encV2 0x4D o)
  | .vmax h o => some (h, encV2 0x4E o)
  | .vbfe h o => some (h, encV2 0x54 o)
  | .vmad h o => some (h, encV3 0x44 o)
  | .vclamp h o => some (h, encV3 0x51 o)
  | .vbfi h o => some (h, encV3 0x55 o)
  | .vabs h o => some (h, encV1 0x4F o)
  | .vneg h o => some (h, encV1 0x50 o)
  | .vpopc h o => some (h, encV1 0x52 o)
  | .vclz h o => some (h, encV1 0x53 o)
  | .vbrev h o => some (h, encV1 0x56 o)
  | .vcmp h o => some (h, { Enc.base 0x57 with ty := o.ty.code, fn := o.cc.code.setWidth 4, d := mb o.d, a := o.a }.putV o.b)
  | .vsel h o => some (h, { Enc.base 0x58 with ty := o.ty.code, d := o.d, a := o.a, c := mb o.c }.putV o.b)
  | .vmov h o => some (h, { Enc.base 0x59 with ty := o.ty.code, d := o.d, fn := (match o.a with | .lane _ => 0 | .unif _ => 1),
                                                   a := (match o.a with | .lane r => r | .unif r => ub r) })
  | .vli h o => some (h, { Enc.base 0x5A with ty := o.ty.code, d := o.d }.putLong o.v)
  | .vaddc h o => some (h, { Enc.base 0x5B with ty := o.ty.code, fn := bitAt 4 0 o.sub, d := o.d, a := o.a, c := mb o.c }.putV o.b)
  | .vidx h o => some (h, { Enc.base 0x5C with ty := Ty.n32.code, d := o.d }.putOff o.off)
  | .fadd h o => some (h, encF2 0x60 o)
  | .fsub h o => some (h, encF2 0x61 o)
  | .fmul h o => some (h, encF2 0x62 o)
  | .fmin h o => some (h, encF2 0x64 o)
  | .fmax h o => some (h, encF2 0x65 o)
  | .fdiv h o => some (h, encF2 0x6A o)
  | .fscale h o => some (h, encF2 0x73 o)
  | .ffma h o => some (h, encF3 0x63 o)
  | .fdot2 h o => some (h, encF3 0x76 o)
  | .fabs h o => some (h, encF1 0x66 o)
  | .fneg h o => some (h, encF1 0x67 o)
  | .fsqrt h o => some (h, encF1 0x6B o)
  | .frcp h o => some (h, encF1 0x6C o)
  | .frsq h o => some (h, encF1 0x6D o)
  | .fexp2 h o => some (h, encF1 0x6E o)
  | .flog2 h o => some (h, encF1 0x6F o)
  | .fsin h o => some (h, encF1 0x70 o)
  | .fcos h o => some (h, encF1 0x71 o)
  | .frnd h o => some (h, encF1 0x72 o)
  | .fcmp h o => some (h, { Enc.base 0x68 with ty := o.ty.code, fn := o.cc.code.setWidth 4, d := mb o.d, a := o.a }.putV o.b)
  | .fclass h o => some (h, { Enc.base 0x69 with ty := o.ty.code, d := o.d, a := o.a })
  | .fcvt h o => some (h, encCvt 0x74 o)
  | .fcvtPack h o => some (h, { Enc.base 0x74 with ty := o.dt.code, fn := fnFloat o.rm o.sat, d := o.d, a := o.a, b := o.b, c := Ty.f32.code.setWidth 8 })
  | .fcvtUnpack h o => some (h, { Enc.base 0x74 with ty := Ty.f32.code, d := o.d, a := o.a, b := bitAt 8 0 o.k, c := o.st.code.setWidth 8 })
  | .icvt h o => some (h, encCvt 0x75 o)
  | .vshfl h o => some (h, { Enc.base 0x80 with ty := o.ty.code, fn := o.mode.code.setWidth 4, d := o.d, a := o.a }.putV o.b)
  | .vbcast h o => some (h, { Enc.base 0x81 with ty := o.ty.code, d := o.d, a := o.a }.putU o.b)
  | .vred h o => some (h, { Enc.base 0x82 with ty := o.ty.code, fn := o.op.code, d := ub o.d, a := o.a })
  | .vscan h o => some (h, { Enc.base 0x83 with ty := o.ty.code, fn := o.op.code ||| bitAt 4 3 o.exc, d := o.d, a := o.a })
  | .vballot h o => some (h, { Enc.base 0x84 with d := mb o.d, a := o.a })
  | .vtos h o => some (h, { Enc.base 0x8D with ty := o.ty.code, d := ub o.d, a := o.a }.putU o.b)
  | .mand h o => some (h, encM2 0x85 o)
  | .mor h o => some (h, encM2 0x86 o)
  | .mxor h o => some (h, encM2 0x87 o)
  | .mnot h o => some (h, { Enc.base 0x88 with d := mb o.d, a := mb o.a })
  | .mcnt h o => some (h, { Enc.base 0x89 with d := ub o.d, a := mb o.a })
  | .mfirst h o => some (h, { Enc.base 0x8A with fn := bitAt 4 0 o.last, d := ub o.d, a := mb o.a })
  | .msetRange h o => some (h, { Enc.base 0x8B with d := mb o.d, a := ub o.a }.putU o.b)
  | .msetActive h d => some (h, { Enc.base 0x8B with fn := 1, d := mb d })
  | .msetWord h o => some (h, { Enc.base 0x8B with fn := 2, d := mb o.d, a := ub o.a }.putU o.b)
  | .mtest h o => some (h, { Enc.base 0x8C with d := ub o.d, a := mb o.a }.putU o.b)
  | .mtestWord h o => some (h, { Enc.base 0x8C with fn := 1, d := ub o.d, a := mb o.a }.putU o.b)
  | .mtestSum h o => some (h, { Enc.base 0x8C with fn := 2, d := ub o.d, a := mb o.a })
  | .ld h o => some (h, { Enc.base 0x90 with ty := o.ty.code, fn := bitAt 4 2 o.na, d := o.d }.putMem o.mem)
  | .st h o => some (h, { Enc.base 0x91 with ty := o.ty.code, fn := bitAt 4 2 o.na, b := o.b }.putMem o.mem)
  | .ldk h o => some (h, { Enc.base 0x92 with ty := o.ty.code, d := o.d }.putMem o.mem)
  | .lds h o => some (h, { Enc.base 0x93 with ty := o.ty.code, d := o.d }.putMem o.mem)
  | .sts h o => some (h, { Enc.base 0x94 with ty := o.ty.code, b := o.b }.putMem o.mem)
  | .sld h o => some (h, { Enc.base 0x95 with ty := o.ty.code, d := ub o.d, a := ub o.a }.putOff o.off)
  | .sst h o => some (h, { Enc.base 0x96 with ty := o.ty.code, a := ub o.a, b := ub o.b }.putOff o.off)
  | .amo h o => some (h, { Enc.base 0x97 with ty := o.ty.code, len := 2, d := o.d, a := ub o.base, b := o.b, i := o.off, j := encAop o.aop o.cmp }.putIdx o.idx)
  | .red h o => some (h, { Enc.base 0x98 with ty := o.ty.code, len := 2, a := ub o.base, b := o.b, i := o.off, j := encAop o.aop 0 }.putIdx o.idx)
  | .samo h o => some (h, { Enc.base 0x9B with ty := o.ty.code, len := 2, d := ub o.d, a := ub o.a, b := ub o.b, i := o.off, j := encAop o.aop (ub o.cmp) })
  | .pref h o => some (h, { Enc.base 0x99 with fn := bitAt 4 2 o.l2 }.putMem o.mem)
  | .persist h o => some (h, { Enc.base 0x9A with a := ub o.a, b := ub o.b }.putOff o.off)
  | .copy h o => some (h, 
      { Enc.base 0xA0 with len := 1, d := ub o.d, a := ub o.a, b := ub o.b, c := (match o.c with | none => 0 | some r => ub r),
                           fn := bitAt 4 0 o.ss ||| bitAt 4 1 o.ds ||| bitAt 4 2 o.c.isSome, i := o.tag.setWidth 32 })
  | .copyw h o => some (h, { Enc.base 0xA1 with a := o.tag.setWidth 8 })
  | .copywAll h => some (h, { Enc.base 0xA1 with fn := 1 })
  | .chain h o => some (h, { Enc.base 0xA2 with len := 1, a := ub o.a, b := ub o.b, i := o.tag.setWidth 32 })
  | .chainw h o => some (h, { Enc.base 0xA3 with a := o.tag.setWidth 8 })
  | .chainwAll h => some (h, { Enc.base 0xA3 with fn := 1 })
  | .feset h o => some (h, { Enc.base 0xA4 with fn := bitAt 4 0 o.full, a := ub o.a, b := ub o.b }.putOff o.off)
  | .feq h o => some (h, { Enc.base 0xA5 with d := ub o.d, a := ub o.a, b := ub o.b }.putOff o.off)
  | .mma h o => some (h, 
      { Enc.base 0xB0 with ty := o.ty.code, fn := bitAt 4 0 o.a.isLane ||| bitAt 4 1 o.b.isLane ||| bitAt 4 2 o.ovr,
                           len := (match o.j with | none => 1 | some _ => 2), d := tb o.d, a := o.a.byte, b := o.b.byte, c := o.id.setWidth 8,
                           i := o.b.off ++ o.a.off, j := (match o.j with | none => 0 | some j => encMmaJ j) })
  | .mwait h o => some (h, { Enc.base 0xB1 with a := o.tag.setWidth 8 })
  | .mwaitAll h => some (h, { Enc.base 0xB1 with fn := 1 })
  | .mzero h o => some (h, { Enc.base 0xB2 with d := tb o.d })
  | .mlda h o => some (h, { Enc.base 0xB3 with d := tb o.t, a := ub o.a }.putOff o.off)
  | .msta h o => some (h, { Enc.base 0xB4 with a := ub o.a, b := tb o.t }.putOff o.off)
  | .drain h o => some (h, { Enc.base 0xB5 with ty := o.ty.code, fn := fnFloat o.rm o.sat ||| bitAt 4 3 o.int, d := tb o.d, a := ub o.a }.putOff o.off)
  | .mcbl h o => some (h, { Enc.base 0xB6 with d := o.slot.setWidth 8, a := ub o.a }.putOff o.off)
  | .mstat h o => some (h, { Enc.base 0xB7 with fn := 0, d := ub o.d })
  | .mstatIds h o => some (h, { Enc.base 0xB7 with fn := 1, d := ub o.d })
  | .mstatClr h o => some (h, { Enc.base 0xB7 with fn := 2, d := ub o.d })
  | .tlbiVa h o => some (h, { Enc.base 0xE0 with a := ub o.a, b := ub o.b, c := ub o.c })
  | .tlbiAsid h o => some (h, { Enc.base 0xE0 with fn := 1, c := ub o.c })
  | .tlbiAll h => some (h, { Enc.base 0xE0 with fn := 2 })
  | .cinvVa h o => some (h, { Enc.base 0xE1 with a := ub o.a, b := ub o.b, c := ub o.c })
  | .cinvAsid h o => some (h, { Enc.base 0xE1 with fn := 1, c := ub o.c })
  | .cinvAll h => some (h, { Enc.base 0xE1 with fn := 2 })
  | .replay h o => some (h, { Enc.base 0xE2 with d := ub o.d, a := ub o.a, b := ub o.b, c := ub o.c })
  | .replayDlv h o => some (h, { Enc.base 0xE2 with fn := 1, d := ub o.d, a := ub o.a, b := ub o.b, c := ub o.c })
  | .kill h o => some (h, { Enc.base 0xE3 with d := ub o.d, a := ub o.a, b := ub o.b })
  | .fqpop h o => some (h, { Enc.base 0xE4 with d := ub o.d })
  | .pswr h o => some (h, { Enc.base 0xE5 with d := o.num.setWidth 8, b := ub o.b })
  | .pswrX h o => some (h, { Enc.base 0xE5 with fn := 1, len := 1, b := ub o.b, i := o.off })
  | .pswrSpawn h o => some (h, { Enc.base 0xE5 with fn := 2, b := ub o.a })
  | .preempt h o => some (h, { Enc.base 0xE6 with d := ub o.d, a := ub o.a })
  | .preemptHard h o => some (h, { Enc.base 0xE6 with fn := 1, d := ub o.d, a := ub o.a })
  | _ => none

/-- The low word (R29). -/
def Enc.lowWord (h : Hdr) (e : Enc) : Word :=
  (e.len.setWidth 32) ||| bitAt 32 2 h.fin ||| (h.stl.setWidth 32 <<< 3) ||| bitAt 32 7 h.sb ||| (e.op.setWidth 32 <<< 8) |||
    (e.fn.setWidth 32 <<< 16) ||| (e.ty.setWidth 32 <<< 20) ||| (h.guard.gm.setWidth 32 <<< 25) ||| bitAt 32 29 h.guard.gn

/-- The word of the register bytes (R30). -/
def Enc.highWord (e : Enc) : Word := e.c ++ e.b ++ e.a ++ e.d

/-- The words of an encoding, the low word first (R29, R30, R4). -/
def Enc.words (h : Hdr) (e : Enc) : List Word :=
  e.lowWord h :: e.highWord ::
    (match e.len.toNat with | 0 => [] | 1 => [e.i] | _ => [e.i, e.j])

/-- The words of an instruction form; the empty list for an event. -/
def encode (i : Instr) : List Word :=
  match i.enc with
  | none => []
  | some (h, e) => e.words h

/-- The bytes of a word, least significant first (R4). -/
def wordBytes (w : Word) : List Byte := [w.setWidth 8, (w >>> 8).setWidth 8, (w >>> 16).setWidth 8, (w >>> 24).setWidth 8]

/-- The bytes of an instruction form, lowest address first. -/
def encodeBytes (i : Instr) : List Byte := (encode i).flatMap wordBytes

/-- Length in bytes of an instruction form; 0 for an event. -/
def Instr.length (i : Instr) : Nat :=
  match i.enc with
  | none => 0
  | some (_, e) => 8 + 4 * e.len.toNat

/-- The header of an instruction form; that of an unguarded NOP for an event. -/
def Instr.hdr (i : Instr) : Hdr :=
  match i.enc with
  | none => ⟨⟨15, false⟩, false, 0, false⟩
  | some (h, _) => h

/-- Lengths in bytes by operand form (R30). -/
def VSrc.bytes : VSrc → Nat
  | .imm _ => 12
  | _ => 8
def USrc.bytes : USrc → Nat
  | .imm _ => 12
  | _ => 8
def LongImm.bytes : LongImm → Nat
  | .short _ => 12
  | .long _ => 16
def offBytes : Option Word → Nat
  | none => 8
  | some _ => 12

/-- The header of a low word. -/
def readHdr (w : Word) : Hdr :=
  ⟨⟨w.extractLsb' 25 4, w.getLsbD 29⟩, w.getLsbD 7, w.extractLsb' 3 4, w.getLsbD 2⟩

/-- The fields of an encoding whose words are `w0 w1 w2 w3`; words past the length count as zero. -/
def readEnc (w0 w1 w2 w3 : Word) : Enc :=
  let len := w0.extractLsb' 0 2
  { op := w0.extractLsb' 8 8, ty := w0.extractLsb' 20 5, fn := w0.extractLsb' 16 4, len := len, d := w1.extractLsb' 0 8,
    a := w1.extractLsb' 8 8, b := w1.extractLsb' 16 8, c := w1.extractLsb' 24 8,
    i := if 1 ≤ len.toNat then w2 else 0, j := if 2 ≤ len.toNat then w3 else 0 }

/-- An encoding with the bits that its form ignores cleared: I and J of NOP (R341), I bits 31:6 of CHAIN, which R185 marks reserved and names no trap for (R6), a
predecessor ID of MMA without its valid bit (R275). -/
def Enc.canon (e : Enc) : Enc :=
  if e.op = 0x00 then { e with i := 0, j := 0 }
  else if e.op = 0xA2 then { e with i := e.i &&& 0x3F }
  else if e.op = 0xB0 then
    { e with j := (if e.j.getLsbD 14 then e.j else e.j &&& ~~~0x3F00#32) &&& (if e.j.getLsbD 22 then ~~~0#32 else ~~~0x3F0000#32) }
  else e

/-- The `n` lane registers of an XSHUF list, read from the bytes of I and J (R129). -/
def readList : Nat → Nat → List LaneReg
  | 0, _ => []
  | n + 1, w => BitVec.ofNat 8 w :: readList n (w / 256)

def Enc.rm (e : Enc) : RMode := RMode.ofCode (e.fn.setWidth 2)
def Enc.z (e : Enc) : Bool := e.fn.getLsbD 2
def Enc.var (e : Enc) : BitVec 3 := e.fn.setWidth 3
def Enc.sat (e : Enc) : Bool := e.fn.getLsbD 0

def Enc.u2 (e : Enc) (t : Ty) : U2 := ⟨t, e.sat, e.uD, e.uA, e.getU⟩
def Enc.v2 (e : Enc) (t : Ty) : V2 := ⟨t, e.sat, e.d, e.a, e.getV⟩
def Enc.v3 (e : Enc) (t : Ty) : V3 := ⟨t, e.sat, e.d, e.a, e.getV, e.c⟩
def Enc.v1 (e : Enc) (t : Ty) : V1 := ⟨t, e.sat, e.d, e.a⟩
def Enc.u1 (e : Enc) (t : Ty) : U1 := ⟨t, e.uD, e.uA⟩
def Enc.f2 (e : Enc) (t : Ty) : F2 := ⟨t, e.rm, e.z, e.d, e.a, e.getV⟩
def Enc.f3 (e : Enc) (t : Ty) : F3 := ⟨t, e.rm, e.z, e.d, e.a, e.getV, e.c⟩
def Enc.f1 (e : Enc) (t : Ty) : F1 := ⟨t, e.rm, e.z, e.d, e.a⟩
def Enc.m2 (e : Enc) : M2 := ⟨e.mD, e.mA, e.mB⟩
def Enc.sst (e : Enc) (t : Ty) : SstO := ⟨t, e.uB, e.uA, e.getOff⟩
def Enc.spawn (e : Enc) (aff : Aff) : SpawnO :=
  ⟨aff, if e.j.setWidth 11 = (0 : BitVec 11) then .reg e.uB else .imm (e.j.setWidth 11), e.uC, e.uD, e.i⟩
def Enc.live (e : Enc) : BitVec 9 := e.j.extractLsb' 16 9
def Enc.tag (e : Enc) : BitVec 6 := e.i.setWidth 6
def Enc.tagA (e : Enc) : BitVec 6 := e.a.setWidth 6
def Enc.tileD (e : Enc) : Tile := e.d.setWidth 3
def Enc.mma (e : Enc) (t : Ty) : MmaO :=
  { ty := t, ovr := e.fn.getLsbD 2, d := e.tileD,
    a := if e.fn.getLsbD 0 then .lane e.a else .win e.uA (e.i.extractLsb' 0 16),
    b := if e.fn.getLsbD 1 then .lane e.b else .win e.uB (e.i.extractLsb' 16 16),
    id := e.c.setWidth 6,
    j := if e.len = 2 then
        some ⟨e.j.setWidth 7, if e.j.getLsbD 14 then some (e.j.extractLsb' 8 6) else none,
              if e.j.getLsbD 22 then some (e.j.extractLsb' 16 6) else none⟩
      else none }

/-- Candidates of the control forms (R341). -/
def readControl (h : Hdr) (e : Enc) : Option Instr :=
  match e.op.toNat with
  | 0x00 => some (.nop h (if e.len = 0 then .l64 else if e.len = 1 then .l96 else .l128))
  | 0x01 => some (.bra h ⟨e.i⟩)
  | 0x02 => some (.brx h ⟨e.uA, e.getOff⟩)
  | 0x03 => some (.brd h ⟨e.i⟩)
  | 0x04 => some (.join h)
  | 0x05 => some (.call h ⟨e.uD, e.i⟩)
  | 0x06 => some (.ret h ⟨e.uA⟩)
  | 0x07 => some (.exit h)
  | 0x08 => some (.yld h ⟨e.i.extractLsb' 0 16, e.i.extractLsb' 16 9⟩)
  | 0x09 => some (.trap h ⟨e.i⟩)
  | 0x0A => some (.sret h ⟨e.uA⟩)
  | 0x0B => some (.srd h ⟨e.uD, e.a.setWidth 6⟩)
  | 0x0C => some (.swr h ⟨e.d.setWidth 6, e.getU⟩)
  | _ => none

/-- Candidates of the graph, sync and standing-product forms (R353 to R371, R129, R300). -/
def readGraph (h : Hdr) (e : Enc) (t : Ty) : Option Instr :=
  match e.op.toNat with
  | 0x10 => 
    (match Aff.ofCode (e.j.extractLsb' 12 3), e.fn.toNat with
     | some aff, 0 => some (.spawn h (e.spawn aff))
     | some aff, 1 => some (.spawnCoh h ⟨e.spawn aff, e.uA⟩)
     | some aff, 2 => some (.spawnE h ⟨e.spawn aff, e.live⟩)
     | _, _ => none)
  | 0x11 => some (if e.fn = 0 then .await h else .awaitHandle h ⟨e.uA⟩)
  | 0x12 => some (.cbar h)
  | 0x13 => some (if e.fn = 0 then .pub h else if e.fn = 1 then .pubSt h (e.sst t) else .pubAdd h (e.sst t))
  | 0x14 => 
    (match Cond.ofCode e.var with
     | some cc =>
       some (.awaitw h ⟨t, cc, e.uD, e.uA,
         if e.len = 0 then .reg e.uB else if e.len = 1 then .regOff e.i e.uB else .imm e.i e.j⟩)
     | none => none)
  | 0x15 => some (.xshuf h ⟨e.uA, readList (e.fn.toNat + 1) (e.i.toNat + 4294967296 * e.j.toNat)⟩)
  | 0x16 => some (.bind h ⟨e.uD, e.uA⟩)
  | 0x17 => some (.unbind h ⟨e.uA⟩)
  | 0x18 => some (.settle h ⟨e.uA⟩)
  | 0x19 => some (if e.fn = 0 then .qstaleCnt h ⟨e.uD, e.uA⟩ else if e.fn = 1 then .qstaleState h ⟨e.uD, e.uA⟩ else if e.fn = 2 then .qstaleCap h ⟨e.uD, e.uA⟩ else .qstaleApp h ⟨e.uD, e.uA⟩)
  | _ => none

/-- Candidates of the uniform forms (R238, R242). -/
def readUniform (h : Hdr) (e : Enc) (t : Ty) : Option Instr :=
  match e.op.toNat with
  | 0x20 => some (.sadd h (e.u2 t))
  | 0x21 => some (.ssub h (e.u2 t))
  | 0x22 => some (.smul h (e.u2 t))
  | 0x23 => some (.smulh h (e.u2 t))
  | 0x24 => some (.sdiv h (e.u2 t))
  | 0x25 => some (.srem h (e.u2 t))
  | 0x26 => some (.sand h (e.u2 t))
  | 0x27 => some (.sor h (e.u2 t))
  | 0x28 => some (.sxor h (e.u2 t))
  | 0x29 => some (.sshl h (e.u2 t))
  | 0x2A => some (.sshr h (e.u2 t))
  | 0x2B => some (.ssar h (e.u2 t))
  | 0x2C => some (.smin h (e.u2 t))
  | 0x2D => some (.smax h (e.u2 t))
  | 0x2E => (Cond.ofCode e.var).map fun cc => .scmp h ⟨t, cc, e.uD, e.uA, e.getU⟩
  | 0x2F => some (.ssel h ⟨e.uD, e.uA, e.getU, e.uC⟩)
  | 0x30 => some (.smov h ⟨e.uD, e.uA⟩)
  | 0x31 => some (.sli h ⟨e.uD, e.getLong⟩)
  | 0x32 => some (.sbfe h (e.u2 t))
  | 0x33 => some (.sbfi h ⟨t, e.uD, e.uA, e.getU, e.uC⟩)
  | 0x34 => some (.spopc h (e.u1 t))
  | 0x35 => some (.sclz h (e.u1 t))
  | _ => none

/-- Candidates of the vector integer forms (R238, R244). -/
def readVector (h : Hdr) (e : Enc) (t : Ty) : Option Instr :=
  match e.op.toNat with
  | 0x40 => some (.vadd h (e.v2 t))
  | 0x41 => some (.vsub h (e.v2 t))
  | 0x42 => some (.vmul h (e.v2 t))
  | 0x43 => some (.vmulh h (e.v2 t))
  | 0x44 => some (.vmad h (e.v3 t))
  | 0x45 => some (.vdiv h (e.v2 t))
  | 0x46 => some (.vrem h (e.v2 t))
  | 0x47 => some (.vand h (e.v2 t))
  | 0x48 => some (.vor h (e.v2 t))
  | 0x49 => some (.vxor h (e.v2 t))
  | 0x4A => some (.vshl h (e.v2 t))
  | 0x4B => some (.vshr h (e.v2 t))
  | 0x4C => some (.vsar h (e.v2 t))
  | 0x4D => some (.vmin h (e.v2 t))
  | 0x4E => some (.vmax h (e.v2 t))
  | 0x4F => some (.vabs h (e.v1 t))
  | 0x50 => some (.vneg h (e.v1 t))
  | 0x51 => some (.vclamp h (e.v3 t))
  | 0x52 => some (.vpopc h (e.v1 t))
  | 0x53 => some (.vclz h (e.v1 t))
  | 0x54 => some (.vbfe h (e.v2 t))
  | 0x55 => some (.vbfi h (e.v3 t))
  | 0x56 => some (.vbrev h (e.v1 t))
  | 0x57 => (Cond.ofCode e.var).map fun cc => .vcmp h ⟨t, cc, e.mD, e.a, e.getV⟩
  | 0x58 => some (.vsel h ⟨t, e.d, e.a, e.getV, e.mC⟩)
  | 0x59 => some (.vmov h ⟨t, e.d, if e.sat then .unif e.uA else .lane e.a⟩)
  | 0x5A => some (.vli h ⟨t, e.d, e.getLong⟩)
  | 0x5B => some (.vaddc h ⟨t, e.sat, e.d, e.a, e.getV, e.mC⟩)
  | 0x5C => some (.vidx h ⟨e.d, e.getOff⟩)
  | _ => none

/-- Candidates of the float and conversion forms (R226, R229, R249). -/
def readFloat (h : Hdr) (e : Enc) (t : Ty) : Option Instr :=
  match e.op.toNat with
  | 0x60 => some (.fadd h (e.f2 t))
  | 0x61 => some (.fsub h (e.f2 t))
  | 0x62 => some (.fmul h (e.f2 t))
  | 0x63 => some (.ffma h (e.f3 t))
  | 0x64 => some (.fmin h (e.f2 t))
  | 0x65 => some (.fmax h (e.f2 t))
  | 0x66 => some (.fabs h (e.f1 t))
  | 0x67 => some (.fneg h (e.f1 t))
  | 0x68 => some (.fcmp h ⟨t, FCond.ofCode e.var, e.mD, e.a, e.getV⟩)
  | 0x69 => some (.fclass h ⟨t, e.d, e.a⟩)
  | 0x6A => some (.fdiv h (e.f2 t))
  | 0x6B => some (.fsqrt h (e.f1 t))
  | 0x6C => some (.frcp h (e.f1 t))
  | 0x6D => some (.frsq h (e.f1 t))
  | 0x6E => some (.fexp2 h (e.f1 t))
  | 0x6F => some (.flog2 h (e.f1 t))
  | 0x70 => some (.fsin h (e.f1 t))
  | 0x71 => some (.fcos h (e.f1 t))
  | 0x72 => some (.frnd h (e.f1 t))
  | 0x73 => some (.fscale h (e.f2 t))
  | 0x74 => (Ty.ofCode (e.c.setWidth 5)).map fun st =>
      if t.isPacked then .fcvtPack h ⟨t, e.rm, e.z, e.d, e.a, e.b⟩
      else if st.isPacked then .fcvtUnpack h ⟨st, e.d, e.a, e.b.getLsbD 0⟩
      else .fcvt h ⟨t, st, e.rm, e.z, e.d, e.a⟩
  | 0x75 => (Ty.ofCode (e.c.setWidth 5)).map fun st => .icvt h ⟨t, st, e.rm, e.z, e.d, e.a⟩
  | 0x76 => some (.fdot2 h (e.f3 t))
  | _ => none

/-- Candidates of the lane-exchange and mask forms (R203, R212). -/
def readLane (h : Hdr) (e : Enc) (t : Ty) : Option Instr :=
  match e.op.toNat with
  | 0x80 => some (.vshfl h ⟨ShflMode.ofCode (e.fn.setWidth 2), t, e.d, e.a, e.getV⟩)
  | 0x81 => some (.vbcast h ⟨t, e.d, e.a, e.getU⟩)
  | 0x82 => (RedOp.ofCode e.fn).map fun op => .vred h ⟨op, t, e.uD, e.a⟩
  | 0x83 => (RedOp.ofCode (e.fn &&& 7)).map fun op => .vscan h ⟨op, e.fn.getLsbD 3, t, e.d, e.a⟩
  | 0x84 => some (.vballot h ⟨e.mD, e.a⟩)
  | 0x85 => some (.mand h e.m2)
  | 0x86 => some (.mor h e.m2)
  | 0x87 => some (.mxor h e.m2)
  | 0x88 => some (.mnot h ⟨e.mD, e.mA⟩)
  | 0x89 => some (.mcnt h ⟨e.uD, e.mA⟩)
  | 0x8A => some (.mfirst h ⟨e.sat, e.uD, e.mA⟩)
  | 0x8B => some (if e.fn = 0 then .msetRange h ⟨e.mD, e.uA, e.getU⟩ else if e.fn = 1 then .msetActive h e.mD else .msetWord h ⟨e.mD, e.uA, e.getU⟩)
  | 0x8C => some (if e.fn = 0 then .mtest h ⟨e.uD, e.mA, e.getU⟩ else if e.fn = 1 then .mtestWord h ⟨e.uD, e.mA, e.getU⟩ else .mtestSum h ⟨e.uD, e.mA⟩)
  | 0x8D => some (.vtos h ⟨t, e.uD, e.a, e.getU⟩)
  | _ => none

/-- Candidates of the memory and engine forms (R152 to R185). -/
def readMemory (h : Hdr) (e : Enc) (t : Ty) : Option Instr :=
  match e.op.toNat with
  | 0x90 => some (.ld h ⟨t, e.z, e.d, e.getMem⟩)
  | 0x91 => some (.st h ⟨t, e.z, e.b, e.getMem⟩)
  | 0x92 => some (.ldk h ⟨t, e.d, e.getMem⟩)
  | 0x93 => some (.lds h ⟨t, e.d, e.getMem⟩)
  | 0x94 => some (.sts h ⟨t, e.b, e.getMem⟩)
  | 0x95 => some (.sld h ⟨t, e.uD, e.uA, e.getOff⟩)
  | 0x96 => some (.sst h (e.sst t))
  | 0x97 => (Aop.ofCode (e.j.extractLsb' 0 4)).map fun op => .amo h ⟨t, op, e.d, e.b, e.j.extractLsb' 8 8, e.uA, e.getIdx, e.i⟩
  | 0x98 => (Aop.ofCode (e.j.extractLsb' 0 4)).map fun op => .red h ⟨t, op, e.b, e.uA, e.getIdx, e.i⟩
  | 0x99 => some (.pref h ⟨e.z, e.getMem⟩)
  | 0x9A => some (.persist h ⟨e.uA, e.getOff, e.uB⟩)
  | 0x9B => (Aop.ofCode (e.j.extractLsb' 0 4)).map fun op => .samo h ⟨t, op, e.uD, e.uB, e.j.extractLsb' 8 7, e.uA, e.i⟩
  | 0xA0 => some (.copy h ⟨e.fn.getLsbD 0, e.fn.getLsbD 1, e.uD, e.uA, e.uB, if e.z then some e.uC else none, e.tag⟩)
  | 0xA1 => some (if e.fn = 0 then .copyw h ⟨e.tagA⟩ else .copywAll h)
  | 0xA2 => some (.chain h ⟨e.uA, e.uB, e.tag⟩)
  | 0xA3 => some (if e.fn = 0 then .chainw h ⟨e.tagA⟩ else .chainwAll h)
  | 0xA4 => some (.feset h ⟨e.sat, e.uA, e.getOff, e.uB⟩)
  | 0xA5 => some (.feq h ⟨e.uD, e.uA, e.getOff, e.uB⟩)
  | _ => none

/-- Candidates of the matrix and privileged forms (R275 to R292, R412). -/
def readMatrix (h : Hdr) (e : Enc) (t : Ty) : Option Instr :=
  match e.op.toNat with
  | 0xB0 => some (.mma h (e.mma t))
  | 0xB1 => some (if e.fn = 0 then .mwait h ⟨e.tagA⟩ else .mwaitAll h)
  | 0xB2 => some (.mzero h ⟨e.tileD⟩)
  | 0xB3 => some (.mlda h ⟨e.tileD, e.uA, e.getOff⟩)
  | 0xB4 => some (.msta h ⟨e.b.setWidth 3, e.uA, e.getOff⟩)
  | 0xB5 => some (.drain h ⟨t, e.rm, e.z, e.fn.getLsbD 3, e.tileD, e.uA, e.getOff⟩)
  | 0xB6 => some (.mcbl h ⟨e.d.setWidth 2, e.uA, e.getOff⟩)
  | 0xB7 => some (if e.fn = 0 then .mstat h ⟨e.uD⟩ else if e.fn = 1 then .mstatIds h ⟨e.uD⟩ else .mstatClr h ⟨e.uD⟩)
  | 0xE0 => some (if e.fn = 0 then .tlbiVa h ⟨e.uA, e.uB, e.uC⟩ else if e.fn = 1 then .tlbiAsid h ⟨e.uC⟩ else .tlbiAll h)
  | 0xE1 => some (if e.fn = 0 then .cinvVa h ⟨e.uA, e.uB, e.uC⟩ else if e.fn = 1 then .cinvAsid h ⟨e.uC⟩ else .cinvAll h)
  | 0xE2 => some (if e.fn = 0 then .replay h ⟨e.uD, e.uA, e.uB, e.uC⟩ else .replayDlv h ⟨e.uD, e.uA, e.uB, e.uC⟩)
  | 0xE3 => some (.kill h ⟨e.uD, e.uA, e.uB⟩)
  | 0xE4 => some (.fqpop h ⟨e.uD⟩)
  | 0xE5 => some (if e.fn = 0 then .pswr h ⟨e.d.setWidth 6, e.uB⟩ else if e.fn = 1 then .pswrX h ⟨e.i, e.uB⟩ else .pswrSpawn h ⟨e.uB⟩)
  | 0xE6 => some (if e.fn = 0 then .preempt h ⟨e.uD, e.uA⟩ else .preemptHard h ⟨e.uD, e.uA⟩)
  | _ => none

/-- The candidate that the fields name: which instruction the opcode and variant select, its operands read from their places (R52). -/
def candidate (h : Hdr) (e : Enc) : Option Instr :=
  match Ty.ofCode e.ty with
  | none => none
  | some t =>
    let op := e.op.toNat
    if op < 0x10 then readControl h e
    else if op < 0x20 then readGraph h e t
    else if op < 0x40 then readUniform h e t
    else if op < 0x60 then readVector h e t
    else if op < 0x80 then readFloat h e t
    else if op < 0x90 then readLane h e t
    else if op < 0xB0 then readMemory h e t
    else readMatrix h e t

/-- The opcode map has an instruction at `op` (R52). -/
def opAssigned (op : BitVec 8) : Bool :=
  let n := op.toNat
  n ≤ 0x0C || (0x10 ≤ n && n ≤ 0x19) || (0x20 ≤ n && n ≤ 0x35) || (0x40 ≤ n && n ≤ 0x5C) || (0x60 ≤ n && n ≤ 0x76) || (0x80 ≤ n && n ≤ 0x8D)
    || (0x90 ≤ n && n ≤ 0x9B) || (0xA0 ≤ n && n ≤ 0xA5) || (0xB0 ≤ n && n ≤ 0xB7) || (0xE0 ≤ n && n ≤ 0xE6)

/-- Why a pattern is not an instruction (R54). Every one traps with code 0x01. -/
inductive Reject where
  /-- LEN = 0b11: a pad word out of place, or no pad word at all (R39). -/
  | padWord
  /-- Fewer bytes than the length needs. -/
  | truncated
  /-- Bits 31:30 are not 0b00 (R29). -/
  | topBits
  /-- GM = 15 with GN = 1 (R36). -/
  | badGuard
  /-- An unassigned OP (R52). -/
  | unassignedOp
  /-- A reserved or unlisted TY, FN or LEN, a byte outside its class, a non-zero unused byte or reserved bit, END = 0 on a run-ending form, or SB = 0
  on a form that requires it. -/
  | illegalForm
  deriving DecidableEq, Repr

/-- What the bytes at an instruction's address are. -/
inductive Decoded where
  | instr (i : Instr)
  | reject (r : Reject)
  deriving DecidableEq, Repr

/-- Decode of four words, of which the length uses the first two, three or four (R29 to R36, R54). -/
def decodeWords (w0 w1 w2 w3 : Word) : Decoded :=
  let e := (readEnc w0 w1 w2 w3).canon
  let h := readHdr w0
  if e.len = 3 then .reject .padWord
  else if w0.extractLsb' 30 2 ≠ 0 then .reject .topBits
  else if !h.guard.wf then .reject .badGuard
  else if !opAssigned e.op then .reject .unassignedOp
  else match candidate h e with
    | none => .reject .illegalForm
    | some i => if i.wf && decide (i.enc = some (h, e)) then .instr i else .reject .illegalForm

/-- The word of four bytes, least significant first (R4). -/
def bytesWord : List Byte → Word
  | b0 :: b1 :: b2 :: b3 :: _ => b3 ++ b2 ++ b1 ++ b0
  | _ => 0

/-- Length in bytes that a low word gives (R29); a pad word is 4 bytes long. -/
def lowWordLength (w0 : Word) : Nat :=
  match (w0.extractLsb' 0 2).toNat with
  | 0 => 8 | 1 => 12 | 2 => 16 | _ => 4

/-- Decode of the bytes from an instruction's address on, total on every list. -/
def decode (bs : List Byte) : Decoded :=
  let w0 := bytesWord bs
  if bs.length < 4 ∨ bs.length < lowWordLength w0 then .reject .truncated
  else decodeWords w0 (bytesWord (bs.drop 4)) (bytesWord (bs.drop 8)) (bytesWord (bs.drop 12))

/-- The `k` low bytes of a number, least significant first. -/
def natBytes : Nat → Nat → List Byte
  | 0, _ => []
  | k + 1, w => BitVec.ofNat 8 w :: natBytes k (w / 256)

/-- The bytes of an instruction whose table bits are `w`: the first `nbits` bits as the table numbers them, every bit above zero. -/
def tableBytes (nbits w : Nat) : List Byte := natBytes 16 (w % 2 ^ nbits)

/-- The instruction the decoder reads from an instruction whose bits are `w`, numbered as the opcode table numbers them. -/
def decodeTableWord (nbits w : Nat) : Option Instr :=
  match decode (tableBytes nbits w) with
  | .instr i => some i
  | .reject _ => none

end Sys2Proof
end

