-- ==== Sys2Proof/Config.lean ====
section
/-! DEFINITION. What is fixed for the module, and the free values: opaque constants that nothing in Lean can evaluate. -/
namespace Sys2Proof.Config

/-- A value the manual leaves open ("yields any value of the destination's type", R10 fate 3): bit pattern number `n` of width `w`.
The step applies it to the plain counter `State.free` (DESIGN CHOICE, log 1). -/
opaque freeBits : (w : Nat) → (n : Nat) → BitVec w

/-- The value of a register that is read too early (R49): instruction number `n`, register code, lane (DESIGN CHOICE, log 1). -/
opaque earlyBits : (w : Nat) → (n reg lane : Nat) → BitVec w

/-- An open choice ("yields one of the outcomes listed", R10 fate 4, and ties of arbitration, R334), applied to the counter (DESIGN CHOICE, log 2). -/
opaque choice : (n : Nat) → Nat

/-- The pick of an approximate function inside its bound: a fixed function of form, type, FTZ and input bits (R261, R262; DESIGN CHOICE, log 3). -/
opaque approxPick : (form ty : Nat) → (ftz : Bool) → (input : Nat) → Nat

/-- A byte of memory whose content the manual leaves open, in the loss numbered `epoch` (R81, R429; DESIGN CHOICE, log 4). -/
opaque lostByte : (epoch addr : Nat) → Byte

/-- The measurement value of SPDM block `index` (R440): a fixed function of what the block measures, which the manual does not state (DESIGN CHOICE, log 5). -/
opaque measurement : (index : Nat) → (what : List Nat) → Dword

/-- The identity key and certificate chain in slot `slot` (R440): a die's own, which the manual does not state (DESIGN CHOICE, log 5). -/
opaque certificate : (slot : Nat) → Dword

/-- Compute dies of the module (R13). -/
def dies : Nat := 4
/-- L2 banks of one compute die (R14). -/
def banksPerDie : Nat := 64
/-- Enabled quads of one die (R14). -/
def quadsPerDie : Nat := 10
/-- Cores of a quad (R14) and sub-cores of a core (R16). -/
def coresPerQuad : Nat := 4
def subsPerCore : Nat := 8
/-- Channels of one die (R21: 32 for each of 4 stacks). -/
def channelsPerDie : Nat := 128
/-- Backed bytes of one die's 256 GiB window: 176 GiB (R57). -/
def backedBytes : Nat := 188978561024
/-- Sizes of the module's and the cores' tables (R16, R23, R71, R96, R132, R183, R278, R332, R350, R357, R393, R398). -/
def partitions : Nat := 32
def bindingSlots : Nat := 8192
def bindingsPerPartition : Nat := 1024
def tlbEntries : Nat := 2048
def mtuWindows : Nat := 8
def rallyEntries : Nat := 16
def faultEntries : Nat := 1024
def dequeEntries : Nat := 64
def launchTrees : Nat := 256
def stackEntries : Nat := 16
def copiesPerCore : Nat := 512
def copiesPerTeam : Nat := 32
def chainsPerCore : Nat := 64
def chainsPerTeam : Nat := 2
def mmaPerTeam : Nat := 64
def frameStore : Nat := 512
def topsPerTeam : Nat := 16
def scoreboardEntries : Nat := 32
def runLength : Nat := 24
def budgetMax : Nat := 65535
/-- Bytes of a sub-core's lane registers (R192), of one save slot (R389), of the largest staging store (R136). -/
def laneRegBytes : Nat := 262144
def saveSlotBytes : Nat := 1310720
def stagingMax : Nat := 786432

end Sys2Proof.Config
end

