-- ==== Sys2Proof/Machine/Store.lean ====
section
/-! DEFINITION. Sparse data by key in one canonical form: keys strictly rising, no entry equal to what an unlisted key reads as. Register files,
tiles, window bytes and tables are held so. Core memory cells have the same form. -/
namespace Sys2Proof.Machine

/-- A sparse table: key and value, keys rising. What an unlisted key reads as is an argument of the operations. -/
abbrev Store (α : Type) := List (Nat × α)

/-- The entry at a key, if it is listed. -/
def storeFind {α : Type} : Store α → Nat → Option α
  | [], _ => none
  | (k, v) :: rest, key => if key = k then some v else storeFind rest key

/-- The value at a key. -/
def storeGet {α : Type} (dflt : α) (st : Store α) (key : Nat) : α := (storeFind st key).getD dflt

/-- The table without a key. -/
def storeErase {α : Type} : Store α → Nat → Store α
  | [], _ => []
  | (k, v) :: rest, key => if key = k then storeErase rest key else (k, v) :: storeErase rest key

/-- The table with a value at a key, which is then listed. -/
def storeSet {α : Type} : Store α → Nat → α → Store α
  | [], key, v => [(key, v)]
  | (k, w) :: rest, key, v =>
    if key = k then (key, v) :: rest else if key < k then (key, v) :: (k, w) :: rest else (k, w) :: storeSet rest key v

/-- Write a value at a key, keeping the canonical form for the default `dflt`. -/
def storePut {α : Type} [DecidableEq α] (dflt : α) (st : Store α) (key : Nat) (v : α) : Store α :=
  if v = dflt then storeErase st key else storeSet st key v

/-- Keys rise strictly, all above `lo` when it is given. -/
def storeSorted {α : Type} : Store α → Bool
  | [] => true
  | [_] => true
  | (k, _) :: (k', v') :: rest => decide (k < k') && storeSorted ((k', v') :: rest)

/-- The canonical form: keys rise strictly and no value is the default. -/
def storeWf {α : Type} [DecidableEq α] (dflt : α) (st : Store α) : Bool :=
  storeSorted st && st.all fun c => decide (c.2 ≠ dflt)

/-- The entries whose key lies in [lo, hi). -/
def storeRange {α : Type} (st : Store α) (lo hi : Nat) : Store α := st.filter fun c => decide (lo ≤ c.1) && decide (c.1 < hi)

/-- The table without the keys in [lo, hi). -/
def storeDropRange {α : Type} (st : Store α) (lo hi : Nat) : Store α := st.filter fun c => !(decide (lo ≤ c.1) && decide (c.1 < hi))

/-- A list in the rising order of a key, equal keys in their order before. -/
def insertBy {α : Type} (key : α → Nat) (x : α) : List α → List α
  | [] => [x]
  | y :: ys => if key y ≤ key x then y :: insertBy key x ys else x :: y :: ys

def sortBy {α : Type} (key : α → Nat) (l : List α) : List α := l.foldl (fun r x => insertBy key x r) []

end Sys2Proof.Machine
end

