-- ==== Sys2Proof/Machine/State.lean ====
section
/-! DEFINITION. The state of the module, all of it plain data, the reasons a step can stop, and the state after reset. -/
namespace Sys2Proof.Machine

/-! ## Registers and paths of a team -/

/-- A register that an instruction can read or write. -/
inductive RegRef where
  | v (r : LaneReg)
  | s (r : UReg)
  | m (r : MReg)
  deriving DecidableEq, Repr

/-- A scoreboard entry (R50): the register, the entry's number, the cycle by which its result is written at the latest (R211, R241, R259), `none` for
an outstanding load, whose response clears it, and the cycle of the form's last pass, before which nothing clears it. -/
structure SbEntry where
  id   : Nat
  reg  : RegRef
  due  : Option Nat
  last : Nat
  deriving DecidableEq, Repr

/-- A fixed-latency result that is not readable yet (R48): the path slot that wrote it, the mask word (`none`: the whole register), the lanes written
there, and the cycle from which it can be read. -/
structure Pend where
  slot  : Bool
  reg   : RegRef
  word  : Option Nat
  lanes : BitVec 32
  ready : Nat
  deriving DecidableEq, Repr

/-- What a path waits for at an instruction that waits (R45, R175, R285). -/
inductive Wait where
  /-- The instruction has begun, and executes again until it is done; a halt lets it complete (R406). -/
  | retry
  /-- The instruction waits to issue: for room in a queue, for a number, or for a flush before it takes effect. -/
  | issue
  /-- PUB: its waits and its flush are over, and its write is under way (R369); it waited for everything numbered below `lim`. -/
  | begun (lim : Nat)
  /-- The instruction traps with a code and an address once what issued before it has completed (R338). -/
  | trapping (code : Nat) (va : Dword)
  /-- An edge-making instruction, which waits for everything numbered below `lim` and then for its flush (R178, R283, R372). -/
  | upTo (lim : Nat)
  /-- The same at CBAR and AWAITW, whose waits are points of R405. -/
  | edge (lim : Nat)
  /-- COPYW, CHAINW and MWAIT (R175, R285): waiting for the operations with the numbers. -/
  | ops (ids : List Nat)
  /-- AWAIT: waiting for what was numbered below `lim`, and for the children of a handle or, with `none`, of every SPAWN below `lim` (R363). -/
  | awaiting (lim : Nat) (handle : Option Dword)
  /-- LDS: a granule that it reads is empty (R142, R144). -/
  | granule
  /-- YLD: done, and the team is to be saved here (R346). -/
  | yielded
  /-- CBAR: arrived, waiting for the flip (R366). -/
  | barrier
  /-- CBAR: the phase flipped; the wake message is on its way (R366). -/
  | woken
  /-- AWAITW: a watch is registered (R371). -/
  | watch
  /-- XSHUF: an entry is in the rally table, unpaired (R132). -/
  | rally
  /-- XSHUF: the paired partner was ended by KILL before its values arrived (R134). -/
  | broken
  /-- JOIN: waiting for the partner (R329). -/
  | join
  /-- SETTLE on a handle (R316): waiting for what was numbered below `lim` and for its flush, or, the capture sequence taken, for the engine. -/
  | settle (handle : Dword) (lim : Nat) (seq : Option Nat)
  /-- PUB: its write of `len` bytes at `va` is held by a binding; holds numbered from `n` on are its own (R305). -/
  | held (n : Nat) (va len : Nat)
  deriving DecidableEq, Repr

/-- What the next instruction of a path counts its stall from (R46): issue cycle, stall count, and the issue cycle of each pass by mask word. -/
structure Prev where
  issue  : Nat
  stl    : Nat
  passes : List (Nat × Nat)
  deriving DecidableEq, Repr

/-- A path (R324 and the text before R327). -/
structure Path where
  pc       : Dword
  mask     : LaneMask
  budget   : Nat
  sb       : List SbEntry
  wait     : Option Wait
  runCount : Nat
  /-- The instruction at `pc` has been counted in the budget and the run (R336: waiting spends nothing). -/
  charged  : Bool
  /-- The cycle in which the last run ended, or in which the path became ready without having run (R334). -/
  lastEnd  : Nat
  /-- The cycle since which the path has been ready without issuing a run (R394). -/
  readyAt  : Nat
  /-- Classes dropped for the next choice (R394). -/
  promo    : Nat
  prev     : Option Prev
  /-- After a REPLAY: the lanes for which the instruction at `pc` is unfinished (R414); `none`: all. -/
  redo     : Option LaneMask
  /-- Frames that a SPAWN waiting at `pc` has reserved (R354). -/
  held     : List Nat
  /-- The cycle before which the path's next run does not issue (R330). -/
  gate     : Nat
  /-- The instruction at `pc` has given up the sub-core while it waits (R335): its run has ended. -/
  gaveUp   : Bool
  /-- Lane registers that the instruction at `pc` has written while an unretired matrix command read them (R281): they become any value. -/
  spoils   : List LaneReg
  deriving DecidableEq, Repr

/-- The kinds of a reconvergence-stack entry (R327). -/
inductive StackKind where
  | pending | joined | split
  deriving DecidableEq, Repr

/-- A reconvergence-stack entry (R327, R332). -/
structure StackEntry where
  kind : StackKind
  slot : Bool
  pc   : Dword
  mask : LaneMask
  deriving DecidableEq, Repr

/-- A scale tag of a tile (R274): presence and window offset of the two vectors. -/
structure ScaleTag where
  a : Option (BitVec 12)
  b : Option (BitVec 12)
  deriving DecidableEq, Repr

/-! ## Asynchronous operations of a team -/

/-- Why an engine operation cannot complete (R176). -/
inductive EngineStop where
  /-- A translation fault: the operation is suspended. -/
  | fault
  /-- A write to a page of a bound result: code 0x0C at the wait. -/
  | bound
  /-- A misplacement: code 0x11 at the wait. -/
  | misplaced
  deriving DecidableEq, Repr

/-- One request of a copy (R167): source and destination address and length, not crossing a 128-byte line on either side, and where in the copy it was made:
how many rows were left, and the bytes of the row that were requested before. -/
structure CopyReq where
  src  : Nat
  dst  : Nat
  len  : Nat
  rows : Nat
  off  : Nat
  deriving DecidableEq, Repr

/-- A copy in flight (R167 to R179): the first row not wholly requested, the bytes of it that are, the rows from it on, and the requests that have
not landed, with their bytes. -/
structure CopyOp where
  id     : Nat
  tag    : BitVec 6
  ss     : Bool
  ds     : Bool
  stride : Dword
  asid   : BitVec 16
  src    : Dword
  dst    : Dword
  len    : Nat
  rows   : Nat
  twoD   : Bool
  off    : Nat
  flying : List (CopyReq × List Byte)
  stop   : Option (EngineStop × Nat)
  deriving DecidableEq, Repr

/-- A chain queued or running (R183, R189). -/
structure ChainOp where
  id   : Nat
  tag  : BitVec 6
  asid : BitVec 16
  desc : List Byte
  dst  : Nat
  n    : Nat
  next : Nat
  stop : Option (EngineStop × Nat)
  deriving DecidableEq, Repr

/-- An operand of an MMA fixed at issue (R271, R272). -/
inductive MmaOperand where
  | win (off : Nat)
  | lane (r : LaneReg)
  deriving DecidableEq, Repr

/-- An unretired matrix command (R275 to R281): its operands and formats as fixed at issue, and its progress. -/
structure MmaCmd where
  o       : MmaO
  af      : Ty
  bf      : Ty
  aslot   : BitVec 2
  bslot   : BitVec 2
  a       : MmaOperand
  b       : MmaOperand
  fmt     : Dword
  /-- Order numbers of the commands it waits for (R278). -/
  after   : List Nat
  started : Bool
  narrow  : Bool
  /-- The cycle in which the computation of a started command ends (R269). -/
  ends    : Nat
  /-- The command's resources were touched before its retirement (R281). -/
  touched : Bool
  result  : List Word
  nan     : Bool
  ovf     : Bool
  deriving DecidableEq, Repr

/-- A tile operation (R278, R286 to R290). -/
inductive TileOp where
  | zero (t : Tile)
  | load (t : Tile) (off : Nat)
  | store (t : Tile) (off : Nat)
  | codebook (k : BitVec 2) (off : Nat)
  | drain (o : DrainO) (desc : List Byte) (tag : ScaleTag)
  deriving DecidableEq, Repr

/-- An entry of the matrix queue, in its order of issue (R278). -/
inductive MatOp where
  | mma (c : MmaCmd)
  | tile (t : TileOp)
  deriving DecidableEq, Repr

structure MatEntry where
  order : Nat
  /-- The instruction, and s[A] and s[B] as its issue read them (R410); 0 where it reads none. -/
  i     : Instr
  sa    : Dword
  sb    : Dword
  op    : MatOp
  deriving DecidableEq, Repr

/-! ## Families, frames and deques -/

/-- An abnormal end (R364): cycle, TEAMID and status. -/
structure AbEnd where
  cycle  : Nat
  team   : Nat
  status : Word
  deriving DecidableEq, Repr

/-- The children of one SPAWN, in the spawning team (R352, R362): the record frame, its reuse tag, how many there are and how many have ended. -/
structure Kid where
  /-- Order of the SPAWN among all numbered things. -/
  seq    : Nat
  frame  : Nat
  tag    : BitVec 16
  first  : Nat
  size   : Nat
  ended  : Nat
  /-- The member frames of the children that a cohort holds beside the record. -/
  frames : List Nat
  /-- The abnormal ends among them, in order of time (R364). -/
  bad    : List AbEnd
  deriving DecidableEq, Repr

/-- What a child starts with (R356, R393). -/
structure TeamSpec where
  pid    : BitVec 5
  entry  : Dword
  lanes  : Nat
  vregs  : Nat
  tiles  : Nat
  window : Nat
  asid   : BitVec 16
  cls    : Nat
  sys    : Bool
  tree   : Nat
  chksb  : Bool
  args   : List Dword
  size   : Nat
  cohort : Option Nat
  /-- TEAMID and frame address of the spawner; `none` for a first team. -/
  parent : Option (Nat × Nat)
  /-- The child founds a launch tree (R393): it is a root team (R200, R201; DEDUCED, log 35). -/
  root   : Bool
  /-- The child's SPAWN made a stitch request that was ignored (R393). -/
  mesh   : Bool
  deriving DecidableEq, Repr

/-- What a deque entry stands for (R355, R360, R407). -/
inductive DeqKind where
  /-- One child or a cohort: next index, TEAMID of index 0, frames for the indices, indices cancelled by KILL. -/
  | spawn (spec : TeamSpec) (next : Nat) (first : Nat) (frames : List Nat) (cancelled : List Nat)
  /-- A saved eager continuation of the team (R360), with the frames of its chain. -/
  | cont (team : Nat) (frames : List Nat) (child : Nat)
  /-- A saved team that is not parked (R407). -/
  | saved (team : Nat)
  deriving DecidableEq, Repr

/-- A deque entry (R357): its sub-core of origin, its affinity, the order of its push and the cycle since which it waits. -/
structure DeqEnt where
  pid   : BitVec 5
  age   : Nat
  since : Nat
  sub   : Nat
  aff   : Aff
  kind  : DeqKind
  deriving DecidableEq, Repr

/-- A cohort's barrier (R366): arrivals of the phase, members that have ended. -/
structure Cohort where
  id      : Nat
  pid     : BitVec 5
  first   : Nat
  size    : Nat
  phase   : Bool
  arrived : List Nat
  ended   : List Nat
  deriving DecidableEq, Repr

/-- The kinds of a fault-queue entry (R401). -/
inductive FaultKind where
  | load | store | atomic | fetch | engineRead | engineWrite
  deriving DecidableEq, Repr

/-- A faulting access: address, kind, cause, and how many lanes it covers (R401, R419). -/
structure FaultAt where
  asid  : BitVec 16
  va    : Nat
  kind  : FaultKind
  cause : BitVec 4
  lanes : Nat
  low   : Nat
  deriving DecidableEq, Repr

/-- What a parked team is parked on (R397): the path's slot, its unfinished lanes, the pages of its faults, whether an engine operation's wait. -/
structure Park where
  slot       : Bool
  unfinished : LaneMask
  faults     : List FaultAt
  engine     : Bool
  deriving DecidableEq, Repr

/-- Where a team is (R325). -/
inductive Phase where
  | resident | saved | continuation | ended
  deriving DecidableEq, Repr

/-- Solo mode (R338): the slot of the trapped path, the lane that runs, and the path's active mask, whose other lanes are frozen. -/
structure Solo where
  slot : Bool
  lane : Nat
  mask : LaneMask
  deriving DecidableEq, Repr

/-- A pre-emption request (R405, R406): hard or soft, the cycle of the request, and whether a soft one has been granted at a point of the team. -/
structure PreReq where
  hard    : Bool
  at_     : Nat
  granted : Bool
  deriving DecidableEq, Repr

/-- A load access as a wafer holds it (R409): kind 0 LD, 1 LDK, 2 LDS, 3 SLD; for each covered lane its byte offset in the line. -/
structure Wafer where
  kind : Nat
  ty   : Ty
  dreg : BitVec 8
  word : Nat
  line : Nat
  offs : List (Nat × Nat)
  na   : Bool
  slot : Bool
  deriving DecidableEq, Repr

/-- Flags that a pass of a float form raises and that may not be in TSTAT yet (R202, R265): the number of the form's scoreboard entries, the flags, the
cycle of the pass, from which they may be set, and the cycle in which the form's result is readable, by which they are. -/
structure FlagPend where
  form  : Nat
  flags : BitVec 5
  start : Nat
  ready : Nat
  deriving DecidableEq, Repr

/-- A team and all that it holds (R190 to R202, R324 to R332). -/
structure Team where
  id        : Nat
  pid       : BitVec 5
  asid      : BitVec 16
  lanes     : Nat
  vregs     : Nat
  ntiles    : Nat
  window    : Nat
  phase     : Phase
  /-- Core (physical, die × 48 + quad × 4 + core of quad) and sub-core; meaningful while resident. -/
  core      : Nat
  sub       : Nat
  v         : Store Word
  s         : Store Dword
  m         : Store LaneMask
  tiles     : Store Word
  codebook  : Store (BitVec 16)
  tags      : Store ScaleTag
  win       : Store Byte
  /-- The granules of the window whose F bit is 0 (R142): listed with `true`. -/
  empty     : Store Bool
  path0     : Option Path
  path1     : Option Path
  /-- The reconvergence stack, most recent entry first; entries past the sixteenth are spilled (R332). -/
  stack     : List StackEntry
  spill     : List Nat
  gen       : BitVec 16
  chksb     : Bool
  /-- CHKSB as instructions see it, and the values written that do not apply yet, each with the slot whose next run makes it apply, the newest first
  (R201). -/
  chkNow    : Bool
  chkFrom   : List (Bool × Bool)
  /-- TSTAT once every pass so far has set its flags, and the flags among them that are set already (R202, R265). -/
  tstat     : BitVec 5
  sure      : BitVec 5
  narrow    : Bool
  ovf       : Bool
  nan       : Bool
  trapcode  : Dword
  trappc    : Dword
  trapva    : Dword
  frame     : Nat
  /-- The team goes on on a thief's sub-core: FRAME names the copy of its chain (R361), whose address is open and this free value (log 33). -/
  copied    : Option Nat
  cohidx    : Nat
  cohsize   : Nat
  cohort    : Option Nat
  parent    : Option Nat
  /-- A root team of a launch tree (R200, R201); its SPAWN made a stitch request that was ignored (R393). -/
  root      : Bool
  mesh      : Bool
  cls       : Nat
  sys       : Bool
  tree      : Nat
  attr      : Option Dword
  live      : Nat
  /-- Of a continuation (R360): how many lane registers its SPAWN.E declared live. -/
  contLive  : Nat
  kids      : List Kid
  copies    : List CopyOp
  chains    : List ChainOp
  matq      : List MatEntry
  pend      : List Pend
  flagPend  : List FlagPend
  park      : Option Park
  solo      : Option Solo
  /-- Lanes that an instruction which trapped with code 0x0C or 0x11 did not finish (R155, R410). -/
  unfinished : LaneMask
  preempt   : Option PreReq
  slotNo    : Option Nat
  wafers    : List Wafer
  /-- Slots whose CBAR has been met by the flip of its phase and has not completed (R366, R367). -/
  cbar      : List Bool
  /-- The status with which the team ends once its children have ended (R365); `none` while it runs. -/
  ending    : Option (Option AbEnd)
  deriving DecidableEq, Repr

/-! ## Core memory, caches and the directory -/

/-- Permission bits that travel with a line (R73). -/
structure Perms where
  w  : Bool
  x  : Bool
  s  : Bool
  wt : Bool
  deriving DecidableEq, Repr

/-- The key of a line: partition, ASID, VA[51:7] (R61, R84). -/
structure LineKey where
  pid  : BitVec 5
  asid : BitVec 16
  tag  : Nat
  deriving DecidableEq, Repr

/-- An L1 line (R139): K with its launch tree, per-word V and D, per-byte BE, and the dirty words whose flush is on its way home as they stand (R145).
`host` says that its home is the host port (R432). -/
structure L1Line where
  key   : LineKey
  perms : Perms
  k     : Option Nat
  data  : BitVec 1024
  v     : BitVec 32
  d     : BitVec 32
  be    : BitVec 128
  out   : BitVec 32
  host  : Bool
  deriving DecidableEq, Repr

/-- An L2 line (R84, R85); `pa` is the line's system physical address, `remote` says that it is a remote copy. -/
structure L2Line where
  key    : LineKey
  perms  : Perms
  pa     : Nat
  remote : Bool
  data   : BitVec 1024
  v      : BitVec 32
  d      : BitVec 32
  be     : BitVec 128
  own    : BitVec 32
  odie   : BitVec 64
  deriving DecidableEq, Repr

/-- A directory entry (R96): set, partial tag, and for each dense die the physical bank that may hold a copy. -/
structure DirEntry where
  set  : Nat
  ptag : Nat
  ptrs : List (Nat × Nat)
  deriving DecidableEq, Repr

/-- What a directory transaction serves (R98, R100). -/
inductive TxnKind where
  | rd | upg | rdx | evict
  deriving DecidableEq, Repr

/-- A directory transaction of a line (R98): the requesting die and its words, the dies whose answers are outstanding, the words to arrive in WBs
named by null acknowledges (R105). -/
structure Txn where
  key     : LineKey
  kind    : TxnKind
  die     : Nat
  words   : BitVec 32
  /-- Dies with an outstanding forward or INV-WB (their WBs are held) and dies with an outstanding INV. -/
  fwd     : List Nat
  inv     : List Nat
  /-- Words that a held WB of a die must still bring, after its null acknowledge. -/
  need    : List (Nat × BitVec 32)
  /-- The answer has been sent; it has been delivered. -/
  sent    : Bool
  landed  : Bool
  deriving DecidableEq, Repr

/-- A write request of a core (R124): its number, by which it is acknowledged, the core and the team that sent it (team 0: none), and the team's
generation. -/
structure WriteReq where
  id   : Nat
  core : Nat
  team : Nat
  gen  : BitVec 16
  deriving DecidableEq, Repr

/-- A write that a remote bank keeps until its ownership grant arrives (R99). -/
structure RemoteWrite where
  key   : LineKey
  data  : BitVec 1024
  be    : BitVec 128
  req   : WriteReq
  deriving DecidableEq, Repr

/-- An L2 bank (R84, R89, R96): its owner, its lines and directory entries, most recently used first, and its transactions. -/
structure Bank where
  owner : Option (BitVec 5)
  lines : List L2Line
  dir   : List DirEntry
  txns  : List Txn
  pend  : List RemoteWrite
  /-- Misses counted in the two sampling groups of the epoch (R93). -/
  hiMiss : Nat
  loMiss : Nat
  deriving DecidableEq, Repr

/-- What a request of a core is (R140, R145, R156, R164, R166). -/
inductive AckKind where
  | store | writeback | flush | atomic | persist
  deriving DecidableEq, Repr

/-- An unacknowledged request of a core (R140, R156, R166): the team, what it is, its first line, how many lines it covers, and its number. -/
structure Ack where
  pid   : BitVec 5
  team  : Nat
  kind  : AckKind
  key   : LineKey
  lines : Nat
  id    : Nat
  deriving DecidableEq, Repr

/-- A core's shared state (R16, R135, R167, R183, R350, R357). -/
structure Core where
  l1      : List L1Line
  deque   : List DeqEnt
  acks    : List Ack
  copyRR  : Nat
  chainRR : Nat
  /-- The L1 ways that the split leaves (R135, R137). -/
  ways    : Nat
  /-- The frame store (R350): the frames held on chip, by partition and pool address, most recently used first. -/
  frames  : List (BitVec 5 × Nat)
  deriving DecidableEq, Repr

/-- A run in progress on a sub-core (R333): the path that issues. -/
structure RunRef where
  pid  : BitVec 5
  team : Nat
  slot : Bool
  deriving DecidableEq, Repr

/-- A load access in flight (R50, R126, R408): where its response goes, the bytes it answers with, by lane, the registers among its destinations that an unretired
matrix command read (R281), where any value comes, and whether the team has stored since to a byte that it reads: made again it would read that store
(R141, R156). -/
structure LoadRec where
  pid   : BitVec 5
  team  : Nat
  gen   : BitVec 16
  core  : Nat
  sb    : Nat
  slot  : Bool
  wafer : Wafer
  vals  : List (Nat × Dword)
  any   : List LaneReg
  passed : Bool
  deriving DecidableEq, Repr

/-- A line that a PREF has requested and that cannot be had yet (R165): who asked, for which line, and whether into home's L2 alone. -/
structure Prefetch where
  core : Nat
  pid  : BitVec 5
  asid : BitVec 16
  sys  : Bool
  team : Nat
  tree : Nat
  va   : Nat
  l2   : Bool
  deriving DecidableEq, Repr

/-- An integer atomic of a RED, AMO, SAMO or doorbell addition on its way to the home ALU (R106, R400). -/
structure AtomicRec where
  pid  : BitVec 5
  asid : BitVec 16
  va   : Nat
  ty   : Ty
  aop  : Aop
  o    : Dword
  deriving DecidableEq, Repr

/-! ## Translation -/

/-- A TLB entry (R71): the page's base and size, its system address or its host address, and the ASID entry and the non-leaf entries that led to the leaf, with
their addresses (R62). -/
structure TlbEntry where
  mtu   : Nat
  pid   : BitVec 5
  asid  : BitVec 16
  base  : Nat
  size  : Nat
  addr  : Nat
  host  : Bool
  perms : Perms
  path  : List (Nat × Dword)
  deriving DecidableEq, Repr

/-- A cached table entry (R71): an ASID entry or a non-leaf entry, under its GPA. -/
structure WalkCache where
  mtu   : Nat
  pid   : BitVec 5
  asid  : BitVec 16
  addr  : Nat
  value : Dword
  /-- The VA range that the entry serves. -/
  lo    : Nat
  hi    : Nat
  deriving DecidableEq, Repr

/-- A window in which misses are translated by a fresh walk (R404); no ASID: every ASID of the partition; `whole`: opened for all of an ASID, or of all, so
that its TLBI covers the ASID entries too. -/
structure ShootWindow where
  pid  : BitVec 5
  asid : Option (BitVec 16)
  lo   : Nat
  hi   : Nat
  whole : Bool
  deriving DecidableEq, Repr

/-! ## The fabric -/

/-- A stop of the fabric (R109, R127); physical numbers. -/
inductive Stop where
  | quad (q : Nat) | bank (b : Nat) | mtu (m : Nat) | spe (d : Nat) | edge (e : Nat) | host | peer (p : Nat) | service
  deriving DecidableEq, Repr

/-- What a packet carries (R98 to R105, R110, R124, R127). -/
inductive Msg where
  | write (key : LineKey) (data : BitVec 1024) (be : BitVec 128) (req : WriteReq)
  | rd (key : LineKey) (die : Nat) (words : BitVec 32)
  | upg (key : LineKey) (die : Nat) (words : BitVec 32)
  | rdx (key : LineKey) (die : Nat) (words : BitVec 32)
  | wb (key : LineKey) (die : Nat) (words : BitVec 32) (data : BitVec 1024) (be : BitVec 128) (leaves : Bool)
  | inv (key : LineKey) (die : Nat) (words : BitVec 32)
  | invWb (key : LineKey) (die : Nat)
  | fwd (key : LineKey) (die : Nat) (words : BitVec 32)
  | ack (key : LineKey) (die : Nat)
  | ackData (key : LineKey) (die : Nat) (words : BitVec 32) (data : BitVec 1024) (be : BitVec 128)
  | nullAck (key : LineKey) (die : Nat) (words : BitVec 32)
  | data (key : LineKey) (words : BitVec 32) (data : BitVec 1024) (perms : Perms) (pa : Nat) (own : Bool)
  | grant (key : LineKey) (words : BitVec 32)
  | other
  deriving DecidableEq, Repr

/-- A packet in a router's VC (R111): position, input port (0 to 3 mesh, 4 the stop's own), VC, and since when it has no output. -/
structure Packet where
  pid     : BitVec 6
  dst     : Stop
  src     : Stop
  team    : Nat
  gen     : BitVec 16
  seq     : Option Nat
  mis     : Nat
  x       : Nat
  y       : Nat
  port    : Nat
  vc      : Nat
  blocked : Nat
  suspect : Bool
  flits   : Nat
  msg     : Msg
  deriving DecidableEq, Repr

/-- A packet at an endpoint: in an inbox, or in a bunker slot (R120); the cycle of its arrival. -/
structure Arrived where
  stop : Stop
  pkt  : Packet
  at_  : Nat
  deriving DecidableEq, Repr

/-- A watch that an AWAITW has registered (R371): the word, the condition, the value accepted at the write that met it. -/
structure Watch where
  pid  : BitVec 5
  team : Nat
  slot : Bool
  asid : BitVec 16
  va   : Nat
  ty   : Ty
  cc   : Cond
  cmp  : Dword
  got  : Option Dword
  deriving DecidableEq, Repr

/-- A rally-table entry (R132). -/
structure Rally where
  bank     : Nat
  pid      : BitVec 5
  team     : Nat
  slot     : Bool
  id       : Word
  regs     : List LaneReg
  lanes    : LaneMask
  deadline : Nat
  /-- The number of the pair that the entry belongs to. -/
  paired   : Option Nat
  deriving DecidableEq, Repr

/-! ## Standing products -/

/-- A pending log entry (R304). -/
structure LogEntry where
  seq   : Nat
  opB   : Bool
  va    : Nat
  emask : BitVec 4
  row   : Nat
  col   : Nat
  old   : Word
  new   : Word
  deriving DecidableEq, Repr

/-- A write of a word held by a binding (R305, R306): the word, its bytes, its enables and the core whose flush it belongs to. A write that several bindings hold
stands in each one's queue under one number. -/
structure HeldWrite where
  id   : Nat
  va   : Nat
  data : Word
  be   : BitVec 4
  core : Option Nat
  deriving DecidableEq, Repr

/-- The interlock states of R306. -/
inductive Interlock where
  | idle | apend | bpend | init
  deriving DecidableEq, Repr

/-- A live binding (R294 to R299, R306, R311). -/
structure Binding where
  slot    : Nat
  tag     : BitVec 16
  pid     : BitVec 5
  asid    : BitVec 16
  cbase   : Nat
  abase   : Nat
  bbase   : Nat
  lbase   : Nat
  m       : Nat
  n       : Nat
  k       : Nat
  cstride : Nat
  astride : Nat
  bstride : Nat
  t       : Nat
  afmt    : Ty
  bfmt    : Ty
  cfmt    : Ty
  bat     : Bool
  logn    : Nat
  capseq  : Nat
  appseq  : Nat
  entries : List LogEntry
  rowMarks : List Nat
  colMarks : List Nat
  rowCnt  : Store Nat
  colCnt  : Store Nat
  il      : Interlock
  hold    : List HeldWrite
  rej     : Nat
  err     : Bool
  /-- An operand word or an owned page was written through another mapping of its frame: C and the log area are any value until UNBIND (R297). -/
  lost    : Bool
  deriving DecidableEq, Repr

/-! ## Partitions, host link and module -/

/-- A code object that the runtime has loaded (R459): where its code lies, and the counts that R31, R136 and R192 check. -/
structure CodeObj where
  pid    : BitVec 5
  asid   : BitVec 16
  base   : Nat
  size   : Nat
  vregs  : Nat
  tiles  : Nat
  window : Nat
  deriving DecidableEq, Repr

/-- A fault-queue entry before it is popped (R401). -/
structure FaultEntry where
  pid    : BitVec 5
  asid   : BitVec 16
  va     : Nat
  kind   : FaultKind
  cause  : BitVec 4
  pc     : Dword
  team   : Nat
  core   : Nat
  gen    : BitVec 16
  ulanes : Nat
  merge  : Nat
  /-- The teams whose faults it holds: the first, and those whose faults have merged (R399). -/
  teams  : List Nat
  deriving DecidableEq, Repr

/-- A frame's contents (R352). -/
structure Frame where
  args   : List Dword
  entry  : Dword
  parent : Nat
  handle : Dword
  lanes  : Nat
  aff    : Aff
  size   : Nat
  deriving DecidableEq, Repr

/-- A partition (R421 to R425, R67, R92, R388, R351): what it owns and its function register block. -/
structure Partition where
  pid      : BitVec 5
  quads    : List Nat
  banks    : List Nat
  channels : List Nat
  weight   : Nat
  keyslot  : Nat
  base0    : Nat
  last0    : Nat
  base1    : Nat
  last1    : Nat
  hwBase   : Nat
  hwLast   : Nat
  enabled  : Bool
  tdisp    : Tdisp
  xasid    : Dword
  ceil     : Nat
  floor    : Nat
  share    : List Nat
  xnullack : Nat
  xrecov   : Nat
  xreject  : Nat
  xfpool   : Dword
  xfpsz    : Dword
  xsched   : Dword
  xfq      : Dword
  xfqdb    : Dword
  xtrapent : Dword
  xsvpool  : Dword
  xsvcnt   : Dword
  xlaunch  : Dword
  err      : Bool
  cause    : BitVec 5
  xhwin    : Dword
  xhpm     : Dword
  /-- For each dense die, how many epochs of R93 have ended. -/
  epochs   : Store Nat
  drop     : Nat
  hfault   : Nat
  stage2   : Store Dword
  frames   : List (Nat × Frame)
  frameTag : Store Nat
  saveUsed : List Nat
  trees    : List Nat
  overflow : List DeqEnt
  nextTeam : Nat
  /-- Re-stitched blocks (R112): launch tree, shape, first and last quad. -/
  stitch   : List (Nat × Nat × Nat × Nat)
  ideStream : Nat
  deriving DecidableEq, Repr

/-- States of a line in the port's cache (R433). -/
inductive PortState where
  | s | e | m
  deriving DecidableEq, Repr

/-- A 64-byte line of the port's cache (R433). -/
structure PortLine where
  line : Nat
  st   : PortState
  data : BitVec 512
  deriving DecidableEq, Repr

/-- A write toward host memory that is not yet sent on the link (R428). -/
structure HostWrite where
  pid  : BitVec 5
  addr : Nat
  data : List Byte
  deriving DecidableEq, Repr

/-- A host atomic at the port (R434): the value m once read, and the result once the operation has completed. -/
structure HostAtom where
  pid  : BitVec 5
  team : Nat
  slot : Bool
  lane : Nat
  addr : Nat
  ty   : Ty
  aop  : Aop
  o    : Dword
  c    : Dword
  m    : Option Dword
  done : Bool
  deriving DecidableEq, Repr

/-- A write-back that a home agent has not performed (R56): the channel whose agent it is (R58; `none` for a frame in no channel set), bytes by SPA. -/
structure AgentWrite where
  chan : Option Nat
  spa  : Nat
  data : List Byte
  be   : List Bool
  deriving DecidableEq, Repr

/-- HBM whose bytes were lost (R80, R429): the 2 MiB system frames, `none` for all; any value until written. -/
structure LostRange where
  frames : Option (List Nat)
  epoch  : Nat
  deriving DecidableEq, Repr

/-- Boot (R441): not powered through the sequence, stopped by a failed check, ready. -/
inductive Boot where
  | off | stopped | ready
  deriving DecidableEq, Repr

/-- Who moves next: an event of the hardware, or an issue of a sub-core after an extra delay. -/
inductive Turn where
  | event (e : Instr)
  | issue (sub : Nat) (delay : Nat)
  deriving DecidableEq, Repr

/-- The state of the module. -/
structure State where
  /-- The team in focus, the slot of its issuing path, and every other team. -/
  team    : Team
  slot    : Bool
  teams   : List Team
  /-- The sub-core that issues when the agenda is empty (physical core × 8 + sub-core). -/
  sub     : Nat
  agenda  : List Turn
  /-- The default turns taken so far (the model's own: whose turn it is with an empty agenda, DESIGN CHOICE, log 36). -/
  turn    : Nat
  cycle   : Nat
  /-- Operands read too early by the instruction in hand (R49): register and mask word, `none` the whole register. -/
  early   : List (RegRef × Option Nat)
  /-- The instruction in hand has retired; set by the meaning, read by the step. -/
  retired : Bool
  /-- The flags that the instruction in hand has raised, by lane (R225). -/
  raised  : List (Nat × BitVec 5)
  /-- Counter that numbers the free values and the open choices taken so far. -/
  free    : Nat
  /-- Counter that numbers scoreboard entries, engine operations, queue entries and cohorts. -/
  serial  : Nat
  running : Store RunRef
  pipes   : Store Nat
  /-- For each sub-core, the cycle after that of its last issue: the first in which another run issues (R17). -/
  issued  : Store Nat
  /-- For each sub-core, the team whose matrix command started last (R269). -/
  mmaRR   : Store Nat
  cores   : Store Core
  banks   : Store Bank
  loads   : List LoadRec
  prefs   : List Prefetch
  atomics : List AtomicRec
  mem     : List Host.Cell
  lost    : List LostRange
  /-- For each system frame, by number, the channels of its channel set in order (R58). -/
  chanSets : Store (List Nat)
  haq     : List AgentWrite
  poison  : List Nat
  tlb     : List TlbEntry
  walks   : List WalkCache
  shoots  : List ShootWindow
  parts   : List Partition
  objects : List CodeObj
  fq      : List FaultEntry
  fqWait  : List FaultEntry
  cohorts : List Cohort
  binds   : List Binding
  bindTag : Store Nat
  rally   : List Rally
  watches : List Watch
  -- the fabric
  packets : List Packet
  inbox   : List Arrived
  held    : List Arrived
  /-- By team and destination bank: the number of the next request that the bank awaits, and of the next that is sent (R124). -/
  seqNext : Store Nat
  seqSent : Store Nat
  lane    : List Packet
  bunker  : List Arrived
  caddie  : Nat
  caddieHeld : Option Nat
  caddieSeen : Nat
  rescues : Nat
  reissues : Nat
  tsus    : Nat
  /-- The caddie has been issued anew and has not passed router (0, 0) since (R122, R443). -/
  reissued : Bool
  /-- By queue and partition: how often weighted round robin has served the partition in the queue's round (R424). -/
  served  : Store Nat
  -- the host link
  link    : LinkMode
  /-- The rate in GT/s and the number of lanes that the link has trained to (R431). -/
  linkRate : Nat
  linkWidth : Nat
  hostMem : List Host.Cell
  durable : List Host.Cell
  port    : List PortLine
  portReq : List (Nat × Bool)
  hostOut : List HostWrite
  /-- Writes sent on the link that the host has not yet performed, in their order (R428). -/
  hostSent : List HostWrite
  hostAtoms : List HostAtom
  hostCache : List (BitVec 5 × Nat)
  /-- The host has signalled a global persistent flush that is not acknowledged, and the acknowledgements so far (R83). -/
  flushAsked : Bool
  flushAcks : Nat
  /-- What the host or the management function last received: bytes of an aperture read, a register's value, a message. -/
  hostRead : Option (List Byte)
  mgmtRead : Dword
  spdm    : Option Dword
  /-- The errors reported through PCIe advanced error reporting, the last first: a function's, or a fatal one of physical function 0 (`none`) (R427, R443). -/
  aer     : List (Option (BitVec 5))
  -- the module
  boot    : Boot
  fuse    : Nat
  /-- The security versions of the images that the boot has verified, in the order of R441's steps. -/
  images  : List Nat
  keys    : Store Nat
  epoch   : Nat
  limit   : Nat
  alarm   : Bool
  calm    : Nat
  fatal   : Bool
  dump    : Nat
  /-- The partitions whose sections the dump area holds, once the dump is complete (R443). -/
  dumped  : Option (List (BitVec 5))
  retiredUnits : List Nat
  /-- The two quads of each die that are not enabled (R14), by physical number. -/
  harvested : List Nat
  deriving DecidableEq, Repr

/-- Why a step stops with a fault. -/
inductive Fault where
  /-- A home agent is asked for an HBM address whose offset lies outside the backed 176 GiB of its die's window (R57): a second-stage entry names a
  frame that does not exist. Raised by every access that reaches memory through such an entry. Safe: the model stops where the manual gives
  the address no storage. -/
  | unbackedFrame
  deriving DecidableEq, Repr

/-- Why a step is refused. -/
inductive Refusal where
  /-- The instruction has no meaning yet. Raised by an arm of `exec` only. Safe. -/
  | notModelled (mnemonic : String)
  deriving DecidableEq, Repr

/-- A core with nothing in it. -/
def Core.blank : Core := { l1 := [], deque := [], acks := [], copyRR := 0, chainRR := 0, ways := 64, frames := [] }

/-- A bank with nothing in it and no owner. -/
def Bank.blank : Bank := { owner := none, lines := [], dir := [], txns := [], pend := [], hiMiss := 0, loMiss := 0 }

/-- No scale vectors (R274). -/
def ScaleTag.none : ScaleTag := { a := .none, b := .none }

/-- A team that holds nothing and has ended: what is in focus while no team exists. -/
def Team.blank : Team :=
  { id := 0, pid := 0, asid := 0, lanes := 1, vregs := 1, ntiles := 0, window := 0, phase := .ended, core := 0, sub := 0, v := [], s := [], m := [],
    tiles := [], codebook := [], tags := [], win := [], empty := [], path0 := none, path1 := none, stack := [], spill := [], gen := 0, chksb := false,
    chkNow := false, chkFrom := [], tstat := 0, sure := 0, narrow := false, ovf := false, nan := false, trapcode := 0, trappc := 0, trapva := 0, frame := 0, copied := none,
    cohidx := 0, cohsize := 1, cohort := none, parent := none, root := true, mesh := false, cls := 2, sys := false, tree := 0, attr := none, live := 1, contLive := 0, kids := [], copies := [],
    chains := [], matq := [], pend := [], flagPend := [], park := none, solo := none, unfinished := 0, preempt := none, slotNo := none, wafers := [],
    cbar := [], ending := none }

/-- The module right after power-on reset (which two quads of a die are not enabled is the model's, DESIGN CHOICE, log 64): nothing booted, no partition, no team, memory with nothing listed, the management registers at their
Reset values (R117 FABSUS 0x0200, R442 MPWR.LIMIT 0x0AF0 and ALARM 0, R443 MDUMP 0). -/
def State.reset : State :=
  { team := Team.blank, slot := false, teams := [], sub := 0, agenda := [], turn := 0, cycle := 0, early := [], retired := false, raised := [], free := 0, serial := 0,
    running := [], pipes := [], issued := [], mmaRR := [], cores := [], banks := [], loads := [], prefs := [], atomics := [], mem := [], lost := [], chanSets := [], haq := [], poison := [], tlb := [],
    walks := [], shoots := [], parts := [], objects := [], fq := [], fqWait := [], cohorts := [], binds := [], bindTag := [], rally := [], watches := [], packets := [],
    inbox := [], held := [], seqNext := [], seqSent := [], lane := [], bunker := [], caddie := 0, caddieHeld := none, caddieSeen := 0,
    rescues := 0, reissues := 0, tsus := 0x200, reissued := false, served := [], link := .cxl3, linkRate := 0, linkWidth := 0, hostMem := [], durable := [], port := [], portReq := [],
    hostOut := [], hostSent := [], hostAtoms := [], hostCache := [], flushAsked := false, flushAcks := 0, hostRead := none, mgmtRead := 0, spdm := none, aer := [], boot := .off, fuse := 0, images := [], keys := [], epoch := 0,
    limit := 0x0AF0, alarm := false, calm := 0, fatal := false, dump := 0, dumped := none, retiredUnits := [], harvested := [10, 11, 22, 23, 34, 35, 46, 47] }

end Sys2Proof.Machine
end

