-- ==== Sys2Proof/Machine/Operands.lean ====
section
/-! DEFINITION. Every operand form: registers, guards and masks, values by type, free values, and the retirement of an instruction. -/
namespace Sys2Proof.Machine

/-- A path slot that holds nothing reads so; no instruction issues from it. -/
def Path.blank : Path :=
  { pc := 0, mask := 0, budget := 0, sb := [], wait := none, runCount := 0, charged := false, lastEnd := 0, readyAt := 0, promo := 0, prev := none,
    redo := none, held := [], gate := 0, gaveUp := false, spoils := [] }

def Team.path (t : Team) (slot : Bool) : Option Path := if slot then t.path1 else t.path0

def Team.setPath (t : Team) (slot : Bool) (p : Option Path) : Team :=
  if slot then { t with path1 := p } else { t with path0 := p }

/-- The path in focus. -/
def State.path (s : State) : Path := (s.team.path s.slot).getD Path.blank

def State.setPath (s : State) (p : Path) : State := { s with team := s.team.setPath s.slot (some p) }

/-- The lanes below LANES (R195). -/
def laneLimit (lanes : Nat) : LaneMask := BitVec.ofNat 1024 (2 ^ lanes - 1)

/-- The set lanes of a mask among `lanes` lanes, ascending (R9). -/
def lanesOf (lanes : Nat) (m : LaneMask) : List Nat := (List.range lanes).filter fun l => m.getLsbD l

/-- Mask word `w` of a mask (R195). -/
def maskWord (m : LaneMask) (w : Nat) : Word := m.extractLsb' (32 * w) 32

/-- A number for each register, to name the free value of an early read. -/
def RegRef.code : RegRef → Nat
  | .v r => r.toNat
  | .s r => 256 + r.toNat
  | .m r => 384 + r.toNat

/-- The operand is read too early, in the pass of mask word `w` (R49). -/
def State.isEarly (s : State) (r : RegRef) (w : Nat) : Bool :=
  s.early.any fun e => decide (e.1 = r) && (match e.2 with | none => true | some w' => w' == w)

/-- The value of a uniform register (R32, R49). -/
def State.readU (s : State) (r : UReg) : Dword :=
  if r = 0 then 0
  else if s.isEarly (.s r) 0 then Config.earlyBits 64 s.free (RegRef.s r).code 0
  else storeGet 0 s.team.s r.toNat

/-- The value of a uniform register in the pass of mask word `w` of a lane form: a pass that reads it too early has a value of its own (R32, R49). -/
def State.readUIn (s : State) (r : UReg) (w : Nat) : Dword :=
  if r = 0 then 0
  else if s.isEarly (.s r) w then Config.earlyBits 64 s.free (RegRef.s r).code w
  else storeGet 0 s.team.s r.toNat

/-- Write of a uniform register; s0 discards (R32). -/
def State.writeU (s : State) (r : UReg) (v : Dword) : State :=
  if r = 0 then s else { s with team := { s.team with s := storePut 0 s.team.s r.toNat v } }

/-- The place of a lane register's lane in the register file (R190). -/
def laneKey (r : LaneReg) (l : Nat) : Nat := r.toNat * 1024 + l

/-- The 32 bits of a lane register in lane `l` (R190, R49). -/
def State.readV (s : State) (r : LaneReg) (l : Nat) : Word :=
  if s.isEarly (.v r) (l / 32) then Config.earlyBits 32 s.free (RegRef.v r).code l
  else storeGet 0 s.team.v (laneKey r l)

/-- The bits of a mask register that are read too early (R49). -/
def State.earlyMask (s : State) (m : MReg) : LaneMask :=
  s.early.foldl (fun (a : LaneMask) e =>
    if e.1 = .m m then (match e.2 with | none => BitVec.allOnes 1024 | some w => a ||| (0xFFFFFFFF : LaneMask) <<< (32 * w)) else a) 0

/-- The value of a mask register (R195, R49). -/
def State.readM (s : State) (m : MReg) : LaneMask :=
  let e := s.earlyMask m
  let v := storeGet 0 s.team.m m.toNat
  (if e = 0 then v else (v &&& ~~~e) ||| (Config.earlyBits 1024 s.free (RegRef.m m).code 0 &&& e)) &&& laneLimit s.team.lanes

/-- Write of a mask register; bits at or above LANES stay 0 (R195). -/
def State.writeM (s : State) (m : MReg) (v : LaneMask) : State :=
  { s with team := { s.team with m := storePut 0 s.team.m m.toNat (v &&& laneLimit s.team.lanes) } }

/-- A value of type `t` in lane `l`, its bits above the type's register width zero: one register, or an even-odd pair (R31, R218). -/
def State.readLane (s : State) (t : Ty) (r : LaneReg) (l : Nat) : Dword :=
  if t.is64 then (s.readV (r ||| 1) l) ++ (s.readV r l) else (s.readV r l).setWidth 64

/-- Write of 32 bits in one lane of a register file. -/
def putLane (v : Store Word) (r : LaneReg) (l : Nat) (x : Word) : Store Word := storePut 0 v (laneKey r l) x

/-- Write of a value of type `t` in lane `l` (R31, R218). -/
def putLaneTy (t : Ty) (v : Store Word) (r : LaneReg) (l : Nat) (x : Dword) : Store Word :=
  if t.is64 then putLane (putLane v r l (x.setWidth 32)) (r ||| 1) l ((x >>> 32).setWidth 32) else putLane v r l (x.setWidth 32)

/-- Writes of lanes of one register, in the order of the list: the only operation by which a lane form changes lane registers. -/
def State.writeLanes (s : State) (t : Ty) (d : LaneReg) (vals : List (Nat × Dword)) : State :=
  { s with team := { s.team with v := vals.foldl (fun v x => putLaneTy t v d x.1 x.2) s.team.v } }

/-- The active mask of the path in focus. -/
def State.active (s : State) : LaneMask := s.path.mask &&& laneLimit s.team.lanes

/-- The lanes that a guard names (R36). -/
def State.guardMask (s : State) (g : Guard) : LaneMask :=
  if g.gm = 15 then BitVec.allOnes 1024 else if g.gn then ~~~(s.readM g.gm) else s.readM g.gm

/-- The selected mask of a lane form (R196): the participating lanes; after a REPLAY the unfinished ones among them (R414). -/
def State.selected (s : State) (g : Guard) : LaneMask :=
  s.active &&& s.guardMask g &&& s.path.redo.getD (BitVec.allOnes 1024)

/-- The participating lanes in ascending order (R25). -/
def State.lanes (s : State) (g : Guard) : List Nat := lanesOf s.team.lanes (s.selected g)

/-- A team form acts when its guard selects at least one active lane (R37). -/
def State.acts (s : State) (g : Guard) : Bool := s.selected g != 0

/-- I as a value of type `t` (R33), except that F64 is converted by the float family. -/
def immValue (t : Ty) (i : Word) : Dword :=
  match t with
  | .i64 | .b64 => i.signExtend 64
  | .n64 => i.setWidth 64
  | .i8 | .n8 | .e4m3 | .e5m2 => (i.setWidth 8).setWidth 64
  | .i16 | .n16 | .f16 | .bf16 => (i.setWidth 16).setWidth 64
  | .i4 | .cb4 => (i.setWidth 4).setWidth 64
  | _ => i.setWidth 64

/-- A uniform register as a value of type `t`: bits w − 1:0 (R233, R235). -/
def State.readUTy (s : State) (t : Ty) (r : UReg) : Dword :=
  if t.is64 then s.readU r else ((s.readU r).setWidth 32).setWidth 64

/-- A uniform register as a value of type `t` in the pass of mask word `w` of a lane form (R235, R49). -/
def State.readUTyIn (s : State) (t : Ty) (r : UReg) (w : Nat) : Dword :=
  if t.is64 then s.readUIn r w else ((s.readUIn r w).setWidth 32).setWidth 64

/-- Operand B of a vector form in lane `l`, as a value (R235, R236). -/
def State.vsrc (s : State) (t : Ty) (b : VSrc) (l : Nat) : Dword :=
  match b with
  | .lane r => s.readLane t r l
  | .unif r => s.readUTyIn t r (l / 32)
  | .imm i => immValue t i

/-- Operand B of a vector form in lane `l`, as a control operand: 32 unsigned bits (R232, R235, R236). -/
def State.vctl (s : State) (b : VSrc) (l : Nat) : Word :=
  match b with
  | .lane r => s.readV r l
  | .unif r => (s.readUIn r (l / 32)).setWidth 32
  | .imm i => i

/-- Operand B of a uniform form, as a value (R233, R236). -/
def State.usrc (s : State) (t : Ty) (b : USrc) : Dword :=
  match b with
  | .reg r => s.readUTy t r
  | .imm i => immValue t i

/-- Operand B of a uniform or mask form, as 32 unsigned bits. -/
def State.uctl (s : State) (b : USrc) : Word :=
  match b with
  | .reg r => (s.readU r).setWidth 32
  | .imm i => i

/-- Operand B of VBCAST in the pass of mask word `w`, as 32 unsigned bits (R205, R49). -/
def State.uctlIn (s : State) (b : USrc) (w : Nat) : Word :=
  match b with
  | .reg r => (s.readUIn r w).setWidth 32
  | .imm i => i

/-- An offset word, sign-extended; absent means 0 (R152). -/
def offset (o : Option Word) : Dword :=
  match o with
  | none => 0
  | some i => i.signExtend 64

/-- Take a free value of width `w` (R10, fate 3): the value of the counter, which advances. -/
def State.freshBits (s : State) (w : Nat) : BitVec w × State := (Config.freeBits w s.free, { s with free := s.free + 1 })

/-- Take an open choice among `n` outcomes (R10, fate 4). -/
def State.choose (s : State) (n : Nat) : Nat × State := (Config.choice s.free % n, { s with free := s.free + 1 })

/-- Take the next serial number. -/
def State.nextSerial (s : State) : Nat × State := (s.serial, { s with serial := s.serial + 1 })

/-- The key of the sub-core that a team is on. -/
def Team.subKey (t : Team) : Nat := t.core * 8 + t.sub

/-- The run in progress on the focus team's sub-core ends, if it is the focus path's (R42, R333). -/
def State.endRun (s : State) : State :=
  if storeFind s.running s.team.subKey = some ⟨s.team.pid, s.team.id, s.slot⟩ then { s with running := storeErase s.running s.team.subKey } else s

/-- The instruction in hand is done, and the path's next instruction is at `pc`. With `fin` the run ends (R42, R335). -/
def State.goTo (s : State) (fin : Bool) (pc : Dword) : State :=
  let p := s.path
  let s := s.setPath
    { p with pc := pc, wait := none, charged := false, redo := none, held := [], runCount := if fin then 0 else p.runCount,
             lastEnd := if fin && !p.gaveUp then s.cycle else p.lastEnd, readyAt := if fin then s.cycle else p.readyAt,
             promo := if fin && !p.gaveUp then 0 else p.promo, gaveUp := false, spoils := [] }
  let s := if fin then s.endRun else s
  { s with retired := true }

/-- Retire an instruction of `n` bytes with header `h`: the path goes on at the next instruction. -/
def State.retire (s : State) (h : Hdr) (n : Nat) : State := s.goTo h.fin (s.path.pc + BitVec.ofNat 64 n)

/-- The path waits at its instruction, which keeps its place. With `giveUp` it gives up the sub-core (R335, R177): its run has ended, and a promotion with it
(R394). -/
def State.waitHere (s : State) (giveUp : Bool) (w : Wait) : State :=
  let p := s.path
  let s := s.setPath { p with wait := some w, gaveUp := giveUp, lastEnd := if giveUp && !p.gaveUp then s.cycle else p.lastEnd,
                              promo := if giveUp && !p.gaveUp then 0 else p.promo }
  if giveUp then s.endRun else s

/-- Shorthand for a next state. -/
abbrev Out := Host.Outcome State Fault Refusal

/-- The sources and destinations of lane values computed lane by lane from the state before the instruction. -/
def State.mapLanes (s : State) (g : Guard) (f : Nat → Dword) : List (Nat × Dword) := (s.lanes g).map fun l => (l, f l)

/-- The mask `old` with bit `l` set to `f l` for each participating lane; every other bit keeps its value (R237, R246). -/
def State.mapMask (s : State) (g : Guard) (old : LaneMask) (f : Nat → Bool) : LaneMask :=
  (s.lanes g).foldl (fun m l => if f l then m ||| BitVec.twoPow 1024 l else m &&& ~~~(BitVec.twoPow 1024 l)) old

end Sys2Proof.Machine
end

