-- ==== Sys2Proof/Machine/Flags.lean ====
section
/-! DEFINITION. Flags: TSTAT (R202), the status word of the matrix unit (R293), and the fields of special registers. -/
namespace Sys2Proof.Machine

/-- The bits of TSTAT (R202). -/
def flagNV : BitVec 5 := 1
def flagDZ : BitVec 5 := 2
def flagOF : BitVec 5 := 4
def flagUF : BitVec 5 := 8
def flagNX : BitVec 5 := 16

/-- Raise flags in lanes (R225): each is ORed into TSTAT. -/
def State.raiseFlags (s : State) (fs : List (Nat × BitVec 5)) : State :=
  { s with team := { s.team with tstat := fs.foldl (fun g x => g ||| x.2) s.team.tstat }, raised := s.raised ++ fs.filter fun x => x.2 != 0 }

/-- The flags that passes still have to set become certain as their results become readable (R202, R265). -/
def Team.settleFlags (t : Team) (cycle : Nat) : Team :=
  { t with sure := t.flagPend.foldl (fun g p => if p.ready ≤ cycle then g ||| p.flags else g) t.sure,
           flagPend := t.flagPend.filter fun p => decide (cycle < p.ready) }

/-- TSTAT as an SRD yields it (R265): what is certainly set, and of the flags of each pass whose result is not yet readable those that the pass has set
already, which they are being open; these stay set. -/
def State.tstatSeen (s : State) : BitVec 5 × State :=
  let t := s.team.settleFlags s.cycle
  let r := t.flagPend.foldl (fun (r : BitVec 5 × List FlagPend × State) p =>
    let (c, s) := r.2.2.choose 32
    let now := if p.start ≤ s.cycle then p.flags &&& BitVec.ofNat 5 c else 0
    (r.1 ||| now, r.2.1 ++ [{ p with flags := p.flags &&& ~~~now }], s)) (t.sure, [], s)
  (r.1, { r.2.2 with team := { t with sure := r.1, flagPend := r.2.1 } })

/-- An SWR clears flags (R202): those that are set by now. A flag that a pass sets in the SWR's cycle or after it ends set; which flags of a pass that
issued before that cycle are set by then is open. -/
def State.clearFlags (s : State) (f : BitVec 5) : State :=
  let t := s.team.settleFlags s.cycle
  let r := t.flagPend.foldl (fun (r : List FlagPend × State) p =>
    if s.cycle ≤ p.start then (r.1 ++ [p], r.2)
    else
      let (c, s) := r.2.choose 32
      (r.1 ++ [{ p with flags := p.flags &&& (~~~f ||| BitVec.ofNat 5 c) }], s)) ([], s)
  let sure := t.sure &&& ~~~f
  { r.2 with team := { t with sure := sure, flagPend := r.1, tstat := r.1.foldl (fun g p => g ||| p.flags) sure } }

/-- The writes of TCTL that stand once a path has started a run: its newest has applied, and with it every older one is past (R201). -/
def dropApplied (slot : Bool) : List (Bool × Bool) → List (Bool × Bool)
  | [] => []
  | x :: rest => if x.1 = slot then [] else x :: dropApplied slot rest

/-- The path of a slot starts a run: the TCTL that it wrote applies (R201). -/
def Team.startRun (t : Team) (slot : Bool) : Team :=
  match t.chkFrom.find? fun x => x.1 == slot with
  | some x => { t with chkNow := x.2, chkFrom := dropApplied slot t.chkFrom }
  | none => t

/-- The lane register that a reference names. -/
def RegRef.isLane : RegRef → Option LaneReg
  | .v r => some r | _ => none

/-- Bits of an element of an operand format (R272, R273). -/
def mmaBits : Ty → Nat
  | .bf16 | .f16 => 16
  | .cb4 | .i4 => 4
  | _ => 8

/-- The lane registers that a command reads (R272). -/
def MmaCmd.regs (c : MmaCmd) : List LaneReg :=
  let f (x : MmaOperand) (t : Ty) : List LaneReg := match x with
    | .win _ => []
    | .lane v => (List.range (2 * mmaBits t)).map fun i => v + BitVec.ofNat 8 i
  f c.a c.af ++ f c.b c.bf

/-- An unretired matrix command of the team reads a lane register (R281). -/
def Team.reads (t : Team) (r : LaneReg) : Bool := t.matq.any fun e => match e.op with | .mma c => c.regs.contains r | .tile _ => false

/-- An unretired matrix command that reads a lane register has been touched (R281). -/
def Team.spoilt (t : Team) (r : LaneReg) : Bool :=
  t.matq.any fun e => match e.op with | .mma c => c.touched && c.regs.contains r | .tile _ => false

/-- MMAs issued and not retired (R293 CMDQ). -/
def Team.cmdq (t : Team) : Nat := (t.matq.filter fun e => match e.op with | .mma _ => true | .tile _ => false).length
/-- Tile operations queued and not completed (R293 TOPQ). -/
def Team.topq (t : Team) : Nat := (t.matq.filter fun e => match e.op with | .mma _ => false | .tile _ => true).length

/-- A Bool as a bit at place `k` of a dword. -/
def bit64 (k : Nat) (b : Bool) : Dword := if b then BitVec.twoPow 64 k else 0

/-- The matrix status word (R293). -/
def Team.mstat (t : Team) : Dword :=
  bit64 19 t.narrow ||| bit64 18 t.ovf ||| bit64 17 t.nan ||| (BitVec.ofNat 64 t.topq <<< 12) ||| BitVec.ofNat 64 t.cmdq

/-- The bitmap of unretired command IDs (R292). -/
def Team.mmaIds (t : Team) : Dword :=
  t.matq.foldl (fun w e => match e.op with | .mma c => w ||| BitVec.twoPow 64 c.o.id.toNat | .tile _ => w) 0

end Sys2Proof.Machine
end

