-- ==== Sys2Proof/Machine/Integer.lean ====
section
/-! DEFINITION. The integer operations that the uniform and the vector family share (R231, R234, R238 to R240, R243, R245), on values held in the
low bits of a dword. -/
namespace Sys2Proof.Machine

/-- Width of a type in bits, as a register value (R231). -/
def Ty.bits : Ty → Nat
  | .b64 | .i64 | .n64 | .f64 => 64
  | .i8 | .n8 | .e4m3 | .e5m2 => 8
  | .i16 | .n16 | .f16 | .bf16 => 16
  | .i4 | .cb4 => 4
  | _ => 32

/-- The type is an I type (R217). -/
def Ty.signed : Ty → Bool
  | .i4 | .i8 | .i16 | .i32 | .i64 => true
  | _ => false

/-- The integer that the low bits of `x` stand for in type `t` (R231). -/
def intOf (t : Ty) (x : Dword) : Int :=
  let w := Ty.bits t
  let n := x.toNat % 2 ^ w
  if Ty.signed t && decide (2 ^ (w - 1) ≤ n) then (n : Int) - 2 ^ w else n

/-- The pattern of type `t` as an unsigned number. -/
def natOf (t : Ty) (x : Dword) : Nat := x.toNat % 2 ^ Ty.bits t

/-- The low bits of an integer's two's-complement pattern at the width of `t`, zeros above (R234). -/
def wrapTo (t : Ty) (r : Int) : Dword := BitVec.ofNat 64 (r % 2 ^ Ty.bits t).toNat

/-- `sat(r, t)` (R9). -/
def satTo (t : Ty) (r : Int) : Int := if Ty.signed t then satSigned (Ty.bits t) r else satUnsigned (Ty.bits t) r

/-- Write of an exact result: wrapping, or saturating (R234). -/
def fitTo (t : Ty) (sat : Bool) (r : Int) : Dword := wrapTo t (if sat then satTo t r else r)

/-- ADD, SUB, MUL (R239). -/
def intAdd (t : Ty) (sat : Bool) (a b : Dword) : Dword := fitTo t sat (intOf t a + intOf t b)
def intSub (t : Ty) (sat : Bool) (a b : Dword) : Dword := fitTo t sat (intOf t a - intOf t b)
def intMul (t : Ty) (sat : Bool) (a b : Dword) : Dword := fitTo t sat (intOf t a * intOf t b)
/-- MULH: the floor of the exact product over 2^w (R239). -/
def intMulh (t : Ty) (a b : Dword) : Dword := wrapTo t ((intOf t a * intOf t b).fdiv (2 ^ Ty.bits t))

/-- DIV (R240). -/
def intDiv (t : Ty) (a b : Dword) : Dword :=
  let y := intOf t b
  if y = 0 then wrapTo t (-1) else wrapTo t ((intOf t a).tdiv y)

/-- REM (R240). -/
def intRem (t : Ty) (a b : Dword) : Dword :=
  let y := intOf t b
  if y = 0 then wrapTo t (intOf t a) else wrapTo t ((intOf t a).tmod y)

/-- MIN, MAX in the order of the type (R239). -/
def intMin (t : Ty) (a b : Dword) : Dword := wrapTo t (min (intOf t a) (intOf t b))
def intMax (t : Ty) (a b : Dword) : Dword := wrapTo t (max (intOf t a) (intOf t b))

/-- SHL, SHR, SAR with a shift count of 32 unsigned bits (R239). -/
def intShl (t : Ty) (a : Dword) (k : Word) : Dword :=
  if k.toNat ≥ Ty.bits t then 0 else BitVec.ofNat 64 ((natOf t a * 2 ^ k.toNat) % 2 ^ Ty.bits t)
def intShr (t : Ty) (a : Dword) (k : Word) : Dword :=
  if k.toNat ≥ Ty.bits t then 0 else BitVec.ofNat 64 (natOf t a / 2 ^ k.toNat)
def intSar (t : Ty) (a : Dword) (k : Word) : Dword :=
  if k.toNat ≥ Ty.bits t then wrapTo t (if intOf t a < 0 then -1 else 0) else wrapTo t ((intOf t a).fdiv (2 ^ k.toNat))

/-- Bit-field position and length of a control operand (R239). -/
def fieldPos (k : Word) : Nat := k.toNat % 256
def fieldLen (t : Ty) (k : Word) : Nat := min (k.toNat / 256 % 256) (Ty.bits t)

/-- BFE (R239). -/
def intBfe (t : Ty) (a : Dword) (k : Word) : Dword :=
  let len := fieldLen t k
  let f := natOf t a / 2 ^ fieldPos k % 2 ^ len
  if len = 0 then 0
  else if Ty.signed t && decide (2 ^ (len - 1) ≤ f) then wrapTo t ((f : Int) - 2 ^ len) else wrapTo t f

/-- BFI (R239): bits p up to min(p + len, w) of `c` replaced by the low bits of `a`. -/
def intBfi (t : Ty) (a : Dword) (k : Word) (c : Dword) : Dword :=
  let p := fieldPos k
  let top := min (p + fieldLen t k) (Ty.bits t)
  let field := if p < top then BitVec.ofNat 64 (2 ^ top - 2 ^ p) else 0
  ((c &&& ~~~field) ||| ((a <<< p) &&& field)) &&& BitVec.ofNat 64 (2 ^ Ty.bits t - 1)

/-- Number of 1 bits among the low `n` bits of a number. -/
def popCount : Nat → Nat → Nat
  | 0, _ => 0
  | n + 1, x => x % 2 + popCount n (x / 2)

/-- Number of bits of a number: one more than the place of its highest 1 bit; 0 for 0. -/
def bitLength (x : Nat) : Nat := if x = 0 then 0 else Nat.log2 x + 1

/-- POPC, CLZ (R239). -/
def intPopc (t : Ty) (a : Dword) : Dword := BitVec.ofNat 64 (popCount (Ty.bits t) (natOf t a))
def intClz (t : Ty) (a : Dword) : Dword := BitVec.ofNat 64 (Ty.bits t - bitLength (natOf t a))

/-- The low `n` bits of a number in reverse order. -/
def reverseBits : Nat → Nat → Nat
  | 0, _ => 0
  | n + 1, x => x % 2 * 2 ^ n + reverseBits n (x / 2)

/-- VBREV (R245). -/
def intBrev (t : Ty) (a : Dword) : Dword := BitVec.ofNat 64 (reverseBits (Ty.bits t) (natOf t a))

/-- The conditions of SCMP, VCMP and AWAITW in the order of the type (R243). -/
def condHolds (t : Ty) (cc : Cond) (a b : Dword) : Bool :=
  let x := intOf t a
  let y := intOf t b
  match cc with
  | .eq => decide (x = y) | .ne => decide (x ≠ y) | .lt => decide (x < y) | .le => decide (x ≤ y) | .gt => decide (x > y) | .ge => decide (x ≥ y)

/-- A result of a uniform form, extended to 64 bits: sign-extended for I32, zero-extended for N32, B32 and F32, whole for the 64-bit types (R233). -/
def uniformResult (t : Ty) (x : Dword) : Dword :=
  match t with
  | .i32 | .i8 | .i16 => wrapTo .i64 (intOf t x)
  | _ => BitVec.ofNat 64 (natOf t x)

/-- A narrow value widened to a 32-bit register, or a 64-bit value whole (R157, R218). -/
def extendLane (t : Ty) (x : Dword) : Dword :=
  match t with
  | .i8 | .i16 => wrapTo .i32 (intOf t x)
  | _ => BitVec.ofNat 64 (natOf t x)

end Sys2Proof.Machine
end

