-- ==== Sys2Proof/Machine/Memory.lean ====
section
/-! DEFINITION. HBM and its home agents (R56 to R59), partitions and their banks (R8, R63, R421, R422), and the bits of lines. -/
namespace Sys2Proof.Machine

/-! ## Partitions -/

/-- Replace the first element that satisfies `p`. -/
def replaceFirst {α : Type} (p : α → Bool) (f : α → α) : List α → List α
  | [] => []
  | x :: xs => if p x then f x :: xs else x :: replaceFirst p f xs

def State.part (s : State) (pid : BitVec 5) : Option Partition := s.parts.find? fun p => p.pid == pid

def State.mapPart (s : State) (pid : BitVec 5) (f : Partition → Partition) : State :=
  { s with parts := replaceFirst (fun p => p.pid == pid) f s.parts }

/-- Distinct values of a sorted list. -/
def dedupe : List Nat → List Nat
  | a :: b :: rest => if a = b then dedupe (b :: rest) else a :: dedupe (b :: rest)
  | l => l

/-- The physical dies where the partition owns a bank, in the order of its dense numbers (R8, R421); the partition's lists are ascending. -/
def Partition.dies (p : Partition) : List Nat := dedupe (p.banks.map (· / Config.banksPerDie))

/-- The partition's banks on a physical die, in dense order. -/
def Partition.banksOn (p : Partition) (die : Nat) : List Nat := p.banks.filter fun b => b / Config.banksPerDie == die

/-- Dense number of a value in a list: its index, or the length where it is absent. -/
def denseOf (l : List Nat) (x : Nat) : Nat := l.findIdx (· == x)

/-- An ASID is the partition's (R421, R423): 0, or in one of its ranges. -/
def Partition.ownsAsid (p : Partition) (a : BitVec 16) : Bool :=
  a == 0 || (decide (p.base0 ≤ a.toNat) && decide (a.toNat ≤ p.last0)) || (decide (p.base1 ≤ a.toNat) && decide (a.toNat ≤ p.last1))

/-- A field h:l of a register. -/
def field (x : Dword) (hi lo : Nat) : Nat := x.toNat / 2 ^ lo % 2 ^ (hi + 1 - lo)

/-- XOR of the 16-bit pieces of a number of up to 64 bits (R63). -/
def fold16 (v : Nat) : Nat :=
  (v % 65536) ^^^ (v / 65536 % 65536) ^^^ (v / 4294967296 % 65536) ^^^ (v / 281474976710656 % 65536)

def hashDie (asid : BitVec 16) (va : Nat) : Nat := fold16 (va / 2 ^ 21 % 2 ^ 31 * 65536 + asid.toNat)
def hashBank (asid : BitVec 16) (va : Nat) : Nat := fold16 (va / 128 % 2 ^ 45 * 65536 + asid.toNat)

/-- Physical home die and bank of an address (R63, R64); `none` for a partition that owns no bank. -/
def Partition.home (p : Partition) (asid : BitVec 16) (va : Nat) : Option (Nat × Nat) :=
  let ds := p.dies
  match ds[hashDie asid va % ds.length]? with
  | none => none
  | some die =>
    let bs := p.banksOn die
    (bs[hashBank asid va % bs.length]?).map fun b => (die, b)

/-- The bank of the partition on a die that keeps a remote copy (R89). -/
def Partition.remoteBank (p : Partition) (asid : BitVec 16) (va die : Nat) : Option Nat :=
  let bs := p.banksOn die
  bs[hashBank asid va % bs.length]?

/-- The set of a line in a bank (R84). -/
def setIndex (asid : BitVec 16) (va : Nat) : Nat := hashBank asid va % 1024

def State.core (s : State) (c : Nat) : Core := storeGet Core.blank s.cores c
def State.putCore (s : State) (c : Nat) (x : Core) : State := { s with cores := storePut Core.blank s.cores c x }
def State.bank (s : State) (b : Nat) : Bank := storeGet Bank.blank s.banks b
def State.putBank (s : State) (b : Nat) (x : Bank) : State := { s with banks := storePut Bank.blank s.banks b x }

/-- Physical numbers of a core: cores of a die, quad, die. -/
def coresPerDie : Nat := 48
def coreDie (c : Nat) : Nat := c / coresPerDie
def coreQuad (c : Nat) : Nat := c / 4

/-! ## Host memory and the error state (R427, R428) -/

/-- A byte of host memory; an unlisted one reads as 0 (DESIGN CHOICE, log 20). -/
def State.hostByte (s : State) (a : Nat) : Byte := (storeFind s.hostMem a).getD 0

def State.hostPut (s : State) (a : Nat) (b : Byte) : State := { s with hostMem := storePut 0 s.hostMem a b }

def State.hostPutList (s : State) : Nat → List Byte → State
  | _, [] => s
  | a, b :: bs => (s.hostPut a b).hostPutList (a + 1) bs

/-- A write on the link at the moment when its partition's outbound traffic stops: each byte is performed at the host or not (R428). -/
def State.landSome (s : State) (w : HostWrite) : State :=
  let (m, s) := s.freshBits w.data.length
  w.data.zipIdx.foldl (fun s x => if m.getLsbD x.2 then s.hostPut (w.addr + x.2) x.1 else s) s

/-- The partition's outbound host traffic stops (R427, R428): what is not yet sent is dropped, what is on the link is performed byte by byte or not. -/
def State.spill (s : State) (pid : BitVec 5) : State :=
  (s.hostSent.filter fun w => w.pid == pid).foldl State.landSome
    { s with hostOut := s.hostOut.filter fun w => w.pid != pid, hostSent := s.hostSent.filter fun w => w.pid != pid }

/-- The uncorrectable non-fatal error that a partition reports in its function's name as it enters the error state (R427). -/
def State.reportErr (s : State) (pid : BitVec 5) : State :=
  match s.part pid with
  | some p => if p.err then s else { s with aer := some pid :: s.aer }
  | none => s

/-- The partition enters its error state for a cause (R427, R425), bit `k` of XERR: it reports it, and its outbound host traffic stops, the writes dropped being
counted (R428). -/
def State.partErr (s : State) (pid : BitVec 5) (k : Nat) : State :=
  let n := (s.hostOut.filter fun w => w.pid == pid).length
  (((s.reportErr pid).mapPart pid fun p => { p with err := true, cause := p.cause ||| BitVec.twoPow 5 k, drop := min (p.drop + n) 0xFFFFFFFF }).spill pid)

/-! ## HBM -/

/-- The channel of an HBM address (R58): block `b` of the frame's 8,192 blocks of 256 bytes lives on channel `b` mod `n` of the frame's channel set; `none`
for a frame that the partition manager has assigned to no set. -/
def State.channelOf (s : State) (spa : Nat) : Option Nat :=
  let set := storeGet [] s.chanSets (spa / 2097152)
  set[spa % 2097152 / 256 % set.length]?

/-- The partition that owns a channel (R21, R422). -/
def State.channelOwner (s : State) (c : Nat) : Option Partition := s.parts.find? fun p => p.channels.contains c

/-- An error that the home agent of a block cannot correct puts the partition that owns the block's channel in its error state, with the cause bit of R425 for
poison, and no other (R59). -/
def State.poisonErr (s : State) (chan : Option Nat) : State :=
  match chan.bind s.channelOwner with
  | some p => s.partErr p.pid 0
  | none => s

/-- The loss that an unlisted byte of HBM suffered last (R80, R429). -/
def State.lostAt (s : State) (spa : Nat) : Option Nat :=
  (s.lost.find? fun r => match r.frames with | none => true | some fs => fs.contains (spa / 2097152)).map (·.epoch)

/-- What an unlisted byte of HBM reads as (DESIGN CHOICE, log 20): 0 after power-on, any value after a loss. -/
def State.memDefault (s : State) (spa : Nat) : Byte :=
  match s.lostAt spa with
  | none => 0
  | some e => Config.lostByte e spa

/-- A byte of HBM. -/
def State.memByte (s : State) (spa : Nat) : Byte := (storeFind s.mem spa).getD (s.memDefault spa)

/-- Write of a byte of HBM: 0 is not listed where an unlisted byte reads as 0. -/
def State.memPut (s : State) (spa : Nat) (b : Byte) : State :=
  { s with mem := if b = 0 ∧ s.lostAt spa = none then storeErase s.mem spa else storeSet s.mem spa b }

/-- Writes of the enabled bytes of a list from an address up. -/
def State.memPutList (s : State) : Nat → List Byte → List Bool → State
  | a, b :: bs, e :: es => (if e then s.memPut a b else s).memPutList (a + 1) bs es
  | _, _, _ => s

/-- The canonical form of HBM cells: addresses strictly rising, and a listed 0 only where an unlisted byte reads otherwise. -/
def State.memWf (s : State) : Bool :=
  storeSorted s.mem && s.mem.all fun c => c.2 != 0 || (s.lostAt c.1).isSome

/-- The byte that a request arriving now at the home agent obtains (R56): the latest queued write-back of it, else HBM. -/
def State.viewByte (s : State) (spa : Nat) : Byte :=
  s.haq.foldl (fun v w =>
    if w.spa ≤ spa ∧ spa < w.spa + w.data.length ∧ w.be.getD (spa - w.spa) false then w.data.getD (spa - w.spa) 0 else v) (s.memByte spa)

/-- `n` bytes from an address up, as a little-endian number (R4). -/
def State.viewNat (s : State) (spa : Nat) : Nat → Nat
  | 0 => 0
  | n + 1 => (s.viewByte spa).toNat + 256 * s.viewNat (spa + 1) n

/-- The address is backed HBM (R57). -/
def backed (spa : Nat) : Bool := decide (spa < 2 ^ 40) && decide (spa % 2 ^ 38 < Config.backedBytes)

/-! ## Bits of a line -/

/-- The bits of a mask below `n`, as a list. -/
def setBits (n : Nat) (m : Nat) : List Nat := (List.range n).filter fun k => m.testBit k

/-- The byte mask of a word mask. -/
def wordsToBytes (m : BitVec 32) : BitVec 128 :=
  (List.range 32).foldl (fun a k => if m.getLsbD k then a ||| (0xF : BitVec 128) <<< (4 * k) else a) 0

/-- The words that a byte mask touches, and those of which it holds every byte. -/
def bytesToWords (be : BitVec 128) : BitVec 32 :=
  (List.range 32).foldl (fun a k => if be.extractLsb' (4 * k) 4 = 0 then a else a ||| BitVec.twoPow 32 k) 0
def fullWords (be : BitVec 128) : BitVec 32 :=
  (List.range 32).foldl (fun a k => if be.extractLsb' (4 * k) 4 = 0xF then a ||| BitVec.twoPow 32 k else a) 0

/-- The bit mask of a byte mask. -/
def bytesToBits (be : BitVec 128) : BitVec 1024 :=
  (setBits 128 be.toNat).foldl (fun a k => a ||| (0xFF : BitVec 1024) <<< (8 * k)) 0

/-- Bytes of `new` where enabled, else of `old`. -/
def mergeLine (old new : BitVec 1024) (be : BitVec 128) : BitVec 1024 :=
  let m := bytesToBits be
  (old &&& ~~~m) ||| (new &&& m)

def wordAt (d : BitVec 1024) (k : Nat) : Word := d.extractLsb' (32 * k) 32
def byteAt (d : BitVec 1024) (k : Nat) : Byte := d.extractLsb' (8 * k) 8

/-- `n` bytes at offset `k` of a line, as a number. -/
def lineNat (d : BitVec 1024) (k n : Nat) : Nat := d.toNat / 2 ^ (8 * k) % 2 ^ (8 * n)
/-- A value of `n` bytes placed at offset `k` of a line, and its byte mask. -/
def placeNat (k n v : Nat) : BitVec 1024 := BitVec.ofNat 1024 (v % 2 ^ (8 * n) * 2 ^ (8 * k))
def placeBe (k n : Nat) : BitVec 128 := BitVec.ofNat 128 ((2 ^ n - 1) * 2 ^ k)

/-- The word mask of the bytes from offset `k`, `n` bytes long. -/
def wordsOfRange (k n : Nat) : BitVec 32 := bytesToWords (placeBe k n)

/-- Bytes of a list as a little-endian number, and back (R4). -/
def bytesNat : List Byte → Nat
  | [] => 0
  | b :: bs => b.toNat + 256 * bytesNat bs

/-- Queue a write-back of the enabled bytes of a line at the home agent of its channel (R21, R58). -/
def State.toAgent (s : State) (pa : Nat) (d : BitVec 1024) (be : BitVec 128) : State :=
  if be = 0 then s
  else { s with haq := s.haq ++ [⟨s.channelOf pa, pa, (List.range 128).map (byteAt d), (List.range 128).map be.getLsbD⟩] }

/-- The byte enables of the dirty words of a line: only with D = 1 does BE count (R85). -/
def dirtyBytes (d : BitVec 32) (be : BitVec 128) : BitVec 128 := be &&& wordsToBytes d

/-- `n` bytes at an offset as a number. -/
def getN (bs : List Byte) (off n : Nat) : Nat := bytesNat ((bs.drop off).take n)

end Sys2Proof.Machine
end

