-- ==== Sys2Proof/Machine/Mtu.lean ====
section
/-! DEFINITION. The memory translation units (R60 to R79, R402 to R404, R432): walks, TLBs, misplacement and host windows. -/
namespace Sys2Proof.Machine

/-- How a translation ends: an address (system or host) with the leaf's bits, a translation fault with its CAUSE (R70, R401), a misplacement (R78),
or a frame without storage. -/
inductive Xlate where
  | ok (addr : Nat) (host : Bool) (perms : Perms) (s : State)
  | fault (cause : BitVec 4)
  | misplaced
  | unbacked

/-- The second stage (R66): the system address of a guest address of HBM, if the frame is backed. -/
def Partition.guest (p : Partition) (gpa : Nat) : Option Nat :=
  let e := storeGet 0 p.stage2 (gpa / 2097152)
  if e.getLsbD 0 then some (field e 51 21 * 2097152 + gpa % 2097152) else none

/-- An 8-byte table entry as the MTU reads it (R71), or how the walk ends there (R66, R70). -/
inductive TableRead where
  | entry (v : Dword)
  | stop (x : Xlate)

/-- A poisoned entry is any value (R59); which, is the same for every read of it in one cycle (DESIGN CHOICE, log 61). -/
def tableRead (s : State) (p : Partition) (gpa : Nat) : TableRead :=
  if gpa / 2 ^ 40 ≠ 0 then .stop (.fault 2)
  else match p.guest gpa with
    | none => .stop (.fault 0)
    | some spa =>
      if !backed spa then .stop .unbacked
      else if s.poison.contains (spa / 256) then .entry (Config.earlyBits 64 s.free s.cycle spa)
      else .entry (BitVec.ofNat 64 (s.viewNat spa 8))

/-- An ASID entry or non-leaf entry that was read before still names the table that it named: what lies below another table belongs to another address space,
which an access yields no value of (R62; DEDUCED, log 63). -/
def stands (s : State) (p : Partition) (x : Nat × Dword) : Bool :=
  match tableRead s p x.1 with
  | .entry e => e == x.2 || !e.getLsbD 0
  | .stop _ => true

/-- The value of an ASID entry or a non-leaf entry: cached (R71), where it still stands, unless the walk is a fresh one (R404). -/
def cachedRead (s : State) (p : Partition) (mtu : Nat) (asid : BitVec 16) (fresh : Bool) (gpa : Nat) : TableRead :=
  match (if fresh then none else s.walks.find? fun w => w.mtu == mtu && w.pid == p.pid && w.asid == asid && w.addr == gpa && stands s p (gpa, w.value)) with
  | some w => .entry w.value
  | none => tableRead s p gpa

/-- A leaf of a walk: the guest address that it gives the accessed address, its size as log2, its bits; and the entries read on the way. -/
inductive Walked where
  | leaf (gpa : Nat) (size : Nat) (perms : Perms) (used : List WalkCache)
  | stop (x : Xlate)

/-- The levels of a walk from level `k − 1` down (R68 to R70). An entry with V = 0 ends the walk with that cause whatever its reserved bits hold: R70 gives no
order (DESIGN CHOICE, log 62). -/
def walkLevels (s : State) (p : Partition) (mtu : Nat) (asid : BitVec 16) (va : Nat) (fresh : Bool) :
    Nat → Nat → List WalkCache → Walked
  | 0, _, _ => .stop (.fault 2)
  | k + 1, table, used =>
    let sh := 12 + 9 * k
    let idx := if k = 3 then va / 2 ^ 39 % 8192 else va / 2 ^ sh % 512
    let gpa := table + 8 * idx
    match cachedRead s p mtu asid fresh gpa with
    | .stop x => .stop x
    | .entry e =>
      let addr := field e 51 12 * 4096
      if !e.getLsbD 0 then .stop (.fault 0)
      else if field e 59 52 ≠ 0 ∨ field e 11 8 ≠ 0 ∨ field e 5 4 ≠ 0 then .stop (.fault 2)
      else if e.getLsbD 1 then
        if k = 3 ∨ addr % 2 ^ sh ≠ 0 then .stop (.fault 2)
        else .leaf (addr + va % 2 ^ sh) sh ⟨e.getLsbD 2, e.getLsbD 3, e.getLsbD 6, e.getLsbD 7⟩ used
      else if k = 0 then .stop (.fault 2)
      else walkLevels s p mtu asid va fresh k addr
        (⟨mtu, p.pid, asid, gpa, e, va / 2 ^ sh * 2 ^ sh, va / 2 ^ sh * 2 ^ sh + 2 ^ sh⟩ :: used)

/-- The ASID table's entry of an ASID (R67). -/
def Partition.asidEntry (p : Partition) (asid : BitVec 16) : Nat := field p.xasid 51 12 * 4096 + 8 * asid.toNat

/-- A walk for (ASID, VA) (R67, R68). -/
def walk (s : State) (p : Partition) (mtu : Nat) (asid : BitVec 16) (va : Nat) (fresh : Bool) : Walked :=
  match cachedRead s p mtu asid fresh (p.asidEntry asid) with
  | .stop x => .stop x
  | .entry e =>
    if !e.getLsbD 0 then .stop (.fault 0)
    else if field e 15 1 ≠ 0 ∨ field e 63 52 ≠ 0 then .stop (.fault 2)
    else walkLevels s p mtu asid va fresh 4 (field e 51 16 * 65536) [⟨mtu, p.pid, asid, p.asidEntry asid, e, 0, 2 ^ 52⟩]

/-- The system addresses of the poisoned table entries that a walk comes by, from an entry at a level down (R59). -/
def poisonedEntries (s : State) (p : Partition) (va : Nat) : Nat → Nat → List Nat
  | 0, _ => []
  | k + 1, gpa =>
    let here := match p.guest gpa with | some spa => if s.poison.contains (spa / 256) then [spa] else [] | none => []
    here ++ match tableRead s p gpa with
      | .entry e =>
        if !e.getLsbD 0 || (e.getLsbD 1 && k != 4) then []
        else
          let sh := 12 + 9 * (k - 1)
          let table := if k = 4 then field e 51 16 * 65536 else field e 51 12 * 4096
          poisonedEntries s p va k (table + 8 * (if k = 4 then va / 2 ^ 39 % 8192 else va / 2 ^ sh % 512))
      | .stop _ => []

/-- A walk has read poisoned table entries: their channels' partitions enter their error states (R59, R425). -/
def State.walkPoison (s : State) (pid : BitVec 5) (asid : BitVec 16) (va : Nat) : State :=
  match s.poison, s.part pid with
  | _ :: _, some p => (poisonedEntries s p va 5 (p.asidEntry asid)).foldl (fun s spa => s.poisonErr (s.channelOf spa)) s
  | _, _ => s

/-- The host address lies in the partition's window (R432). -/
def Partition.admits (p : Partition) (host : Nat) : Bool := decide (p.hwBase ≤ host / 2097152) && decide (host / 2097152 ≤ p.hwLast)

/-- The last checks on a translated address: host admission (R432), misplacement (R78), storage (R57). -/
def finishXlate (s : State) (p : Partition) (die addr : Nat) (host : Bool) (perms : Perms) : Xlate :=
  if host then (if p.admits addr then .ok addr true perms s else .fault 0)
  else if addr / 2 ^ 38 ≠ die then .misplaced
  else if backed addr then .ok addr false perms s
  else .unbacked

/-- Misses in the range are translated by a fresh walk (R404). -/
def State.shooting (s : State) (pid : BitVec 5) (asid : BitVec 16) (va : Nat) : Bool :=
  s.shoots.any fun w => w.pid == pid && (w.asid == none || w.asid == some asid) && decide (w.lo ≤ va) && decide (va < w.hi)

/-- Translation of an address at its home MTU (R64, R68, R71): a TLB hit, or a walk that fills the MTU's TLB, of 2,048 entries, and its walk cache. -/
def translate (s : State) (pid : BitVec 5) (asid : BitVec 16) (va : Nat) : Xlate :=
  match s.part pid with
  | none => .fault 0
  | some p =>
    match p.home asid va with
    | none => .fault 0
    | some (die, bank) =>
      let mtu := bank / 16
      let fresh := s.shooting pid asid va
      match (if fresh then none else
          s.tlb.find? fun t => t.mtu == mtu && t.pid == pid && t.asid == asid && decide (t.base ≤ va) && decide (va < t.base + t.size) &&
            t.path.all (stands s p)) with
      | some t => finishXlate s p die (t.addr + (va - t.base)) t.host t.perms
      | none =>
        match walk s p mtu asid va fresh with
        | .stop x => x
        | .leaf gpa sh perms used =>
          let path := used.map fun w => (w.addr, w.value)
          let s := s.walkPoison pid asid va
          let fill (addr : Nat) (host : Bool) (sh : Nat) : State :=
            if fresh then s
            else { s with
              tlb := (⟨mtu, pid, asid, va / 2 ^ sh * 2 ^ sh, 2 ^ sh, addr - va % 2 ^ sh, host, perms, path⟩ :: s.tlb.filter fun t => t.mtu == mtu).take Config.tlbEntries ++
                s.tlb.filter fun t => t.mtu != mtu,
              walks := used.filter (fun w => !s.walks.contains w) ++ s.walks }
          if gpa / 2 ^ 48 % 16 = 1 ∧ gpa / 2 ^ 52 = 0 then
            finishXlate (fill (gpa % 2 ^ 48) true sh) p die (gpa % 2 ^ 48) true perms
          else if gpa / 2 ^ 40 ≠ 0 then .fault 0
          else match p.guest gpa with
            | none => .fault 0
            | some spa => finishXlate (fill spa false (min sh 21)) p die spa false perms

/-- What an access needs of a line (R74). -/
inductive Need where
  | read | write | fetch
  deriving DecidableEq, Repr

/-- A line's bits allow the access (R74). -/
def Perms.allow (p : Perms) (n : Need) (sys : Bool) : Bool :=
  (sys || !p.s) && (match n with | .read => true | .write => p.w | .fetch => p.x)

end Sys2Proof.Machine
end

