-- ==== Sys2Proof/Machine/Home.lean ====
section
/-! DEFINITION. The home of a line (R84 to R108): banks, the directory's actions for accesses at home, messages, and the watches of AWAITW (R371). -/
namespace Sys2Proof.Machine

/-! ## Packets -/

/-- The router of a stop in the 16×16 mesh (R109; the places inside a die are the model's, DESIGN CHOICE, log 21). -/
def Stop.router : Stop → Nat × Nat
  | .bank b => let d := b / 64; let i := b % 64; (d % 2 * 8 + i % 8, d / 2 * 8 + i / 8)
  | .quad q => let d := q / 12; let i := q % 12; (d % 2 * 8 + i % 8, d / 2 * 8 + i / 8)
  | .mtu m => let d := m / 4; let i := m % 4; (d % 2 * 8 + 2 * i, d / 2 * 8 + 7)
  | .spe d => (d % 2 * 8 + 3, d / 2 * 8 + 3)
  | .edge e => if e = 0 then (0, 0) else (15, 0)
  | .host => (0, 0)
  | .service => (0, 0)
  | .peer _ => (15, 0)

/-- The input port of its router through which a stop's packets enter (R109): beside the four mesh ports 0 to 3 a router has up to four stop ports, and no
two stops of different kinds share one. Which number a stop's port has is the model's (DESIGN CHOICE, log 21). -/
def Stop.port : Stop → Nat
  | .quad _ => 4
  | .bank _ => 5
  | .mtu _ => 6
  | .spe _ => 6
  | _ => 7

/-- The data flits of a message (R111): one for each 32-byte sector in which it brings bytes. Which messages bring bytes, and that they fill no more flits, is
the model's (DESIGN CHOICE, log 65). -/
def sectors (words : BitVec 32) : Nat := ((List.range 4).filter fun q => (words >>> (8 * q)) &&& 0xFF != 0).length

def Msg.dataFlits (m : Msg) : Nat :=
  match m with
  | .write _ _ be _ => sectors (bytesToWords be)
  | .wb _ _ words _ _ _ => sectors words
  | .ackData _ _ words _ _ => sectors words
  | .data _ words _ _ _ _ => sectors words
  | _ => 0

/-- A packet as it enters the fabric at its source's router, in VC 0 of the stop's own port (R111; the VC is the model's, DESIGN CHOICE, log 65). -/
def packetOf (pid : BitVec 5) (src dst : Stop) (msg : Msg) (cycle : Nat) : Packet :=
  { pid := pid.setWidth 6, dst := dst, src := src, team := 0, gen := 0, seq := none, mis := 0, x := src.router.1, y := src.router.2, port := src.port, vc := 0,
    blocked := cycle, suspect := false, flits := 1 + msg.dataFlits, msg := msg }

/-- A message enters the fabric (R111). -/
def State.send (s : State) (pid : BitVec 5) (src dst : Stop) (msg : Msg) : State :=
  { s with packets := s.packets ++ [packetOf pid src dst msg s.cycle] }

/-! ## Lines of a bank -/

def lineTag (va : Nat) : Nat := va / 128 % 2 ^ 45
def LineKey.va (k : LineKey) : Nat := k.tag * 128
def keyOf (pid : BitVec 5) (asid : BitVec 16) (va : Nat) : LineKey := ⟨pid, asid, lineTag va⟩

def Bank.find (b : Bank) (key : LineKey) (remote : Bool) : Option L2Line := b.lines.find? fun l => l.key == key && l.remote == remote

/-- Put a line in a bank as its most recently used one. -/
def Bank.put (b : Bank) (l : L2Line) : Bank :=
  { b with lines := l :: b.lines.filter fun x => !(x.key == l.key && x.remote == l.remote) }

def Bank.dropLine (b : Bank) (key : LineKey) (remote : Bool) : Bank :=
  { b with lines := b.lines.filter fun x => !(x.key == key && x.remote == remote) }

/-- Directory set and partial tag (R96). -/
def dirSet (k : LineKey) : Nat := hashBank k.asid k.va % 512
def dirTag (k : LineKey) : Nat := hashBank k.asid k.va / 1024 * 16384 + k.va / 8192 % 16384

/-- The directory entry of a line is being evicted: the entry is in use until all its lines are recalled (R100). -/
def Bank.evicting (b : Bank) (key : LineKey) : Bool := b.txns.any fun t => t.kind == .evict && dirSet t.key == dirSet key && dirTag t.key == dirTag key

/-- A line is in a directory transaction (R98), its own or that of its entry's eviction. -/
def Bank.busyOn (b : Bank) (key : LineKey) : Bool := (b.txns.any fun t => t.key == key) || b.evicting key

def Bank.dirEntry (b : Bank) (k : LineKey) : Option DirEntry := b.dir.find? fun e => e.set == dirSet k && e.ptag == dirTag k

/-- A fresh line without data (R86). -/
def newLine (key : LineKey) (perms : Perms) (pa : Nat) (remote : Bool) : L2Line :=
  { key := key, perms := perms, pa := pa, remote := remote, data := 0, v := 0, d := 0, be := 0, own := 0, odie := 0 }

/-- The dense die that owns word `k` of a home line, if any (R85). -/
def L2Line.owner (l : L2Line) (k : Nat) : Option Nat :=
  if l.own.getLsbD k then some (l.odie.extractLsb' (2 * k) 2).toNat else none

/-- The words of a line that a dense die owns. -/
def L2Line.ownedBy (l : L2Line) (die : Nat) : BitVec 32 :=
  (List.range 32).foldl (fun a k => if l.owner k = some die then a ||| BitVec.twoPow 32 k else a) 0

/-- Ownership of the words goes to a dense die. -/
def L2Line.setOwner (l : L2Line) (words : BitVec 32) (die : Nat) : L2Line :=
  { l with
    own := l.own ||| words,
    odie := (List.range 32).foldl (fun a k =>
      if words.getLsbD k then (a &&& ~~~((3 : BitVec 64) <<< (2 * k))) ||| (BitVec.ofNat 64 die <<< (2 * k)) else a) l.odie }

/-! ## Fills -/

/-- Fill of the sectors that hold a wanted word with V = 0 (R86): the bytes not written are taken from memory, and the sector's words become valid. A
poisoned block gives any value, and the partition that owns its channel enters its error state (R59). -/
def fillWords (s : State) (l : L2Line) (want : BitVec 32) : L2Line × State :=
  (List.range 4).foldl (fun (r : L2Line × State) q =>
    let (l, s) := r
    let sector : BitVec 32 := (0xFF : BitVec 32) <<< (8 * q)
    if want &&& sector &&& ~~~l.v = 0 then (l, s)
    else
      let spa := l.pa + 32 * q
      let bad := s.poison.contains (spa / 256)
      let (data, s) : BitVec 256 × State := if bad then s.freshBits 256 else (BitVec.ofNat 256 (s.viewNat spa 32), s)
      let s := if bad then s.poisonErr (s.channelOf spa) else s
      let need := wordsToBytes (sector &&& ~~~l.v) &&& ~~~(dirtyBytes l.d l.be)
      ({ l with data := mergeLine l.data (data.setWidth 1024 <<< (256 * q)) need, v := l.v ||| sector }, s)) (l, s)

/-! ## The directory's actions for an access at home -/

/-- The packets under way or arrived, changed. -/
def State.mapMsgs (s : State) (f : Packet → Packet) : State :=
  let g (a : Arrived) : Arrived := { a with pkt := f a.pkt }
  { s with packets := s.packets.map f, lane := s.lane.map f, inbox := s.inbox.map g, held := s.held.map g, bunker := s.bunker.map g }

def State.msgs (s : State) : List Packet := s.packets ++ s.lane ++ (s.inbox ++ s.held ++ s.bunker).map (·.pkt)

/-- Words of a line that a die has written back are taken out of its WBs, which do not bring them again. -/
def takeWbs (s : State) (key : LineKey) (die : Nat) (words : BitVec 32) : State :=
  s.mapMsgs fun p => match p.msg with
    | .wb k d w data be leaves =>
      if k = key ∧ d = die then { p with msg := .wb k d (w &&& ~~~words) data (be &&& ~~~(wordsToBytes words)) leaves } else p
    | _ => p

/-- Bytes of words that a die owned come to the home copy: the words are no longer owned, and valid where every byte came or was there. -/
def L2Line.regain (l : L2Line) (words : BitVec 32) (data : BitVec 1024) (be : BitVec 128) : L2Line :=
  { l with data := mergeLine l.data data be, v := l.v ||| (words &&& fullWords be), own := l.own &&& ~~~words }

/-- Owned words come back and become clean at home (R98): with them, the bytes that the home agent is to merge. -/
def L2Line.regainClean (l : L2Line) (words : BitVec 32) (data : BitVec 1024) (be : BitVec 128) : L2Line × BitVec 128 :=
  let out := be ||| (dirtyBytes l.d l.be &&& wordsToBytes words)
  let l := l.regain words data be
  ({ l with d := l.d &&& ~~~words, be := dirtyBytes (l.d &&& ~~~words) l.be }, out)

/-- Owned words whose WB is under way are taken from it (R105). -/
def absorbWbs (s : State) (l : L2Line) (words : BitVec 32) : L2Line × State :=
  s.msgs.foldl (fun (r : L2Line × State) p =>
    match p.msg with
    | .wb k d w data be _ =>
      let got := w &&& words &&& r.1.ownedBy d
      if k = l.key ∧ got ≠ 0 then
        let (l, out) := r.1.regainClean got data (be &&& wordsToBytes got)
        (l, (takeWbs r.2 k d got).toAgent l.pa l.data out)
      else r
    | _ => r) (l, s)

/-- The bytes that a copy holds of words its die owns. -/
def L2Line.ownBytes (c : L2Line) (words : BitVec 32) : BitVec 128 :=
  wordsToBytes (words &&& c.v) ||| (dirtyBytes c.d c.be &&& wordsToBytes words)

/-- A null acknowledge is counted (R101 to R103). -/
def State.countNull (s : State) (pid : BitVec 5) : State := s.mapPart pid fun p => { p with xnullack := min (p.xnullack + 1) 0xFFFFFFFF }

/-- The valid pointers of a line's directory entry (R96). -/
def Bank.ptrs (b : Bank) (key : LineKey) : List (Nat × Nat) := match b.dirEntry key with | none => [] | some e => e.ptrs

/-- The home bank and die of a line. -/
def State.homeOf (s : State) (key : LineKey) : Option (Nat × Nat) := (s.part key.pid).bind fun p => p.home key.asid key.va

/-- The bank of a dense die that keeps the die's copy of a line (R89). -/
def State.keepBank (s : State) (key : LineKey) (die : Nat) : Nat :=
  match s.part key.pid with
  | some p => (p.remoteBank key.asid key.va (p.dies.getD die 0)).getD 0
  | none => 0

/-- The bank to which a probe of a dense die goes: where the directory's pointer says (R96, R101), else where a copy would be kept. -/
def State.copyBank (s : State) (home : Nat) (key : LineKey) (die : Nat) : Nat :=
  match ((s.bank home).ptrs key).find? fun p => p.1 == die with
  | some p => p.2
  | none => s.keepBank key die

/-- The words of a line that some die owns are free at home again, whatever copies there are. -/
def L2Line.disown (l : L2Line) (words : BitVec 32) : L2Line := { l with own := l.own &&& ~~~words }

/-- The distinct dies that own words of a set, but one. -/
def L2Line.owners (l : L2Line) (words : BitVec 32) (but : Nat) : List Nat := (List.range 4).filter fun d => d != but && l.ownedBy d &&& words != 0

/-- Forwards of owned words for a party at home (R98): each owner returns its words, which become clean at home, and keeps clean copies of them. An owner
without the line answers with a null acknowledge (R102), and the words of its WB under way are merged (R105). -/
def forwardWords (s : State) (home : Nat) (l : L2Line) (words : BitVec 32) : L2Line × State :=
  let r := (l.owners words 4).foldl (fun (r : L2Line × State) d =>
    let (l, s) := r
    let got := l.ownedBy d &&& words
    let bank := s.copyBank home l.key d
    let b := s.bank bank
    match b.find l.key true with
    | none => (l, s.countNull l.key.pid)
    | some c =>
      let (l, out) := l.regainClean got c.data (c.ownBytes got)
      let s := s.toAgent l.pa l.data out
      (l, s.putBank bank (b.put { c with d := c.d &&& ~~~got, be := dirtyBytes (c.d &&& ~~~got) c.be }))) (l, s)
  let (l, s) := if r.1.own &&& words = 0 then r else absorbWbs r.2 r.1 words
  (l.disown words, s)

/-- Words are dropped from a die's copy; a copy without words is gone. -/
def State.dropWords (s : State) (bank : Nat) (c : L2Line) (words : BitVec 32) : State :=
  let c := { c with v := c.v &&& ~~~words, d := c.d &&& ~~~words }
  s.putBank bank (if c.v = 0 ∧ c.d = 0 then (s.bank bank).dropLine c.key true else (s.bank bank).put c)

/-- INV for words to every valid pointer of a home line (R98); a pointer without a copy answers with a null acknowledge (R102). -/
def invalidateWords (s : State) (home : Nat) (key : LineKey) (words : BitVec 32) : State :=
  ((s.bank home).ptrs key).foldl (fun s ptr =>
    match (s.bank ptr.2).find key true with
    | none => s.countNull key.pid
    | some c => s.dropWords ptr.2 c words) s

/-- What a write or an atomic at home does first (R98, R106): the home forwards and clears the owned words, then sends INV for the words. -/
def recallWords (s : State) (home : Nat) (l : L2Line) (words : BitVec 32) : L2Line × State :=
  let (l, s) := if l.own &&& words = 0 then (l, s) else forwardWords s home l words
  (l, invalidateWords s home l.key words)

/-- INV-WB for a home line to every valid pointer (R100): owned words come home, every copy of the line is dropped. -/
def recallLine (s : State) (home : Nat) (l : L2Line) : L2Line × State :=
  let dies := match s.part l.key.pid with | some p => p.dies | none => []
  let r := ((s.bank home).ptrs l.key).foldl (fun (r : L2Line × State) ptr =>
    let (l, s) := r
    let b := s.bank ptr.2
    match b.find l.key true with
    | none => (l, s.countNull l.key.pid)
    | some c =>
      let got := l.ownedBy (denseOf dies (ptr.2 / 64))
      let (l, out) := l.regainClean got c.data (c.ownBytes got)
      (l, (s.toAgent l.pa l.data out).putBank ptr.2 (b.dropLine l.key true))) (l, s)
  let (l, s) := if r.1.own = 0 then r else absorbWbs r.2 r.1 (BitVec.allOnes 32)
  (l.disown (BitVec.allOnes 32), s)

/-- A message about a line between home and a die's copy is under way, the die's own write-backs among them, or a transaction serves the die (R98, R108). -/
def State.inFlight (s : State) (key : LineKey) (die home bank : Nat) : Bool :=
  let about (p : Packet) : Bool :=
    match p.msg with
    | .rd k d _ => k == key && d == die
    | .upg k d _ => k == key && d == die
    | .rdx k d _ => k == key && d == die
    | .wb k d .. => k == key && d == die
    | .data k .. => k == key && p.dst == .bank bank
    | .grant k _ => k == key && p.dst == .bank bank
    | _ => false
  s.msgs.any about || ((s.bank home).txns.any fun t => t.key == key && t.kind != .evict && t.die == die)

/-- The home lines of a bank that a directory entry covers (R97). -/
def Bank.covered (b : Bank) (key : LineKey) : List L2Line :=
  b.lines.filter fun l => !l.remote && dirSet l.key == dirSet key && dirTag l.key == dirTag key

/-- A remote line stays in its bank while a message of its die about it is under way, or home serves the die (DEDUCED, log 81). -/
def State.pinned (s : State) (bank : Nat) (l : L2Line) : Bool :=
  match s.part l.key.pid with
  | none => false
  | some p => match p.home l.key.asid l.key.va with
    | none => false
    | some (_, home) => s.inFlight l.key (denseOf p.dies (bank / 64)) home bank

/-- A line may leave its bank: a home line that is in no transaction, nor is a line that its directory entry covers with it (R98, R100); a remote line of which
no message is under way. -/
def State.canEvict (s : State) (bank : Nat) (l : L2Line) : Bool :=
  let b := s.bank bank
  if l.remote then !s.pinned bank l
  else !b.busyOn l.key && ((b.dirEntry l.key).isNone || (b.covered l.key).all fun x => !b.busyOn x.key)

/-- The share of a set on a bank's die (R91, R93). -/
def Partition.shareOf (p : Partition) (bank set : Nat) : Nat :=
  let base := p.share.getD (denseOf p.dies (bank / 64)) 0
  if set % 64 = 0 then min (base + 1) p.ceil else if set % 64 = 32 then max (base - 1) p.floor else base

/-- The directory entry of a line goes. -/
def Bank.dropEntry (b : Bank) (key : LineKey) : Bank := { b with dir := b.dir.filter fun e => !(e.set == dirSet key && e.ptag == dirTag key) }

/-- A home line leaves its bank (R87, R100): the copies of every line that its directory entry covers are recalled, the entry goes, and the line's dirty words
go to the home agent. -/
def evictHome (s : State) (bank : Nat) (l : L2Line) : State :=
  let others := if ((s.bank bank).dirEntry l.key).isSome then ((s.bank bank).covered l.key).filter fun x => x.key != l.key else []
  let s := others.foldl (fun s x =>
    let (x, s) := recallLine s bank x
    s.putBank bank { s.bank bank with lines := (s.bank bank).lines.map fun y => if !y.remote && y.key == x.key then x else y }) s
  let (l, s) := recallLine s bank l
  let s := s.putBank bank (((s.bank bank).dropLine l.key false).dropEntry l.key)
  s.toAgent l.pa l.data (dirtyBytes l.d l.be)

/-- A remote line leaves its bank (R87, R98): its dirty words travel home in a WB, with which the line leaves the die. -/
def evictRemote (s : State) (bank : Nat) (l : L2Line) : State :=
  let b := s.bank bank
  let s := s.putBank bank (b.dropLine l.key true)
  if l.d = 0 then s
  else match s.part l.key.pid with
    | none => s
    | some p =>
      match p.home l.key.asid l.key.va with
      | none => s
      | some (_, h) =>
        let die := denseOf p.dies (bank / 64)
        s.send l.key.pid (.bank bank) (.bank h) (.wb l.key die l.d l.data (dirtyBytes l.d l.be) true)

/-- Room for one more line in the set of `key` (R91): the state after the eviction that the fill needs, of the least recently used line that may leave; `none`
while none may, and for a remote copy where the share is 0. -/
def makeRoom (s : State) (p : Partition) (bank : Nat) (key : LineKey) (remote : Bool) : Option State :=
  let b := s.bank bank
  let set := setIndex key.asid key.va
  let here := b.lines.filter fun l => setIndex l.key.asid l.key.va == set
  let rem := here.filter (·.remote)
  let hom := here.filter fun l => !l.remote
  let share := p.shareOf bank set
  if remote && share == 0 then none
  else if remote && decide (share ≤ rem.length) then (rem.reverse.find? (s.canEvict bank)).map (evictRemote s bank)
  else if here.length < 16 then some s
  else
    let kind := if share < rem.length then rem else hom
    match kind.reverse.find? (s.canEvict bank) with
    | none => none
    | some l => some (if l.remote then evictRemote s bank l else evictHome s bank l)

/-- A miss counts for the sampling groups of R93: a remote line 2, a home line 1. -/
def countMiss (s : State) (bank : Nat) (key : LineKey) (w : Nat) : State :=
  let set := setIndex key.asid key.va
  let b := s.bank bank
  if set % 64 = 0 then s.putBank bank { b with hiMiss := b.hiMiss + w }
  else if set % 64 = 32 then s.putBank bank { b with loMiss := b.loMiss + w }
  else s

/-- How an access at home begins: at a line that allows it, at the host port (R432), or how it fails. `busy`: it waits for the directory (R98), for a
back-invalidate (R435) or for room, and is made again. -/
inductive HomeAcc where
  | line (bank : Nat) (l : L2Line) (s : State)
  | host (addr : Nat) (perms : Perms) (s : State)
  | busy (s : State)
  | fault (cause : BitVec 4)
  | misplaced
  | unbacked

/-- An access at the home bank (R73, R74): a hit is checked against the line's bits, and a permission miss repeats the lookup; a miss is
translated and allocates the line. -/
def homeAccess (s : State) (pid : BitVec 5) (asid : BitVec 16) (va : Nat) (need : Need) (sys : Bool) : HomeAcc :=
  match s.part pid with
  | none => .fault 0
  | some p =>
    match p.home asid va with
    | none => .fault 0
    | some (_, bank) =>
      let key := keyOf pid asid va
      let b := s.bank bank
      if b.busyOn key || (need == .write && s.hostCache.contains (pid, va / 128)) then .busy s
      else match b.find key false with
        | some l =>
          if l.perms.allow need sys then .line bank l (s.putBank bank (b.put l))
          else if l.perms.s && !sys then .fault 1
          else match translate s pid asid va with
            | .ok _ _ perms s' =>
              if perms.allow need sys then
                let l := { l with perms := { l.perms with w := l.perms.w || perms.w, x := l.perms.x || perms.x } }
                .line bank l (s'.putBank bank ((s'.bank bank).put l))
              else .fault 1
            | .fault c => .fault c
            | .misplaced => .misplaced
            | .unbacked => .unbacked
        | none =>
          match translate s pid asid va with
          | .ok addr host perms s' =>
            if !perms.allow need sys then .fault 1
            else if host then .host addr perms s'
            else match makeRoom s' p bank key false with
              | none => .busy s
              | some s' =>
                let l := newLine key perms (addr / 128 * 128) false
                let s' := countMiss s' bank key 1
                .line bank l (s'.putBank bank ((s'.bank bank).put l))
          | .fault c => .fault c
          | .misplaced => .misplaced
          | .unbacked => .unbacked

/-- Read of words at home for a party at home: owned words are forwarded by their owners (R88, R98), missing words are filled (R86). -/
def homeReadLine (s : State) (bank : Nat) (l : L2Line) (want : BitVec 32) : BitVec 1024 × State :=
  let (l, s) := if l.own &&& want = 0 then (l, s) else forwardWords s bank l want
  let (l, s) := fillWords s l want
  (l.data, s.putBank bank ((s.bank bank).put l))

/-! ## Watches -/

/-- A write to watched words re-evaluates the waiting AWAITWs (R371): `value va n` is the word's value at home. -/
def State.evalWatches (s : State) (pid : BitVec 5) (asid : BitVec 16) (lo hi : Nat) (value : Nat → Nat → Nat) : State :=
  { s with watches := s.watches.map fun w =>
      let n := if w.ty.is64 then 8 else 4
      if w.pid == pid && w.asid == asid && w.got == none && decide (w.va < hi) && decide (lo < w.va + n) then
        let v := BitVec.ofNat 64 (value w.va n)
        if condHolds w.ty w.cc v w.cmp then { w with got := some v } else w
      else w }

/-- Merge of written bytes into a home line of which no die has a copy of the words (R86, R87): D and BE are set, V is unchanged; a write-through line sends
the words on to the home agent at once. -/
def mergeWrite (s : State) (bank : Nat) (l : L2Line) (data : BitVec 1024) (be : BitVec 128) : State :=
  let words := bytesToWords be
  let watched := s.watches.any fun w => w.pid == l.key.pid && w.asid == l.key.asid && w.va / 128 == l.key.tag
  let (l, s) := if watched then fillWords s l (BitVec.allOnes 32) else (l, s)
  let held := dirtyBytes l.d l.be
  let l := { l with data := mergeLine l.data data be, d := l.d ||| words, be := held ||| be }
  let (l, s) :=
    if l.perms.wt then ({ l with d := 0, be := 0 }, s.toAgent l.pa l.data (dirtyBytes l.d l.be)) else (l, s)
  let s := s.putBank bank ((s.bank bank).put l)
  if watched then s.evalWatches l.key.pid l.key.asid l.key.va (l.key.va + 128) fun va n => lineNat l.data (va % 128) n else s

/-- A write at home (R98): remote copies of the words are recalled, then the bytes are merged. -/
def rawWrite (s : State) (bank : Nat) (l : L2Line) (data : BitVec 1024) (be : BitVec 128) : State :=
  let (l, s) := recallWords s bank l (bytesToWords be)
  mergeWrite s bank l data be

/-! ## Accesses of the device itself: save areas, doorbells, frames -/

/-- How an access of the device itself ends: with a value; it waits for the line, and what it is part of is made again; or the line cannot be had. -/
inductive Dev (α : Type) where
  | ok (v : α) (s : State)
  | busy
  | no

def Dev.bind {α β : Type} (d : Dev α) (f : α → State → Dev β) : Dev β :=
  match d with
  | .ok v s => f v s
  | .busy => .busy
  | .no => .no

/-- An access for each of a list, in order, and their values. -/
def devList {α β : Type} (f : State → α → Dev β) : List α → State → Dev (List β)
  | [], s => .ok [] s
  | x :: xs, s => (f s x).bind fun y s => (devList f xs s).bind fun ys s => .ok (y :: ys) s

/-- An access for each of a list, in order. -/
def devEach {α : Type} (f : State → α → Dev Unit) : List α → State → Dev Unit
  | [], s => .ok () s
  | x :: xs, s => (f s x).bind fun _ s => devEach f xs s

/-- An access that is left undone where its line cannot be had. -/
def Dev.orSkip (d : Dev Unit) (s : State) : Dev Unit :=
  match d with
  | .no => .ok () s
  | d => d

/-- Write of at most 128 bytes inside one line by the device itself, with system privilege. -/
def deviceWrite (s : State) (pid : BitVec 5) (asid : BitVec 16) (va : Nat) (bytes : List Byte) : Dev Unit :=
  let k := va % 128
  match homeAccess { s with hostCache := s.hostCache.filter fun h => h != (pid, va / 128) } pid asid va .write true with
  | .line bank l s' => .ok () (rawWrite s' bank l (placeNat k bytes.length (bytesNat bytes)) (placeBe k bytes.length))
  | .busy _ => .busy
  | _ => .no

/-- Read of `n` bytes inside one line by the device itself. -/
def deviceRead (s : State) (pid : BitVec 5) (asid : BitVec 16) (va n : Nat) : Dev Nat :=
  match homeAccess s pid asid va .read true with
  | .line bank l s' =>
    let (d, s') := homeReadLine s' bank l (wordsOfRange (va % 128) n)
    .ok (lineNat d (va % 128) n) s'
  | .busy _ => .busy
  | _ => .no

/-- Bytes cut into pieces that do not cross a 128-byte line: address and bytes. `k` bounds the number of pieces. -/
def linePieces : Nat → Nat → List Byte → List (Nat × List Byte)
  | 0, _, _ => []
  | _ + 1, _, [] => []
  | k + 1, va, bs =>
    let n := 128 - va % 128
    (va, bs.take n) :: linePieces k (va + n) (bs.drop n)

def deviceWriteAll (s : State) (pid : BitVec 5) (asid : BitVec 16) (va : Nat) (bytes : List Byte) : Dev Unit :=
  devEach (fun s p => deviceWrite s pid asid p.1 p.2) (linePieces (bytes.length / 128 + 2) va bytes) s

/-- Read of `n` bytes from an address up, line by line. -/
def deviceReadAll (pid : BitVec 5) (asid : BitVec 16) : Nat → State → Nat → Nat → Dev (List Byte)
  | 0, s, _, _ => .ok [] s
  | k + 1, s, va, n =>
    if n = 0 then .ok [] s
    else
      let m := min n (128 - va % 128)
      (deviceRead s pid asid va m).bind fun x s => (deviceReadAll pid asid k s (va + m) (n - m)).bind fun bs s => .ok (natBytes m x ++ bs) s

def readArea (s : State) (pid : BitVec 5) (asid : BitVec 16) (va n : Nat) : Dev (List Byte) :=
  deviceReadAll pid asid (n / 128 + 2) s va n

end Sys2Proof.Machine
end

