-- ==== Sys2Proof/Machine/Number.lean ====
section
/-! DEFINITION. Floating-point numbers (R214 to R225): exact values, one rounding function, and the operations of the float chapter on bit patterns.
Exact values are signed multiples of powers of two; nothing is rounded before the last step. -/
namespace Sys2Proof.Machine

/-- A floating-point format (R214): exponent and mantissa widths, bias; E4M3 has no infinity (R215). -/
structure FFmt where
  ew   : Nat
  mw   : Nat
  bias : Nat
  noInf : Bool
  deriving DecidableEq, Repr

/-- The format of a type; packed types by their element (R214, R217). -/
def fmtOf : Ty → FFmt
  | .f64 => ⟨11, 52, 1023, false⟩
  | .f16 | .x2f16 => ⟨5, 10, 15, false⟩
  | .bf16 | .x2bf16 => ⟨8, 7, 127, false⟩
  | .e5m2 => ⟨5, 2, 15, false⟩
  | .e4m3 => ⟨4, 3, 7, true⟩
  | _ => ⟨8, 23, 127, false⟩

/-- Width of a format in bits. -/
def FFmt.width (f : FFmt) : Nat := 1 + f.ew + f.mw
/-- The exponent of the smallest normal value, and of the spacing of subnormals. -/
def FFmt.emin (f : FFmt) : Int := 1 - (f.bias : Int)
def FFmt.qmin (f : FFmt) : Int := f.emin - f.mw
/-- The pattern of the largest finite value, without sign (R214, R215). -/
def FFmt.maxPat (f : FFmt) : Nat := if f.noInf then 2 ^ (f.ew + f.mw) - 2 else (2 ^ f.ew - 1) * 2 ^ f.mw - 1
/-- The canonical NaN (R214). -/
def FFmt.nan (f : FFmt) : Nat := if f.noInf then 2 ^ (f.ew + f.mw) - 1 else (2 ^ f.ew - 1) * 2 ^ f.mw + 2 ^ (f.mw - 1)
/-- The pattern of an infinity, without sign; E4M3 writes its canonical NaN instead (R221). -/
def FFmt.infPat (f : FFmt) : Nat := if f.noInf then f.nan else (2 ^ f.ew - 1) * 2 ^ f.mw
def FFmt.signBit (f : FFmt) (neg : Bool) : Nat := if neg then 2 ^ (f.ew + f.mw) else 0

/-- What a pattern stands for (R214, R215): a finite value is (−1)^neg · m · 2^e. -/
inductive FVal where
  | nan (signalling : Bool)
  | inf (neg : Bool)
  | fin (neg : Bool) (m : Nat) (e : Int)
  deriving DecidableEq, Repr

/-- The value of a pattern. -/
def fval (f : FFmt) (x : Nat) : FVal :=
  let neg := x / 2 ^ (f.ew + f.mw) % 2 == 1
  let ef := x / 2 ^ f.mw % 2 ^ f.ew
  let mf := x % 2 ^ f.mw
  if f.noInf then
    if ef = 2 ^ f.ew - 1 ∧ mf = 2 ^ f.mw - 1 then .nan false
    else if ef = 0 then .fin neg mf f.qmin else .fin neg (2 ^ f.mw + mf) (f.qmin + (ef - 1 : Nat))
  else if ef = 2 ^ f.ew - 1 then
    if mf = 0 then .inf neg else .nan (mf < 2 ^ (f.mw - 1))
  else if ef = 0 then .fin neg mf f.qmin else .fin neg (2 ^ f.mw + mf) (f.qmin + (ef - 1 : Nat))

/-- The pattern is a subnormal value. -/
def isSubnormal (f : FFmt) (x : Nat) : Bool := x / 2 ^ f.mw % 2 ^ f.ew == 0 && x % 2 ^ f.mw != 0

/-- Flush of a subnormal input to zero with its own sign (R223). -/
def flushIn (f : FFmt) (ftz : Bool) (x : Nat) : Nat :=
  if ftz && isSubnormal f x then f.signBit (x / 2 ^ (f.ew + f.mw) % 2 == 1) else x

def FVal.isNan : FVal → Bool
  | .nan _ => true
  | _ => false
def FVal.isSnan : FVal → Bool
  | .nan b => b
  | _ => false
def FVal.isInf : FVal → Bool
  | .inf _ => true
  | _ => false
def FVal.isZero : FVal → Bool
  | .fin _ m _ => m == 0
  | _ => false
def FVal.neg : FVal → Bool
  | .nan _ => false
  | .inf n => n
  | .fin n _ _ => n
/-- The value with its sign reversed. -/
def FVal.negate : FVal → FVal
  | .nan b => .nan b
  | .inf n => .inf !n
  | .fin n m e => .fin (!n) m e

/-- `m · 2^e` rounded to an integer multiple of 2^q in a mode: the multiple, and whether it is inexact. -/
def roundAt (rm : RMode) (neg : Bool) (m : Nat) (e q : Int) : Nat × Bool :=
  if q ≤ e then (m * 2 ^ (e - q).toNat, false)
  else
    let sh := (q - e).toNat
    let n := m / 2 ^ sh
    let r := m % 2 ^ sh
    let up := match rm with
      | .rne => decide (2 ^ sh < 2 * r) || (decide (2 * r = 2 ^ sh) && n % 2 == 1)
      | .rz => false
      | .ru => !neg && r != 0
      | .rd => neg && r != 0
    (if up then n + 1 else n, r != 0)

/-- `m · 2^e` rounded in a mode to `f` as if the exponent range were unbounded is below the smallest normal value (R222). -/
def isTiny (f : FFmt) (rm : RMode) (neg : Bool) (m : Nat) (e : Int) : Bool :=
  let q := e + bitLength m - 1 - f.mw
  let n := (roundAt rm neg m e q).1
  decide (q + bitLength n ≤ f.emin)

/-- Rounding of the non-zero exact value (−1)^neg · m · 2^e to a format (R220 to R225): the pattern and the flags. -/
def roundTo (f : FFmt) (rm : RMode) (ftz sat neg : Bool) (m : Nat) (e : Int) : Nat × BitVec 5 :=
  if m = 0 then (f.signBit neg, 0)
  else
    let tiny := isTiny f rm neg m e
    if tiny && ftz then (f.signBit neg, 0b11000)
    else
      let q := max (e + bitLength m - 1 - f.mw) f.qmin
      let (n, inexact) := roundAt rm neg m e q
      let pat := (q - f.qmin).toNat * 2 ^ f.mw + n
      if f.maxPat < pat then
        let toInf := match rm with | .rne => true | .rz => false | .ru => !neg | .rd => neg
        let r := if sat || !toInf then f.signBit neg + f.maxPat else if f.noInf then f.nan else f.signBit neg + f.infPat
        (r, 0b10100)
      else (f.signBit neg + pat, if inexact then (if tiny then 0b11000 else 0b10000) else 0)

/-- The signed mantissa of a finite term over the common exponent `e0`. -/
def termAt (e0 : Int) : FVal → Int
  | .fin neg m e => let v : Int := m * 2 ^ (e - e0).toNat; if neg then -v else v
  | _ => 0

/-- The least exponent among finite terms. -/
def leastExp : List FVal → Int
  | [] => 0
  | [.fin _ _ e] => e
  | .fin _ _ e :: rest => min e (leastExp rest)
  | _ :: rest => leastExp rest

/-- Exact sum of finite terms, with the sign of a zero sum as R220 and R252 give it: that of the terms when all are zeros of one sign, else +0, or −0
under RD. -/
def sumFin (rm : RMode) (ts : List FVal) : FVal :=
  let e0 := leastExp ts
  let x := (ts.map (termAt e0)).foldl (· + ·) 0
  if x = 0 then
    if ts.all fun t => t.isZero && t.neg then .fin true 0 0
    else if ts.all fun t => t.isZero && !t.neg then .fin false 0 0
    else .fin (rm == .rd) 0 0
  else .fin (decide (x < 0)) x.natAbs e0

/-- Product of two values that is no invalid operation; the sign is the XOR (R252). -/
def mulVal (a b : FVal) : FVal :=
  match a, b with
  | .fin n m e, .fin n' m' e' => .fin (n != n') (m * m') (e + e')
  | a, b => .inf (a.neg != b.neg)

/-- 0 × ∞ (R257). -/
def mulInvalid (a b : FVal) : Bool := (a.isZero && b.isInf) || (a.isInf && b.isZero)

/-- Rounding of an extended value to a pattern; infinities are exact. -/
def roundVal (f : FFmt) (rm : RMode) (ftz : Bool) : FVal → Nat × BitVec 5
  | .nan _ => (f.nan, 0)
  | .inf n => (f.signBit n + f.infPat, 0)
  | .fin n m e => roundTo f rm ftz false n m e

/-- Sum of terms over the extended reals, rounded once: the shape of FADD, FFMA, FDOT2 and the matrix sums. `inv` says that a product among the
terms is invalid; `srcs` are the inputs, whose NaNs count (R251, R256, R267). -/
def sumRound (f : FFmt) (rm : RMode) (ftz : Bool) (srcs : List FVal) (inv : Bool) (terms : List FVal) : Nat × BitVec 5 :=
  let inf p := terms.any fun t => t.isInf && t.neg == p
  let inv := inv || (inf true && inf false)
  if inv || srcs.any FVal.isNan then (f.nan, if inv || srcs.any FVal.isSnan then flagN else 0)
  else if inf true then (f.signBit true + f.infPat, 0)
  else if inf false then (f.signBit false + f.infPat, 0)
  else roundVal f rm ftz (sumFin rm terms)
where flagN : BitVec 5 := 1

/-- FADD and FSUB on patterns (R251). -/
def fpAdd (f : FFmt) (rm : RMode) (ftz sub : Bool) (a b : Nat) : Nat × BitVec 5 :=
  let x := fval f (flushIn f ftz a)
  let y := fval f (flushIn f ftz b)
  let y := if sub then y.negate else y
  sumRound f rm ftz [x, y] false [x, y]

/-- FMUL on patterns (R251, R252). -/
def fpMul (f : FFmt) (rm : RMode) (ftz : Bool) (a b : Nat) : Nat × BitVec 5 :=
  let x := fval f (flushIn f ftz a)
  let y := fval f (flushIn f ftz b)
  if mulInvalid x y || x.isNan || y.isNan then (f.nan, if mulInvalid x y || x.isSnan || y.isSnan then 1 else 0)
  else roundVal f rm ftz (mulVal x y)

/-- FFMA on patterns (R251, R252, R257). -/
def fpFma (f : FFmt) (rm : RMode) (ftz : Bool) (a b c : Nat) : Nat × BitVec 5 :=
  let x := fval f (flushIn f ftz a)
  let y := fval f (flushIn f ftz b)
  let z := fval f (flushIn f ftz c)
  if x.isNan || y.isNan then (f.nan, if x.isSnan || y.isSnan || z.isSnan then 1 else 0)
  else sumRound f rm ftz [x, y, z] (mulInvalid x y) [mulVal x y, z]

/-- The order of values that are no NaN; `zeros` tells −0 below +0. -/
def fpLess (zeros : Bool) (a b : FVal) : Bool :=
  match a, b with
  | .inf n, .inf n' => n && !n'
  | .inf n, _ => n
  | _, .inf n' => !n'
  | .fin n m e, .fin n' m' e' =>
    let e0 := min e e'
    let x := termAt e0 (.fin n m e)
    let y := termAt e0 (.fin n' m' e')
    decide (x < y) || (zeros && x == 0 && y == 0 && n && !n')
  | _, _ => false

/-- FMIN and FMAX on patterns (R253). -/
def fpMinMax (f : FFmt) (ftz max : Bool) (a b : Nat) : Nat × BitVec 5 :=
  let a := flushIn f ftz a
  let b := flushIn f ftz b
  let x := fval f a
  let y := fval f b
  let nv : BitVec 5 := if x.isSnan || y.isSnan then 1 else 0
  if x.isNan && y.isNan then (f.nan, nv)
  else if x.isNan then (b, nv)
  else if y.isNan then (a, nv)
  else if fpLess true x y then (if max then b else a, nv) else (if max then a else b, nv)

/-- FABS and FNEG on patterns (R253). -/
def fpSign (f : FFmt) (ftz abs : Bool) (a : Nat) : Nat × BitVec 5 :=
  let a := flushIn f ftz a
  let x := fval f a
  if x.isNan then (f.nan, if x.isSnan then 1 else 0)
  else
    let mag := a % 2 ^ (f.ew + f.mw)
    (if abs then mag else f.signBit (!x.neg) + mag, 0)

/-- FCMP: the condition and the flags (R254). -/
def fpCmp (f : FFmt) (cc : FCond) (a b : Nat) : Bool × BitVec 5 :=
  let x := fval f a
  let y := fval f b
  let un := x.isNan || y.isNan
  let lt := !un && fpLess false x y
  let gt := !un && fpLess false y x
  let r := match cc with
    | .eq => !un && !lt && !gt | .ne => un || lt || gt | .lt => lt | .le => !un && !gt | .gt => gt | .ge => !un && !lt | .un => un | .ord => !un
  let ordered := match cc with | .lt | .le | .gt | .ge => true | _ => false
  (r, if x.isSnan || y.isSnan || (un && ordered) then 1 else 0)

/-- FCLASS of one element (R255). -/
def fpClass (f : FFmt) (a : Nat) : Nat :=
  match fval f a with
  | .nan true => 0x100
  | .nan false => 0x200
  | .inf n => if n then 0x001 else 0x080
  | .fin n m _ =>
    if m = 0 then (if n then 0x008 else 0x010)
    else if isSubnormal f a then (if n then 0x004 else 0x020) else (if n then 0x002 else 0x040)

/-- FDIV on patterns (R257, R258). -/
def fpDiv (f : FFmt) (rm : RMode) (ftz : Bool) (a b : Nat) : Nat × BitVec 5 :=
  let x := fval f (flushIn f ftz a)
  let y := fval f (flushIn f ftz b)
  let inv := (x.isZero && y.isZero) || (x.isInf && y.isInf)
  if inv || x.isNan || y.isNan then (f.nan, if inv || x.isSnan || y.isSnan then 1 else 0)
  else
    let neg := x.neg != y.neg
    match x, y with
    | .fin _ m e, .fin _ m' e' =>
      if m = 0 then (f.signBit neg, 0)
      else if m' = 0 then (f.signBit neg + f.infPat, 2)
      else
        let k := f.mw + 4 + bitLength m'
        let q := m * 2 ^ k / m'
        roundTo f rm ftz false neg (2 * q + if m * 2 ^ k % m' = 0 then 0 else 1) (e - e' - k - 1)
    | .inf _, _ => (f.signBit neg + f.infPat, 0)
    | _, _ => (f.signBit neg, 0)

/-- Integer square root by its binary digits: the greatest r + (a number below 2^k) whose square is at most n. -/
def isqrt : Nat → Nat → Nat → Nat
  | 0, _, r => r
  | k + 1, n, r => let t := r + 2 ^ k; isqrt k n (if t * t ≤ n then t else r)

/-- The root of m · 2^e to at least `bits` bits, with a last bit that tells whether it is inexact: mantissa and exponent. -/
def sqrtFin (bits m : Nat) (e : Int) : Nat × Int :=
  let k := 2 * (bits + 2)
  let odd := (e - k) % 2 != 0
  let k := if odd then k + 1 else k
  let n := m * 2 ^ k
  let r := isqrt (bitLength n / 2 + 1) n 0
  (2 * r + if r * r = n then 0 else 1, (e - k) / 2 - 1)

/-- FSQRT on patterns (R257, R258). -/
def fpSqrt (f : FFmt) (rm : RMode) (ftz : Bool) (a : Nat) : Nat × BitVec 5 :=
  match fval f (flushIn f ftz a) with
  | .nan s => (f.nan, if s then 1 else 0)
  | .inf true => (f.nan, 1)
  | .inf false => (f.infPat, 0)
  | .fin n m e =>
    if m = 0 then (f.signBit n, 0)
    else if n then (f.nan, 1)
    else let (r, e') := sqrtFin (f.mw + 2) m e; roundTo f rm ftz false false r e'

/-- A finite value rounded to an integer in a mode: the signed integer, and whether it differs from the value. -/
def roundInt (rm : RMode) (neg : Bool) (m : Nat) (e : Int) : Int × Bool :=
  let (n, inexact) := roundAt rm neg m e 0
  (if neg then -(n : Int) else n, inexact)

/-- FRND on patterns (R230). -/
def fpRnd (f : FFmt) (rm : RMode) (ftz : Bool) (a : Nat) : Nat × BitVec 5 :=
  let a := flushIn f ftz a
  match fval f a with
  | .nan s => (f.nan, if s then 1 else 0)
  | .inf _ => (a, 0)
  | .fin n m e =>
    if m = 0 then (a, 0)
    else
      let (r, _) := roundAt rm n m e 0
      ((roundTo f .rz false false n r 0).1, 0)

/-- FSCALE on patterns (R230): one rounding of the exact product with 2^n. -/
def fpScale (f : FFmt) (rm : RMode) (ftz : Bool) (a : Nat) (n : Int) : Nat × BitVec 5 :=
  let a := flushIn f ftz a
  match fval f a with
  | .nan s => (f.nan, if s then 1 else 0)
  | .inf _ => (a, 0)
  | .fin neg m e => if m = 0 then (a, 0) else roundTo f rm ftz false neg m (e + n)

/-- FCVT of one value (R227). -/
def fpConvert (dst src : FFmt) (rm : RMode) (sat : Bool) (a : Nat) : Nat × BitVec 5 :=
  match fval src a with
  | .nan s => (dst.nan, if s then 1 else 0)
  | .inf n => if dst.noInf then (if sat then dst.signBit n + dst.maxPat else dst.nan, 1) else (dst.signBit n + dst.infPat, 0)
  | .fin n m e => roundTo dst rm false sat n m e

/-- ICVT from an integer to a float (R228); zero gives +0. -/
def intToFloat (dst : FFmt) (rm : RMode) (sat : Bool) (x : Int) : Nat × BitVec 5 :=
  roundTo dst rm false sat (decide (x < 0)) x.natAbs 0

/-- ICVT from a float to an integer type (R228): always saturating. -/
def floatToInt (t : Ty) (src : FFmt) (rm : RMode) (a : Nat) : Int × BitVec 5 :=
  match fval src a with
  | .nan _ => (0, 1)
  | .inf n => (satTo t (if n then -(2 ^ 70) else 2 ^ 70), 1)
  | .fin n m e =>
    let (q, inexact) := roundInt rm n m e
    if satTo t q = q then (q, if inexact then 16 else 0) else (satTo t q, 1)

/-- FDOT2 (R256). -/
def fpDot2 (f : FFmt) (rm : RMode) (ftz : Bool) (a0 a1 b0 b1 c : Nat) : Nat × BitVec 5 :=
  let f32 := fmtOf .f32
  let x0 := fval f (flushIn f ftz a0)
  let x1 := fval f (flushIn f ftz a1)
  let y0 := fval f (flushIn f ftz b0)
  let y1 := fval f (flushIn f ftz b1)
  let z := fval f32 (flushIn f32 ftz c)
  let srcs := [x0, x1, y0, y1, z]
  let inv := mulInvalid x0 y0 || mulInvalid x1 y1
  if srcs.any FVal.isNan then
    let infs p := (!x0.isNan && !y0.isNan && (mulVal x0 y0).isInf && (mulVal x0 y0).neg == p)
      || (!x1.isNan && !y1.isNan && (mulVal x1 y1).isInf && (mulVal x1 y1).neg == p) || (z.isInf && z.neg == p)
    (f32.nan, if inv || (infs true && infs false) || srcs.any FVal.isSnan then 1 else 0)
  else sumRound f32 rm ftz srcs inv [mulVal x0 y0, mulVal x1 y1, z]

/-! ## Approximate functions (R260 to R262) -/

/-- The approximate functions. -/
inductive Approx where
  | rcp | rsq | exp2 | log2 | sin | cos
  deriving DecidableEq, Repr

def Approx.code : Approx → Nat
  | .rcp => 0 | .rsq => 1 | .exp2 => 2 | .log2 => 3 | .sin => 4 | .cos => 5

/-- Fraction bits of the fixed-point evaluations below. -/
def fixBits : Nat := 320

/-- ln 2 and 2π in fixed point at `fixBits` fraction bits: sums of series of rationals, truncated. -/
def atanhSeries : Nat → Nat → Nat → Nat
  | 0, _, _ => 0
  | k + 1, term, n => term / n + atanhSeries k (term / 9) (n + 2)
def ln2Fix : Nat := 2 * atanhSeries 110 (2 ^ fixBits / 3) 1
def atanSeries (sq : Nat) : Nat → Bool → Nat → Nat → Int
  | 0, _, _, _ => 0
  | k + 1, neg, term, n => (if neg then -((term / n : Nat) : Int) else ((term / n : Nat) : Int)) + atanSeries sq k (!neg) (term / sq) (n + 2)
/-- Machin's formula: π = 16 atan(1/5) − 4 atan(1/239). -/
def twoPiFix : Nat := (2 * (16 * atanSeries 25 80 false (2 ^ fixBits / 5) 1 - 4 * atanSeries 57121 30 false (2 ^ fixBits / 239) 1)).toNat

/-- Σ x^k / k! for x in fixed point, `k` terms from term number `n`. -/
def expSeries (x : Nat) : Nat → Nat → Nat → Nat
  | 0, _, _ => 0
  | k + 1, n, term => term + expSeries x k (n + 1) (term * x / (2 ^ fixBits * (n + 1)))

/-- The alternating series of sine (first term θ, n = 1) and cosine (first term 1, n = 0); `sq` is θ². -/
def trigSeries (sq : Nat) : Nat → Bool → Nat → Nat → Int
  | 0, _, _, _ => 0
  | k + 1, neg, n, term => (if neg then -(term : Int) else term) + trigSeries sq k (!neg) (n + 2) (term * sq / (2 ^ fixBits * ((n + 1) * (n + 2))))

/-- Binary digits of log₂ y for y in [1, 2), y in fixed point at 128 fraction bits. -/
def log2Digits : Nat → Nat → Nat → Nat
  | 0, _, acc => acc
  | k + 1, y, acc =>
    let y2 := y * y / 2 ^ 128
    if 2 ^ 129 ≤ y2 then log2Digits k (y2 / 2) (2 * acc + 1) else log2Digits k y2 (2 * acc)

/-- A close value of the function at the finite non-zero x = (−1)^neg · m · 2^e where R260 fixes no result: sign, mantissa, exponent. The last bit of
the mantissa is set where the value is inexact. -/
def approxValue (fn : Approx) (bits : Nat) (neg : Bool) (m : Nat) (e : Int) : Bool × Nat × Int :=
  match fn with
  | .rcp =>
    let k := bits + 4 + bitLength m
    (neg, 2 * (2 ^ k / m) + (if 2 ^ k % m = 0 then 0 else 1), -e - k - 1)
  | .rsq =>
    -- 1/√(m·2^e) = √(2^k / m) · 2^((−e − k)/2), with −e − k even
    let k := 2 * (bits + 6 + bitLength m)
    let k := if (e + k) % 2 = 0 then k else k + 1
    let n := 2 ^ k / m
    let r := isqrt (bitLength n / 2 + 1) n 0
    (false, 2 * r + (if r * r * m = 2 ^ k then 0 else 1), (-e - k) / 2 - 1)
  | .exp2 =>
    let x : Int := (if neg then -1 else 1) * (if 0 ≤ e + fixBits then (m : Int) * 2 ^ (e + fixBits).toNat else m / 2 ^ (-(e + fixBits)).toNat)
    let n := x.fdiv (2 ^ fixBits)
    let fr := (x.fmod (2 ^ fixBits)).toNat
    (false, 2 * expSeries (fr * ln2Fix / 2 ^ fixBits) 80 0 (2 ^ fixBits) + 1, n - fixBits - 1)
  | .log2 =>
    let k := bitLength m
    let y := if k ≤ 129 then m * 2 ^ (129 - k) else m / 2 ^ (k - 129)
    let v : Int := (e + k - 1) * 2 ^ 80 + log2Digits 80 y 0
    (decide (v < 0), 2 * v.natAbs + 1, -81)
  | .sin | .cos =>
    -- the fraction of a turn in [0, 1), then a quadrant and an angle in [0, π/2)
    let x := if 0 ≤ e + fixBits then m * 2 ^ (e + fixBits).toNat else m / 2 ^ (-(e + fixBits)).toNat
    let fr := x % 2 ^ fixBits
    let quad := fr * 4 / 2 ^ fixBits
    let th := (fr * 4 % 2 ^ fixBits) * twoPiFix / 2 ^ (fixBits + 2)
    let sq := th * th / 2 ^ fixBits
    let sn := (trigSeries sq 60 false 1 th).natAbs
    let cs := (trigSeries sq 60 false 0 (2 ^ fixBits)).natAbs
    let quad := if fn = .cos then quad + 1 else quad
    let v := if quad % 2 = 0 then sn else cs
    let below := quad / 2 % 2 == 1
    (if fn = .cos then below else below != neg, 2 * v + 1, -(fixBits : Int) - 1)

/-- The difference of a pattern's value and (−1)^neg · m · 2^e is at most 2^b in magnitude. -/
def withinBound (f : FFmt) (c : Nat) (neg : Bool) (m : Nat) (e b : Int) : Bool :=
  match fval f c with
  | .fin n m' e' =>
    let e0 := min (min e e') b
    decide ((termAt e0 (.fin n m' e') - termAt e0 (.fin neg m e)).natAbs ≤ 2 ^ (b - e0).toNat)
  | _ => false

/-- The pattern `c` lies within the bound of R261 around (−1)^neg · m · 2^e. -/
def approxAllowed (fn : Approx) (t : Ty) (f : FFmt) (c : Nat) (neg : Bool) (m : Nat) (e : Int) (inHalfTwo : Bool) : Bool :=
  let q := max (e + bitLength m - 1 - f.mw) f.qmin
  let n := m * 2 ^ (e - q).toNat / 2 ^ (q - e).toNat
  let lo := f.signBit neg + (q - f.qmin).toNat * 2 ^ f.mw + n
  let exact := decide (n * 2 ^ (q - e).toNat = m * 2 ^ (e - q).toNat)
  let bracket := c == lo || (!exact && c == lo + 1 && decide (c % 2 ^ (f.ew + f.mw) ≤ f.maxPat))
  match t, fn with
  | .f32, .exp2 => withinBound f c neg m e (q + 1)
  | .f32, .log2 => withinBound f c neg m e (if inHalfTwo then -22 else q + 1)
  | .f32, .sin | .f32, .cos => withinBound f c neg m e (-21)
  | _, _ => bracket

/-- A result that R260 does not fix: the module's own fixed function of form, type, FTZ and input where it meets R261's bound, else the nearest
value (R261, R262). The flags are those of R260; whether the result is tiny, for UF and FTZ, is decided on the value that is returned, or, where that is zero, on
the exact result; a flushed result has the exact result's sign (R222, R223). -/
def approxRest (fn : Approx) (t : Ty) (f : FFmt) (ftz : Bool) (a : Nat) (neg : Bool) (m : Nat) (e : Int) (half : Bool) : Nat × BitVec 5 :=
  let (near, g) := roundTo f .rne false false neg m e
  let c := Config.approxPick fn.code t.code.toNat ftz a
  let r := if approxAllowed fn t f c neg m e half then c else near
  let mag := r % 2 ^ (f.ew + f.mw)
  let tiny := if mag = 0 then g.getLsbD 3 else decide (mag < 2 ^ f.mw)
  (if tiny && ftz then f.signBit neg else r, if tiny then 0b11000 else 0b10000)

/-- x is a power of two: its exponent. -/
def powerOfTwo (m : Nat) (e : Int) : Option Int := if m = 2 ^ (bitLength m - 1) then some (e + bitLength m - 1) else none

/-- The approximate functions on patterns (R260, R261). -/
def fpApprox (fn : Approx) (t : Ty) (ftz : Bool) (a : Nat) : Nat × BitVec 5 :=
  let f := fmtOf t
  let x := flushIn f ftz a
  let rest neg m e half :=
    let (n, m', e') := approxValue fn (f.mw + 2) neg m e
    approxRest fn t f ftz x n m' e' half
  let one := roundTo f .rne false false false 1 0
  match fval f x with
  | .nan s => (f.nan, if s then 1 else 0)
  | .inf n =>
    match fn with
    | .rcp => (f.signBit n, 0)
    | .rsq => if n then (f.nan, 1) else (0, 0)
    | .exp2 => if n then (0, 0) else (f.infPat, 0)
    | .log2 => if n then (f.nan, 1) else (f.infPat, 0)
    | .sin | .cos => (f.nan, 1)
  | .fin n m e =>
    if m = 0 then
      match fn with
      | .rcp => (f.signBit n + f.infPat, 2)
      | .rsq => (f.signBit n + f.infPat, 2)
      | .exp2 => one
      | .log2 => (f.signBit true + f.infPat, 2)
      | .sin => (f.signBit n, 0)
      | .cos => one
    else
      match fn with
      | .rcp =>
        match powerOfTwo m e with
        | some k =>
          if f.emin ≤ -k ∧ -k ≤ f.bias then roundTo f .rne ftz false n 1 (-k)
          else if (f.bias : Int) < -k then (f.signBit n + f.infPat, 0b10100) else rest n m e false
        | none =>
          let (_, m', e') := approxValue .rcp (f.mw + 2) n m e
          if (f.bias : Int) < e' + bitLength m' - 1 then
            (f.signBit n + f.infPat, 0b10100)
          else rest n m e false
      | .rsq =>
        if n then (f.nan, 1)
        else match powerOfTwo m e with
          | some k => if k % 2 = 0 then roundTo f .rne ftz false false 1 (-(k / 2)) else rest n m e false
          | none => rest n m e false
      | .exp2 =>
        let (i, frac) := roundInt .rz n m e
        if (f.bias : Int) + 1 ≤ i then (f.infPat, 0b10100)
        else if i < f.qmin ∨ (i = f.qmin ∧ frac ∧ n) then (0, 0b11000)
        else if frac then rest n m e false
        else if ftz && decide (i < f.emin) then (0, 0b11000)
        else ((roundTo f .rne false false false 1 i).1, 0)
      | .log2 =>
        if n then (f.nan, 1)
        else match powerOfTwo m e with
          | some k => ((intToFloat f .rne false k).1, 0)
          | none => rest n m e (decide (-1 ≤ e + bitLength m - 1) && decide (e + bitLength m - 1 ≤ 0))
      | .sin =>
        let (_, frac2) := roundInt .rz n m (e + 1)
        let (q, frac4) := roundInt .rz n m (e + 2)
        if !frac2 then (f.signBit n, 0)
        else if !frac4 then (f.signBit (q % 4 == 3) + one.1, 0)
        else rest n m e false
      | .cos =>
        let (h, frac2) := roundInt .rz n m (e + 1)
        let (_, frac4) := roundInt .rz n m (e + 2)
        if !frac2 then (f.signBit (h % 2 == 1) + one.1, 0)
        else if !frac4 then (0, 0)
        else rest n m e false

end Sys2Proof.Machine
end

