-- ==== Sys2Proof/Machine/Capture.lean ====
section
/-! DEFINITION. Writes at home on behalf of programs (R296, R303 to R307, R314, R321): owned pages, capture, marks, the interlock and its hold queue;
and the atomics of the home ALU (R106, R162 to R164). -/
namespace Sys2Proof.Machine

/-- Size in bytes of an operand element (R294). -/
def elemBytes : Ty → Nat
  | .i8 => 1
  | .bf16 | .f16 => 2
  | _ => 4

/-- An operand of a binding: base, row stride, rows, columns, element type (R298). -/
structure Side where
  base   : Nat
  stride : Nat
  rows   : Nat
  cols   : Nat
  ty     : Ty

def Binding.side (b : Binding) (opB : Bool) : Side :=
  if opB then ⟨b.bbase, b.bstride, b.k, b.n, b.bfmt⟩ else ⟨b.abase, b.astride, b.m, b.k, b.afmt⟩

/-- The word at `va` holds a byte of the operand's extent (R297): row and column of its element 0. -/
def Side.word (d : Side) (va : Nat) : Option (Nat × Nat) :=
  if va < d.base then none
  else
    let row := (va - d.base) / d.stride
    let off := (va - d.base) % d.stride
    if row < d.rows ∧ off < d.cols * elemBytes d.ty then some (row, off / elemBytes d.ty) else none

/-- The elements of a word that lie in the extent and differ between two values (R303, R304). -/
def Side.changed (d : Side) (col : Nat) (old new : Word) : BitVec 4 :=
  let n := elemBytes d.ty
  (List.range (4 / n)).foldl (fun m e =>
    if col + e < d.cols ∧ old.toNat / 2 ^ (8 * n * e) % 2 ^ (8 * n) ≠ new.toNat / 2 ^ (8 * n * e) % 2 ^ (8 * n) then m ||| BitVec.twoPow 4 e else m) 0

/-- Sizes of the log area's parts (R299). -/
def roundUp (x n : Nat) : Nat := (x + n - 1) / n * n
def Binding.rb (b : Binding) : Nat := roundUp ((b.m + 7) / 8) 256
def Binding.cb (b : Binding) : Nat := roundUp ((b.n + 7) / 8) 256
def Binding.ring (b : Binding) : Nat := b.lbase + 0x100 + b.rb + b.cb
def Binding.logBytes (b : Binding) : Nat := 0x100 + b.rb + b.cb + 2 ^ b.logn * 32

/-- Some row of a matrix has a byte in [lo, hi). -/
def rowsMeet (base stride rows width lo hi : Nat) : Bool :=
  let i := if lo + 1 ≤ base + width then 0 else (lo + 1 - base - width + stride - 1) / stride
  decide (i < rows) && decide (base + i * stride < hi) && decide (lo < base + i * stride + width)

/-- The 4 KiB page of `va` is an owned page of the binding (R296). -/
def Binding.owns (b : Binding) (va : Nat) : Bool :=
  let lo := va / 4096 * 4096
  rowsMeet b.cbase b.cstride b.m (4 * b.n) lo (lo + 4096)
    || (decide (lo < b.lbase + b.logBytes) && decide (b.lbase < lo + 4096))

/-- Bindings live under an (ASID, VA) (R297). -/
def State.bindsOf (s : State) (pid : BitVec 5) (asid : BitVec 16) : List Binding := s.binds.filter fun b => b.pid == pid && b.asid == asid

/-- A program write to the address is refused (R296). -/
def State.owned (s : State) (pid : BitVec 5) (asid : BitVec 16) (va : Nat) : Bool := (s.bindsOf pid asid).any fun b => b.owns va

def State.binding (s : State) (slot : Nat) : Option Binding := s.binds.find? fun b => b.slot == slot
def State.mapBinding (s : State) (slot : Nat) (f : Binding → Binding) : State :=
  { s with binds := replaceFirst (fun b => b.slot == slot) f s.binds }

/-! ## The log area -/

def bytes4 (x : Nat) : List Byte := natBytes 4 x
def bytes8 (x : Nat) : List Byte := natBytes 8 x

def Interlock.code : Interlock → Nat
  | .idle => 0 | .apend => 1 | .bpend => 2 | .init => 3

/-- Largest correction count (R299 MAXCNT). -/
def Binding.maxCnt (b : Binding) : Nat := (b.rowCnt ++ b.colCnt).foldl (fun m c => max m c.2) 0
def Binding.coarse (b : Binding) : Nat := b.rowMarks.length + b.colMarks.length
def Binding.pending (b : Binding) : Nat := b.entries.length

/-- The log header (R299). -/
def Binding.header (b : Binding) : List Byte :=
  bytes8 b.capseq ++ bytes8 b.appseq ++ bytes4 b.pending ++ bytes4 b.coarse ++ bytes4 b.maxCnt ++
    bytes4 (b.il.code + (if b.hold = [] then 0 else 4) + (if b.err then 8 else 0)) ++ bytes4 b.rej

/-- A log entry's bytes (R304). -/
def LogEntry.bytes (e : LogEntry) (slot : Nat) : List Byte :=
  bytes8 e.seq ++ natBytes 2 slot ++ [if e.opB then 1 else 0, e.emask.setWidth 8] ++ bytes4 0 ++ bytes4 e.row ++ bytes4 e.col ++
    wordBytes e.old ++ wordBytes e.new

/-- The byte of a mark bitmap that holds bit `i`. -/
def markByte (marks : List Nat) (i : Nat) : Byte :=
  (List.range 8).foldl (fun a k => if marks.contains (i / 8 * 8 + k) then a ||| BitVec.twoPow 8 k else a) 0

def Binding.cAddr (b : Binding) (i j : Nat) : Nat := b.cbase + i * b.cstride + 4 * j

/-- The extents of a binding as matrices in memory (R297 to R299): base, row stride, rows, bytes of a row. -/
structure Extent where
  base   : Nat
  stride : Nat
  rows   : Nat
  width  : Nat

/-- The 4 KiB pages of an extent, ascending. -/
def Extent.pages (x : Extent) : List Nat :=
  dedupe ((List.range x.rows).flatMap fun i =>
    let lo := (x.base + i * x.stride) / 4096
    (List.range ((x.base + i * x.stride + x.width - 1) / 4096 + 1 - lo)).map (lo + ·))

def Side.extent (d : Side) : Extent := ⟨d.base, d.stride, d.rows, d.cols * elemBytes d.ty⟩
def Binding.extentC (b : Binding) : Extent := ⟨b.cbase, b.cstride, b.m, 4 * b.n⟩
def Binding.extentLog (b : Binding) : Extent := ⟨b.lbase, b.logBytes, 1, b.logBytes⟩

/-- The extents in the order of the walk (R301), with the need of write permission. -/
def Binding.extents (b : Binding) : List (Extent × Need) :=
  [(b.extentC, .write), ((b.side false).extent, .read), ((b.side true).extent, .read), (b.extentLog, .write)]

/-- The pages of a binding in the order of the walk, with what each needs. -/
def Binding.walkPages (b : Binding) : List (Nat × Need) := b.extents.flatMap fun x => x.1.pages.map fun p => (p, x.2)

/-- Free bytes of a number, for a field that may hold any value. -/
def State.anyBytes (s : State) (n : Nat) : List Byte × State := (natBytes n (Config.freeBits (8 * n) s.free).toNat, { s with free := s.free + 1 })

/-- Each element of C yields any value of its type (R321, R297). -/
def loseC (s : State) (slot : Nat) : Dev Unit :=
  match s.binding slot with
  | none => .ok () s
  | some b =>
    devEach (fun s x =>
      let (v, s) := s.anyBytes 4
      (deviceWrite s b.pid b.asid (b.cAddr x.1 x.2) v).orSkip s) ((List.range b.m).flatMap fun i => (List.range b.n).map fun j => (i, j)) s

/-- A write of the engine to its log area; a page that cannot be had puts the binding in ERR (R321); its held writes are then released. -/
def speWrite (s : State) (slot : Nat) (va : Nat) (bytes : List Byte) : Dev Unit :=
  match s.binding slot with
  | none => .ok () s
  | some b =>
    let (bytes, s) := if b.lost then s.anyBytes bytes.length else (bytes, s)
    match deviceWriteAll s b.pid b.asid va bytes with
    | .no => if b.err then .ok () s else loseC (s.mapBinding slot fun b => { b with err := true, il := .idle }) slot
    | d => d

/-- The header follows each change (R299). -/
def speHeader (s : State) (slot : Nat) : Dev Unit :=
  match s.binding slot with
  | none => .ok () s
  | some b => speWrite s slot b.lbase b.header

/-- A write of words of a line under a key, at a system address, meets an operand word or an owned page of the binding through another mapping of its
frame (R297). -/
def Binding.strayed (b : Binding) (s : State) (key : LineKey) (pa : Nat) (words : List Nat) : Bool :=
  b.walkPages.any fun p => !(b.asid == key.asid && p.1 == key.va / 4096) && (match translate s b.pid b.asid (p.1 * 4096) with
    | .ok addr false _ _ => addr / 4096 == pa / 4096 && (b.owns (p.1 * 4096) || words.any fun k => [false, true].any fun opB =>
        ((b.side opB).word (p.1 * 4096 + (pa + 4 * k) % 4096)).isSome)
    | _ => false)

/-- What a program must not write through another mapping is written so: C and the log area of the binding become any value until UNBIND (R297). -/
def strayWrite (s : State) (key : LineKey) (pa : Nat) (words : List Nat) : Dev Unit :=
  devEach (fun s b =>
    (loseC (s.mapBinding b.slot fun b => { b with lost := true }) b.slot).bind fun _ s => speWrite s b.slot b.lbase (List.replicate b.logBytes 0))
    (s.binds.filter fun b => b.pid == key.pid && b.strayed s key pa words) s

/-! ## Capture -/

/-- What a binding does with a write to one of its operand words (R303, R306, R314). -/
inductive Offer where
  | pass | entry | mark | held
  deriving DecidableEq, Repr

/-- The interlock table (R306) with the marks of R314; `queued` says that the write comes from the head of the hold queue. -/
def Binding.offer (b : Binding) (queued : Bool) (opB : Bool) (row col : Nat) (changed : BitVec 4) : Offer :=
  if changed = 0 then .pass
  else
    let d := b.side opB
    let marked := if opB then (List.range (4 / elemBytes d.ty)).any fun e => decide (col + e < d.cols) && b.colMarks.contains (col + e)
      else b.rowMarks.contains row
    let take : Offer := if decide (2 ^ b.logn ≤ b.pending) || marked then .mark else .entry
    if b.err then (if 2 ^ b.logn ≤ b.pending then .mark else .entry)
    else match b.il with
      | .init => .held
      | .idle => take
      | .apend => if opB || (!queued && b.hold ≠ []) then .held else take
      | .bpend => if !opB || (!queued && b.hold ≠ []) then .held else take

/-- A capture as an entry: the next sequence, the ring, the interlock's next state (R303, R304, R306). -/
def captureEntry (s : State) (b : Binding) (opB : Bool) (va row col : Nat) (changed : BitVec 4) (old new : Word) : Dev Unit :=
  let e : LogEntry := ⟨b.capseq + 1, opB, va, changed, row, col, old, new⟩
  let s := s.mapBinding b.slot fun b =>
    { b with capseq := b.capseq + 1, entries := b.entries ++ [e],
             il := if b.err then .idle else if b.il = .idle then (if opB then .bpend else .apend) else b.il }
  (speWrite s b.slot (b.ring + (e.seq - 1) % 2 ^ b.logn * 32) (e.bytes b.slot)).bind fun _ s => speHeader s b.slot

/-- A capture as a mark (R314): the row, or each changed element's column. -/
def captureMark (s : State) (b : Binding) (opB : Bool) (row col : Nat) (changed : BitVec 4) : Dev Unit :=
  let add (l : List Nat) (i : Nat) := if l.contains i then l else i :: l
  if opB then
    let cols := ((List.range 4).filter fun e => changed.getLsbD e).map (col + ·)
    let marks := cols.foldl add b.colMarks
    let s := s.mapBinding b.slot fun b => { b with colMarks := marks }
    (devEach (fun s c => speWrite s b.slot (b.lbase + 0x100 + b.rb + c / 8) [markByte marks c]) cols s).bind fun _ s => speHeader s b.slot
  else
    let marks := add b.rowMarks row
    let s := s.mapBinding b.slot fun b => { b with rowMarks := marks }
    (speWrite s b.slot (b.lbase + 0x100 + row / 8) [markByte marks row]).bind fun _ s => speHeader s b.slot

/-- An operand that a word belongs to, in one binding: the side, row and column. -/
structure Member where
  slot : Nat
  opB  : Bool
  row  : Nat
  col  : Nat

/-- The memberships of a word (R297). -/
def State.members (s : State) (pid : BitVec 5) (asid : BitVec 16) (va : Nat) : List Member :=
  (s.bindsOf pid asid).flatMap fun b =>
    [false, true].filterMap fun opB => ((b.side opB).word va).map fun rc => ⟨b.slot, opB, rc.1, rc.2⟩

/-- A held write lies in [lo, hi) with a byte of its word. -/
def HeldWrite.meets (h : HeldWrite) (lo hi : Nat) : Bool := decide (lo < h.va + 4) && decide (h.va < hi)

/-- A write to the word is held (R305): a later one waits for it, an AMO that reads the word too (R303). -/
def State.wordHeld (s : State) (pid : BitVec 5) (asid : BitVec 16) (va : Nat) : Bool := (s.bindsOf pid asid).any fun b => b.hold.any fun h => h.va == va

def capture (s : State) (m : Member) (va : Nat) (o : Offer) (changed : BitVec 4) (old new : Word) : Dev Unit :=
  match s.binding m.slot with
  | none => .ok () s
  | some b =>
    match o with
    | .entry => captureEntry s b m.opB va m.row m.col changed old new
    | .mark => captureMark s b m.opB m.row m.col changed
    | _ => .ok () s

def mergeWord (old new : Word) (be : BitVec 4) : Word :=
  (List.range 4).foldl (fun w k => if be.getLsbD k then (w &&& ~~~((0xFF : Word) <<< (8 * k))) ||| (new &&& ((0xFF : Word) <<< (8 * k))) else w) old

/-- The offers that the bindings of a word make for a write to it (R303). -/
def offers (s : State) (pid : BitVec 5) (asid : BitVec 16) (va : Nat) (old new : Word) : List (Member × BitVec 4 × Offer) :=
  (s.members pid asid va).filterMap fun m =>
    (s.binding m.slot).map fun b =>
      let ch := (b.side m.opB).changed m.col old new
      (m, ch, b.offer false m.opB m.row m.col ch)

/-- The home word at `va`, filled. -/
def homeWord (s : State) (pid : BitVec 5) (asid : BitVec 16) (va : Nat) : Dev Word := (deviceRead s pid asid va 4).bind fun x s => .ok (BitVec.ofNat 32 x) s

/-- Perform a write of one word at home; the host gives up its copy of the line first (R435). -/
def performWord (s : State) (pid : BitVec 5) (asid : BitVec 16) (va : Nat) (data : Word) (be : BitVec 4) : Dev Unit :=
  match homeAccess { s with hostCache := s.hostCache.filter fun h => h != (pid, va / 128) } pid asid va .read true with
  | .line bank l s => .ok () (rawWrite s bank l (placeNat (va % 128) 4 data.toNat) (be.setWidth 128 <<< (va % 128)))
  | .busy _ => .busy
  | _ => .no

/-- The write of a word is offered to its bindings (R303): each captures it or holds it, and it is performed at once where none holds it. A binding that holds it
has it at the tail of its queue (R306). -/
def offerWord (s : State) (pid : BitVec 5) (asid : BitVec 16) (va : Nat) (old data : Word) (be : BitVec 4) (core : Option Nat) : Dev Unit :=
  let new := mergeWord old data be
  let os := offers s pid asid va old new
  let held := os.filter fun o => o.2.2 == .held
  (devEach (fun s o => if o.2.2 = .held then .ok () s else capture s o.1 va o.2.2 o.2.1 old new) os s).bind fun _ s =>
    if held.isEmpty then performWord s pid asid va data be
    else
      let (id, s) := s.nextSerial
      devEach (fun s o => speHeader (s.mapBinding o.1.slot fun b => { b with hold := b.hold ++ [⟨id, va, data, be, core⟩] }) o.1.slot) held s

/-- A program's write of one word at home (R303): captured and performed, or held by the bindings that do not take it yet. It waits for an earlier write to the
word that is held. -/
def writeWord (s : State) (pid : BitVec 5) (asid : BitVec 16) (va : Nat) (data : Word) (be : BitVec 4) (core : Option Nat) : Dev Unit :=
  if (s.members pid asid va).isEmpty then performWord s pid asid va data be
  else if s.wordHeld pid asid va then .busy
  else (homeWord s pid asid va).bind fun old s => offerWord s pid asid va old data be core

/-- Draining of a hold queue (R306, R321): writes are offered again from the head until one is held again. A write whose line can no longer be had is lost
(DESIGN CHOICE, log 24). -/
def drainHold (slot : Nat) : Nat → State → Dev Unit
  | 0, s => .ok () s
  | n + 1, s =>
    match s.binding slot with
    | none => .ok () s
    | some b =>
      match b.hold with
      | [] => .ok () s
      | h :: rest =>
        let drop (s : State) : State := s.mapBinding slot fun b => { b with hold := rest }
        match homeWord s b.pid b.asid h.va with
        | .busy => .busy
        | .no => drainHold slot n (drop s)
        | .ok old s =>
          let new := mergeWord old h.data h.be
          let ms := (s.members b.pid b.asid h.va).filter fun m => m.slot == slot
          let os := ms.map fun m => let ch := (b.side m.opB).changed m.col old new; (m, ch, b.offer true m.opB m.row m.col ch)
          if os.any fun o => o.2.2 == .held then .ok () s
          else (devEach (fun s o => capture s o.1 h.va o.2.2 o.2.1 old new) os (drop s)).bind fun _ s =>
            let elsewhere := s.binds.any fun b => b.hold.any fun x => x.id == h.id
            (if elsewhere then .ok () s else (performWord s b.pid b.asid h.va h.data h.be).orSkip s).bind fun _ s =>
              (speHeader s slot).bind fun _ s => drainHold slot n s

/-- Bindings in ERR release what they hold (R321); `n` bounds their number. -/
def freeErr : Nat → State → Dev Unit
  | 0, s => .ok () s
  | n + 1, s =>
    match s.binds.find? fun b => b.err && !b.hold.isEmpty with
    | none => .ok () s
    | some b => (drainHold b.slot b.hold.length s).bind fun _ s => freeErr n s

/-- An operation that may have put bindings in ERR, and what ERR releases at once (R321). -/
def Dev.settled {α : Type} (d : Dev α) : Dev α := d.bind fun v s => (freeErr s.binds.length s).bind fun _ s => .ok v s

/-- The binding enters IDLE and drains its hold queue (R306). -/
def enterIdle (s : State) (slot : Nat) : Dev Unit :=
  match s.binding slot with
  | none => .ok () s
  | some b => (speHeader (s.mapBinding slot fun b => { b with il := .idle }) slot).bind fun _ s => drainHold slot b.hold.length s

/-- The binding enters ERR (R321): IDLE for good. -/
def bindErr (s : State) (slot : Nat) : Dev Unit := speHeader (s.mapBinding slot fun b => { b with err := true, il := .idle }) slot

/-- How a program's write at home ends. -/
inductive WriteAcc where
  | ok (s : State)
  | busy (s : State)
  | fault (cause : BitVec 4)
  | misplaced
  | refused
  | unbacked
  /-- The address is host memory: the write goes to the port. -/
  | host (addr : Nat) (perms : Perms) (s : State)

/-- A program's word-masked write of a line at home (R87, R296, R297, R303). -/
def homeWrite (s : State) (pid : BitVec 5) (asid : BitVec 16) (va : Nat) (data : BitVec 1024) (be : BitVec 128) (sys : Bool) (core : Option Nat) :
    WriteAcc :=
  let line := va / 128 * 128
  match homeAccess s pid asid line .write sys with
  | .busy s => .busy s
  | .fault c => .fault c
  | .misplaced => .misplaced
  | .unbacked => .unbacked
  | .host a p s => .host a p s
  | .line bank l s1 =>
    if s1.owned pid asid line then .refused
    else if s1.binds = [] then .ok (rawWrite s1 bank l data be)
    else
      let words := setBits 32 (bytesToWords be).toNat
      let free := words.all fun k => (s1.members pid asid (line + 4 * k)).isEmpty
      match Dev.settled ((strayWrite s1 l.key l.pa words).bind fun _ s =>
          match free, (s.bank bank).find l.key false with
          | true, some l => .ok () (rawWrite s bank l data be)
          | _, _ => devEach (fun s k => writeWord s pid asid (line + 4 * k) (wordAt data k) (be.extractLsb' (4 * k) 4) core) words s) with
      | .ok _ s => .ok s
      | _ => .busy s

/-! ## Atomics -/

/-- The new value of a word under an atomic operation (R162, R163): m the word, o the operand, c the compare value. -/
def atomicNew (t : Ty) (op : Aop) (m o c : Dword) : Dword :=
  match op with
  | .add => intAdd t false m o
  | .and => m &&& o
  | .or => m ||| o
  | .xor => m ^^^ o
  | .min => intMin t m o
  | .max => intMax t m o
  | .swap => o
  | .cas => if m = c then o else m
  | .fadd => BitVec.ofNat 64 (fpAdd (fmtOf t) .rne false false (natOf t m) (natOf t o)).1
  | .fmin => BitVec.ofNat 64 (fpMinMax (fmtOf t) false false (natOf t m) (natOf t o)).1
  | .fmax => BitVec.ofNat 64 (fpMinMax (fmtOf t) false true (natOf t m) (natOf t o)).1

/-- How an atomic at home ends: the old value, or as a write does. -/
inductive AtomAcc where
  | ok (m : Dword) (s : State)
  | no (w : WriteAcc)

/-- An atomic in the ALU of the home bank (R106, R164, R303): the remote copies are recalled, then one read and write of the word in one step. It waits for a
held write to the word (R305). Its own write may be held (R306), the two words of one of 64 bits each by itself, as R303 captures and performs a write to a word
(DEDUCED, log 70). -/
def homeAtomicOp (s : State) (pid : BitVec 5) (asid : BitVec 16) (va : Nat) (t : Ty) (op : Aop) (o c : Dword) (sys : Bool) (core : Option Nat) : AtomAcc :=
  let n := if t.is64 then 8 else 4
  match homeAccess s pid asid va .write sys with
  | .busy s => .no (.busy s)
  | .fault c => .no (.fault c)
  | .misplaced => .no .misplaced
  | .unbacked => .no .unbacked
  | .host a p s => .no (.host a p s)
  | .line bank l s1 =>
    if s1.owned pid asid va then .no .refused
    else
      let words := wordsOfRange (va % 128) n
      let (l, s) := recallWords s1 bank l words
      let (l, s) := fillWords s l words
      let s := s.putBank bank ((s.bank bank).put l)
      let m := BitVec.ofNat 64 (lineNat l.data (va % 128) n)
      let new := (atomicNew t op m o c).toNat
      let parts := (List.range (n / 4)).map fun k =>
        (va + 4 * k, (BitVec.ofNat 32 (m.toNat / 2 ^ (32 * k)) : Word), (BitVec.ofNat 32 (new / 2 ^ (32 * k)) : Word))
      if s.binds = [] then .ok m (mergeWrite s bank l (placeNat (va % 128) n new) (placeBe (va % 128) n))
      else if parts.any fun p => s.wordHeld pid asid p.1 then .no (.busy s1)
      else
        let d := (strayWrite s l.key l.pa (setBits 32 words.toNat)).bind fun _ s =>
          devEach (fun s (p : Nat × Word × Word) => offerWord s pid asid p.1 p.2.1 p.2.2 0xF core) parts s
        match d.settled with
        | .ok _ s => .ok m s
        | _ => .no (.busy s1)

end Sys2Proof.Machine
end

