-- ==== Sys2Proof/Machine/Port.lean ====
section
/-! DEFINITION. The host port (R431 to R437, R445 to R447): host memory, the port's cache of 64-byte lines, requests on the link, and posted writes. -/
namespace Sys2Proof.Machine

/-- The link carries CXL.cache (R431). -/
def State.cxl (s : State) : Bool := s.link == .cxl3 || s.link == .cxl2

/-- The partition's interface is bound under TDISP (R433, R439): it is in CONFIG_LOCKED or RUN. -/
def Partition.bound (p : Partition) : Bool := p.tdisp == .locked || p.tdisp == .run

/-- The port caches the partition's host lines (R433). -/
def State.portCaches (s : State) (p : Partition) : Bool := s.cxl && !p.bound

/-- `n` bytes of host memory as a number. -/
def State.hostNat (s : State) (a : Nat) : Nat → Nat
  | 0 => 0
  | n + 1 => (s.hostByte a).toNat + 256 * s.hostNat (a + 1) n

/-- The 64 bytes of a host line. -/
def State.hostLine (s : State) (line : Nat) : BitVec 512 := BitVec.ofNat 512 (s.hostNat (line * 64) 64)

def State.portLine (s : State) (line : Nat) : Option PortLine := s.port.find? fun l => l.line == line

def State.putPortLine (s : State) (l : PortLine) : State := { s with port := l :: s.port.filter fun x => x.line != l.line }

/-- A posted write touches a word between the read and the write of a host atomic that the link does not perform whole (R434): it waits, since such an
atomic is atomic against the module's accesses. -/
def State.atomOpen (s : State) (w : HostWrite) : Bool :=
  s.link == .pcie && s.hostAtoms.any fun a => a.m.isSome && !a.done && decide (w.addr < a.addr + (if a.ty.is64 then 8 else 4)) &&
    decide (a.addr < w.addr + w.data.length)

/-- The partition is in its error state. -/
def State.errs (s : State) (pid : BitVec 5) : Bool := (s.part pid).any (·.err)

/-- The first `n` posted writes of a partition are sent on the link, in their order (R428, R437); none of a partition in its error state (R427). -/
def State.sendSome (s : State) (pid : BitVec 5) (n : Nat) : State :=
  let go := if s.errs pid then [] else ((s.hostOut.filter fun w => w.pid == pid).takeWhile fun w => !s.atomOpen w).take n
  { s with hostOut := go.foldl (fun l w => l.erase w) s.hostOut, hostSent := s.hostSent ++ go }

/-- The host performs the writes that are on the link, in their order. -/
def State.land (s : State) : State := s.hostSent.foldl (fun s w => s.hostPutList w.addr w.data) { s with hostSent := [] }

/-- A request that is no posted write, a read or an atomic, leaves the port: the partition's posted writes go before it, and they and those on the link are
performed before it is (R437). -/
def State.sendPosted (s : State) (pid : BitVec 5) : State := (s.sendSome pid s.hostOut.length).land

/-- Rounds of weighted round robin over the partitions whose posted writes wait at the host port (R424): in each, a partition sends as many as its weight. -/
def State.sendRounds (s : State) : Nat → State
  | 0 => s
  | n + 1 => ((dedupe (sortBy id (s.hostOut.map fun w => w.pid.toNat))).foldl (fun s pid =>
      s.sendSome (BitVec.ofNat 5 pid) (max 1 (((s.part (BitVec.ofNat 5 pid)).map (·.weight)).getD 1))) s).sendRounds n

/-- A port line is written back to host memory (DirtyEvict, or data of a snoop). -/
def State.writeBackPort (s : State) (l : PortLine) : State :=
  if l.st = .m then s.hostPutList (l.line * 64) (natBytes 64 l.data.toNat) else s

/-- The line is requested on the link, once (R433). -/
def State.askHost (s : State) (line : Nat) (own : Bool) : State :=
  if s.portReq.any fun r => r.1 == line && (r.2 || !own) then s
  else { s with portReq := s.portReq.filter (fun r => r.1 != line) ++ [(line, own)] }

/-! ## Weighted round robin (R424) -/

/-- The weight of the partition of a header's PID. -/
def State.weightOf (s : State) (pid : Nat) : Nat := ((s.parts.find? fun p => p.pid.toNat == pid).map (·.weight)).getD 1

def servedKey (queue pid : Nat) : Nat := queue * 64 + pid

/-- In the round of a queue the partition has had the share of its weight. -/
def State.shareDone (s : State) (queue pid : Nat) : Bool := decide (s.weightOf pid ≤ storeGet 0 s.served (servedKey queue pid))

/-- The queue may serve the partition: its share of the round is not done, or that of no partition that waits is left. -/
def State.mayServe (s : State) (queue pid : Nat) (waiting : List Nat) : Bool := !s.shareDone queue pid || waiting.all (s.shareDone queue)

/-- The queue serves the partition; a round ends when no partition that waits has a share left. -/
def State.serve (s : State) (queue pid : Nat) : State :=
  let l := if s.shareDone queue pid then s.served.filter fun c => c.1 / 64 != queue else s.served
  { s with served := storePut 0 l (servedKey queue pid) (storeGet 0 l (servedKey queue pid) + 1) }

/-- An access at the port ends, or waits for the host's answer. -/
inductive PortAcc where
  | ok (data : BitVec 1024) (s : State)
  | busy (s : State)

/-- Read of the 128 bytes at a host address that is a multiple of 128 (R433); a partition in its error state sends no request (R427). -/
def portRead (s : State) (p : Partition) (addr : Nat) : PortAcc :=
  let l := addr / 64
  if p.err then .busy s
  else if s.portCaches p then
    match s.portLine l, s.portLine (l + 1) with
    | some a, some b => .ok (b.data ++ a.data) s
    | none, some _ => .busy (s.askHost l false)
    | some _, none => .busy (s.askHost (l + 1) false)
    | none, none => .busy ((s.askHost l false).askHost (l + 1) false)
  else
    let s := s.sendPosted p.pid
    if s.hostOut.any fun w => w.pid == p.pid then .busy s else .ok (s.hostLine (l + 1) ++ s.hostLine l) s

/-- The runs of enabled bytes of a line: offset and bytes. -/
def byteRuns (data : BitVec 1024) (be : BitVec 128) : List (Nat × List Byte) :=
  ((List.range 128).foldl (fun (r : List (Nat × List Byte)) k =>
    if be.getLsbD k then
      match r with
      | (o, bs) :: rest => if o + bs.length = k then (o, bs ++ [byteAt data k]) :: rest else (k, [byteAt data k]) :: r
      | [] => [(k, [byteAt data k])]
    else r) []).reverse

/-- The write can be merged into the port's line: it is in E or M. -/
def State.portOwns (s : State) (line : Nat) : Bool :=
  match s.portLine line with
  | some x => x.st != .s
  | none => false

/-- Merge of bytes into a port line that the port owns: it goes to M (R433, R445). -/
def State.portMerge (s : State) (line : Nat) (data : BitVec 512) (be : BitVec 64) : State :=
  match s.portLine line with
  | none => s
  | some x => s.putPortLine { x with st := .m, data := (mergeLine (x.data.setWidth 1024) (data.setWidth 1024) (be.setWidth 128)).setWidth 512 }

/-- Write of enabled bytes of the 128 bytes at a host address (R433, R446): each half with an enabled byte needs ownership under CXL.cache; else
the writes are posted. The writes of a partition in its error state are dropped and counted (R427, R428). -/
def portWrite (s : State) (p : Partition) (addr : Nat) (data : BitVec 1024) (be : BitVec 128) : PortAcc :=
  let l := addr / 64
  let lo : BitVec 64 := be.setWidth 64
  let hi : BitVec 64 := be.extractLsb' 64 64
  if p.err then .ok data (s.mapPart p.pid fun p => { p with drop := min (p.drop + (byteRuns data be).length) 0xFFFFFFFF })
  else if s.portCaches p then
    let needLo := lo != 0 && !s.portOwns l
    let needHi := hi != 0 && !s.portOwns (l + 1)
    if needLo || needHi then
      let s := if needLo then s.askHost l true else s
      .busy (if needHi then s.askHost (l + 1) true else s)
    else
      let s := if lo = 0 then s else s.portMerge l (data.setWidth 512) lo
      let s := if hi = 0 then s else s.portMerge (l + 1) (data.extractLsb' 512 512) hi
      .ok data s
  else .ok data { s with hostOut := s.hostOut ++ (byteRuns data be).map fun r => ⟨p.pid, addr + r.1, r.2⟩ }

/-- A value of `n` bytes at a host address as the port sees it: its own copy, else host memory. -/
def State.portNat (s : State) (a : Nat) : Nat → Nat
  | 0 => 0
  | n + 1 =>
    let b := match s.portLine (a / 64) with
      | some l => (l.data.toNat / 2 ^ (8 * (a % 64)) % 256)
      | none => (s.hostByte a).toNat
    b + 256 * s.portNat (a + 1) n

/-- A host address lies in the partition's persistent memory (R432, R425 XHPM). -/
def Partition.persistent (p : Partition) (host : Nat) : Bool :=
  p.xhpm.getLsbD 0 && decide (field p.xhpm 35 18 ≤ host / 2 ^ 30) && decide (host / 2 ^ 30 ≤ field p.xhpm 53 36)

/-- The bytes of a host range become durable as they stand (R81). -/
def State.makeDurable (s : State) (a : Nat) : Nat → State
  | 0 => s
  | n + 1 => { s with durable := storePut 0 s.durable a (s.hostByte a) }.makeDurable (a + 1) n

/-- A device store to host memory re-evaluates the watches of its words at the port (R371). -/
def State.portWatches (s : State) (pid : BitVec 5) (asid : BitVec 16) (va addr : Nat) : State :=
  s.evalWatches pid asid va (va + 128) fun w n => s.portNat (addr + (w - va)) n

end Sys2Proof.Machine
end

