-- ==== Sys2Proof/Machine/L1.lean ====
section
/-! DEFINITION. A core's L1 (R135 to R151, R158): lines, replacement, loads, stores, flush and self-invalidation; and what the L1 asks of home, of a
remote copy (R89, R99) or of the host port. -/
namespace Sys2Proof.Machine

/-- How an access ends: with a value, waiting (the instruction is made again), by a parking fault with its CAUSE, misplaced (R78), refused at a bound
result (R296), or at a frame without storage (R57). -/
inductive Acc (α : Type) where
  | ok (v : α) (s : State)
  | busy (s : State)
  | fault (cause : BitVec 4)
  | misplaced
  | refused
  | unbacked

/-- The state after an access whose failure leaves things as they were. -/
def Acc.orElse {α : Type} (a : Acc α) (s : State) : State :=
  match a with
  | .ok _ s => s
  | .busy s => s
  | _ => s

/-- Who makes an access: core, partition, ASID of the access, privilege (R74), team and launch tree. -/
structure Who where
  core : Nat
  pid  : BitVec 5
  asid : BitVec 16
  sys  : Bool
  team : Nat
  tree : Nat

/-- The ASID of a team's accesses: 0 in solo mode (R339). -/
def Team.asidNow (t : Team) : BitVec 16 := if t.solo.isSome then 0 else t.asid
/-- The team holds privilege: a system team, or in solo mode (R339, R393). -/
def Team.privileged (t : Team) : Bool := t.sys || t.solo.isSome

def Team.who (t : Team) : Who := ⟨t.core, t.pid, t.asidNow, t.privileged, t.id, t.tree⟩
def State.who (s : State) : Who := s.team.who

/-- What a read obtains: the line's 128 bytes, its bits, and whether its home is the host port. -/
structure Supply where
  data  : BitVec 1024
  perms : Perms
  host  : Bool

def HomeAcc.fail {α : Type} (a : HomeAcc) (s : State) : Acc α :=
  match a with
  | .busy s => .busy s
  | .fault c => .fault c
  | .misplaced => .misplaced
  | .unbacked => .unbacked
  | _ => .busy s

/-- The remote bank through which a core reaches a line (R89, R91): none where the core is on the home die, or no remote copy is kept. -/
def Partition.viaRemote (p : Partition) (core : Nat) (asid : BitVec 16) (va : Nat) : Option (Nat × Nat) :=
  match p.home asid va with
  | none => none
  | some (die, home) =>
    if coreDie core = die then none
    else match p.remoteBank asid va (coreDie core) with
      | none => none
      | some b => if p.shareOf b (setIndex asid va) = 0 then none else some (b, home)

/-- A miss of a die's core on a remote line counts for the sampling groups of the bank that keeps the die's copies (R89, R93). -/
def Partition.countRemote (p : Partition) (s : State) (core : Nat) (key : LineKey) : State :=
  match p.remoteBank key.asid key.va (coreDie core) with
  | some b => countMiss s b key 2
  | none => s

/-- A numbered request of the team toward a bank has not arrived there (R124). -/
def State.behind (s : State) (w : Who) (home : Nat) : Bool :=
  let mine (p : Packet) : Bool := p.team == w.team && p.pid == w.pid.setWidth 6 && p.dst == .bank home && p.seq.isSome
  s.packets.any mine || s.lane.any mine || (s.held ++ s.bunker).any fun a => mine a.pkt

/-- A team's unacknowledged requests toward a bank (R124). -/
def State.toward (s : State) (w : Who) (p : Partition) (home : Nat) : Nat :=
  ((s.core w.core).acks.filter fun a => a.kind != .persist && a.pid == w.pid && a.team == w.team && (p.home a.key.asid a.key.va).map (·.2) == some home).length

/-- The counter of a team's requests toward a bank (R124). -/
def Who.seqKey (w : Who) (home : Nat) : Nat := (w.pid.toNat * 2 ^ 32 + w.team) * 1024 + home

/-- A load or an atomic of a team acts at its home bank in the step that issues it, after the team's earlier requests to the bank (R108, R155): it takes the next
number of the two (R124). -/
def State.numbered (s : State) (w : Who) (home : Nat) : State :=
  if w.team = 0 then s
  else
    let k := w.seqKey home
    let n := (storeGet 0 s.seqSent k + 1) % 65536
    { s with seqSent := storePut 0 s.seqSent k n, seqNext := storePut 0 s.seqNext k n }

/-- A read of a whole line on behalf of a core: at home, after the team's earlier requests to that bank and as one of at most sixteen (R124), in the die's remote copy, or at the host
port. -/
def supplyRead (s : State) (w : Who) (va : Nat) (need : Need) : Acc Supply :=
  let line := va / 128 * 128
  let key := keyOf w.pid w.asid line
  match s.part w.pid with
  | none => .fault 0
  | some p =>
    match homeAccess s w.pid w.asid line need w.sys with
    | .host addr perms s =>
      match portRead s p (addr / 128 * 128) with
      | .ok data s => .ok ⟨data, perms, true⟩ s
      | .busy s => .busy s
    | .line bank l s =>
      match p.viaRemote w.core w.asid line with
      | none =>
        if s.behind w bank || decide (16 ≤ s.toward w p bank) then .busy s
        else
          let s := s.numbered w bank
          let s := if coreDie w.core = bank / 64 then s else p.countRemote s w.core key
          let (data, s) := homeReadLine s bank l (BitVec.allOnes 32)
          .ok ⟨data, l.perms, false⟩ s
      | some (rb, home) =>
        let die := denseOf p.dies (coreDie w.core)
        match (s.bank rb).find key true with
        | some c =>
          if c.v = BitVec.allOnes 32 then .ok ⟨c.data, l.perms, false⟩ (s.putBank rb ((s.bank rb).put c))
          else if s.inFlight key die home rb then .busy s
          else .busy (s.send w.pid (.bank rb) (.bank home) (.rd key die (~~~c.v)))
        | none =>
          if s.inFlight key die home rb then .busy s
          else .busy (countMiss (s.send w.pid (.bank rb) (.bank home) (.rd key die (BitVec.allOnes 32))) rb key 2)
    | a => a.fail s

/-! ## Write requests of a core (R99, R124, R140, R145) -/

/-- A write of words of a line would meet an operand word or an owned page through another mapping (R297). -/
def State.strays (s : State) (key : LineKey) (words : List Nat) : Bool :=
  s.binds.any fun b => b.pid == key.pid && (match translate s key.pid key.asid key.va with
    | .ok addr false _ _ => b.strayed s key addr words
    | _ => false)

/-- Writes to the words of a line go home, not to a remote copy: a party watches the line, or it belongs to a standing product (R303, R371), under its own mapping
or another (R297). -/
def State.atHomeOnly (s : State) (key : LineKey) (words : BitVec 32) : Bool :=
  let ks := setBits 32 words.toNat
  (s.watches.any fun x => x.pid == key.pid && x.asid == key.asid && x.va / 128 == key.tag) || s.owned key.pid key.asid key.va ||
    (ks.any fun k => !(s.members key.pid key.asid (key.va + 4 * k)).isEmpty) || s.strays key ks

/-- The write request with a number is under way: in a packet, or kept in a remote bank for its grant. -/
def State.underWay (s : State) (id : Nat) : Bool :=
  (s.msgs.any fun p => match p.msg with | .write _ _ _ r => r.id == id | _ => false) || s.banks.any fun b => b.2.pend.any fun r => r.req.id == id

/-- A write to a line that a remote bank keeps for its grant (R99). -/
def State.granting (s : State) (core : Nat) (key : LineKey) : Bool := s.banks.any fun b => b.2.pend.any fun r => r.key == key && r.req.core == core

/-- A request that brings words home. -/
def AckKind.writes (k : AckKind) : Bool := k == .store || k == .writeback || k == .flush

/-- A core has a write request for a line that is not acknowledged. -/
def State.writing (s : State) (core : Nat) (key : LineKey) : Bool := (s.core core).acks.any fun a => a.kind.writes && a.key == key

/-- Some write request of a core under an ASID is not acknowledged. -/
def State.writingAny (s : State) (core : Nat) (pid : BitVec 5) (asid : BitVec 16) : Bool :=
  (s.core core).acks.any fun a => a.kind.writes && a.key.pid == pid && a.key.asid == asid

/-- A core waits for an acknowledgement of the line's write-back (R140). -/
def State.writingBack (s : State) (core : Nat) (key : LineKey) : Bool := (s.core core).acks.any fun a => a.kind == .writeback && a.key == key

/-- A request of a core awaits its acknowledgement. -/
def State.addAck (s : State) (w : Who) (kind : AckKind) (key : LineKey) (lines id : Nat) : State :=
  let c := s.core w.core
  s.putCore w.core { c with acks := c.acks ++ [⟨w.pid, w.team, kind, key, lines, id⟩] }

/-- A packet of a team toward a home bank carries the team, its generation and the next number of the two (R124); a request of no team carries none. -/
def State.sendWrite (s : State) (w : Who) (home : Nat) (m : WriteReq → Msg) (id : Nat) : State :=
  let gen := match (s.team :: s.teams).find? fun t => t.pid == w.pid && t.id == w.team with | some t => t.gen | none => 0
  let p := packetOf w.pid (.quad (coreQuad w.core)) (.bank home) (m ⟨id, w.core, w.team, gen⟩) s.cycle
  if w.team = 0 then { s with packets := s.packets ++ [p] }
  else
    let k := w.seqKey home
    let n := storeGet 0 s.seqSent k
    { s with packets := s.packets ++ [{ p with team := w.team, gen := gen, seq := some n }], seqSent := storePut 0 s.seqSent k ((n + 1) % 65536) }

/-- A write request waits for an earlier one of the core to the line: a store for a write-back or a flush, these for any (R108, R140, R141). -/
def State.waitsFor (s : State) (core : Nat) (kind : AckKind) (key : LineKey) : Bool :=
  match kind with
  | .store => (s.core core).acks.any fun a => (a.kind == .writeback || a.kind == .flush) && a.key == key
  | _ => s.writing core key

/-- A word-masked write of a core to a line that lies in HBM (R87, R99, R124, R303): into the die's remote copy for words that the die owns, or kept there until
the grant of an UPG or RDX arrives; as a request to the home bank where the die keeps no remote copy, or where the words are watched, written through, or belong
to an operand. `busy` while the request must wait: for the acknowledgement of an earlier one for the line (R108, R140, R141), or for one of the team's sixteen
toward the bank. -/
def sendHome (s : State) (w : Who) (p : Partition) (va : Nat) (perms : Perms) (data : BitVec 1024) (be : BitVec 128) (kind : AckKind) : Acc Unit :=
  let line := va / 128 * 128
  let key := keyOf w.pid w.asid line
  let words := bytesToWords be
  if s.waitsFor w.core kind key then .busy s
  else match p.home w.asid line with
  | none => .fault 0
  | some (_, home) =>
    if 16 ≤ s.toward w p home then .busy s
    else
      let (id, t) := s.nextSerial
      match (if perms.wt || s.atHomeOnly key words then none else p.viaRemote w.core w.asid line) with
      | none =>
        if s.granting w.core key then .busy s
        else
          let t := if coreDie w.core = home / 64 then t else p.countRemote t w.core key
          .ok () ((t.sendWrite w home (fun r => .write key data be r) id).addAck w kind key 1 id)
      | some (rb, _) =>
        let die := denseOf p.dies (coreDie w.core)
        let b := s.bank rb
        match b.find key true with
        | some c =>
          if c.d &&& words = words then
            .ok () ((t.putBank rb (b.put { c with data := mergeLine c.data data be, be := c.be ||| be })).addAck w kind key 1 id)
          else if s.writing w.core key || (b.pend.any fun r => r.key == key) || s.inFlight key die home rb then .busy s
          else
            let m : Msg := if c.v &&& words = words then .upg key die words else .rdx key die words
            .ok () (((t.putBank rb { b with pend := b.pend ++ [⟨key, data, be, ⟨id, w.core, w.team, 0⟩⟩] }).send w.pid (.bank rb) (.bank home) m).addAck w kind key 1 id)
        | none =>
          if s.writing w.core key || (b.pend.any fun r => r.key == key) || s.inFlight key die home rb then .busy s
          else
            let t := countMiss t rb key 2
            .ok () (((t.putBank rb { t.bank rb with pend := b.pend ++ [⟨key, data, be, ⟨id, w.core, w.team, 0⟩⟩] }).send w.pid (.bank rb) (.bank home)
              (.rdx key die words)).addAck w kind key 1 id)

/-- A word-masked write on behalf of a core (R87, R446): to the line's home bank, or to the host port for a line of host memory. -/
def pushWords (s : State) (w : Who) (va : Nat) (perms : Perms) (host : Bool) (data : BitVec 1024) (be : BitVec 128) (kind : AckKind) : Acc Unit :=
  let line := va / 128 * 128
  match s.part w.pid with
  | none => .fault 0
  | some p =>
    if !host then sendHome s w p va perms data be kind
    else match translate s w.pid w.asid line with
      | .ok _ false _ s => sendHome s w p va perms data be kind
      | .ok addr true _ s =>
        match portWrite s p (addr / 128 * 128) data be with
        | .ok _ s =>
          let (id, s) := s.nextSerial
          .ok () ((s.portWatches w.pid w.asid line (addr / 128 * 128)).addAck w kind (keyOf w.pid w.asid line) 1 id)
        | .busy s => .busy s
      | .fault c => .fault c
      | .misplaced => .misplaced
      | .unbacked => .unbacked

/-! ## Lines of an L1 -/

/-- The teams that hold registers on a core (R135, R136). -/
def State.residents (s : State) (core : Nat) : List Team := (s.team :: s.teams).filter fun t => t.phase == .resident && t.core == core

/-- The L1 ways of a core whose windows sum to `bytes` (R135). -/
def waysFor (bytes : Nat) : Nat := if bytes = 0 then 64 else if bytes ≤ 262144 then 48 else if bytes ≤ 524288 then 32 else 16

def State.windowSum (s : State) (core : Nat) : Nat := (s.residents core).foldl (fun n t => n + t.window) 0

/-- The set of a line in an L1 of 128 sets (DESIGN CHOICE, log 23). -/
def l1Set (key : LineKey) : Nat := key.tag % 128

def Core.findLine (c : Core) (key : LineKey) (k : Option Nat) : Option L1Line := c.l1.find? fun l => l.key == key && l.k == k
def Core.putLine (c : Core) (l : L1Line) : Core := { c with l1 := l :: c.l1.filter fun x => !(x.key == l.key && x.k == l.k) }
def Core.dropLine (c : Core) (key : LineKey) (k : Option Nat) : Core := { c with l1 := c.l1.filter fun x => !(x.key == key && x.k == k) }

def State.putL1 (s : State) (core : Nat) (l : L1Line) : State := s.putCore core ((s.core core).putLine l)

/-- A party that writes a line home for the core, on behalf of a team or of none: the right to write was checked when the words were stored. -/
def L1Line.owner (l : L1Line) (core team : Nat) : Who := ⟨core, l.key.pid, l.key.asid, true, team, 0⟩

/-- A line leaves the L1 (R140): its dirty words go home word-masked; words that home no longer takes are lost (DESIGN CHOICE, log 24). -/
def evictL1 (s : State) (core team : Nat) (l : L1Line) : Acc Unit :=
  let drop (s : State) : State := s.putCore core ((s.core core).dropLine l.key l.k)
  if l.d = 0 then .ok () (drop s)
  else match pushWords s (l.owner core team) l.key.va l.perms l.host l.data (dirtyBytes l.d l.be) .writeback with
    | .ok _ s => .ok () (drop s)
    | .busy s => .busy s
    | .unbacked => .unbacked
    | _ => .ok () (drop s)

/-- Evictions until a set of the L1 holds fewer than `ways` lines; `n` bounds their number. -/
def l1Room (core team set ways : Nat) : Nat → State → Acc Unit
  | 0, s => .ok () s
  | n + 1, s =>
    let here := (s.core core).l1.filter fun l => l1Set l.key == set
    if here.length < ways then .ok () s
    else match here.getLast? with
      | none => .ok () s
      | some l =>
        match evictL1 s core team l with
        | .ok _ s => l1Room core team set ways n s
        | a => a

/-- The bytes of a line that an L1 line holds (R85, R86). -/
def L1Line.present (l : L1Line) : BitVec 128 := wordsToBytes l.v ||| dirtyBytes l.d l.be

/-- The line that a load may hit (R158): for LDK the K line of the team's launch tree first. -/
def Core.usable (c : Core) (key : LineKey) (k : Option Nat) (want : BitVec 128) : Option L1Line :=
  let ok (l : Option L1Line) : Option L1Line := l.filter fun l => want &&& ~~~l.present == 0
  match k with
  | none => ok (c.findLine key none)
  | some _ => (ok (c.findLine key k)).or (ok (c.findLine key none))

/-- A write of the core to the line is held by a binding (R305). -/
def State.heldLine (s : State) (core : Nat) (key : LineKey) : Bool :=
  (s.bindsOf key.pid key.asid).any fun b => b.hold.any fun h => h.core == some core && h.meets key.va (key.va + 128)

/-- A load that misses waits: for the acknowledgement of the line's write-back (R140), and of the writes to the line that the core has sent, its own team's among
them (R108, R141); and while one of them is held (R164, R305). -/
def State.loadWaits (s : State) (w : Who) (key : LineKey) : Bool :=
  ((s.core w.core).acks.any fun a => a.key == key && (a.kind == .writeback || a.kind == .store)) || s.heldLine w.core key

/-- A load of bytes of one line through the L1 (R139 to R141, R157, R158, R377): the line's bytes, and whether they were there. A miss fills the whole line but
its dirty bytes; with NA it fills nothing, and the words that the L1 holds are its values. -/
def l1Load (s : State) (w : Who) (va : Nat) (want : BitVec 128) (k : Option Nat) (na : Bool) : Acc (BitVec 1024 × Bool) :=
  let key := keyOf w.pid w.asid va
  match (s.core w.core).usable key k want with
  | some l => if l.perms.s && !w.sys then .fault 1 else .ok (l.data, true) (s.putL1 w.core l)
  | none =>
    if s.loadWaits w key then .busy s
    else match supplyRead s w va .read with
      | .ok sup s =>
        let old := (s.core w.core).findLine key k
        let base := match old with
          | some l => some l
          | none => (s.core w.core).findLine key none
        let data := match base with
          | some l => mergeLine sup.data l.data (if na then l.present else dirtyBytes l.d l.be)
          | none => sup.data
        if na then .ok (data, false) s
        else match old with
          | some l => .ok (data, false) (s.putL1 w.core { l with data := data, v := BitVec.allOnes 32 })
          | none =>
            match l1Room w.core w.team (l1Set key) (s.core w.core).ways 64 s with
            | .ok _ s =>
              .ok (data, false) (s.putL1 w.core ⟨key, sup.perms, k, data, BitVec.allOnes 32, 0, 0, 0, sup.host⟩)
            | .busy s => .busy s
            | .unbacked => .unbacked
            | _ => .ok (data, false) s
      | .busy s => .busy s
      | .fault c => .fault c
      | .misplaced => .misplaced
      | .refused => .refused
      | .unbacked => .unbacked

/-- The bits of a line for a write, from home (R74, R139). -/
def writePerms (s : State) (w : Who) (va : Nat) : Acc (Perms × Bool) :=
  match homeAccess s w.pid w.asid (va / 128 * 128) .write w.sys with
  | .line _ l s => .ok (l.perms, false) s
  | .host _ p s => .ok (p, true) s
  | a => a.fail s

/-- Bytes written into an L1 line (R86). -/
def L1Line.write (l : L1Line) (data : BitVec 1024) (be : BitVec 128) : L1Line :=
  { l with data := mergeLine l.data data be, d := l.d ||| bytesToWords be, be := dirtyBytes l.d l.be ||| be, out := l.out &&& ~~~(bytesToWords be) }

/-- Words dropped from a line. -/
def L1Line.dropWords (l : L1Line) (words : BitVec 32) : L1Line :=
  let l' := { l with v := l.v &&& ~~~words, d := l.d &&& ~~~words, out := l.out &&& ~~~words }
  { l' with be := dirtyBytes l'.d l.be }

/-- Every copy of the words in an L1 is dropped; the dirty ones among them must have gone home. -/
def dropCopies (s : State) (core : Nat) (key : LineKey) (words : BitVec 32) : State :=
  let c := s.core core
  s.putCore core { c with l1 := (c.l1.map fun l => if l.key == key then l.dropWords words else l).filter fun l => !(l.key == key && l.v == 0 && l.d == 0) }

/-- The L1's dirty words of an access go home, and every copy of the words leaves the L1 (R164, R369); done when no write of the core to the line is
unacknowledged. -/
def l1Release (s : State) (w : Who) (va : Nat) (words : BitVec 32) : Acc Unit :=
  let key := keyOf w.pid w.asid va
  if s.writing w.core key then .busy s
  else match (s.core w.core).findLine key none with
  | none => .ok () (dropCopies s w.core key words)
  | some l =>
    let be := dirtyBytes (l.d &&& words) l.be
    if be = 0 then .ok () (dropCopies s w.core key words)
    else match pushWords s w va l.perms l.host l.data be .store with
      | .ok _ s => .busy (dropCopies s w.core key words)
      | a => a

/-- A store of bytes of one line (R139, R157): into the L1, which allocates without reading; with NA home, word-masked. -/
def l1Store (s : State) (w : Who) (va : Nat) (data : BitVec 1024) (be : BitVec 128) (na : Bool) : Acc Unit :=
  let key := keyOf w.pid w.asid va
  if s.owned w.pid w.asid va then .refused
  else if na then
    let words := bytesToWords be
    let (data, be) := match (s.core w.core).findLine key none with
      | none => (data, be)
      | some l => (mergeLine l.data data be, dirtyBytes (l.d &&& words) l.be ||| be)
    match writePerms s w va with
    | .ok (perms, host) s =>
      match pushWords s w va perms host data be .store with
      | .ok _ s => .ok () (dropCopies s w.core key words)
      | a => a
    | .busy s => .busy s
    | .fault c => .fault c
    | .misplaced => .misplaced
    | .refused => .refused
    | .unbacked => .unbacked
  else match (s.core w.core).findLine key none with
    | some l =>
      if l.perms.s && !w.sys then .fault 1
      else if l.perms.w then .ok () (s.putL1 w.core (l.write data be))
      else match writePerms s w va with
        | .ok _ s => .ok () (s.putL1 w.core ({ l with perms := { l.perms with w := true } }.write data be))
        | .busy s => .busy s
        | .fault c => .fault c
        | .misplaced => .misplaced
        | .refused => .refused
        | .unbacked => .unbacked
    | none =>
      if s.writingBack w.core key then .busy s
      else match writePerms s w va with
        | .ok (perms, host) s =>
          match l1Room w.core w.team (l1Set key) (s.core w.core).ways 64 s with
          | .ok _ s => .ok () (s.putL1 w.core ((⟨key, perms, none, 0, 0, 0, 0, 0, host⟩ : L1Line).write data be))
          | a => a
        | .busy s => .busy s
        | .fault c => .fault c
        | .misplaced => .misplaced
        | .refused => .refused
        | .unbacked => .unbacked

/-! ## Reconciling -/

/-- A line keeps its place in the order of use. -/
def Core.setLine (c : Core) (l : L1Line) : Core := { c with l1 := c.l1.map fun x => if x.key == l.key && x.k == l.k then l else x }

/-- Dirty words of a list of lines are sent home, word-masked, but those that are on their way (R145); `ok` when none is dirty any more. Words that home no
longer takes are lost (DESIGN CHOICE, log 24). -/
def flushLines (core team : Nat) : List L1Line → State → Acc Unit
  | [], s => .ok () s
  | l :: rest, s =>
    let later (s : State) : Acc Unit :=
      match flushLines core team rest s with
      | .ok _ s => .busy s
      | a => a
    if l.d = 0 then flushLines core team rest s
    else if l.d &&& ~~~l.out = 0 then later s
    else match pushWords s (l.owner core team) l.key.va l.perms l.host l.data (dirtyBytes (l.d &&& ~~~l.out) l.be) .flush with
      | .ok _ s => later (s.putCore core ((s.core core).setLine { l with out := l.d }))
      | .busy s => later s
      | .unbacked => .unbacked
      | _ => flushLines core team rest (s.putCore core ((s.core core).setLine { l with d := 0, be := 0, out := 0 }))

/-- The words of a line whose flush has come home become clean (R145): a word with V = 0 is no longer held as present. -/
def Core.flushed (c : Core) (key : LineKey) : Core :=
  let f (l : L1Line) : L1Line := { l with d := l.d &&& ~~~l.out, be := dirtyBytes (l.d &&& ~~~l.out) l.be, out := 0 }
  { c with l1 := (c.l1.map fun l => if l.key == key then f l else l).filter fun l => !(l.key == key && l.v == 0 && l.d == 0) }

/-- A write of the core is held by a binding of the ASID (R305). -/
def State.holds (s : State) (pid : BitVec 5) (asid : BitVec 16) (core : Nat) : Bool :=
  (s.bindsOf pid asid).any fun b => b.hold.any fun h => h.core == some core

/-- Flush on a core for an ASID (R145, R305): complete when every dirty word, and every word that left the L1 before, is visible at home. -/
def flush (s : State) (core team : Nat) (pid : BitVec 5) (asid : BitVec 16) : Acc Unit :=
  match flushLines core team ((s.core core).l1.filter fun l => l.key.pid == pid && l.key.asid == asid) s with
  | .ok _ s => if s.holds pid asid core || s.writingAny core pid asid then .busy s else .ok () s
  | a => a

/-- Self-invalidation on a core for an ASID (R146): clean words go, except in K lines of the launch tree. -/
def selfInvalidate (s : State) (core : Nat) (pid : BitVec 5) (asid : BitVec 16) (tree : Nat) : State :=
  let c := s.core core
  let hit (l : L1Line) : Bool := l.key.pid == pid && l.key.asid == asid && l.k != some tree
  s.putCore core { c with l1 := (c.l1.map fun l => if hit l then { l with v := l.v &&& l.d } else l).filter fun l => !(hit l && l.v == 0 && l.d == 0) }

/-- Self-invalidation for the team in focus. -/
def State.selfInv (s : State) : State := selfInvalidate s s.team.core s.team.pid s.team.asidNow s.team.tree

/-- Flush of all that a team has written (R156, R406, R415): under its own ASID, and in solo mode under ASID 0 too. -/
def flushOf (s : State) (t : Team) : Acc Unit :=
  match flush s t.core t.id t.pid t.asid with
  | .ok _ s => if t.solo.isSome then flush s t.core t.id t.pid 0 else .ok () s
  | a => a

/-- Flush for the team in focus. -/
def State.flushTeam (s : State) : Acc Unit := flush s s.team.core s.team.id s.team.pid s.team.asidNow

/-- The split shrinks when no resident team of the core has a window (R137). -/
def State.relaxSplit (s : State) (core : Nat) : State :=
  if s.windowSum core = 0 then s.putCore core { s.core core with ways := 64 } else s

/-- The L1 gives up ways (R137): every set is cut to `ways` lines. -/
def trimL1 (core ways : Nat) : List Nat → State → Acc Unit
  | [], s => .ok () s
  | set :: rest, s =>
    match l1Room core 0 set (ways + 1) 64 s with
    | .ok _ s => trimL1 core ways rest s
    | a => a

/-- The split grows for a window of `bytes` more on a core (R135, R137): the ways given up are written home and dropped first. -/
def growSplit (core bytes : Nat) (s : State) : Acc Unit :=
  let ways := min (s.core core).ways (waysFor (s.windowSum core + bytes))
  if ways = (s.core core).ways then .ok () s
  else match trimL1 core ways (List.range 128) s with
    | .ok _ s => .ok () (s.putCore core { s.core core with ways := ways })
    | a => a

end Sys2Proof.Machine
end

