-- ==== Sys2Proof/Machine/Frames.lean ====
section
/-! DEFINITION. Teams by number, frames (R350 to R352, R387), dense indices (R8), and the fault queue (R397 to R401, R419). -/
namespace Sys2Proof.Machine

/-! ## Teams -/

/-- The team of a partition with a number, if it lives. -/
def State.findTeam (s : State) (pid : BitVec 5) (id : Nat) : Option Team :=
  if s.team.pid == pid && s.team.id == id && s.team.phase != .ended then some s.team
  else s.teams.find? fun t => t.pid == pid && t.id == id && t.phase != .ended

def State.mapTeam (s : State) (pid : BitVec 5) (id : Nat) (f : Team → Team) : State :=
  if s.team.pid == pid && s.team.id == id && s.team.phase != .ended then { s with team := f s.team }
  else { s with teams := replaceFirst (fun t => t.pid == pid && t.id == id && t.phase != .ended) f s.teams }

/-- Every team that lives. -/
def State.live (s : State) : List Team := (s.team :: s.teams).filter fun t => t.phase != .ended

/-- Put a team in focus; the team that was there joins the others while it lives. -/
def State.focusOn (s : State) (pid : BitVec 5) (id : Nat) (slot : Bool) : State :=
  if s.team.pid == pid && s.team.id == id && s.team.phase != .ended then { s with slot := slot }
  else match s.teams.find? fun t => t.pid == pid && t.id == id && t.phase != .ended with
    | none => s
    | some t =>
      let rest := s.teams.filter fun x => !(x.pid == pid && x.id == id)
      { s with team := t, slot := slot, teams := if s.team.phase = .ended then rest else s.team :: rest }

/-- An access by another team's hand: the team is put in focus for `f`, and the focus returns. -/
def State.onTeam (s : State) (pid : BitVec 5) (id : Nat) (slot : Bool) (f : State → Acc Unit) : Acc Unit :=
  match f (s.focusOn pid id slot) with
  | .ok _ s' => .ok () (s'.focusOn s.team.pid s.team.id s.slot)
  | .busy s' => .busy (s'.focusOn s.team.pid s.team.id s.slot)
  | a => a

/-- A scoreboard entry clears in both paths (R328). -/
def Team.clearSb (t : Team) (id : Nat) : Team :=
  let f (p : Path) : Path := { p with sb := p.sb.filter fun e => e.id != id }
  { t with path0 := t.path0.map f, path1 := t.path1.map f }

/-- A team as an event names it: its TEAMID and 2³² times its partition's number. -/
def evOf (t : Team) : Nat := t.pid.toNat * 2 ^ 32 + t.id % 2 ^ 32

/-! ## Dense indices (R8) -/

def Partition.denseCore (p : Partition) (core : Nat) : Nat := denseOf p.quads (coreQuad core) * 4 + core % 4
def Partition.denseQuad (p : Partition) (core : Nat) : Nat := denseOf p.quads (coreQuad core)
def Partition.denseDie (p : Partition) (core : Nat) : Nat := denseOf p.dies (coreDie core)

/-- The physical core with a dense index, if there is one. -/
def Partition.physCore (p : Partition) (dense : Nat) : Option Nat := (p.quads[dense / 4]?).map fun q => q * 4 + dense % 4

/-! ## Frames -/

def Frame.blank : Frame := { args := [], entry := 0, parent := 0, handle := 0, lanes := 0, aff := .any, size := 0 }

/-- `n` free frames of the pool, by address (R351); `none` where fewer are free. -/
def Partition.freeFrames (p : Partition) (n : Nat) : Option (List Nat) :=
  let base := field p.xfpool 51 12 * 4096
  let all := (List.range (min (field p.xfpsz 31 0) (p.frames.length + n))).map fun i => base + 256 * i
  let l := (all.filter fun a => !(p.frames.any fun f => f.1 == a)).take n
  if l.length = n then some l else none

/-- Take frames from the pool (R350, R354). -/
def State.takeFrames (s : State) (pid : BitVec 5) (n : Nat) : Option (List Nat × State) :=
  match s.part pid with
  | none => none
  | some p =>
    match p.freeFrames n with
    | none => none
    | some l => some (l, s.mapPart pid fun p => { p with frames := p.frames ++ l.map fun a => (a, Frame.blank) })

/-- Frames return to the pool. -/
def State.giveFrames (s : State) (pid : BitVec 5) (l : List Nat) : State :=
  if l = [] then s else s.mapPart pid fun p => { p with frames := p.frames.filter fun f => !(l.contains f.1) }

/-- Fill a frame (R352). -/
def State.fillFrame (s : State) (pid : BitVec 5) (a : Nat) (f : Frame) : State :=
  s.mapPart pid fun p => { p with frames := replaceFirst (fun x => x.1 == a) (fun _ => (a, f)) p.frames }

/-- A handle for a record frame: its reuse tag advances (R362). -/
def State.newHandle (s : State) (pid : BitVec 5) (a : Nat) : BitVec 16 × State :=
  match s.part pid with
  | none => (0, s)
  | some p =>
    let tag := (storeGet 0 p.frameTag a + 1) % 65536
    (BitVec.ofNat 16 tag, s.mapPart pid fun p => { p with frameTag := storePut 0 p.frameTag a tag })

/-- The layout of a handle (R362). -/
def handleOf (a : Nat) (tag : BitVec 16) : Dword := (tag.setWidth 64 <<< 44) ||| BitVec.ofNat 64 (a / 256 % 2 ^ 44)

/-! ## The fault queue -/

def FaultKind.code : FaultKind → Nat
  | .load => 0 | .store => 1 | .atomic => 2 | .fetch => 3 | .engineRead => 4 | .engineWrite => 5

/-- Two faults fall in one entry (R399). -/
def FaultEntry.same (e : FaultEntry) (pid : BitVec 5) (f : FaultAt) : Bool :=
  e.pid == pid && e.asid == f.asid && e.va / 4096 == f.va / 4096 && e.kind == f.kind

/-- A fault of a team merges into an entry (R399). -/
def FaultEntry.addMerge (team : Nat) (e : FaultEntry) : FaultEntry :=
  { e with merge := min (e.merge + 1) 0x7FFF, teams := if e.teams.contains team then e.teams else e.teams ++ [team] }

/-- A fault is offered (R399): it merges into an entry in the queue or waiting for it, or waits for an entry of its own. -/
def State.offerFault (s : State) (t : Team) (pc : Dword) (f : FaultAt) : State :=
  if s.fq.any fun e => e.same t.pid f then { s with fq := replaceFirst (fun e => e.same t.pid f) (FaultEntry.addMerge t.id) s.fq }
  else if s.fqWait.any fun e => e.same t.pid f then { s with fqWait := replaceFirst (fun e => e.same t.pid f) (FaultEntry.addMerge t.id) s.fqWait }
  else
    let core := match s.part t.pid with | some p => p.denseCore t.core | none => 0
    { s with fqWait := s.fqWait ++ [⟨t.pid, f.asid, f.va, f.kind, f.cause, pc, t.id, core, t.gen, f.lanes, 0, [t.id]⟩] }

def Partition.cap (p : Partition) : Nat := field p.xfq 26 16
def Partition.resv (p : Partition) : Nat := field p.xfq 10 0
def State.fqHeld (s : State) (pid : BitVec 5) : Nat := (s.fq.filter fun e => e.pid == pid).length

/-- The queue has room for an entry of the partition (R398). -/
def State.fqRoom (s : State) (p : Partition) : Bool :=
  let held := s.fqHeld p.pid
  let shared := Config.faultEntries - s.parts.foldl (fun n q => n + q.resv) 0
  let used := s.parts.foldl (fun n q => n + (s.fqHeld q.pid - q.resv)) 0
  decide (held < p.cap) && (decide (held < p.resv) || decide (used < shared))

/-- The oldest waiting fault of a partition enters the queue, and the doorbell addition for it is made (R398, R400). -/
def State.admitOldest (s : State) (pid : BitVec 5) : State :=
  match s.part pid, s.fqWait.find? fun e => e.pid == pid with
  | some p, some e =>
    if s.fqRoom p then
      let s := { s with fq := s.fq ++ [e], fqWait := s.fqWait.erase e }
      if p.xfqdb = 0 then s
      else { s with atomics := s.atomics ++ [⟨pid, 0, field p.xfqdb 51 3 * 8, .n64, .add, 1⟩] }
    else s
  | _, _ => s

/-- Two faults are of one instruction of one team (R419). -/
def FaultEntry.together (e x : FaultEntry) : Bool := e.pid == x.pid && e.team == x.team && e.gen == x.gen && e.pc == x.pc

/-- The waiting faults of the partition's oldest faulting instruction enter the queue in one step, as far as there is room: no entry of it can be popped,
and no addition for it be made, before its faults are placed (R419). -/
def State.admitFault (s : State) (pid : BitVec 5) : State :=
  match s.fqWait.find? fun e => e.pid == pid with
  | some e => (s.fqWait.filter e.together).foldl (fun s _ => s.admitOldest pid) s
  | none => s

/-- The fault of the lowest lane, and among those of one lane the one at the lowest address. -/
def lowestFault (fs : List FaultAt) : Option FaultAt :=
  fs.foldl (fun (m : Option FaultAt) f => match m with
    | some x => if f.low < x.low ∨ (f.low = x.low ∧ f.va < x.va) then some f else some x
    | none => some f) none

/-- The faults of one instruction, in order (R419): an entry has the count of the page's first access and the address of the page's lowest lane. -/
def State.offerFaults (s : State) (t : Team) (pc : Dword) (fs : List FaultAt) : State :=
  fs.foldl (fun s f => s.offerFault t pc { f with va := (lowestFault (fs.filter fun x => x.va / 4096 == f.va / 4096)).elim f.va (·.va) }) s

/-- The words of a popped entry, bits 63:0 first (R401). -/
def FaultEntry.words (e : FaultEntry) : List Dword :=
  [ e.pc, BitVec.ofNat 64 e.va,
    BitVec.ofNat 64 (e.cause.toNat + 16 * e.kind.code + 256 * e.pid.toNat + 65536 * e.asid.toNat + 2 ^ 32 * (e.team % 2 ^ 32)),
    BitVec.ofNat 64 (e.core % 65536 + 65536 * e.gen.toNat + 2 ^ 37 * (e.ulanes % 2048) + 2 ^ 48 * e.merge + 2 ^ 63) ]

end Sys2Proof.Machine
end

