-- ==== Sys2Proof/Machine/MatrixCmd.lean ====
section
/-! DEFINITION. Matrix commands and drain descriptors as values (R271 to R276, R289): the formats, operands and checks that an issue and a restore share. -/
namespace Sys2Proof.Machine

/-- The formats that R273 lists. -/
def mmaLegal (t : Ty) : Bool := [Ty.bf16, .f16, .e4m3, .e5m2, .cb4, .i8, .i4].contains t

/-- Bytes of an operand in the window (R271). -/
def mmaExtent (t : Ty) : Nat := 512 * mmaBits t

/-- The scale tag's 8 bytes, in the places of the format word (R273; DESIGN CHOICE, log 25). -/
def ScaleTag.code (g : ScaleTag) : Nat :=
  let f (o : Option (BitVec 12)) (v sh : Nat) : Nat := match o with | some x => 2 ^ v + x.toNat * 2 ^ sh | .none => 0
  f g.a 14 16 + f g.b 15 28

def scaleTagOf (n : Nat) : ScaleTag :=
  { a := if n.testBit 14 then some (BitVec.ofNat 12 (n / 2 ^ 16)) else .none, b := if n.testBit 15 then some (BitVec.ofNat 12 (n / 2 ^ 28)) else .none }

/-- The operands and formats of an MMA as its issue finds them (R273, R275). -/
structure MmaArgs where
  fmt : Dword
  af  : Option Ty
  bf  : Option Ty
  hasFmt : Bool

def mmaFreg (o : MmaO) : UReg := match o.j with | some j => j.freg | none => 0

/-- The formats that the instruction and its format word give. -/
def mmaArgsOf (o : MmaO) (f : Dword) : MmaArgs :=
  if mmaFreg o = 0 then ⟨0, some o.ty, some o.ty, false⟩
  else ⟨f, (Ty.ofCode (f.setWidth 5)).filter mmaLegal, (Ty.ofCode ((f >>> 5).setWidth 5)).filter mmaLegal, true⟩

/-- The base of an operand, over the value of its uniform register (R276). -/
def mmaSrcBase (x : MmaSrc) (v : Dword) : Dword :=
  match x with
  | .win _ off => v + BitVec.ofNat 64 (128 * off.toNat)
  | .lane _ => 0

/-- The checks of R276, in order, over the operands' bases. Where the bases of both window operands fail check 2, TRAPVA holds A's, as the rule says for scale
vectors (DESIGN CHOICE, log 85). -/
def mmaCheckOf (o : MmaO) (a : MmaArgs) (ba bb : Dword) (vregs window : Nat) : Option (Nat × Dword) :=
  match a.af, a.bf with
  | some af, some bf =>
    if a.hasFmt ∧ field a.fmt 63 40 ≠ 0 then some (0x0D, a.fmt)
    else
      let bad (x : MmaSrc) (b : Dword) (t : Ty) : Bool := match x with
        | .win .. => decide (b.toNat % 128 ≠ 0) || decide (window < b.toNat + mmaExtent t)
        | .lane _ => false
      let vec (v off : Nat) : Bool := a.fmt.getLsbD v && decide (window < off * 256 + 256)
      let regs (x : MmaSrc) (t : Ty) : Bool := match x with
        | .win .. => false
        | .lane r => decide (vregs < r.toNat + 2 * mmaBits t)
      if bad o.a ba af then some (0x0D, ba)
      else if bad o.b bb bf then some (0x0D, bb)
      else if vec 14 (field a.fmt 27 16) then some (0x0D, BitVec.ofNat 64 (field a.fmt 27 16 * 256))
      else if vec 15 (field a.fmt 39 28) then some (0x0D, BitVec.ofNat 64 (field a.fmt 39 28 * 256))
      else if regs o.a af || regs o.b bf then some (0x03, 0)
      else none
  | _, _ => some (0x0D, a.fmt)

def mmaOperand (x : MmaSrc) (base : Dword) : MmaOperand :=
  match x with
  | .win .. => .win base.toNat
  | .lane r => .lane r

/-- The scale tag of a format word (R274). -/
def MmaArgs.tag (a : MmaArgs) : ScaleTag := if a.hasFmt then scaleTagOf a.fmt.toNat else ScaleTag.none

/-- A command that has not started. -/
def mmaCmdOf (o : MmaO) (a : MmaArgs) (ba bb : Dword) (after : List Nat) (touched : Bool) : MmaCmd :=
  { o := o, af := a.af.getD .bf16, bf := a.bf.getD .bf16, aslot := (a.fmt >>> 10).setWidth 2, bslot := (a.fmt >>> 12).setWidth 2, a := mmaOperand o.a ba,
    b := mmaOperand o.b bb, fmt := a.fmt, after := after, started := false, narrow := false, ends := 0, touched := touched, result := [], nan := false, ovf := false }

/-- A window address of a tile operation (R286): misaligned or past the end of the window. -/
def badWindowOf (a : Dword) (align n window : Nat) : Bool := decide (a.toNat % align ≠ 0) || decide (window < a.toNat + n)

/-- The fields of a drain descriptor (R289). -/
structure DrainDesc where
  dst : Nat
  dstride : Nat
  res : Nat
  rstride : Nat
  rfmt : Nat
  doen : Bool
  p : Nat
  keep : Nat
  seedLo : Word
  seedHi : Word
  row0 : Nat
  col0 : Nat

def drainDesc (bs : List Byte) : DrainDesc :=
  { dst := getN bs 0 4, dstride := getN bs 4 4, res := getN bs 8 4, rstride := getN bs 0xC 4, rfmt := getN bs 0x10 4 % 4, doen := (getN bs 0x10 4).testBit 2,
    p := getN bs 0x18 4, keep := getN bs 0x1C 4, seedLo := BitVec.ofNat 32 (getN bs 0x20 4), seedHi := BitVec.ofNat 32 (getN bs 0x24 4),
    row0 := getN bs 0x28 4, col0 := getN bs 0x2C 4 }

/-- Bytes of an output element (R288) and of a residual element (R289). -/
def drainSize (t : Ty) : Nat := match t with | .f32 | .i32 => 4 | .f16 | .bf16 => 2 | _ => 1
def DrainDesc.resSize (d : DrainDesc) : Nat := if d.rfmt = 1 then 4 else 2

/-- The descriptor is legal for an output type and a window size (R288, R289). -/
def drainLegal (bs : List Byte) (t : Ty) (window : Nat) : Bool :=
  let d := drainDesc bs
  let n := drainSize t
  decide (getN bs 0x10 4 / 8 = 0) && decide (getN bs 0x14 4 = 0) && decide (getN bs 0x30 16 = 0) && decide (d.dst % 4 = 0) && decide (d.res % 4 = 0) &&
    decide (d.dstride % 4 = 0) && decide (d.rstride % 4 = 0) && decide (64 * n ≤ d.dstride) && decide (d.dst + 63 * d.dstride + 64 * n ≤ window) &&
    (d.rfmt == 0 || decide (d.res + 63 * d.rstride + 64 * d.resSize ≤ window))

end Sys2Proof.Machine
end

