-- ==== Sys2Proof/Machine/EngineCheck.lean ====
section
/-! DEFINITION. The size of an access, and the operands of copies and chains and their checks (R170 to R172, R185 to R187): an instruction makes them at its issue, a
restore on the records that it reads back (R411). -/
namespace Sys2Proof.Machine

/-- Bytes of an access by type (R35, R157, R160). -/
def accessBytes (t : Ty) : Nat :=
  match t with
  | .i8 | .n8 | .e4m3 | .e5m2 => 1
  | .i16 | .n16 | .f16 | .bf16 => 2
  | .b64 | .i64 | .n64 | .f64 => 8
  | _ => 4

/-- Source and destination stride of a 2-D copy: signed byte counts in the halves of s[C] (R170). -/
def sstrideOf (stride : Dword) : Dword := (stride.setWidth 32).signExtend 64
def dstrideOf (stride : Dword) : Dword := ((stride >>> 32).setWidth 32).signExtend 64

/-- The operands of a COPY (R171). -/
structure CopyArgs where
  sa   : Dword
  da   : Dword
  len  : Nat
  rows : Nat
  ss   : Int
  ds   : Int

/-- An extent as exact integers: its lowest byte and the byte after its highest (R172); meaningful while it is not empty. -/
def extent (a : Dword) (stride : Int) (len rows : Nat) : Int × Int :=
  let span := (rows - 1 : Int) * stride
  (a.toNat + min 0 span, a.toNat + max 0 span + len)

/-- The lowest offset beyond a window among an extent's bytes (R172, check 4). -/
def lowestBeyond (a : Dword) (stride : Int) (len rows window : Nat) : Dword :=
  let best := (List.range rows).foldl (fun (m : Option Nat) (r : Nat) =>
    let x : Int := ((a.toNat : Int) + (r : Int) * stride) % 2 ^ 64
    let x := x.toNat
    let c : Option Nat := if window ≤ x then some x else if window < x + len then some window else none
    match m, c with
    | some y, some z => some (min y z)
    | none, z => z
    | y, none => y) none
  BitVec.ofNat 64 (best.getD 0)

/-- The checks of R172, in order: trap code and TRAPVA; a misaligned stride, a signed 32-bit field, is reported sign-extended (DESIGN CHOICE, log 73). -/
def copyCheckOf (twoD ss ds : Bool) (c : CopyArgs) (ext : Dword) (window : Nat) : Option (Nat × Dword) :=
  let empty := c.len = 0 ∨ c.rows = 0
  let src := extent c.sa c.ss c.len c.rows
  let dst := extent c.da c.ds c.len c.rows
  let out (win : Bool) (e : Int × Int) : Bool := !win && !decide empty && (decide (e.1 < 0) || decide (2 ^ 52 < e.2))
  let past (win : Bool) (e : Int × Int) : Bool := win && !decide empty && (decide (e.1 < 0) || decide ((window : Int) < e.2))
  let big := if twoD then decide (65536 < c.len) || decide (65536 < c.rows) || decide (0x40000000 < c.len * c.rows)
    else decide (ext.toNat / 2 ^ 32 ≠ 0) || decide (0x40000000 < c.len)
  if out ss src then some (0x0B, c.sa)
  else if out ds dst then some (0x0B, c.da)
  else match [c.sa.toNat, c.da.toNat, c.len, (BitVec.ofInt 64 c.ss).toNat, (BitVec.ofInt 64 c.ds).toNat].find? fun v => v % 4 ≠ 0 with
    | some v => some (0x0A, BitVec.ofNat 64 v)
    | none =>
      if big then some (0x0A, ext)
      else if past ss src then some (0x0A, lowestBeyond c.sa c.ss c.len c.rows window)
      else if past ds dst then some (0x0A, lowestBeyond c.da c.ds c.len c.rows window)
      else none

/-- The checks of a COPY instruction (R172). -/
def copyCheck (o : CopyO) (c : CopyArgs) (ext : Dword) (window : Nat) : Option (Nat × Dword) := copyCheckOf o.c.isSome o.ss o.ds c ext window

/-- The fields of a chain descriptor (R186). -/
structure ChainDesc where
  w      : Nat
  sg     : Bool
  sat    : Bool
  frac   : Nat
  out    : Nat
  osat   : Bool
  nstep  : Nat
  nsrc   : Nat
  bases  : List Nat
  dst    : Nat
  consts : List Nat
  steps  : List Nat
  book   : List Nat

def chainDesc (bs : List Byte) : ChainDesc :=
  let c := getN bs 0 8
  { w := c % 16 + 1, sg := c.testBit 4, sat := c.testBit 5, frac := c / 256 % 16, out := c / 4096 % 4, osat := c.testBit 14, nstep := c / 65536 % 16,
    nsrc := c / 2 ^ 20 % 4, bases := (List.range 4).map fun i => getN bs (8 + 8 * i) 8, dst := getN bs 0x28 8,
    consts := (List.range 4).map fun i => getN bs (0x30 + 2 * i) 2, steps := (List.range 8).map fun i => getN bs (0x40 + 4 * i) 4,
    book := (List.range 16).map fun i => getN bs (0x60 + 2 * i) 2 }

/-- A step word is legal (R187): used operands name a used stream, a temporary or a constant; everything else is 0. -/
def stepLegal (nsrc : Nat) (w : Nat) : Bool :=
  let sop := w % 16
  let used (c : Nat) : Bool := decide (c ≤ 11) && (decide (4 ≤ c) || decide (c ≤ nsrc))
  let x := w / 256 % 16
  let y := w / 4096 % 16
  let z := w / 65536 % 16
  decide (sop ≤ 0xD) && decide (w / 64 % 4 = 0) && decide (w / 2 ^ 20 = 0) && used x &&
    (if sop = 0xD then y == 0 else used y) && (if sop = 0xB ∨ sop = 0xC then used z else z == 0)

/-- The descriptor's fields are legal (R186, R187); reserved bits must be 0 (DEDUCED, log 31). -/
def chainLegal (bs : List Byte) : Bool :=
  let d := chainDesc bs
  let c := getN bs 0 8
  decide (c / 2 ^ 22 = 0) && !c.testBit 15 && decide (c / 64 % 4 = 0) && decide (d.out ≠ 3) && decide (d.frac ≤ d.w - 1) && decide (d.nstep ≤ 8) &&
    decide (getN bs 0x38 8 = 0) && (d.steps.take d.nstep).all (stepLegal d.nsrc)

/-- The checks of CHAIN (R185), in the order of R172: trap code and TRAPVA. -/
def chainCheck (addr : Dword) (bs : List Byte) (n : Dword) : Option (Nat × Dword) :=
  let d := chainDesc bs
  let bases := d.bases.take (d.nsrc + 1)
  let reach (a len : Nat) : Bool := decide (len ≠ 0) && decide (2 ^ 52 < a + len)
  match bases.find? fun a => reach a ((n.toNat * d.w + 7) / 8) with
  | some a => some (0x0B, BitVec.ofNat 64 a)
  | none =>
    if reach d.dst (2 * n.toNat) then some (0x0B, BitVec.ofNat 64 d.dst)
    else if addr.toNat % 128 ≠ 0 then some (0x0A, addr)
    else match bases.find? fun a => a % 4 ≠ 0 with
      | some a => some (0x0A, BitVec.ofNat 64 a)
      | none =>
        if d.dst % 2 ≠ 0 then some (0x0A, BitVec.ofNat 64 d.dst)
        else if 0x40000000 < n.toNat then some (0x0A, n)
        else if chainLegal bs then none
        else some (0x01, addr)

end Sys2Proof.Machine
end

