-- ==== Sys2Proof/Machine/SaveArea.lean ====
section
/-! DEFINITION. The save area of a team (R332, R389, R409 to R411, R179): its layout, written and read back byte by byte. -/
namespace Sys2Proof.Machine

/-- Mask words of a team that can be non-zero (R200). -/
def passes (lanes : Nat) : Nat := (lanes + 31) / 32
/-- Lane-register footprint in bytes (R192). -/
def footprint (vregs lanes : Nat) : Nat := vregs * 4 * 32 * passes lanes

def maskBytes (m : LaneMask) : List Byte := natBytes 128 m.toNat
def zeros (n : Nat) : List Byte := List.replicate n 0
/-- A list of bytes padded with zeros to `n`. -/
def padTo (n : Nat) (l : List Byte) : List Byte := l ++ zeros (n - l.length)

/-- The address of save slot `i` (R389). -/
def Partition.slotAddr (p : Partition) (i : Nat) : Nat := field p.xsvpool 51 21 * 2097152 + i * Config.saveSlotBytes

/-- The address of the focus team's save area; 0 where it has no slot. -/
def Team.saveAddr (t : Team) (p : Partition) : Nat := match t.slotNo with | some i => p.slotAddr i | none => 0

/-! ## Stack entries, wafers, engine records -/

def StackKind.code : StackKind → Nat
  | .pending => 0 | .joined => 1 | .split => 2

/-- A stack entry's 256 bytes (R332). -/
def StackEntry.bytes (e : StackEntry) : List Byte :=
  maskBytes e.mask ++ natBytes 8 e.pc.toNat ++ natBytes 4 (e.kind.code + if e.slot then 4 else 0) ++ zeros 116

/-- A stack entry read back; `none` for kind 3, a set reserved bit or a misaligned address (R411). -/
def stackEntryOf (bs : List Byte) : Option StackEntry :=
  let k := getN bs 0x88 4
  let pc := getN bs 0x80 8
  let kind : Option StackKind := match k % 4 with | 0 => some .pending | 1 => some .joined | 2 => some .split | _ => none
  if k / 8 ≠ 0 ∨ pc % 4 ≠ 0 then none
  else kind.map fun kd => ⟨kd, k.testBit 2, BitVec.ofNat 64 pc, BitVec.ofNat 1024 (getN bs 0 128)⟩

/-- A wafer of at most 16 lanes as a 256-bit number (R409). -/
def Wafer.word256 (w : Wafer) : Nat :=
  let lmask := w.offs.foldl (fun n o => n + 2 ^ (o.1 % 32)) 0
  let offs := (w.offs.map (·.2)).foldr (fun o n => o + 128 * n) 0
  (if w.na then 2 ^ 46 else 0) + offs * 2 ^ 47 + lmask * 2 ^ 159 + w.line * 2 ^ 191 + w.word * 2 ^ 236 + w.dreg.toNat * 2 ^ 241 +
    w.ty.code.toNat * 2 ^ 249 + w.kind * 2 ^ 254

/-- An access of more than 16 lanes takes two wafers (R409). -/
def Wafer.pieces (w : Wafer) : List Wafer :=
  if w.offs.length ≤ 16 then [w] else [{ w with offs := w.offs.take 16 }, { w with offs := w.offs.drop 16 }]

/-- A wafer's fields are legal for a team (R409, R411): the type, registers, lanes and bytes of a load of its kind, at most 16 lanes. -/
def Wafer.legal (w : Wafer) (lanes vregs window : Nat) : Bool :=
  let n := accessBytes w.ty
  w.ty.isMem && (w.kind == 3 || (pairOk w.ty w.dreg && decide ((w.dreg ||| (if w.ty.is64 then 1 else 0)).toNat < vregs))) &&
    (w.kind != 3 || decide (w.dreg.toNat < 128)) && (w.kind == 0 || !w.na) && decide (w.offs.length ≤ 16) &&
    w.offs.all fun o => decide (o.1 < lanes) && decide (o.2 % n = 0) && (w.kind != 2 || decide (w.line * 128 + o.2 + n ≤ window))

/-- A wafer read back; `none` where the type code is none of R35 or a reserved bit is set. -/
def waferOf (n : Nat) (slot : Bool) : Option Wafer :=
  let f (hi lo : Nat) : Nat := n / 2 ^ lo % 2 ^ (hi + 1 - lo)
  let word := f 240 236
  let ls := setBits 32 (f 190 159)
  let offs := (List.range ls.length).map fun i => (32 * word + ls.getD i 0, n / 2 ^ (47 + 7 * i) % 128)
  if f 45 0 ≠ 0 then none
  else (Ty.ofCode (BitVec.ofNat 5 (f 253 249))).map fun ty =>
    ⟨f 255 254, ty, BitVec.ofNat 8 (f 248 241), word, f 235 191, offs, f 46 46 == 1, slot⟩

/-- One 64-byte copy record (R179). -/
def copyRecord (c : CopyOp) (stride ext src dst : Dword) : List Byte :=
  natBytes 1 ((if c.ss then 1 else 0) + (if c.ds then 2 else 0) + 4 * c.tag.toNat) ++ [1] ++ zeros 6 ++ natBytes 8 dst.toNat ++
    natBytes 8 src.toNat ++ natBytes 8 ext.toNat ++ natBytes 8 stride.toNat ++ zeros 24

/-- A copy as a save records it (R179): from its first request that has not landed on. Only a landing that cannot be made is outstanding then; what landed after
it is copied again (DEDUCED, log 28). -/
def CopyOp.rewind (c : CopyOp) : CopyOp :=
  match c.flying with
  | [] => c
  | (r, _) :: _ =>
    let back (stride : Dword) : Dword := BitVec.ofNat 64 (r.rows - c.rows) * (if c.twoD then stride else 0)
    { c with rows := r.rows, off := r.off, src := c.src - back (sstrideOf c.stride), dst := c.dst - back (dstrideOf c.stride), flying := [] }

/-- The records of an unfinished copy (R179): a row cut in mid-row goes as a 1-D record and a record for the rows after it. -/
def CopyOp.records (c : CopyOp) : List (List Byte) :=
  let c := c.rewind
  let ext (rows : Nat) : Dword := BitVec.ofNat 64 (c.len + 2 ^ 32 * rows)
  let o := BitVec.ofNat 64 c.off
  if c.rows = 0 then []
  else if !c.twoD then [copyRecord c 0 (BitVec.ofNat 64 (c.len - c.off)) (c.src + o) (c.dst + o)]
  else if c.off = 0 then [copyRecord c c.stride (ext c.rows) c.src c.dst]
  else
    let rest := if c.rows = 1 then []
      else [copyRecord c c.stride (ext (c.rows - 1)) (c.src + sstrideOf c.stride) (c.dst + dstrideOf c.stride)]
    copyRecord c 0 (BitVec.ofNat 64 (c.len - c.off)) (c.src + o) (c.dst + o) :: rest

/-- A copy read back from a record; `none` where a field is illegal (R411): its KIND, a reserved bit, or an operand that R172 refuses. -/
def copyOf (bs : List Byte) (asid : BitVec 16) (id window : Nat) : Option CopyOp :=
  let b0 := getN bs 0 1
  let ext := getN bs 24 8
  let stride : Dword := BitVec.ofNat 64 (getN bs 32 8)
  let twoD := decide (ext / 2 ^ 32 ≠ 0)
  let rows := if twoD then ext / 2 ^ 32 else 1
  let args : CopyArgs := ⟨BitVec.ofNat 64 (getN bs 16 8), BitVec.ofNat 64 (getN bs 8 8), ext % 2 ^ 32, rows, (sstrideOf stride).toInt, (dstrideOf stride).toInt⟩
  if getN bs 1 1 ≠ 1 ∨ getN bs 2 6 ≠ 0 ∨ getN bs 40 24 ≠ 0 ∨ (!twoD && stride != 0) = true ∨
      (copyCheckOf twoD (b0.testBit 0) (b0.testBit 1) args (BitVec.ofNat 64 ext) window).isSome = true then none
  else some { id := id, tag := BitVec.ofNat 6 (b0 / 4), ss := b0.testBit 0, ds := b0.testBit 1, stride := stride, asid := asid, src := args.sa, dst := args.da,
              len := args.len, rows := rows, twoD := twoD, off := 0, flying := [], stop := none }

/-- A 1-D record for the rest of a row and the record of the rows after it are one copy again. -/
def joinCopies : List CopyOp → List CopyOp
  | a :: b :: rest =>
    let off := b.len - a.len
    if !a.twoD && b.twoD && a.tag == b.tag && a.ss == b.ss && a.ds == b.ds && decide (a.len < b.len) &&
        a.src == b.src - sstrideOf b.stride + BitVec.ofNat 64 off && a.dst == b.dst - dstrideOf b.stride + BitVec.ofNat 64 off then
      { b with src := b.src - sstrideOf b.stride, dst := b.dst - dstrideOf b.stride, rows := b.rows + 1, off := off } :: joinCopies rest
    else a :: joinCopies (b :: rest)
  | l => l

/-- A chain record of 256 bytes (R410). -/
def ChainOp.record (c : ChainOp) : List Byte :=
  padTo 256 (natBytes 1 (4 * c.tag.toNat) ++ [2] ++ zeros 6 ++ natBytes 8 c.dst ++ natBytes 8 c.n ++ natBytes 8 c.next ++ zeros 96 ++ c.desc)

/-- A chain read back from a record; `none` where a field is illegal (R411): its KIND, a reserved bit, an operand or descriptor that R185 refuses, or a first
element beyond the last. -/
def chainOf (bs : List Byte) (asid : BitVec 16) (id : Nat) : Option ChainOp :=
  let desc := (bs.drop 0x80).take 128
  let dst := getN bs 8 8
  let n := getN bs 0x10 8
  let next := getN bs 0x18 8
  if getN bs 1 1 ≠ 2 ∨ getN bs 0 1 % 4 ≠ 0 ∨ getN bs 2 6 ≠ 0 ∨ (chainCheck 0 desc (BitVec.ofNat 64 n)).isSome = true ∨ dst % 2 ≠ 0 ∨ 2 ^ 52 < dst + 2 * n ∨ n < next then none
  else some { id := id, tag := BitVec.ofNat 6 (getN bs 0 1 / 4), asid := asid, desc := desc, dst := dst, n := n, next := next, stop := none }

/-- The predecessor state of a record (DESIGN CHOICE, log 25): bits 0 and 1, P1 and P2 are not satisfied; bit 7, the command has been touched. -/
def MatEntry.predState (e : MatEntry) (q : List MatEntry) : Nat :=
  match e.op with
  | .mma c =>
    let waits (p : Option (BitVec 6)) : Bool := match p with
      | some id => q.any fun x => c.after.contains x.order && (match x.op with | .mma y => y.o.id == id | .tile _ => false)
      | none => false
    match c.o.j with
    | some j => (if waits j.p1 then 1 else 0) + (if waits j.p2 then 2 else 0) + (if c.touched then 128 else 0)
    | none => if c.touched then 128 else 0
  | .tile _ => 0

/-- The 128 bytes of a matrix record of a queue (R410); the places of s[A], s[B], the format word, the ID and the predecessor state are the model's
(DESIGN CHOICE, log 25). -/
def MatEntry.record (q : List MatEntry) (e : MatEntry) : List Byte :=
  let (fmt, id, desc) : Nat × Nat × List Byte := match e.op with
    | .mma c => (c.fmt.toNat, c.o.id.toNat, [])
    | .tile (.drain _ desc tag) => (tag.code, 0, desc)
    | .tile _ => (0, 0, [])
  padTo 128 (padTo 64 (padTo 16 (encodeBytes e.i) ++ natBytes 8 e.sa.toNat ++ natBytes 8 e.sb.toNat ++ natBytes 8 fmt ++ natBytes 1 id ++
    natBytes 1 (e.predState q)) ++ desc)

/-- A matrix record read back, after the entries `q` of the records before it (R284, R411); `none` where it holds no entry that could have been issued. -/
def matOf (bs : List Byte) (q : List MatEntry) (order vregs ntiles window : Nat) : Option MatEntry :=
  let sa : Dword := BitVec.ofNat 64 (getN bs 0x10 8)
  let sb : Dword := BitVec.ofNat 64 (getN bs 0x18 8)
  let fmt := getN bs 0x20 8
  let st := getN bs 0x29 1
  let with_ (p : Option (BitVec 6)) (k : Nat) : List Nat := match p with
    | some id => if st.testBit k then (q.filter fun x => match x.op with | .mma y => y.o.id == id | .tile _ => false).map (·.order) else []
    | none => []
  let tile (t : Tile) (off : Option Word) (align n : Nat) (op : Nat → TileOp) (i : Instr) : Option MatEntry :=
    let a := sa + offset off
    if t.toNat < ntiles ∧ badWindowOf a align n window = false then some ⟨order, i, sa, sb, .tile (op a.toNat)⟩ else none
  match decode (bs.take 16) with
  | .instr (.mma h o) =>
    let a := mmaArgsOf o (BitVec.ofNat 64 fmt)
    let ba := mmaSrcBase o.a sa
    let bb := mmaSrcBase o.b sb
    let used := q.any fun x => match x.op with | .mma y => y.o.id == o.id | .tile _ => false
    if ntiles ≤ o.d.toNat ∨ (mmaCheckOf o a ba bb vregs window).isSome ∨ used = true ∨ getN bs 0x28 1 ≠ o.id.toNat then none
    else
      let after := match o.j with | some j => with_ j.p1 0 ++ with_ j.p2 1 | none => []
      some ⟨order, .mma h o, sa, sb, .mma (mmaCmdOf o a ba bb after (st.testBit 7))⟩
  | .instr (.mzero h o) => if o.d.toNat < ntiles then some ⟨order, .mzero h o, sa, sb, .tile (.zero o.d)⟩ else none
  | .instr (.mlda h o) => tile o.t o.off 128 16384 (.load o.t) (.mlda h o)
  | .instr (.msta h o) => tile o.t o.off 128 16384 (.store o.t) (.msta h o)
  | .instr (.mcbl h o) =>
    let a := sa + offset o.off
    if badWindowOf a 32 32 window then none else some ⟨order, .mcbl h o, sa, sb, .tile (.codebook o.slot a.toNat)⟩
  | .instr (.drain h o) =>
    let desc := (bs.drop 0x40).take 64
    if o.d.toNat < ntiles ∧ drainLegal desc o.ty window then some ⟨order, .drain h o, sa, sb, .tile (.drain o desc (scaleTagOf fmt))⟩ else none
  | _ => none

/-- The records of a save area, in their order, as the queue they came from; `none` where one is illegal. -/
def matsOf (vregs ntiles window : Nat) : List (List Byte) → List MatEntry → Nat → Option (List MatEntry)
  | [], q, _ => some q
  | bs :: rest, q, n =>
    match matOf bs q n vregs ntiles window with
    | some e => matsOf vregs ntiles window rest (q ++ [e]) (n + 1)
    | none => none

/-! ## The parts of an area -/

/-- Bits of a number, `n` of them, from a function. -/
def bitsNat (n : Nat) (f : Nat → Bool) : Nat := (List.range n).foldl (fun a k => if f k then a + 2 ^ k else a) 0

def Team.hardwareStack (t : Team) : List StackEntry := t.stack.take Config.stackEntries

/-- The unfinished mask of the header (R410): of the parked instruction, or of a lane memory instruction that trapped with code 0x0C or 0x11. -/
def Team.unfinishedMask (t : Team) : LaneMask := match t.park with | some k => k.unfinished | none => t.unfinished
/-- The path in the parked slot is slot 1. -/
def Team.parkedSlot (t : Team) : Bool := match t.park with | some k => k.slot | none => false

/-- The records that a save writes: wafers, copies, chains, matrix entries. -/
structure Records where
  wafers : List Nat
  copies : List (List Byte)
  chains : List (List Byte)
  mats   : List (List Byte)

def Records.none : Records := ⟨[], [], [], []⟩

/-- The header (R410). -/
def Team.header (t : Team) (r : Records) : List Byte :=
  let path (p : Option Path) : Path := p.getD Path.blank
  let flags := bitsNat 9 fun k => match k with
    | 0 => t.path0.isSome | 1 => t.path1.isSome | 2 => t.solo.isSome | 3 => t.park.isSome | 4 => t.parkedSlot
    | 5 => !r.wafers.isEmpty | 6 => !r.copies.isEmpty | 7 => !r.chains.isEmpty | _ => !r.mats.isEmpty
  natBytes 8 (path t.path0).pc.toNat ++ natBytes 8 (path t.path1).pc.toNat ++ natBytes 4 flags ++ natBytes 4 (min t.live t.vregs) ++ natBytes 4 t.lanes ++
    natBytes 4 t.id ++ natBytes 2 t.gen.toNat ++ natBytes 2 t.asid.toNat ++ natBytes 1 t.cls ++ natBytes 1 t.tree ++
    natBytes 2 ((if t.sys then 1 else 0) + (if t.attr.isSome then 2 else 0)) ++ natBytes 8 (if t.chksb then 1 else 0) ++ natBytes 8 t.tstat.toNat ++
    natBytes 8 t.trapcode.toNat ++ natBytes 8 t.trappc.toNat ++ natBytes 8 t.trapva.toNat ++ natBytes 4 (path t.path0).budget ++
    natBytes 4 (path t.path1).budget ++ natBytes 2 t.hardwareStack.length ++ natBytes 2 r.wafers.length ++ natBytes 2 r.copies.length ++
    natBytes 2 r.chains.length ++ natBytes 2 r.mats.length ++ zeros 6 ++ natBytes 8 (t.attr.getD 0).toNat ++ maskBytes t.unfinishedMask ++
    natBytes 8 t.mstat.toNat ++ zeros 8

/-- The parts that a trap writes (R338, R410): header, uniform registers, masks, stack. In solo mode the trapped path's mask has its frozen lanes too. -/
def Team.trapParts (t : Team) (r : Records) : List (Nat × List Byte) :=
  let act (slot : Bool) (p : Option Path) : LaneMask := match p, t.solo with
    | some x, some solo => if solo.slot = slot then solo.mask else x.mask
    | some x, none => x.mask
    | none, _ => 0
  [ (0x0000, t.header r),
    (0x0100, (List.range 128).flatMap fun i => natBytes 8 (storeGet 0 t.s i).toNat),
    (0x0500, maskBytes (act false t.path0) ++ maskBytes (act true t.path1)),
    (0x0600, (List.range 15).flatMap fun i => maskBytes (storeGet 0 t.m i)),
    (0x0D80, padTo 4096 (t.hardwareStack.reverse.flatMap StackEntry.bytes)) ]

/-- Offsets of the variable parts (R410): lane registers, tiles, window, F bits. -/
def Team.tilesAt (t : Team) : Nat := roundUp (0x6100 + footprint t.vregs t.lanes) 256
def Team.windowAt (t : Team) : Nat := t.tilesAt + t.ntiles * 16384
def Team.fullAt (t : Team) : Nat := roundUp (t.windowAt + t.window) 256
def Team.fullBytes (t : Team) : Nat := roundUp (t.window / 1024) 8

/-- The parts that a save writes (R406, R410); lane registers up to LIVE. -/
def Team.saveParts (t : Team) (r : Records) : List (Nat × List Byte) :=
  t.trapParts r ++
  [ (0x1D80, padTo 2048 (r.wafers.flatMap (natBytes 32))),
    (0x2580, padTo 4096 r.copies.flatten),
    (0x3580, padTo 512 r.chains.flatten),
    (0x3780, padTo 10240 r.mats.flatten),
    (0x5F80, (List.range 64).flatMap fun i => natBytes 2 (storeGet 0 t.codebook i).toNat),
    (0x6000, padTo 256 ((List.range 8).flatMap fun i => natBytes 8 (storeGet ScaleTag.none t.tags i).code)),
    (0x6100, (List.range (min t.live t.vregs)).flatMap fun v => (List.range (32 * passes t.lanes)).flatMap fun l =>
      natBytes 4 (storeGet 0 t.v (laneKey (BitVec.ofNat 8 v) l)).toNat),
    (t.tilesAt, (List.range (t.ntiles * 4096)).flatMap fun i => natBytes 4 (storeGet 0 t.tiles i).toNat),
    (t.windowAt, (List.range t.window).map fun i => storeGet 0 t.win i),
    (t.fullAt, (List.range t.fullBytes).flatMap fun b => natBytes 1 (bitsNat 8 fun k => !(storeGet false t.empty (8 * b + k)))) ]

/-- Parts written to a save area, with system privilege under ASID 0; a line that cannot be had keeps its bytes (DESIGN CHOICE, log 27). -/
def State.writeArea (s : State) (pid : BitVec 5) (base : Nat) (parts : List (Nat × List Byte)) : Dev Unit :=
  devEach (fun s p => (deviceWrite s pid 0 p.1 p.2).orSkip s) (parts.flatMap fun p => linePieces (p.2.length / 128 + 2) (base + p.1) p.2) s

/-! ## Reading an area back -/

/-- The parts of an area that SRET reads (R348): s1 to s127, active masks, m0 to m14, the hardware stack; `none` where a field is illegal (R411). -/
structure TrapArea where
  s     : Store Dword
  act0  : LaneMask
  act1  : LaneMask
  m     : Store LaneMask
  stack : List StackEntry

def fillStore {α : Type} [DecidableEq α] (dflt : α) (f : Nat → α) (ks : List Nat) : Store α :=
  ks.foldr (fun k st => if f k = dflt then st else (k, f k) :: st) []

/-- The header's fields are legal (R410, R411); the identity fields must be the team's own, and the fields that count or repeat others agree (DEDUCED,
log 26). -/
def headerLegal (bs : List Byte) (t : Team) (p : Partition) : Bool :=
  let flags := getN bs 0x10 4
  let count (off most k : Nat) : Bool := decide (getN bs off 2 ≤ most) && (flags.testBit k == decide (getN bs off 2 ≠ 0))
  decide (flags < 512) && decide (getN bs 0x18 4 = t.lanes) && decide (getN bs 0x1C 4 = t.id % 2 ^ 32) &&
    decide (getN bs 0x20 2 = t.gen.toNat) && p.ownsAsid (BitVec.ofNat 16 (getN bs 0x22 2)) && decide (getN bs 0x24 1 ≤ 3) &&
    decide (getN bs 0x25 1 = t.tree) && decide (getN bs 0x26 2 < 4) && decide (getN bs 0x28 8 < 2) && decide (getN bs 0x30 8 < 32) &&
    decide (getN bs 0 8 % 4 = 0) && decide (getN bs 8 8 % 4 = 0) && decide (getN bs 0x50 4 ≤ 65535) && decide (getN bs 0x54 4 ≤ 65535) &&
    decide (getN bs 0x58 2 ≤ 16) && count 0x5A 64 5 && count 0x5C 64 6 && count 0x5E 2 7 && count 0x60 80 8 && decide (getN bs 0x62 6 = 0) &&
    decide (getN bs 0x14 4 ≤ t.vregs) && decide (getN bs 0xF8 8 = 0) &&
    (let m := getN bs 0xF0 8; decide (m / 2 ^ 20 = 0) && decide (m / 128 % 32 = 0) && decide (m / 2 ^ 12 % 32 ≤ 16) && decide (m % 128 ≤ 64))

/-- The parts that SRET reads, and that a restore reads too (R348, R407, R411). -/
def trapAreaOf (bs : List Byte) (t : Team) (p : Partition) : Option TrapArea :=
  let es := (List.range (getN bs 0x58 2)).map fun i => stackEntryOf ((bs.drop (0xD80 + 256 * i)).take 256)
  if !headerLegal bs t p || es.any Option.isNone then none
  else
    let lim := laneLimit t.lanes
    some { s := fillStore 0 (fun i => BitVec.ofNat 64 (getN bs (0x100 + 8 * i) 8)) ((List.range 128).drop 1),
           act0 := BitVec.ofNat 1024 (getN bs 0x500 128) &&& lim, act1 := BitVec.ofNat 1024 (getN bs 0x580 128) &&& lim,
           m := fillStore 0 (fun i => BitVec.ofNat 1024 (getN bs (0x600 + 128 * i) 128) &&& lim) (List.range 15),
           stack := (es.filterMap id).reverse }

/-- A wait that a save keeps: for a trap that is still to be taken (R134, R414), or for a PUB whose write is made or under way, or an AWAITW whose value is
accepted (R374). -/
def Wait.lasts (w : Wait) : Bool :=
  match w with
  | .broken => true
  | .trapping .. => true
  | .held .. => true
  | .begun _ => true
  | .watch => true
  | _ => false

/-- A path of a restored team (R407): it starts a new run at its saved pc, but for a trap that it is still to take (R414). In solo mode the trapped path runs
on its one lane, and `redo` are the lanes for which the instruction at its pc is unfinished. That instruction counts in the yield budget (R336) again when it is
executed, also where it had been counted and waited when the team was saved (DESIGN CHOICE, log 86). -/
def Path.restored (old : Option Path) (pc : Nat) (mask : LaneMask) (budget : Nat) (redo : Option LaneMask) : Path :=
  { old.getD Path.blank with
    pc := BitVec.ofNat 64 pc, mask := mask, budget := budget, sb := [],
    wait := (old.bind (·.wait)).filter Wait.lasts,
    runCount := 0, charged := false, prev := none, redo := redo, held := [] }

/-- A team read back from its area (R407, R411), with the wafers to send; `none` where a field is illegal. Its operations are numbered from `serial` on. -/
def teamOf (bs : List Byte) (t : Team) (p : Partition) (serial : Nat) : Option (Team × List Wafer) :=
  let flags := getN bs 0x10 4
  let asid := BitVec.ofNat 16 (getN bs 0x22 2)
  let nc := getN bs 0x5C 2
  let nh := getN bs 0x5E 2
  match trapAreaOf bs t p with
  | none => none
  | some a =>
    let ws := (List.range (getN bs 0x5A 2)).map fun i => (waferOf (getN bs (0x1D80 + 32 * i) 32) (!flags.testBit 0)).filter fun w => w.legal t.lanes t.vregs t.window
    let cs := (List.range nc).map fun i => copyOf ((bs.drop (0x2580 + 64 * i)).take 64) asid (serial + i) t.window
    let hs := (List.range nh).map fun i => chainOf ((bs.drop (0x3580 + 256 * i)).take 256) asid (serial + nc + i)
    let ms := matsOf t.vregs t.ntiles t.window ((List.range (getN bs 0x60 2)).map fun i => (bs.drop (0x3780 + 128 * i)).take 128) [] (serial + nc + nh)
    let soloOk : Bool := flags.testBit 2 == t.solo.isSome && (match t.solo with | some x => flags.testBit (if x.slot then 1 else 0) | none => true)
    match ms with
    | none => none
    | some q =>
    if !soloOk || ws.any Option.isNone || cs.any Option.isNone || hs.any Option.isNone then none
    else
      let mask := BitVec.ofNat 1024 (getN bs 0x70 128) &&& laneLimit t.lanes
      let parked := flags.testBit 3
      let mine (slot : Bool) : Bool := match t.solo with | some x => x.slot == slot | none => false
      let path (slot : Bool) (old : Option Path) (pc : Nat) (act : LaneMask) (budget : Nat) : Option Path :=
        if flags.testBit (if slot then 1 else 0) then
          let redo := if parked && t.park.isNone && mask != 0 && flags.testBit 4 == slot then some mask else none
          some (Path.restored old pc (if mine slot then (old.getD Path.blank).mask else act) budget redo)
        else none
      let mstat := getN bs 0xF0 8
      let live := getN bs 0x14 4
      let chk := (getN bs 0x28 8).testBit 0
      let park : Option Park := match t.park with
        | some x => if parked then some { x with unfinished := mask, slot := flags.testBit 4 } else none
        | none => none
      some ({ t with
        asid := asid, cls := getN bs 0x24 1, sys := (getN bs 0x26 2).testBit 0,
        attr := if (getN bs 0x26 2).testBit 1 then some (BitVec.ofNat 64 (getN bs 0x68 8)) else none,
        chksb := chk, chkNow := if chk = t.chksb then t.chkNow else chk, chkFrom := if chk = t.chksb then t.chkFrom else [],
        tstat := BitVec.ofNat 5 (getN bs 0x30 8), sure := BitVec.ofNat 5 (getN bs 0x30 8),
        trapcode := BitVec.ofNat 64 (getN bs 0x38 8), trappc := BitVec.ofNat 64 (getN bs 0x40 8), trapva := BitVec.ofNat 64 (getN bs 0x48 8),
        s := a.s, m := a.m, path0 := path false t.path0 (getN bs 0 8) a.act0 (getN bs 0x50 4), path1 := path true t.path1 (getN bs 8 8) a.act1 (getN bs 0x54 4),
        stack := a.stack ++ t.stack.drop Config.stackEntries, park := park,
        solo := t.solo.map fun x => { x with mask := if x.slot then a.act1 else a.act0 }, unfinished := if parked then 0 else mask,
        nan := mstat.testBit 17, ovf := mstat.testBit 18, narrow := mstat.testBit 19,
        codebook := fillStore 0 (fun i => BitVec.ofNat 16 (getN bs (0x5F80 + 2 * i) 2)) (List.range 64),
        tags := fillStore ScaleTag.none (fun i => scaleTagOf (getN bs (0x6000 + 8 * i) 8)) (List.range 8),
        v := fillStore 0 (fun i => BitVec.ofNat 32 (getN bs (0x6100 + 4 * (32 * passes t.lanes * (i / 1024) + i % 1024)) 4))
          ((List.range (min live t.vregs)).flatMap fun v => (List.range t.lanes).map fun l => 1024 * v + l),
        tiles := fillStore 0 (fun i => BitVec.ofNat 32 (getN bs (t.tilesAt + 4 * i) 4)) (List.range (t.ntiles * 4096)),
        win := fillStore 0 (fun i => BitVec.ofNat 8 (getN bs (t.windowAt + i) 1)) (List.range t.window),
        empty := fillStore false (fun g => !(getN bs (t.fullAt + g / 8) 1).testBit (g % 8)) (List.range (t.window / 128)),
        copies := joinCopies (cs.filterMap id), chains := hs.filterMap id, matq := q, pend := [], flagPend := [], wafers := [] }, ws.filterMap id)

/-- The number of bytes of a team's area (R410). -/
def Team.areaBytes (t : Team) : Nat := t.fullAt + t.fullBytes

/-- Lane registers from `live` up yield any value of their type (R194, R361): the free value of the counter. -/
def Team.forgetRegs (t : Team) (live n : Nat) : Team :=
  { t with v := ((List.range t.vregs).drop live).foldl (fun v r => (List.range t.lanes).foldl (fun v l =>
      storeSet v (laneKey (BitVec.ofNat 8 r) l) (Config.earlyBits 32 n r l)) v) t.v }

end Sys2Proof.Machine
end

