-- ==== Sys2Proof/Machine/Ops.lean ====
section
/-! DEFINITION. What instructions share: the end of a team (R326, R364, R365), taking a trap and returning from it (R338, R340, R348, R395), parking
(R397), waiting (R176 to R178, R283), the barrier of a cohort (R366, R367), and saving and restoring (R346, R406, R407, R410). -/
namespace Sys2Proof.Machine

/-! ## The end of a team -/

/-- The earliest abnormal end, ties to the lowest TEAMID (R364). -/
def firstBad (kids : List Kid) : Option AbEnd :=
  (kids.flatMap (·.bad)).foldl (fun (m : Option AbEnd) e =>
    match m with
    | none => some e
    | some x => if e.cycle < x.cycle ∨ (e.cycle = x.cycle ∧ e.team < x.team) then some e else m) none

def kidsDone (kids : List Kid) : Bool := kids.all fun k => decide (k.size ≤ k.ended)

/-- An entry of the overflow list goes back to the deque of the core that pushed it when that has room (R358); a saved team's was never in one. -/
def State.takeBack (s : State) (x : DeqEnt) : State :=
  let core := x.sub / 8
  let c := s.core core
  let spawned := match x.kind with | .saved _ => false | _ => true
  if spawned && decide (c.deque.length < Config.dequeEntries) then
    (s.putCore core { c with deque := sortBy (·.age) (c.deque ++ [x]) }).mapPart x.pid fun p => { p with overflow := p.overflow.erase x }
  else s

/-- The entries of a partition that `f` keeps, in its cores' deques and its overflow list; a core with room takes its entries back from the list, oldest
first (R358). -/
def State.mapDeques (s : State) (pid : BitVec 5) (f : DeqEnt → Bool) : State :=
  let keep (c : Nat × Core) : Nat × Core := (c.1, { c.2 with deque := c.2.deque.filter fun e => e.pid != pid || f e })
  let s := { (s.mapPart pid fun p => { p with overflow := p.overflow.filter f }) with cores := s.cores.map keep }
  match s.part pid with | some p => p.overflow.foldl State.takeBack s | none => s

def State.deqs (s : State) (pid : BitVec 5) : List DeqEnt :=
  ((s.cores.flatMap fun c => c.2.deque).filter fun e => e.pid == pid) ++ (match s.part pid with | some p => p.overflow | none => [])

/-- A launch tree has a team that lives or is queued. -/
def State.treeAlive (s : State) (pid : BitVec 5) (tree : Nat) : Bool :=
  (s.live.any fun t => t.pid == pid && t.tree == tree) ||
    (s.deqs pid).any fun e => match e.kind with | .spawn spec .. => spec.tree == tree | _ => false

/-- The end of a launch tree (R393): its number, its K lines (R158) and its stitch block (R112) go. -/
def State.endTree (s : State) (pid : BitVec 5) (tree : Nat) : State :=
  if s.treeAlive pid tree then s
  else
    let s := s.mapPart pid fun p => { p with trees := p.trees.filter (· != tree), stitch := p.stitch.filter fun x => x.1 != tree }
    { s with cores := s.cores.map fun c => (c.1, { c.2 with l1 := c.2.l1.filter fun l => !(l.key.pid == pid && l.k == some tree) }) }

/-- Every sibling of a cohort has arrived or ended (R366). -/
def Cohort.full (c : Cohort) : Bool :=
  !c.arrived.isEmpty && (List.range c.size).all fun i => c.arrived.contains i || c.ended.contains i

def wakePath (here : Bool) (p : Path) : Path := if p.wait = some .barrier then { p with wait := if here then none else some .woken } else p

/-- The phase of a cohort flips when it is full (R366): its waiters become ready, on other cores than `core` when the wake message arrives. -/
def State.flipCohort (s : State) (id core : Nat) : State :=
  match s.cohorts.find? fun c => c.id == id with
  | none => s
  | some c =>
    if !c.full then s
    else
      let wake (t : Team) : Team :=
        if t.cohort == some id && t.pid == c.pid && c.arrived.contains t.cohidx then
          { t with cbar := (if t.path0.isSome then [false] else []) ++ (if t.path1.isSome then [true] else []),
                   path0 := t.path0.map (wakePath (t.core == core)), path1 := t.path1.map (wakePath (t.core == core)) }
        else t
      { s with team := wake s.team, teams := s.teams.map wake,
               cohorts := replaceFirst (fun x => x.id == id) (fun x => { x with phase := !x.phase, arrived := [] }) s.cohorts }

/-- A member of a cohort ends: it counts as arrived (R367); the cohort goes with its last member. -/
def State.leaveCohort (s : State) (id idx core : Nat) : State :=
  let s := { s with cohorts := replaceFirst (fun x => x.id == id) (fun x => { x with ended := if x.ended.contains idx then x.ended else idx :: x.ended }) s.cohorts }
  let s := s.flipCohort id core
  { s with cohorts := s.cohorts.filter fun c => !(c.id == id && decide (c.size ≤ c.ended.length)) }

/-- A paired partner is ended before the values arrive (R134): the survivor's wait is broken. -/
def State.breakRally (s : State) (pid : BitVec 5) (id : Nat) : State :=
  let mine := s.rally.filter fun r => r.pid == pid && r.team == id && r.paired.isSome
  let s := mine.foldl (fun s r =>
    match s.rally.find? fun x => x.pid == pid && x.paired == r.paired && x.team != id with
    | none => s
    | some x => { (s.mapTeam pid x.team fun t => t.setPath x.slot ((t.path x.slot).map fun p => { p with wait := some .broken })) with
        rally := s.rally.filter fun y => !(y == x) }) s
  { s with rally := s.rally.filter fun r => !(r.pid == pid && r.team == id) }

/-- Everything a team holds is released (R326, R389, R193). -/
def State.release (s : State) (t : Team) : State :=
  let held (p : Option Path) : List Nat := match p with | some x => x.held | none => []
  let records := (t.kids.filter fun k => !k.frames.isEmpty).map (·.frame)
  let s := s.giveFrames t.pid (t.frame :: (t.spill ++ held t.path0 ++ held t.path1 ++ records))
  let s := s.mapPart t.pid fun p => { p with saveUsed := p.saveUsed.filter fun i => some i != t.slotNo }
  let conts := (s.deqs t.pid).flatMap fun e => match e.kind with | .cont id fs _ => if id == t.id then fs else [] | _ => []
  let s := s.giveFrames t.pid conts
  let s := s.mapDeques t.pid fun e => match e.kind with | .cont id _ _ => id != t.id | .saved id => id != t.id | .spawn .. => true
  let s := s.breakRally t.pid t.id
  let s := { s with watches := s.watches.filter (fun w => !(w.pid == t.pid && w.team == t.id)),
                    running := s.running.filter (fun r => !(r.2.pid == t.pid && r.2.team == t.id)),
                    teams := s.teams.filter (fun x => !(x.pid == t.pid && x.id == t.id)),
                    team := if s.team.pid == t.pid && s.team.id == t.id then { Team.blank with id := t.id, pid := t.pid, core := t.core, sub := t.sub }
                            else s.team }
  let s := match t.cohort with | some c => s.leaveCohort c t.cohidx t.core | none => s
  (s.endTree t.pid t.tree).relaxSplit t.core

/-- A child of a team has ended: it is counted, an abnormal end is noted (R352, R364). -/
def Team.kidEnded (t : Team) (id : Nat) (bad : Option AbEnd) : Team :=
  { t with kids := t.kids.map fun k =>
      if k.first ≤ id ∧ id < k.first + k.size then { k with ended := k.ended + 1, bad := k.bad ++ bad.toList } else k }

/-- A team ends (R326): it is released, its parent is told, and a parent that only waits for its children ends too (R365), as `next` says. -/
def finishOne (next : State → Team → Option AbEnd → State) (s : State) (t : Team) (bad : Option AbEnd) : State :=
  let s := s.release t
  match t.parent with
  | none => s
  | some pt =>
    let s := s.mapTeam t.pid pt fun x => x.kidEnded t.id bad
    match s.findTeam t.pid pt with
    | none => s
    | some x =>
      match x.ending with
      | some b => if kidsDone x.kids then next s x (b.or ((firstBad x.kids).map fun e => ⟨s.cycle, x.id, e.status⟩)) else s
      | none => s

/-- A team ends, and the chain of parents that only wait for it; `n` bounds that chain. -/
def finishTeam : Nat → State → Team → Option AbEnd → State
  | 0, s, _, _ => s
  | n + 1, s, t, bad => finishOne (finishTeam n) s t bad

/-- Bound of a chain of teams. -/
def State.teamFuel (s : State) : Nat := s.teams.length + 2

/-- The last lane of the focus team leaves (R326, R365): it ends at once, or when its children have. -/
def State.endNormally (s : State) : State :=
  let s := s.endRun
  if kidsDone s.team.kids then
    finishTeam s.teamFuel s s.team ((firstBad s.team.kids).map fun e => ⟨s.cycle, s.team.id, e.status⟩)
  else { s with team := { s.team with path0 := none, path1 := none, stack := [], copies := [], chains := [], matq := [], ending := some none } }

/-- The teams of a family that a kill ends: the team and every live descendant; `n` bounds the depth. -/
def family (pid : BitVec 5) : Nat → State → Nat → List Nat
  | 0, _, _ => []
  | n + 1, s, id => id :: ((s.live.filter fun t => t.pid == pid && t.parent == some id).map (·.id)).flatMap (family pid n s)

/-- Flushes for the resident teams of a list (R415). -/
def flushFamily (pid : BitVec 5) : List Nat → State → Acc Unit
  | [], s => .ok () s
  | id :: rest, s =>
    match s.findTeam pid id with
    | none => flushFamily pid rest s
    | some t =>
      if t.phase ≠ .resident then flushFamily pid rest s
      else match flushOf s t with
        | .ok _ s => flushFamily pid rest s
        | a => a

/-- The faults of a team are cancelled (R415): an entry that holds faults of other teams too stays for them. -/
def State.cancelFaults (s : State) (pid : BitVec 5) (id : Nat) : State :=
  let leave (e : FaultEntry) : FaultEntry := if e.pid = pid then { e with teams := e.teams.filter (· != id) } else e
  { s with fq := (s.fq.map leave).filter (!·.teams.isEmpty), fqWait := (s.fqWait.map leave).filter (!·.teams.isEmpty) }

/-- A team and its descendants end as KILL ends them (R415), after their flushes; deepest first. -/
def killTeams (pid : BitVec 5) (status : Word) : List Nat → State → State
  | [], s => s
  | id :: rest, s =>
    match s.findTeam pid id with
    | none => killTeams pid status rest s
    | some t =>
      let s := s.mapTeam pid id fun t => { t with ending := none, gen := t.gen + 1 }
      let frames := (s.deqs pid).flatMap fun e => match e.kind with
        | .spawn spec next _ fs gone =>
          if spec.parent.map (·.1) == some id then (fs.zipIdx.filter fun x => decide (next ≤ x.2) && !gone.contains x.2).map (·.1) else []
        | _ => []
      let s := (s.giveFrames pid frames).mapDeques pid fun e => match e.kind with
        | .spawn spec .. => spec.parent.map (·.1) != some id
        | _ => true
      let s := (s.cancelFaults pid id)
      killTeams pid status rest (finishTeam s.teamFuel s { t with ending := none } (some ⟨s.cycle, id, status⟩))

/-- Requests of a team that are not acknowledged, or atomics of it at the host port (R406). -/
def State.unacked (s : State) (t : Team) : Bool :=
  ((s.core t.core).acks.any fun a => a.pid == t.pid && a.team == t.id) || s.hostAtoms.any fun a => a.pid == t.pid && a.team == t.id

/-- The path is inside an instruction that a halt lets complete (R406): one that has made some of its accesses, a PUB whose write has begun (R374), or an
invalidation, binding, KILL, REPLAY or trap under way. -/
def Path.inside (p : Path) : Bool :=
  match p.wait with
  | some .retry => true
  | some (.begun _) => true
  | some (.held ..) => true
  | some (.trapping ..) => true
  | some _ => false
  | none => p.redo.isSome

/-- The path of a slot has passed its instruction's commit point, or is inside an instruction that completes (R374, R406): also a CBAR whose phase has flipped,
an AWAITW whose value is accepted, an XSHUF that is paired (R134). The parked instruction goes on later, and so does a path that solo mode freezes, but for its
paired XSHUF, whose exchange is the table's. -/
def State.inside (s : State) (t : Team) (slot : Bool) (p : Path) : Bool :=
  let parked : Bool := match t.park with | some k => k.slot == slot | none => false
  let frozen : Bool := match t.solo with | some x => x.slot != slot | none => false
  !parked && ((!frozen && (p.inside || t.cbar.contains slot ||
    s.watches.any fun w => w.pid == t.pid && w.team == t.id && w.slot == slot && w.got.isSome)) ||
    s.rally.any fun x => x.pid == t.pid && x.team == t.id && x.slot == slot && x.paired.isSome)

/-- The halt of R406 up to its wait for acknowledgements: what must complete has, every request is acknowledged, and every result but a load's is written. With
`self` the path in focus, whose instruction halts the team, is left out. -/
def State.stopped (s : State) (self : Bool) (t : Team) : Bool :=
  let rests (slot : Bool) (p : Option Path) : Bool := match p with
    | some x => (x.sb.all fun e => match e.due with | some d => decide (d ≤ s.cycle) | none => true) &&
        (!s.inside t slot x || (self && t.pid == s.team.pid && t.id == s.team.id && slot == s.slot))
    | none => true
  !s.unacked t && rests false t.path0 && rests true t.path1

/-- The partition's teams issue (R423, R427): it is enabled, not in its error state, and the module runs. -/
def State.issuing (s : State) (pid : BitVec 5) : Bool :=
  !s.fatal && (match s.part pid with | some p => p.enabled && !p.err | none => false)

/-- A path stands at a point where a soft request is granted (R405). -/
def Path.atPoint (p : Path) : Bool :=
  match p.wait with
  | some .yielded => true
  | some (.edge _) => true
  | some (.awaiting ..) => true
  | some .barrier => true
  | some .watch => true
  | some .join => true
  | some (.settle ..) => true
  | some .rally => true
  | some .granule => true
  | _ => false

/-- Such a point of a slot's path: one that the instruction has not passed (R374, R405). -/
def State.pointOf (s : State) (t : Team) (slot : Bool) (p : Path) : Bool := p.atPoint && !s.inside t slot p

/-- The team is at a point of R405. -/
def State.atPoint (s : State) (t : Team) : Bool :=
  t.park.isSome || (match t.path0 with | some p => s.pointOf t false p | none => false) || (match t.path1 with | some p => s.pointOf t true p | none => false)

/-- A request of the team has reached a point of R405, where a soft one is granted: the team stands at one, or has passed it since. -/
def State.leaves (s : State) (t : Team) : Bool := match t.preempt with | some r => r.granted || s.atPoint t | none => false

/-- The team has been asked to leave, hard (R406). -/
def Team.hardAsked (t : Team) : Bool := match t.preempt with | some r => r.hard | none => false

/-- The run of a path goes on (R333, R397, R406, R427): its team is resident, issues, is not parked, and no halt stops it. -/
def State.mayGoOn (s : State) (t : Team) (slot : Bool) (p : Path) : Bool :=
  let kept := t.preempt.isSome && s.inside t slot p
  t.phase == .resident && t.ending.isNone && s.issuing t.pid && (kept || (t.park.isNone && !t.hardAsked))

/-- A path may start a run (R334, R346, R405): no soft request has reached a point of its team, and solo mode does not freeze it. -/
def State.mayStart (s : State) (t : Team) (slot : Bool) (p : Path) : Bool :=
  let frozen : Bool := match t.solo with | some x => x.slot != slot | none => false
  s.mayGoOn t slot p && !frozen && (s.inside t slot p || !s.leaves t)

/-- Teams stop issuing at their next instruction boundary (R406). -/
def State.halt (s : State) (pid : BitVec 5) (ids : List Nat) : State :=
  let stop (t : Team) : Team := if t.pid == pid && ids.contains t.id && t.phase == .resident then { t with preempt := some ⟨true, s.cycle, false⟩ } else t
  { s with team := stop s.team, teams := s.teams.map stop }

/-- The end of a team as KILL ends it (R337, R340, R395, R415): it and its descendants halt, flush, and end. -/
def State.killFamily (s : State) (pid : BitVec 5) (id : Nat) (status : Word) : Acc Unit :=
  let f := family pid s.teamFuel s id
  let s := s.halt pid f
  if (s.live.filter fun t => t.pid == pid && f.contains t.id).all (s.stopped true) then
    match flushFamily pid f s with
    | .ok _ s => .ok () (killTeams pid status f.reverse s)
    | a => a
  else .busy s

/-! ## Traps -/

/-- What a trap writes into the team before the area is written (R338, R410): TRAPCODE, TRAPPC, TRAPVA, and whether lanes are left unfinished. -/
def Team.saveTrap (t : Team) (code : Nat) (pc va : Dword) : Team :=
  { t with trapcode := BitVec.ofNat 64 code, trappc := pc, trapva := va, unfinished := if code = 0x0C ∨ code = 0x11 then t.unfinished else 0 }

/-- A path that goes on from the beginning of a run, with a full budget, at a pc and with a mask (R338, R348). -/
def Path.restart (p : Path) (pc : Dword) (mask : LaneMask) (cycle : Nat) : Path :=
  { p with pc := pc, mask := mask, budget := Config.budgetMax, wait := none, runCount := 0, charged := false, lastEnd := cycle, readyAt := cycle,
           promo := 0, prev := none, redo := none, held := [], gaveUp := false, spoils := [] }

/-- The uniform registers at the handler's entry (R338): s1 the code, s2 the pc, s3 the address, s4 the save area. -/
def trapArgs (s : Store Dword) (code : Nat) (pc va : Dword) (base : Nat) : Store Dword :=
  storePut 0 (storePut 0 (storePut 0 (storePut 0 s 1 (BitVec.ofNat 64 code)) 2 pc) 3 va) 4 (BitVec.ofNat 64 base)

/-- Where a trap goes: XTRAPENT's address, 0 where there is none (R338, R340). -/
def State.trapEntry (s : State) : Nat := match s.part s.team.pid with | some p => field p.xtrapent 51 2 * 4 | none => 0

/-- A load of the team that issued before has not been answered (R55, R338). -/
def State.loading (s : State) : Bool := s.loads.any fun r => r.pid == s.team.pid && r.team == s.team.id && r.gen == s.team.gen

/-- The bytes of a save area that a trap writes and SRET reads (R338, R348, R410). -/
def trapAreaBytes : Nat := 0x1D80

/-- A line that a core's L1 holds under ASID 0 lies in the first `n` bytes of a save area. -/
def L1Line.inArea (l : L1Line) (pid : BitVec 5) (base n : Nat) : Bool :=
  l.key.pid == pid && l.key.asid == 0 && decide (base / 128 ≤ l.key.tag) && decide (l.key.tag * 128 < base + n)

/-- A core's copies of a save area are dropped: the area is written anew, or has been read with them. -/
def State.dropArea (s : State) (core : Nat) (pid : BitVec 5) (base n : Nat) : State :=
  s.putCore core { s.core core with l1 := (s.core core).l1.filter fun l => !l.inArea pid base n }

/-- What a trap saves (R338, R410): the registers that it writes, and the save area, where the lines of the area can be had. The core's own copies of the area,
left by an earlier handler, go: a handler reads what the trap has written. -/
def State.trapSave (s : State) (p : Partition) (code : Nat) (va : Dword) : Dev Unit :=
  let t := s.team.saveTrap code s.path.pc va
  let base := t.saveAddr p
  { (s.choose (lanesOf s.team.lanes s.path.mask).length).2.endRun.dropArea t.core t.pid base trapAreaBytes with team := t }.writeArea t.pid base (t.trapParts Records.none)

/-- Taking a trap (R338, R340, R395): the team ends where it has no handler, is in solo mode, or the code is 0x06; else, once its loads are answered, the
registers that a trap saves are written, the area is written, and one lane of the path goes on at the trap entry. -/
def State.takeTrap (s : State) (code : Nat) (va : Dword) : Acc Unit :=
  if s.team.solo.isSome || code == 0x06 || s.trapEntry == 0 then s.killFamily s.team.pid s.team.id (BitVec.ofNat 32 code)
  else if s.loading || s.writingAny s.team.core s.team.pid 0 then .busy s
  else match s.part s.team.pid with
    | none => .ok () s
    | some p =>
      let path := s.path
      let ls := lanesOf s.team.lanes path.mask
      let lane := ls.getD (s.choose ls.length).1 0
      let t := s.team.saveTrap code path.pc va
      let base := t.saveAddr p
      match s.trapSave p code va with
      | .ok _ u => .ok () { u.giveFrames t.pid path.held with
          team := { t with s := trapArgs t.s code path.pc va base, solo := some ⟨s.slot, lane, path.mask⟩ }.setPath s.slot
            (some (path.restart (BitVec.ofNat 64 s.trapEntry) (BitVec.twoPow 1024 lane) s.cycle)) }
      | _ => .busy s

/-- An access's outcome as the outcome of an instruction that waits at its place while it is busy. -/
def Acc.out (a : Acc Unit) (giveUp : Bool) (w : Wait) : Out :=
  match a with
  | .ok _ s => .next s
  | .busy s => .next (s.waitHere giveUp w)
  | .unbacked => .fault .unbackedFrame
  | _ => .fault .unbackedFrame

/-- A trap as an instruction's outcome; what it waits for does not undo it. -/
def State.trap (s : State) (code : Nat) (va : Dword) : Out := (s.takeTrap code va).out false (.trapping code va)

/-- The bytes of a range at home with those that the core's stores under ASID 0 have put in its L1 in their place (R348). -/
def State.overlay (s : State) (core : Nat) (pid : BitVec 5) (base : Nat) (bs : List Byte) : List Byte :=
  ((s.core core).l1.filter fun l => l.inArea pid base trapAreaBytes && l.k.isNone && l.d != 0).foldl (fun bs l =>
    let dirty := dirtyBytes l.d l.be
    bs.zipIdx.map fun b => if (base + b.2) / 128 = l.key.tag ∧ dirty.getLsbD ((base + b.2) % 128) = true then byteAt l.data ((base + b.2) % 128) else b.1) bs

/-- The handler's stores to its save area that are still in the core's L1 reach home (R348): the dirty lines of the area, read as `bs`, are written, and the core's
copies of it go. -/
def State.settleArea (s : State) (core : Nat) (pid : BitVec 5) (base : Nat) (bs : List Byte) : Dev Unit :=
  (devEach (fun s l => (deviceWrite s pid 0 l.key.va ((bs.drop (l.key.va - base)).take 128)).orSkip s)
    ((s.core core).l1.filter fun l => l.inArea pid base trapAreaBytes && l.k.isNone && l.d != 0) s).bind fun _ s => .ok () (s.dropArea core pid base trapAreaBytes)

/-- Return from solo mode (R348): the area is read as it stands, with the handler's own stores to it, the team's ASID and privilege return, every lane goes
on. -/
def State.leaveSolo (s : State) (solo : Solo) (target : Dword) : Acc Unit :=
  let t := s.team
  match s.part t.pid with
  | none => .ok () s
  | some p =>
    if s.writingAny t.core t.pid 0 then .busy s
    else match readArea s t.pid 0 (t.saveAddr p) trapAreaBytes with
    | .busy => .busy s
    | .no => s.killFamily t.pid t.id 1
    | .ok bs u =>
      let bs := u.overlay t.core t.pid (t.saveAddr p) bs
      match trapAreaOf bs t p, u.settleArea t.core t.pid (t.saveAddr p) bs with
      | none, _ => u.killFamily t.pid t.id 1
      | some a, .ok _ s =>
        let s := s.endRun
        let path := s.path.restart target (if solo.slot then a.act1 else a.act0) s.cycle
        .ok () { s with
          team := { s.team with s := a.s, m := a.m, stack := a.stack ++ s.team.stack.drop Config.stackEntries, solo := none, unfinished := 0 }.setPath solo.slot (some path),
          retired := true }
      | some _, _ => .busy s

/-! ## Faults of accesses -/

/-- A parking fault of the instruction in hand (R397): the path keeps its unfinished lanes, and the faults are offered to the queue. A system team, and
a team in solo mode, takes the trap of a delivered fault instead (R396); a faulted engine operation stays suspended then, and a later wait for it traps
again (DESIGN CHOICE, log 28). -/
def State.park (s : State) (unfinished : LaneMask) (faults : List FaultAt) (engine : Bool) : Out :=
  let s := faults.foldl (fun s f => s.walkPoison s.team.pid f.asid f.va) s
  if s.team.privileged then s.trap 0x0B (BitVec.ofNat 64 ((lowestFault faults).elim 0 (·.va)))
  else
    let s := if engine then s else s.offerFaults s.team s.path.pc faults
    let p := s.path
    let s := s.setPath { p with lastEnd := if p.gaveUp then p.lastEnd else s.cycle, promo := 0 }
    let s := { s with team := { s.team with park := some ⟨s.slot, unfinished, faults, engine⟩ } }
    .next s.endRun

/-- A parking fault of a one-lane access. -/
def State.parkOne (s : State) (va : Nat) (kind : FaultKind) (cause : BitVec 4) : Out :=
  s.park (s.path.mask) [⟨s.team.asidNow, va, kind, cause, 1, 0⟩] false

/-- How a uniform access that did not complete ends (R155, R160, R397). -/
def State.failOne {α : Type} (s : State) (a : Acc α) (va : Nat) (kind : FaultKind) : Out :=
  match a with
  | .ok _ s => .next s
  | .busy s => .next (s.waitHere false .retry)
  | .fault c => s.parkOne va kind c
  | .misplaced => s.trap 0x11 (BitVec.ofNat 64 va)
  | .refused => s.trap 0x0C (BitVec.ofNat 64 va)
  | .unbacked => .fault .unbackedFrame

/-! ## Waiting -/

/-- What was issued before the waiting instruction (R175, R178, R363): everything numbered below this. -/
def State.waitLimit (s : State) : Nat := match s.path.wait with | some (.upTo l) => l | some (.edge l) => l | some (.awaiting l _) => l | some (.begun l) => l | some (.settle _ l _) => l | _ => s.serial

/-- Why operations of the engines keep a wait from passing (R176): the lowest address of each cause. -/
def stopAt (k : EngineStop) (cs : List CopyOp) (hs : List ChainOp) : Option Nat :=
  ((cs.map (·.stop)) ++ (hs.map (·.stop))).foldl (fun m o =>
    match o with
    | some (k', va) => if k' = k then some (match m with | some x => min x va | none => va) else m
    | none => m) none

/-- The stopped operations among those that a wait names, whose wait has trapped, are over (R176; DEDUCED, log 28). -/
def Team.dropStopped (t : Team) (k : EngineStop) (ids : List Nat) : Team :=
  let live (id : Nat) (o : Option (EngineStop × Nat)) : Bool := !ids.contains id || match o with | some (k', _) => k' != k | none => true
  { t with copies := t.copies.filter fun c => live c.id c.stop, chains := t.chains.filter fun c => live c.id c.stop }

/-- The wait for copies and chains (R175 to R178): `none` when nothing is outstanding. Operations stopped for different causes are reported in the order
bound result, misplacement, fault (DESIGN CHOICE, log 74). -/
def State.awaitEngines (s : State) (giveUp : Bool) (w : Wait) (cs : List CopyOp) (hs : List ChainOp) : Option Out :=
  let ids := cs.map (·.id) ++ hs.map (·.id)
  match stopAt .bound cs hs, stopAt .misplaced cs hs, stopAt .fault cs hs with
  | some va, _, _ => some ({ s with team := s.team.dropStopped .bound ids }.trap 0x0C (BitVec.ofNat 64 va))
  | none, some va, _ => some ({ s with team := s.team.dropStopped .misplaced ids }.trap 0x11 (BitVec.ofNat 64 va))
  | none, none, some _ =>
    let fs := (cs.filterMap fun c => match c.stop with | some (.fault, va) => some (⟨c.asid, va, .engineRead, 0, 0, 0⟩ : FaultAt) | _ => none) ++
      (hs.filterMap fun c => match c.stop with | some (.fault, va) => some (⟨c.asid, va, .engineRead, 0, 0, 0⟩ : FaultAt) | _ => none)
    some (s.park 0 fs true)
  | none, none, none => if cs.isEmpty && hs.isEmpty then none else some (.next (s.waitHere giveUp w))

/-- A PERSIST of the team is not acknowledged (R81, R166). -/
def State.persisting (s : State) : Bool :=
  (s.core s.team.core).acks.any fun a => a.pid == s.team.pid && a.team == s.team.id && a.kind == .persist

/-- What every edge-making instruction waits for first (R178, R283, R81): `none` when nothing is outstanding. `mk` is how it waits. -/
def State.edgeWait (s : State) (giveUp : Bool) (mk : Nat → Wait) : Option Out :=
  let lim := s.waitLimit
  match s.awaitEngines giveUp (mk lim) (s.team.copies.filter fun c => decide (c.id < lim)) (s.team.chains.filter fun c => decide (c.id < lim)) with
  | some o => some o
  | none =>
    if (s.team.matq.any fun e => decide (e.order < lim)) || s.persisting then some (.next (s.waitHere giveUp (mk lim))) else none

/-- The releasing side of an edge (R372): the waits, then the flush; `k` goes on. `mk` is how it waits. -/
def State.releaseEdgeBy (s : State) (giveUp : Bool) (mk : Nat → Wait) (k : State → Out) : Out :=
  match s.edgeWait giveUp mk with
  | some o => o
  | none =>
    match s.flushTeam with
    | .ok _ s' => k s'
    | .busy s' => .next (s'.waitHere giveUp (mk s.waitLimit))
    | _ => .fault .unbackedFrame

/-- The releasing side of an edge, of an instruction whose wait is no point of R405. -/
def State.releaseEdge (s : State) (giveUp : Bool) (k : State → Out) : Out := s.releaseEdgeBy giveUp .upTo k

/-! ## The barrier of a cohort -/

/-- The team arrives when every occupied slot waits at a CBAR (R366); once in a phase (R367). -/
def State.arriveCohort (s : State) : State :=
  let waits (p : Option Path) : Bool := match p with | some x => x.wait == some .barrier | none => true
  match s.team.cohort with
  | none => s
  | some c =>
    if (s.team.path0.isSome || s.team.path1.isSome) && waits s.team.path0 && waits s.team.path1 then
      let add (x : Cohort) : Cohort := { x with arrived := if x.arrived.contains s.team.cohidx then x.arrived else s.team.cohidx :: x.arrived }
      let s := { s with cohorts := replaceFirst (fun x => x.id == c) add s.cohorts }
      s.flipCohort c s.team.core
    else s

/-! ## Saving and restoring -/

/-- The wafers of a team's outstanding loads, in issue order (R156, R406), without the uniform ones whose register has been written since (R237). -/
def State.wafersOf (s : State) (t : Team) : List Wafer :=
  ((s.loads.filter fun r => r.pid == t.pid && r.team == t.id && r.gen == t.gen && !(r.wafer.kind == 3 && r.vals.isEmpty)).map (·.wafer)).flatMap Wafer.pieces

/-- A saved team that is not parked joins its partition's overflow list (R407). -/
def State.pushSaved (s : State) (pid : BitVec 5) (id : Nat) : State :=
  let (n, s) := s.nextSerial
  s.mapPart pid fun p => { p with overflow := p.overflow ++ [⟨pid, n, s.cycle, 0, .any, .saved id⟩] }

/-- A team leaves its sub-core (R346, R406): its context is written to its area and its registers are released. The flush has been made. A hard save
writes every declared register and advances GEN; a soft one writes the declared live registers. It waits for the area's lines. The watch of an AWAITW that
solo mode freezes past its commit point stays with the team (R374). -/
def State.saveTeam (s : State) (t : Team) (hard : Bool) : Acc Unit :=
  match s.part t.pid with
  | none => .ok () s
  | some p =>
    let ws := t.wafers.flatMap Wafer.pieces ++ s.wafersOf t
    let r : Records := ⟨ws.map Wafer.word256, t.copies.flatMap fun c => c.records, t.chains.map ChainOp.record, t.matq.map (MatEntry.record t.matq)⟩
    let s0 := s
    let accepted (slot : Bool) : Bool := s.watches.any fun w => w.pid == t.pid && w.team == t.id && w.slot == slot && w.got.isSome
    let put (slot : Bool) (x : Path) : Path := { x with held := [], wait := if x.wait = some .watch ∧ accepted slot = false then none else x.wait }
    let s := { s with loads := s.loads.filter (fun r => !(r.pid == t.pid && r.team == t.id)),
                      rally := s.rally.filter (fun r => !(r.pid == t.pid && r.team == t.id)),
                      watches := s.watches.filter (fun w => !(w.pid == t.pid && w.team == t.id && w.got.isNone)),
                      running := s.running.filter (fun r => !(r.2.pid == t.pid && r.2.team == t.id)) }
    let t := if hard then { t with gen := t.gen + 1 } else t
    match (s.dropArea t.core t.pid (t.saveAddr p) t.areaBytes).writeArea t.pid (t.saveAddr p) ({ t with live := if hard then t.vregs else t.live }.saveParts r) with
    | .ok _ s =>
      let held (p : Option Path) : List Nat := match p with | some x => x.held | none => []
      let s := s.giveFrames t.pid (held t.path0 ++ held t.path1)
      let s := s.mapTeam t.pid t.id fun _ => { t with phase := .saved, preempt := none, v := [], tiles := [], win := [], empty := [], wafers := ws,
                                                      path0 := t.path0.map (put false), path1 := t.path1.map (put true) }
      let s := s.relaxSplit t.core
      .ok () (if t.park.isSome then s else s.pushSaved t.pid t.id)
    | _ => .busy s0

/-- A path that resumes starts a new run (R407); a trap that it is to take, or a PUB's write that it has made, is not lost (R134, R374, R414). -/
def Path.fresh (p : Path) (cycle : Nat) : Path :=
  { p with wait := p.wait.filter Wait.lasts, runCount := 0, charged := false, prev := none, readyAt := cycle, lastEnd := cycle, promo := 0, held := [], gaveUp := false }

end Sys2Proof.Machine
end

