-- ==== Sys2Proof/Machine/FrameStore.lean ====
section
/-! DEFINITION. The cores' frame stores (R16, R350): which frames a core holds on chip, and what a frame's 256 bytes are (R332, R352, R360) when it is written
to its pool address. -/
namespace Sys2Proof.Machine

/-- The entry of the reconvergence stack that a spill frame holds (R332). -/
def State.spilledEntry (s : State) (pid : BitVec 5) (a : Nat) : Option StackEntry :=
  (s.live.find? fun t => t.pid == pid && t.spill.contains a).bind fun t => t.stack[Config.stackEntries + t.spill.idxOf a]?

/-- The frame belongs to the chain of a saved continuation (R360). -/
def State.chained (s : State) (pid : BitVec 5) (a : Nat) : Bool :=
  (s.deqs pid).any fun e => match e.kind with | .cont _ fs _ => fs.contains a | _ => false

/-- The children that a frame counts (R352): a record's are its cohort's, a team frame's are its team's. -/
def State.frameKids (s : State) (pid : BitVec 5) (a : Nat) : List Kid :=
  let ours := s.live.filter fun t => t.pid == pid
  match (ours.flatMap (·.kids)).find? fun k => k.frame == a && !k.frames.isEmpty with
  | some k => [k]
  | none => match ours.find? fun t => t.frame == a with | some t => t.kids | none => []

/-- The next cohort index to hand out (R352): the deque entry's, or the size when no entry is left. -/
def State.frameNext (s : State) (pid : BitVec 5) (a size : Nat) : Nat :=
  let first := (((s.live.filter fun t => t.pid == pid).flatMap (·.kids)).find? fun k => k.frame == a).map (·.first)
  ((s.deqs pid).findSome? fun e => match e.kind with
    | .spawn _ next f fs _ => if fs.contains a ∨ first = some f then some next else none
    | _ => none).getD size

/-- A team frame's or a record's bytes (R352). -/
def Frame.bytes (f : Frame) (next : Nat) (kids : List Kid) : List Byte :=
  padTo 64 (f.args.flatMap fun x => natBytes 8 x.toNat) ++ natBytes 8 f.entry.toNat ++ natBytes 8 f.parent ++ natBytes 8 f.handle.toNat ++
    natBytes 4 (f.lanes + 2 ^ 12 * f.aff.code.toNat) ++ natBytes 4 f.size ++ natBytes 4 next ++
    natBytes 4 (kids.foldl (fun n k => n + (k.size - k.ended)) 0) ++ natBytes 4 (match firstBad kids with | some e => e.status.toNat | none => 0) ++ zeros 148

/-- The 256 bytes of a frame as they stand (R332, R352). The places of a continuation's state in its chain are not stated: those bytes are any value
(DESIGN CHOICE, log 16). -/
def State.frameBytes (s : State) (pid : BitVec 5) (a : Nat) : List Byte :=
  match s.spilledEntry pid a with
  | some e => e.bytes
  | none =>
    if s.chained pid a then natBytes 256 (Config.freeBits 2048 s.free).toNat
    else match (s.part pid).bind fun p => p.frames.find? fun f => f.1 == a with
      | some f => f.2.bytes (s.frameNext pid a f.2.size) (s.frameKids pid a)
      | none => zeros 256

/-- The frame is taken from the pool of its partition. -/
def State.frameTaken (s : State) (x : BitVec 5 × Nat) : Bool :=
  match s.part x.1 with | some p => p.frames.any fun f => f.1 == x.2 | none => false

/-- A frame leaves a core's store for its pool address (R350): the first of a list whose line is free. Where the address cannot be written the bytes there stay
(DESIGN CHOICE, log 16). -/
def dropFrame (core : Nat) (s : State) : List (BitVec 5 × Nat) → Option State
  | [] => none
  | x :: rest =>
    let out (s : State) : State := s.putCore core { s.core core with frames := (s.core core).frames.filter (· != x) }
    match deviceWriteAll s x.1 0 x.2 (s.frameBytes x.1 x.2) with
    | .ok _ s => some (out { s with free := s.free + 1 })
    | .no => some (out s)
    | .busy => dropFrame core s rest

/-- A core uses a frame (R350): it is read back if it was in the pool, and the core's store holds it as the most recently used; another core's store holds
it no longer. A store that would then hold more than its 512 frames writes the least recently used one to its pool address, passing over a frame whose line is
not free in that cycle (DESIGN CHOICE, log 16). -/
def State.useFrame (s : State) (core : Nat) (pid : BitVec 5) (a : Nat) : State :=
  let keep (c : Nat × Core) : Nat × Core := (c.1, { c.2 with frames := c.2.frames.filter fun x => x != (pid, a) && s.frameTaken x })
  let s := { s with cores := s.cores.map keep }
  let c := s.core core
  let s := s.putCore core { c with frames := (pid, a) :: c.frames }
  if c.frames.length < Config.frameStore then s
  else (dropFrame core s c.frames.reverse).getD (s.putCore core { c with frames := (pid, a) :: c.frames.dropLast })

def State.useFrames (s : State) (core : Nat) (pid : BitVec 5) (l : List Nat) : State :=
  l.foldl (fun s a => s.useFrame core pid a) s

end Sys2Proof.Machine
end

