-- ==== Sys2Proof/Machine/Control.lean ====
section
/-! DEFINITION. The control family (R324 to R349): transfers, divergence and its stack, EXIT, YLD, TRAP, SRET, and the special registers (R200 to R202). -/
namespace Sys2Proof.Machine

def nopBytes : NopLen → Nat
  | .l64 => 8 | .l96 => 12 | .l128 => 16

/-- NOP (R341, R349). -/
def execNop (h : Hdr) (n : NopLen) (s : State) : Out := .next (s.retire h (nopBytes n))

/-! ## Transfers (R342, R343) -/

/-- A transfer that acts goes to its target, which must be 4-byte aligned; one that does not act goes on in a new run. -/
def transfer (h : Hdr) (n : Nat) (target : Dword) (before : State → State) (s : State) : Out :=
  if !s.acts h.guard then .next (s.goTo true (s.path.pc + BitVec.ofNat 64 n))
  else if target.extractLsb' 0 2 ≠ 0 then s.trap 0x04 target
  else .next ((before s).goTo true target)

/-- BRA (R342, R343). -/
def execBra (h : Hdr) (o : RelO) (s : State) : Out := transfer h 12 (s.path.pc + o.off.signExtend 64) id s
/-- BRX (R342, R343). -/
def execBrx (h : Hdr) (o : BrxO) (s : State) : Out := transfer h (offBytes o.off) (s.readU o.a + offset o.off) id s
/-- CALL (R342, R343). -/
def execCall (h : Hdr) (o : CallO) (s : State) : Out :=
  transfer h 12 (s.path.pc + o.off.signExtend 64) (fun x => x.writeU o.d (s.path.pc + 12)) s
/-- RET (R342, R343). -/
def execRet (h : Hdr) (o : UA) (s : State) : Out := transfer h 8 (s.readU o.a) id s

/-! ## The reconvergence stack (R327, R332) -/

/-- The most recent entry of a slot. -/
def Team.top (t : Team) (slot : Bool) : Option StackEntry := t.stack.find? fun e => e.slot == slot

/-- The stack without its most recent entry of a slot. -/
def dropTop (slot : Bool) : List StackEntry → List StackEntry
  | [] => []
  | e :: rest => if e.slot = slot then rest else e :: dropTop slot rest

/-- Push; the seventeenth entry takes a spill frame (R332), and there may be none. The core uses that frame (R350). -/
def State.pushStack (s : State) (e : StackEntry) : Option State :=
  if s.team.stack.length < Config.stackEntries then some { s with team := { s.team with stack := e :: s.team.stack } }
  else match s.takeFrames s.team.pid 1 with
    | some (l, s) => some ({ s with team := { s.team with stack := e :: s.team.stack, spill := l ++ s.team.spill } }.useFrames s.team.core s.team.pid l)
    | none => none

/-- Pop of a slot's most recent entry; a spilled entry comes back and its frame is freed (R332). -/
def State.popStack (s : State) (slot : Bool) : State :=
  let t := { s.team with stack := dropTop slot s.team.stack }
  match s.team.spill with
  | a :: rest => { s with team := { t with spill := rest } }.giveFrames t.pid [a]
  | [] => { s with team := t }

/-- Replace a slot's most recent entry. -/
def replaceTop (slot : Bool) (x : StackEntry) : List StackEntry → List StackEntry
  | [] => []
  | e :: rest => if e.slot = slot then x :: rest else e :: replaceTop slot x rest

/-- A path starts a new run at an address with a mask; its last run has ended now, or, where it waited at a JOIN, then (R334). -/
def Path.resume (p : Path) (pc : Dword) (mask : LaneMask) (cycle : Nat) : Path :=
  { p with pc := pc, mask := mask, wait := none, charged := false, runCount := 0, lastEnd := if p.wait = some .join then p.lastEnd else cycle, readyAt := cycle, promo := 0, redo := none, held := [], gaveUp := false, spoils := [] }

/-- A path waits at a JOIN (R329): its run has ended, once. -/
def Path.waitJoin (p : Path) (cycle : Nat) : Path :=
  { p with wait := some .join, lastEnd := if p.wait = some .join then p.lastEnd else cycle, promo := 0 }

/-- A path at a JOIN (R329): it goes on, or it waits. -/
def State.joinAt (s : State) (slot : Bool) : State :=
  match s.team.path slot with
  | none => s
  | some p =>
    let j := p.pc
    let put (s : State) (p : Path) : State := { s with team := s.team.setPath slot (some p) }
    match s.team.top slot with
    | some e =>
      match e.kind with
      | .pending =>
        let s := { s with team := { s.team with stack := replaceTop slot ⟨.joined, slot, j, p.mask⟩ s.team.stack } }
        put s (p.resume e.pc e.mask s.cycle)
      | .joined => put (s.popStack slot) (p.resume (j + 8) (p.mask ||| e.mask) s.cycle)
      | .split =>
        if (s.team.path !slot).isNone then put (s.popStack slot) (p.resume (j + 8) p.mask s.cycle)
        else put s (p.waitJoin s.cycle)
    | none =>
      if (s.team.path !slot).isNone then put s (p.resume (j + 8) p.mask s.cycle) else put s (p.waitJoin s.cycle)

/-- Two paths that wait at JOINs merge (R330): `first` is the slot that arrived first. -/
def State.mergePaths (s : State) (first : Bool) : State :=
  match s.team.path0, s.team.path1 with
  | some a, some b =>
    let splitTop (slot : Bool) : Bool := match s.team.top slot with | some e => e.kind == .split | none => false
    if a.wait = some .join ∧ b.wait = some .join ∧ (splitTop false ≠ splitTop true) then
      let keep := splitTop true
      let p := if keep then b else a
      let sb := a.sb ++ b.sb.filter fun e => !(a.sb.contains e)
      let gate := s.team.pend.foldl (fun m x => max m x.ready) 0
      let at_ := (if first then b.pc else a.pc) + 8
      let m := { p.resume at_ (a.mask ||| b.mask) s.cycle with sb := sb, budget := min a.budget b.budget, gate := gate }
      let s := s.popStack keep
      let t := { s.team with chkFrom := s.team.chkFrom.map fun (x : Bool × Bool) => (keep, x.2) }
      { s with team := (t.setPath keep (some m)).setPath (!keep) none, slot := keep }
    else s
  | _, _ => s

/-- A path that waits at a JOIN evaluates it again (R331). -/
def State.rejoin (s : State) (slot : Bool) : State :=
  match s.team.path slot with
  | some p => if p.wait = some .join then (s.joinAt slot).mergePaths slot else s
  | none => s

/-- BRD (R26, R328): the lanes that the guard selects go to the target. -/
def execBrd (h : Hdr) (o : RelO) (s : State) : Out :=
  let p := s.path
  let taken := s.active &&& s.guardMask h.guard
  let rest := s.active &&& ~~~taken
  let target := p.pc + o.off.signExtend 64
  let after := p.pc + 12
  if taken = 0 then .next (s.goTo true after)
  else if target.extractLsb' 0 2 ≠ 0 then s.trap 0x04 target
  else if rest = 0 then .next (s.goTo true target)
  else if (s.team.path !s.slot).isNone then
    match s.pushStack ⟨.split, s.slot, 0, 0⟩ with
    | none => s.trap 0x0E 0
    | some s =>
      let q := { Path.blank.resume target taken s.cycle with budget := p.budget, sb := p.sb }
      let s := s.setPath { p with mask := rest }
      let t := { s.team with chkFrom := s.team.chkFrom.filter fun (x : Bool × Bool) => x.1 == s.slot }
      .next ({ s with team := t.setPath (!s.slot) (some q) }.goTo true after)
  else
    match s.pushStack ⟨.pending, s.slot, after, rest⟩ with
    | none => s.trap 0x0E 0
    | some s => .next ((s.setPath { p with mask := taken }).goTo true target)

/-- JOIN (R329, R330, R345): a run-ending instruction that may wait. -/
def execJoin (_h : Hdr) (s : State) : Out :=
  let other := !s.slot
  let partnerWaits : Bool := match s.team.path other with | some q => q.wait == some .join | none => false
  let s' := (s.joinAt s.slot).endRun
  let s' := if partnerWaits then s'.mergePaths other else s'
  .next { s' with retired := true }

/-! ## EXIT (R326, R331, R344) -/

/-- A path's slot after its last lane has left (R331). -/
def State.emptySlot (s : State) (slot : Bool) : State :=
  let free (s : State) : State := { s with team := s.team.setPath slot none }
  match s.team.path slot, s.team.top slot with
  | none, _ => s
  | some p, some e =>
    let s := s.popStack slot
    match e.kind with
    | .pending => { s with team := s.team.setPath slot (some (p.resume e.pc e.mask s.cycle)) }
    | .joined => { s with team := s.team.setPath slot (some (p.resume (e.pc + 8) e.mask s.cycle)) }
    | .split =>
      free { s with team := { s.team with stack := s.team.stack.map fun e => if e.slot = slot then { e with slot := !slot } else e } }
  | some _, none => free s

/-- No lane remains (R325, R326): both slots are free, and no stack entry holds lanes. A SPLIT holds none. -/
def Team.noLane (t : Team) : Bool := t.path0.isNone && t.path1.isNone && t.stack.all fun e => e.kind == .split

/-- EXIT (R344): the selected lanes leave; the team's last lane leaves after the waits and the flush of R326. In solo mode the lane that runs is the
last that can, and its EXIT ends the team (DEDUCED, log 32). An EXIT that leaves the team with a path at a CBAR alone makes it arrive there, and so waits and flushes as
the CBAR does (R366; DEDUCED, log 83). -/
def execExit (h : Hdr) (s : State) : Out :=
  let gone := s.active &&& s.guardMask h.guard
  let rest := s.active &&& ~~~gone
  if gone = 0 then .next (s.goTo true (s.path.pc + 8))
  else if rest ≠ 0 then .next ((s.setPath { s.path with mask := rest }).goTo true (s.path.pc + 8))
  else
    let s' := s.emptySlot s.slot
    let mate : Bool := match s.team.path !s.slot with | some q => q.wait == some .barrier | none => false
    if s.team.solo.isSome || s'.team.noLane then
      s.releaseEdge true fun s => .next { s.endNormally with retired := true }
    else if (s'.team.path s.slot).isNone && mate then
      s.releaseEdge true fun s => .next { (s.emptySlot s.slot).endRun.arriveCohort with retired := true }
    else .next { ((s'.endRun.rejoin !s.slot).arriveCohort) with retired := true }

/-! ## YLD, TRAP, SRET (R346 to R348) -/

/-- YLD (R346): with a soft request pending, the path waits for the save. -/
def execYld (h : Hdr) (o : YldO) (s : State) : Out :=
  let s := { s with team := { s.team with live := min o.live.toNat s.team.vregs } }
  let s := s.setPath { s.path with budget := o.dl.toNat }
  let s := s.retire { h with fin := true } 12
  match s.team.preempt with
  | some r => if r.hard then .next s else .next (s.setPath { s.path with wait := some .yielded })
  | none => .next s

/-- TRAP (R347). -/
def execTrap (h : Hdr) (o : TrapO) (s : State) : Out :=
  if s.acts h.guard then s.trap 0x08 (o.n.setWidth 64) else .next (s.goTo true (s.path.pc + 12))

/-- SRET (R348). -/
def execSret (_h : Hdr) (o : UA) (s : State) : Out :=
  match s.team.solo with
  | none => s.trap 0x02 0
  | some solo =>
    let a := s.readU o.a
    if a.extractLsb' 0 2 ≠ 0 then s.trap 0x04 0 else (s.leaveSolo solo a).out false .retry

/-! ## Special registers (R114, R200 to R202, R349) -/

/-- A stop lies in the stitch block of two dense quads (R112, R393): in the smallest rectangle of routers that holds the quads from one to the other. -/
def Partition.inBlock (p : Partition) (first last : Nat) (x : Stop) : Bool :=
  let pos := ((List.range p.quads.length).filter fun q => decide (first ≤ q) && decide (q ≤ last)).filterMap fun q => (p.quads[q]?).map fun x => (Stop.quad x).router
  let lo (f : Nat × Nat → Nat) := pos.foldl (fun m x => min m (f x)) 15
  let hi (f : Nat × Nat → Nat) := pos.foldl (fun m x => max m (f x)) 0
  decide (lo (·.1) ≤ x.router.1) && decide (x.router.1 ≤ hi (·.1)) && decide (lo (·.2) ≤ x.router.2) && decide (x.router.2 ≤ hi (·.2))

/-- The quads of a stitch block in order (R112, R114), by dense index. -/
def Partition.blockQuads (p : Partition) (first last : Nat) : List Nat :=
  (List.range p.quads.length).filter fun q => p.inBlock first last (.quad (p.quads.getD q 0))

/-- The layout of R114: a neighbour and, under a tree, the parent. -/
def neighbourWord (core : Option Nat) (parent : Nat) : Dword :=
  match core with
  | some c => BitVec.twoPow 64 63 ||| BitVec.ofNat 64 (parent % 65536 * 2 ^ 32 + c % 65536)
  | none => BitVec.ofNat 64 (parent % 65536 * 2 ^ 32)

/-- The next of a list after `x`, wrapping. -/
def nextIn (l : List Nat) (x : Nat) : Option Nat := if l.contains x then l[(l.findIdx (· == x) + 1) % l.length]? else none

/-- RNEXT, RPREV, TNEXT0, TNEXT1 (`k` 0 to 3) of a core (R114); the order of a ring and the shape of a tree are the model's (DESIGN CHOICE, log 21). -/
def Partition.neighbour (p : Partition) (core k : Nat) : Dword :=
  let c := p.denseCore core
  match p.stitch.find? fun b => (p.blockQuads b.2.2.1 b.2.2.2).contains (c / 4) with
  | none => 0
  | some b =>
    let qs := p.blockQuads b.2.2.1 b.2.2.2
    let cores := qs.flatMap fun q => (List.range 4).map (4 * q + ·)
    let i := cores.findIdx (· == c)
    match b.2.1 with
    | 1 =>
      match k with
      | 0 => neighbourWord (nextIn cores c) 0
      | 1 => neighbourWord (nextIn cores.reverse c) 0
      | _ => 0
    | 2 =>
      let parent := cores.getD ((i - 1) / 2) c
      match k with
      | 2 => neighbourWord cores[2 * i + 1]? parent
      | 3 => neighbourWord cores[2 * i + 2]? parent
      | _ => 0
    | 3 =>
      let at_ (q : Nat) : Nat × Nat := (Stop.quad (p.quads.getD q 0)).router
      let here := at_ (c / 4)
      let row := sortBy (fun q => (at_ q).1) (qs.filter fun q => (at_ q).2 == here.2)
      let col := sortBy (fun q => (at_ q).2) (qs.filter fun q => (at_ q).1 == here.1)
      let l := match k with | 0 => row | 1 => row.reverse | 2 => col | _ => col.reverse
      neighbourWord ((nextIn l (c / 4)).map fun q => 4 * q + c % 4) 0
    | _ => 0

/-- The neighbour registers of the team in focus (R114); after a stitch request that was ignored, V = 0 (R393). On a core of another tree's block R114 (every
team on a core reads the same values) and R393 (such a team reads V = 0) cannot both hold; the model follows R393 there (DESIGN CHOICE, log 21). -/
def State.neighbour (s : State) (k : Nat) : Dword :=
  match s.team.mesh, s.part s.team.pid with
  | false, some p => p.neighbour s.team.core k
  | _, _ => 0

/-- A special register as SRD reads it (R200); TSTAT may still be settling (R265). -/
def State.readSpecial (s : State) (num : BitVec 6) : Dword × State :=
  let t := s.team
  let n (x : Nat) : Dword × State := (BitVec.ofNat 64 x, s)
  let dense (f : Partition → Nat) : Dword × State := match s.part t.pid with | some p => n (f p) | none => n 0
  match num.toNat with
  | 0x01 => n (t.id % 2 ^ 32)
  | 0x02 => n t.lanes
  | 0x03 => n (passes t.lanes)
  | 0x04 => n t.sub
  | 0x05 => dense fun p => p.denseCore t.core
  | 0x06 => dense fun p => p.denseQuad t.core
  | 0x07 => dense fun p => p.denseDie t.core
  | 0x08 => n t.pid.toNat
  | 0x09 => n t.asid.toNat
  | 0x0A => match t.copied with | some k => (Config.freeBits 64 k, s) | none => n t.frame
  | 0x0B => n t.cohidx
  | 0x0C => n t.cohsize
  | 0x0D => n (match t.root, t.parent with | false, some x => x % 2 ^ 32 | _, _ => 0xFFFFFFFF)
  | 0x0E => n s.cycle
  | 0x0F => n (if t.chksb then 1 else 0)
  | 0x10 => let (f, s) := s.tstatSeen; (f.setWidth 64, s)
  | 0x11 => n s.path.budget
  | 0x12 => (t.mstat, s)
  | 0x13 => (s.neighbour 0, s)
  | 0x14 => (s.neighbour 1, s)
  | 0x15 => (s.neighbour 2, s)
  | 0x16 => (s.neighbour 3, s)
  | 0x17 => (t.trapcode, s)
  | 0x18 => (t.trappc, s)
  | 0x19 => (t.trapva, s)
  | 0x1A => n t.gen.toNat
  | _ => n 0

/-- A special register as SWR writes it (R200 to R202): TCTL applies from the path's next run, TSTAT clears the bits written as 1. -/
def State.writeSpecial (s : State) (num : BitVec 6) (v : Dword) : State :=
  match num.toNat with
  | 0x0F => { s with team := { s.team with chksb := v.getLsbD 0, chkFrom := (s.slot, v.getLsbD 0) :: s.team.chkFrom } }
  | 0x10 => s.clearFlags (v.setWidth 5)
  | _ => s

/-- SRD (R349). -/
def execSrd (h : Hdr) (o : SrdO) (s : State) : Out :=
  if !s.acts h.guard then .next (s.retire h 8)
  else let (v, s) := s.readSpecial o.num; .next ((s.writeU o.d v).retire h 8)

/-- The value of SWR: s[B], or zext(I) (R349). -/
def State.swrValue (s : State) : USrc → Dword
  | .reg r => s.readU r
  | .imm i => i.setWidth 64

/-- SWR (R349). -/
def execSwr (h : Hdr) (o : SwrO) (s : State) : Out :=
  .next ((if s.acts h.guard then s.writeSpecial o.num (s.swrValue o.b) else s).retire h o.b.bytes)

end Sys2Proof.Machine
end

