-- ==== Sys2Proof/Machine/LoadStore.lean ====
section
/-! DEFINITION. The memory family (R152 to R166, R155, R397, R419). -/
namespace Sys2Proof.Machine

/-! ## Addresses and checks -/

/-- `ea(l)` of R153. -/
def State.eaOf (s : State) (base : UReg) (idx : Option MIdx) (off : Option Word) (l : Nat) : Dword :=
  let x : Dword := match idx with
    | some i => (s.readV i.r l).signExtend 64 <<< i.sc.toNat
    | none => 0
  s.readUIn base (l / 32) + x + offset off

def State.ea (s : State) (m : MemOp) (l : Nat) : Dword := s.eaOf m.base m.idx m.off l

/-- The lowest lane whose address fails a check, with its address (R154). -/
def firstFail (as : List (Nat × Dword)) (bad : Dword → Bool) : Option Dword := (as.find? fun a => bad a.2).map (·.2)

/-- The checks of R154 on the addresses of the participating lanes; `window` is the window size for a staging form. -/
def checkLanes (as : List (Nat × Dword)) (n : Nat) (window : Option Nat) : Option (Nat × Dword) :=
  let top := if window.isNone then firstFail as fun a => decide (2 ^ 52 ≤ a.toNat) else none
  match top with
  | some va => some (0x0B, va)
  | none =>
    match firstFail as fun a => decide (a.toNat % n ≠ 0) with
    | some va => some (0x0A, va)
    | none =>
      match window with
      | none => none
      | some w => (firstFail as fun a => decide (w < a.toNat + n)).map fun va => (0x0A, va)

/-- One access of a pass (R155): mask word, line, and the lanes with their byte offsets in the line, ascending. -/
structure Group where
  word : Nat
  line : Nat
  offs : List (Nat × Nat)

/-- The accesses of a pass, one for each line (R155). -/
def groupLines (word : Nat) (as : List (Nat × Dword)) : List Group :=
  as.foldl (fun (gs : List Group) a =>
    let line := a.2.toNat / 128
    if gs.any fun g => g.line == line then
      gs.map fun g => if g.line = line then { g with offs := g.offs ++ [(a.1, a.2.toNat % 128)] } else g
    else gs ++ [⟨word, line, [(a.1, a.2.toNat % 128)]⟩]) []

/-- The accesses of an instruction, passes in ascending mask-word order and lines ascending (R155, R419). -/
def groupsOf (as : List (Nat × Dword)) : List Group :=
  (List.range 32).flatMap fun w =>
    sortBy (·.line) (groupLines w (as.filter fun a => a.1 / 32 == w))

/-! ## The outcome of an instruction's accesses -/

/-- What the accesses made so far have come to (R155). `waiting`: an access waits, and the lanes of it and of those after it are `pending`. -/
structure Tally where
  s         : State
  refused   : List (Nat × Nat)
  misplaced : List (Nat × Nat)
  faults    : List FaultAt
  failed    : List Nat
  pending   : List Nat
  waiting   : Bool
  unbacked  : Bool

def Tally.start (s : State) : Tally :=
  { s := s, refused := [], misplaced := [], faults := [], failed := [], pending := [], waiting := false, unbacked := false }

/-- Make one access, unless one before it waits; `k` does what its completion does. -/
def Tally.step {α : Type} (t : Tally) (asid : BitVec 16) (kind : FaultKind) (g : Group) (acc : State → Acc α) (k : α → State → State) : Tally :=
  let lanes := g.offs.map (·.1)
  let at0 := g.offs.map fun o => (o.1, g.line * 128 + o.2)
  if t.waiting then { t with pending := t.pending ++ lanes }
  else match acc t.s with
    | .ok v s => { t with s := k v s }
    | .busy s => { t with s := s, waiting := true, pending := lanes }
    | .fault c => { t with faults := t.faults ++ [⟨asid, (at0.headD (0, 0)).2, kind, c, g.offs.length, (at0.headD (0, 0)).1⟩], failed := t.failed ++ lanes }
    | .misplaced => { t with misplaced := t.misplaced ++ at0, failed := t.failed ++ lanes }
    | .refused => { t with refused := t.refused ++ at0, failed := t.failed ++ lanes }
    | .unbacked => { t with unbacked := true }

def lanesMask (ls : List Nat) : LaneMask := ls.foldl (fun m l => m ||| BitVec.twoPow 1024 l) 0

/-- Every access made has completed: none waits, and none has failed (R155). -/
def Tally.clean (t : Tally) : Bool :=
  !t.waiting && t.refused.isEmpty && t.misplaced.isEmpty && t.faults.isEmpty && !t.unbacked

/-- The address of the lowest lane of a list. -/
def lowestLane (l : List (Nat × Nat)) : Nat :=
  (l.foldl (fun (m : Option (Nat × Nat)) x => match m with | some y => if x.1 < y.1 then some x else m | none => some x) none).elim 0 (·.2)

/-- The outcome of an instruction whose accesses have all been answered (R155): a trap at a bound result, a misplacement, parking, or retirement.
While an access waits, the instruction keeps its place for the lanes that are left. -/
def Tally.finish (t : Tally) (h : Hdr) (n : Nat) : Out :=
  if t.unbacked then .fault .unbackedFrame
  else if t.waiting then
    let s := t.s.waitHere false .retry
    .next (s.setPath { s.path with redo := some (lanesMask (t.failed ++ t.pending)) })
  else
    let mask := lanesMask t.failed
    let marked : State := { t.s with team := { t.s.team with unfinished := mask } }
    if !t.refused.isEmpty then marked.trap 0x0C (BitVec.ofNat 64 (lowestLane t.refused))
    else if !t.misplaced.isEmpty then marked.trap 0x11 (BitVec.ofNat 64 (lowestLane t.misplaced))
    else if !t.faults.isEmpty then t.s.park mask t.faults false
    else .next (t.s.retire h n)

/-! ## Loads -/

/-- The value of a lane's bytes in a line, extended (R157). -/
def laneValue (ty : Ty) (data : BitVec 1024) (o : Nat) : Dword := extendLane ty (BitVec.ofNat 64 (lineNat data o (accessBytes ty)))

/-- The bytes that a group covers. -/
def Group.bytes (g : Group) (n : Nat) : BitVec 128 := g.offs.foldl (fun b o => b ||| placeBe o.2 n) 0

/-- The registers that a load of type `ty` into `d` writes (R50). -/
def loadRegs (ty : Ty) (d : LaneReg) : List RegRef := if ty.is64 then [.v d, .v (d ||| 1)] else [.v d]

/-- The register that a load into s[d] writes (R32, R50): none for s0. -/
def uniformReg (d : UReg) : List RegRef := if d = 0 then [] else [.s d]

/-- A scoreboard entry for each register (R50), unless it stands. -/
def Path.addSb (p : Path) (id : Nat) (regs : List RegRef) : Path :=
  { p with sb := p.sb ++ (regs.map fun r => (⟨id, r, none, 0⟩ : SbEntry)).filter fun e => !p.sb.contains e }

/-- The number of the scoreboard entries that cover a load's registers (R50): that of entries which an earlier access of the load has made, else a
new one. -/
def State.loadId (s : State) (regs : List RegRef) : Nat × State :=
  match s.path.sb.find? fun e => e.due.isNone && regs.contains e.reg with
  | some e => (e.id, s)
  | none => s.nextSerial

/-- A load's response is on its way (R50, R126): the bytes are those found at the access (DESIGN CHOICE, log 29), the scoreboard covers the registers,
and those of `any` become any value, since the load has touched an unretired matrix command (R281). -/
def State.addLoad (s : State) (id : Nat) (w : Wafer) (vals : List (Nat × Dword)) (regs : List RegRef) (any : List LaneReg) : State :=
  { s.setPath (s.path.addSb id regs) with
      loads := s.loads ++ [⟨s.team.pid, s.team.id, s.team.gen, s.team.core, id, s.slot, w, vals, any, false⟩] }

/-- A write of a team to bytes of a line has been made: its outstanding loads of those bytes issued before it (R141, R156). -/
def State.passLoads (s : State) (w : Who) (va : Nat) (be : BitVec 128) : State :=
  let hit (r : LoadRec) : Bool := r.pid == w.pid && r.team == w.team && r.wafer.line == va / 128 &&
    r.wafer.offs.any fun o => placeBe o.2 (accessBytes r.wafer.ty) &&& be != 0
  { s with loads := s.loads.map fun r => if hit r then { r with passed := true } else r }

/-- A store of bytes of one line for a team (R157, R160). -/
def teamStore (s : State) (w : Who) (va : Nat) (data : BitVec 1024) (be : BitVec 128) (na : Bool) : Acc Unit :=
  match l1Store s w va data be na with
  | .ok _ s => .ok () (s.passLoads w va be)
  | a => a

/-- The registers that a load writes which an unretired matrix command reads, or read when the load began (R281). -/
def State.loadTouches (s : State) (regs : List RegRef) : List LaneReg :=
  (regs.filterMap RegRef.isLane).filter fun r => s.path.spoils.contains r || s.team.reads r

/-- One access of LD or LDK: a hit writes its lanes at once, a miss when its response arrives. -/
def loadGroup (ty : Ty) (d : LaneReg) (k : Option Nat) (na : Bool) (id : Nat) (g : Group) (v : BitVec 1024 × Bool) (s : State) : State :=
  let vals := g.offs.map fun o => (o.1, laneValue ty v.1 o.2)
  if v.2 then s.writeLanes ty d vals
  else s.addLoad id ⟨if k.isSome then 1 else 0, ty, d, g.word, g.line, g.offs, na, s.slot⟩ vals (loadRegs ty d) (s.loadTouches (loadRegs ty d))

/-- The participating lanes of a lane memory operand with their addresses (R153). -/
def State.addresses (s : State) (g : Guard) (m : MemOp) : List (Nat × Dword) := (s.lanes g).map fun l => (l, s.ea m l)

/-- The accesses of an LD or LDK (R155). -/
def loadTally (s : State) (ty : Ty) (na : Bool) (k : Option Nat) (d : LaneReg) (as : List (Nat × Dword)) : Tally :=
  let (id, s1) := s.loadId (loadRegs ty d)
  (groupsOf as).foldl (fun (t : Tally) g =>
    t.step s.team.asidNow .load g (fun s => l1Load s s.who (g.line * 128) (g.bytes (accessBytes ty)) k na) (loadGroup ty d k na id g)) (Tally.start s1)

/-- The common form of LD and LDK (R152 to R158). -/
def execLoad (h : Hdr) (ty : Ty) (na : Bool) (k : Option Nat) (d : LaneReg) (m : MemOp) (n : Nat) (s : State) : Out :=
  let as := s.addresses h.guard m
  match checkLanes as (accessBytes ty) none with
  | some (code, va) => s.trap code va
  | none => (loadTally s ty na k d as).finish h n

/-- LD (R157). -/
def execLd (h : Hdr) (o : LdO) (s : State) : Out := execLoad h o.ty o.na none o.d o.mem (offBytes o.mem.off) s

/-- LDK (R157, R158). -/
def execLdk (h : Hdr) (o : LdkO) (s : State) : Out := execLoad h o.ty false (some s.team.tree) o.d o.mem (offBytes o.mem.off) s

/-- The bytes of a group's stores (R151: the highest lane wins a byte), and their enables. -/
def storeBytes (n : Nat) (g : Group) (val : Nat → Dword) : BitVec 1024 × BitVec 128 :=
  g.offs.foldl (fun (r : BitVec 1024 × BitVec 128) o =>
    (mergeLine r.1 (placeNat o.2 n (val o.1).toNat) (placeBe o.2 n), r.2 ||| placeBe o.2 n)) (0, 0)

/-- The accesses of an ST (R155). -/
def storeTally (s : State) (ty : Ty) (na : Bool) (b : LaneReg) (as : List (Nat × Dword)) : Tally :=
  (groupsOf as).foldl (fun (t : Tally) g =>
    let b := storeBytes (accessBytes ty) g fun l => s.readLane ty b l
    t.step s.team.asidNow .store g (fun s => teamStore s s.who (g.line * 128) b.1 b.2 na) fun _ s => s) (Tally.start s)

/-- ST (R157). -/
def execSt (h : Hdr) (o : StO) (s : State) : Out :=
  let as := s.addresses h.guard o.mem
  match checkLanes as (accessBytes o.ty) none with
  | some (code, va) => s.trap code va
  | none => (storeTally s o.ty o.na o.b as).finish h (offBytes o.mem.off)

/-! ## The staging window -/

/-- The F bit of a granule (R142). -/
def Team.full (t : Team) (g : Nat) : Bool := !(storeGet false t.empty g)
def Team.setFull (t : Team) (g : Nat) (f : Bool) : Team := { t with empty := storePut false t.empty g !f }
/-- The granules of the window range [lo, hi). -/
def granules (lo hi : Nat) : List Nat := if hi ≤ lo then [] else (List.range ((hi - 1) / 128 + 1 - lo / 128)).map (lo / 128 + ·)
def Team.setFullRange (t : Team) (lo hi : Nat) (f : Bool) : Team := (granules lo hi).foldl (fun t g => t.setFull g f) t
def Team.allFull (t : Team) (lo hi : Nat) : Bool := (granules lo hi).all t.full

/-- `n` bytes of the window as a number, and a write of bytes. -/
def Team.winNat (t : Team) (a : Nat) : Nat → Nat
  | 0 => 0
  | n + 1 => (storeGet 0 t.win a).toNat + 256 * t.winNat (a + 1) n
def Team.winBytes (t : Team) (a n : Nat) : List Byte := (List.range n).map fun i => storeGet 0 t.win (a + i)
def Team.winPut (t : Team) : Nat → List Byte → Team
  | _, [] => t
  | a, b :: bs => ({ t with win := storePut 0 t.win a b }).winPut (a + 1) bs

/-- LDS (R159, R142, R144): it waits until every granule it reads is full. -/
def execLds (h : Hdr) (o : LdkO) (s : State) : Out :=
  let as := s.addresses h.guard o.mem
  let n := accessBytes o.ty
  match checkLanes as n (some s.team.window) with
  | some (code, va) => s.trap code va
  | none =>
    if as.all fun a => s.team.allFull a.2.toNat (a.2.toNat + n) then
      let vals := as.map fun a => (a.1, extendLane o.ty (BitVec.ofNat 64 (s.team.winNat a.2.toNat n)))
      .next ((s.writeLanes o.ty o.d vals).retire h (offBytes o.mem.off))
    else .next (s.waitHere false .granule)

/-- STS (R159, R142): the bytes in ascending lane order, then F in every granule written. -/
def execSts (h : Hdr) (o : StsO) (s : State) : Out :=
  let as := s.addresses h.guard o.mem
  let n := accessBytes o.ty
  match checkLanes as n (some s.team.window) with
  | some (code, va) => s.trap code va
  | none =>
    let t := as.foldl (fun (t : Team) a => t.winPut a.2.toNat (natBytes n (s.readLane o.ty o.b a.1).toNat)) s.team
    let t := as.foldl (fun (t : Team) a => t.setFullRange a.2.toNat (a.2.toNat + n) true) t
    .next ({ s with team := t }.retire h (offBytes o.mem.off))

/-! ## Uniform accesses -/

/-- The checks of a uniform address (R154, R160). -/
def checkUniform (a : Dword) (n : Nat) : Option (Nat × Dword) := checkLanes [(0, a)] n none

/-- A value that SLD writes: I types by sign, the others by zero (R160). -/
def sldValue (t : Ty) (x : Dword) : Dword :=
  match t with
  | .i8 | .i16 | .i32 => wrapTo .i64 (intOf t x)
  | _ => BitVec.ofNat 64 (natOf t x)

/-- SLD (R160). -/
def execSld (h : Hdr) (o : SldO) (s : State) : Out :=
  let len := offBytes o.off
  if !s.acts h.guard then .next (s.retire h len)
  else
    let a := s.readU o.a + offset o.off
    let n := accessBytes o.ty
    match checkUniform a n with
    | some (code, va) => s.trap code va
    | none =>
      match l1Load s s.who a.toNat (placeBe (a.toNat % 128) n) none false with
      | .ok v s =>
        let x := sldValue o.ty (BitVec.ofNat 64 (lineNat v.1 (a.toNat % 128) n))
        if v.2 then .next ((s.writeU o.d x).retire h len)
        else
          let (id, s) := s.nextSerial
          let w : Wafer := ⟨3, o.ty, o.d.setWidth 8, 0, a.toNat / 128, [(0, a.toNat % 128)], false, s.slot⟩
          .next ((s.addLoad id w [(0, x)] (uniformReg o.d) []).retire h len)
      | e => s.failOne e a.toNat .load

/-- SST (R160). -/
def execSst (h : Hdr) (o : SstO) (s : State) : Out :=
  let len := offBytes o.off
  if !s.acts h.guard then .next (s.retire h len)
  else
    let a := s.readU o.a + offset o.off
    let n := accessBytes o.ty
    match checkUniform a n with
    | some (code, va) => s.trap code va
    | none =>
      match teamStore s s.who a.toNat (placeNat (a.toNat % 128) n (s.readU o.b).toNat) (placeBe (a.toNat % 128) n) false with
      | .ok _ s => .next (s.retire h len)
      | e => s.failOne e a.toNat .store

/-! ## Atomics -/

/-- The record of an atomic at the host port (R434). -/
def State.findAtom (s : State) (pid : BitVec 5) (team : Nat) (slot : Bool) (lane : Nat) : Option HostAtom :=
  s.hostAtoms.find? fun a => a.pid == pid && a.team == team && a.slot == slot && a.lane == lane

/-- A request of the team to an address's home bank waits (R124): sixteen of its requests toward the bank are unacknowledged, or an earlier one has not
arrived. -/
def State.bankFull (s : State) (w : Who) (va : Nat) : Bool :=
  match s.part w.pid with
  | none => false
  | some p => match p.home w.asid va with
    | some (_, home) => decide (16 ≤ s.toward w p home) || s.behind w home
    | none => false

/-- A request of the team to an address's home bank takes its number (R124). -/
def State.numberedAt (s : State) (w : Who) (va : Nat) : State :=
  match (s.part w.pid).bind fun p => p.home w.asid va with
  | some (_, home) => s.numbered w home
  | none => s

/-- One lane's atomic (R106, R164): the L1's copy of the word is released, then the operation is performed at home, or asked of the host port; the
old value. -/
def atomicLane (s : State) (w : Who) (slot : Bool) (lane : Nat) (a : Nat) (ty : Ty) (op : Aop) (o c : Dword) : Acc Dword :=
  let n := accessBytes ty
  if s.owned w.pid w.asid a then .refused
  else if s.bankFull w a then .busy s
  else match l1Release s w a (wordsOfRange (a % 128) n) with
    | .busy s => .busy s
    | .fault c => .fault c
    | .misplaced => .misplaced
    | .refused => .refused
    | .unbacked => .unbacked
    | .ok _ s =>
      match homeAtomicOp s w.pid w.asid a ty op o c w.sys (some w.core) with
      | .ok m s =>
        let (id, s) := s.nextSerial
        .ok m (((s.numberedAt w a).addAck w .atomic (keyOf w.pid w.asid a) 1 id).passLoads w a (placeBe (a % 128) n))
      | .no (.host addr _ s) =>
        match s.findAtom w.pid w.team slot lane with
        | some r =>
          if r.done then .ok (r.m.getD 0) (({ s with hostAtoms := s.hostAtoms.erase r } : State).passLoads w a (placeBe (a % 128) n)) else .busy s
        | none =>
          .busy { s with hostAtoms := s.hostAtoms ++ [⟨w.pid, w.team, slot, lane, addr, ty, op, o, c, none, false⟩] }
      | .no (.busy s) => .busy s
      | .no (.fault c) => .fault c
      | .no .misplaced => .misplaced
      | .no .refused => .refused
      | .no .unbacked => .unbacked
      | .no (.ok s) => .ok 0 s

/-- The faults of single lanes as faults of accesses, which pass and line make up (R155, R419). -/
def Tally.byAccess (t : Tally) (asid : BitVec 16) (as : List (Nat × Dword)) : Tally :=
  { t with faults := (groupsOf (as.filter fun a => t.failed.contains a.1)).map fun g =>
      ⟨asid, g.line * 128 + (g.offs.headD (0, 0)).2, .atomic, ((t.faults.find? fun f => f.va / 128 == g.line).map (·.cause)).getD 0, g.offs.length, (g.offs.headD (0, 0)).1⟩ }

/-- The lane operations of an AMO or RED (R164), the lanes in ascending order. -/
def atomicTally (s : State) (ty : Ty) (op : Aop) (d : Option LaneReg) (b : LaneReg) (cmp : LaneReg) (as : List (Nat × Dword)) : Tally :=
  as.foldl (fun (t : Tally) a =>
    let g : Group := ⟨a.1 / 32, a.2.toNat / 128, [(a.1, a.2.toNat % 128)]⟩
    t.step s.team.asidNow .atomic g
      (fun x => atomicLane x x.who s.slot a.1 a.2.toNat ty op (s.readLane ty b a.1) (s.readLane ty cmp a.1))
      fun m s => match d with | some d => s.writeLanes ty d [(a.1, m)] | none => s) (Tally.start s)

/-- The common form of AMO and RED (R161 to R164). A float RED is one of the outcomes listed: lane order (DESIGN CHOICE, log 30). -/
def execAtomics (h : Hdr) (ty : Ty) (op : Aop) (d : Option LaneReg) (b : LaneReg) (cmp : LaneReg) (as : List (Nat × Dword)) (s : State) : Out :=
  match checkLanes as (accessBytes ty) none with
  | some (code, va) => s.trap code va
  | none =>
    let t := atomicTally s ty op d b cmp as
    (if t.faults.isEmpty then t else t.byAccess s.team.asidNow as).finish h 16

/-- AMO (R161, R164). -/
def execAmo (h : Hdr) (o : AmoO) (s : State) : Out :=
  execAtomics h o.ty o.aop (some o.d) o.b o.cmp ((s.lanes h.guard).map fun l => (l, s.eaOf o.base o.idx (some o.off) l)) s

/-- RED (R161, R164). -/
def execRed (h : Hdr) (o : RedMemO) (s : State) : Out :=
  execAtomics h o.ty o.aop none o.b 0 ((s.lanes h.guard).map fun l => (l, s.eaOf o.base o.idx (some o.off) l)) s

/-- SAMO (R161, R164, R233). -/
def execSamo (h : Hdr) (o : SamoO) (s : State) : Out :=
  if !s.acts h.guard then .next (s.retire h 16)
  else
    let a := s.readU o.a + offset (some o.off)
    match checkUniform a (accessBytes o.ty) with
    | some (code, va) => s.trap code va
    | none =>
      match atomicLane s s.who s.slot 0 a.toNat o.ty o.aop (s.readUTy o.ty o.b) (s.readUTy o.ty o.cmp) with
      | .ok m s => .next ((s.writeU o.d (uniformResult o.ty m)).retire h 16)
      | e => s.failOne e a.toNat .atomic

/-! ## PREF and PERSIST -/

/-- The line of a prefetch is requested (R165): into the L1, or only into home's L2. The line that cannot be had yet stays asked for; one that would trap or fault
is not. -/
def State.prefetch (s : State) (r : Prefetch) : State :=
  let later (s : State) : State := { s with prefs := if s.prefs.contains r then s.prefs else s.prefs ++ [r] }
  if r.l2 then
    match homeAccess s r.pid r.asid r.va .read r.sys with
    | .line bank l s => (homeReadLine s bank l (BitVec.allOnes 32)).2
    | .busy s => later s
    | _ => s
  else match l1Load s ⟨r.core, r.pid, r.asid, r.sys, r.team, r.tree⟩ r.va (BitVec.allOnes 128) none false with
    | .ok _ s => s
    | .busy s => later s
    | _ => s

/-- PREF (R165): each line is requested; a lane that would trap or fault has no effect. -/
def execPref (h : Hdr) (o : PrefO) (s : State) : Out :=
  let s' := (s.lanes h.guard).foldl (fun (x : State) l =>
    let a := (s.ea o.mem l).toNat
    if 2 ^ 52 ≤ a then x
    else x.prefetch ⟨s.team.core, s.team.pid, s.team.asidNow, s.team.privileged, s.team.id, s.team.tree, a / 128 * 128, o.l2⟩) s
  .next (s'.retire h (offBytes o.mem.off))

/-- The lines of a core that hold dirty words of an ASID in [lo, hi). -/
def State.dirtyIn (s : State) (core : Nat) (pid : BitVec 5) (asid : BitVec 16) (lo hi : Nat) : List L1Line :=
  (s.core core).l1.filter fun l => l.key.pid == pid && l.key.asid == asid && l.d != 0 && decide (lo / 128 ≤ l.key.tag) && decide (l.key.tag * 128 < hi)

/-- A posted write of a partition meets a range of host addresses. -/
def State.postedIn (s : State) (pid : BitVec 5) (lo hi : Nat) : Bool :=
  (s.hostOut ++ s.hostSent).any fun w => w.pid == pid && decide (w.addr < hi) && decide (lo < w.addr + w.data.length)

/-- The 128 bytes at a host address of persistent memory become durable (R81): the posted writes to them are sent, and the port's modified lines are written
back; `busy` while a posted write must wait. -/
def persistLine (s : State) (pid : BitVec 5) (a : Nat) : Acc Unit :=
  let s := if s.postedIn pid a (a + 128) then s.sendPosted pid else s
  if s.postedIn pid a (a + 128) then .busy s
  else
    let push (s : State) (l : Nat) : State := match s.portLine l with
      | some x => if x.st = .m then (s.writeBackPort x).putPortLine { x with st := .e } else s
      | none => s
    .ok () ((push (push s (a / 64)) (a / 64 + 1)).makeDurable a 128)

/-- The persistent lines of a range of `n` lines become durable; lines of other memory are left alone (R82). -/
def persistRange (s : State) (p : Partition) (asid : BitVec 16) : Nat → Nat → Acc Unit
  | 0, _ => .ok () s
  | n + 1, line =>
    match translate s p.pid asid (line * 128) with
    | .ok addr true _ s =>
      if p.persistent addr then
        match persistLine s p.pid (addr / 128 * 128) with
        | .ok _ s => persistRange s p asid n (line + 1)
        | a => a
      else persistRange s p asid n (line + 1)
    | _ => persistRange s p asid n (line + 1)

/-- An unacknowledged PERSIST goes on (R81, R82, R166): the dirty words of its lines go home, then persistent lines become durable; `ok` when it is
complete. -/
def persistStep (s : State) (core : Nat) (a : Ack) : Acc Unit :=
  let lo := a.key.va
  match flushLines core a.team (s.dirtyIn core a.pid a.key.asid lo (lo + 128 * a.lines)) s with
  | .ok _ s =>
    let open_ : Bool := (s.core core).acks.any fun x => x.kind.writes && x.key.pid == a.pid && x.key.asid == a.key.asid &&
      decide (a.key.tag ≤ x.key.tag) && decide (x.key.tag < a.key.tag + a.lines)
    if open_ then .busy s
    else match s.part a.pid with
      | none => .ok () s
      | some p => persistRange s p a.key.asid a.lines a.key.tag
  | x => x

/-- PERSIST (R166, R81, R82): its words start on their way home, and the instruction is done; its acknowledgement is outstanding until it completes. -/
def execPersist (h : Hdr) (o : PersistO) (s : State) : Out :=
  let len := offBytes o.off
  if !s.acts h.guard then .next (s.retire h len)
  else
    let a := (s.readU o.a + offset o.off).toNat
    let n := (s.readU o.b).toNat
    if n = 0 then .next (s.retire h len)
    else if 0x40000000 < n then s.trap 0x0A (s.readU o.b)
    else if 2 ^ 52 < a + n then s.trap 0x0B (BitVec.ofNat 64 a)
    else
      let w := s.who
      match flushLines w.core w.team (s.dirtyIn w.core w.pid w.asid a (a + n)) s with
      | .unbacked => .fault .unbackedFrame
      | r =>
        let (id, s) := (r.orElse s).nextSerial
        .next ((s.addAck w .persist (keyOf w.pid w.asid a) ((a + n - 1) / 128 + 1 - a / 128) id).retire h len)

end Sys2Proof.Machine
end

