-- ==== Sys2Proof/Machine/Place.lean ====
section
/-! DEFINITION. Residency (R136, R192, R389), the start of a child (R324, R356), deques and stealing (R357, R358), and the return of continuations
(R361) and saved teams (R407). -/
namespace Sys2Proof.Machine

/-! ## Residency -/

/-- The counts `.vregs`, `.tiles` and window of the code object that holds an address (R459, R136). For code in no object the model takes the lane registers
and tiles `d` of the spawner, and no window, as without `.staging` (DESIGN CHOICE, log 72). -/
def State.countsAt (s : State) (pid : BitVec 5) (asid : BitVec 16) (va : Nat) (d : Nat × Nat) : Nat × Nat × Nat :=
  match s.objects.find? fun o => o.pid == pid && o.asid == asid && decide (o.base ≤ va) && decide (va < o.base + o.size) with
  | some o => (o.vregs, o.tiles, o.window)
  | none => (d.1, d.2, 0)

/-- A team of `lanes` lanes with these counts fits on a sub-core (R136, R192), a team `skip` of it left out of account. -/
def State.fits (s : State) (core sub : Nat) (skip : Option Nat) (lanes vregs tiles window : Nat) : Bool :=
  let all := (s.residents core).filter fun t => some t.id != skip
  let here := all.filter fun t => t.sub == sub
  decide (here.length < 32) && decide (here.foldl (fun n t => n + footprint t.vregs t.lanes) (footprint vregs lanes) ≤ Config.laneRegBytes) &&
    decide (here.foldl (fun n t => n + t.ntiles) tiles ≤ 8) && decide (all.foldl (fun n t => n + t.window) window ≤ Config.stagingMax)

/-- The lowest free save slot (R389). -/
def Partition.freeSlot (p : Partition) : Option Nat :=
  (List.range (min (field p.xsvcnt 31 0) (p.saveUsed.length + 1))).find? fun i => !p.saveUsed.contains i

/-! ## The start of a team -/

/-- A team at its creation (R194, R324, R356). -/
def TeamSpec.born (spec : TeamSpec) (id idx frame core sub slotNo cycle : Nat) : Team :=
  { Team.blank with
    id := id, pid := spec.pid, asid := spec.asid, lanes := spec.lanes, vregs := spec.vregs, ntiles := spec.tiles, window := spec.window,
    phase := .resident, core := core, sub := sub, chksb := spec.chksb, chkNow := spec.chksb, frame := frame, cohidx := idx, cohsize := spec.size,
    cohort := spec.cohort, parent := spec.parent.map (·.1), root := spec.root, mesh := spec.mesh, cls := spec.cls, sys := spec.sys, tree := spec.tree, live := spec.vregs,
    slotNo := some slotNo,
    s := (List.range 8).foldl (fun st i => storePut 0 st (i + 1) (spec.args.getD i 0)) [],
    path0 := some { Path.blank with pc := spec.entry, mask := laneLimit spec.lanes, budget := Config.budgetMax, lastEnd := cycle, readyAt := cycle } }

/-- A team takes its place: it joins the teams, its save slot is taken, and the core self-invalidates for it (R356, R389). -/
def State.seat (s : State) (t : Team) : State :=
  let s := s.mapPart t.pid fun p => { p with saveUsed := p.saveUsed ++ (t.slotNo.toList.filter fun i => !p.saveUsed.contains i) }
  selfInvalidate { s with teams := s.teams ++ [t] } t.core t.pid t.asid t.tree

/-- A child becomes resident on a sub-core, with a team frame that names it (R352, R356). -/
def State.startChild (s : State) (spec : TeamSpec) (id idx frame : Nat) (handle : Dword) (lanesAff : Aff) (core sub : Nat) : Acc Unit :=
  match growSplit core spec.window s with
  | .ok _ s =>
    match (s.part spec.pid).bind Partition.freeSlot with
    | none => .busy s
    | some slot =>
      let s := s.fillFrame spec.pid frame ⟨spec.args, spec.entry, (spec.parent.map (·.2)).getD 0, handle, spec.lanes, lanesAff, spec.size⟩
      .ok () ((s.seat (spec.born id idx frame core sub slot s.cycle)).useFrame core spec.pid frame)
  | a => a

/-! ## Deques -/

/-- A push on a core's deque; a full deque moves its oldest entry to the overflow list (R358). -/
def State.pushDeque (s : State) (core : Nat) (e : DeqEnt) : State :=
  let c := s.core core
  match c.deque with
  | x :: rest =>
    if c.deque.length < Config.dequeEntries then s.putCore core { c with deque := c.deque ++ [e] }
    else (s.putCore core { c with deque := rest ++ [e] }).mapPart x.pid fun p => { p with overflow := p.overflow ++ [x] }
  | [] => s.putCore core { c with deque := [e] }

/-- The affinity lets a sub-core take the entry (R357). -/
def DeqEnt.allows (e : DeqEnt) (sub : Nat) : Bool :=
  match e.aff with
  | .sub => e.sub == sub
  | .core => e.sub / 8 == sub / 8
  | .quad => e.sub / 32 == sub / 32
  | .die => e.sub / (8 * coresPerDie) == sub / (8 * coresPerDie)
  | .any => true

/-- What the entry stands for can become resident on the sub-core (R357). -/
def State.entryFits (s : State) (sub : Nat) (e : DeqEnt) : Bool :=
  match e.kind with
  | .spawn spec .. =>
    s.fits (sub / 8) (sub % 8) none spec.lanes spec.vregs spec.tiles spec.window && ((s.part e.pid).bind Partition.freeSlot).isSome
  | .cont id .. =>
    match s.findTeam e.pid id with
    | some t => s.fits (sub / 8) (sub % 8) none t.lanes t.vregs t.ntiles t.window
    | none => false
  | .saved id =>
    match s.findTeam e.pid id with
    | some t => s.fits (sub / 8) (sub % 8) none t.lanes t.vregs t.ntiles t.window
    | none => false

/-- The partition whose core it is. -/
def State.partOfCore (s : State) (core : Nat) : Option Partition := s.parts.find? fun p => p.quads.contains (coreQuad core)

def oldestEntry (l : List DeqEnt) : Option DeqEnt :=
  l.foldl (fun m e => match m with | some x => if e.age < x.age then some e else m | none => some e) none

/-- The entry that a sub-core takes next (R357, R358, R361): a continuation that returns to it, else the oldest entry that it may take, place by place. -/
def State.nextEntry (s : State) (pid : BitVec 5) (sub : Nat) : Option DeqEnt :=
  let core := sub / 8
  let all := (s.cores.flatMap fun c => c.2.deque.map fun e => (c.1, e)).filter fun x => x.2.pid == pid
  let back := (s.deqs pid).filter fun e => e.sub == sub && s.entryFits sub e && (match e.kind with
    | .cont _ _ child => (s.findTeam pid child).isNone
    | _ => false)
  let place (k c : Nat) : Bool := match k with
    | 0 => c == core
    | 1 => c / 4 == core / 4 && c != core
    | 2 => coreDie c == coreDie core && c / 4 != core / 4
    | _ => coreDie c != coreDie core
  let ok (e : DeqEnt) : Bool := e.allows sub && s.entryFits sub e
  let near := (List.range 4).findSome? fun k => oldestEntry ((all.filter fun x => place k x.1 && ok x.2).map (·.2))
  let far := match s.part pid with | some p => oldestEntry (p.overflow.filter ok) | none => none
  (oldestEntry back).or (near.or far)

/-- An entry leaves the deque or the overflow list it is in. -/
def State.dropEntry (s : State) (e : DeqEnt) : State := s.mapDeques e.pid fun x => x.age != e.age

/-- An entry changes in its place. -/
def State.mapEntry (s : State) (pid : BitVec 5) (age : Nat) (f : DeqEnt → DeqEnt) : State :=
  let g (x : DeqEnt) : DeqEnt := if x.pid = pid ∧ x.age = age then f x else x
  { (s.mapPart pid fun p => { p with overflow := p.overflow.map g }) with cores := s.cores.map fun c => (c.1, { c.2 with deque := c.2.deque.map g }) }

/-! ## Continuations and saved teams -/

/-- The paths of a team that takes a place again start new runs. -/
def Team.freshPaths (t : Team) (cycle : Nat) : Team :=
  { t with path0 := t.path0.map fun p => p.fresh cycle, path1 := t.path1.map fun p => p.fresh cycle }

/-- A continuation resumes (R361): the core uses the frames of its chain, which return to the pool; its team frame stays (R387). On a thief's sub-core FRAME
names the copy, whose address is open (DEDUCED, log 33). -/
def State.resumeCont (s : State) (pid : BitVec 5) (id : Nat) (frames : List Nat) (core sub : Nat) (stolen : Bool) : Acc Unit :=
  match s.findTeam pid id with
  | none => .ok () s
  | some t =>
    match growSplit core t.window s with
    | .ok _ s =>
      let s := (s.useFrames core pid (t.frame :: frames)).giveFrames pid frames
      let n := s.free
      let s := { s with free := n + 2 }
      let s := s.mapTeam pid id fun t =>
        ({ t with phase := .resident, core := core, sub := sub, copied := if stolen then some (n + 1) else t.copied, pend := [], sure := t.tstat, flagPend := [] }.forgetRegs t.contLive n).freshPaths s.cycle
      .ok () (selfInvalidate s core t.pid t.asid t.tree)
    | a => a

/-- A wafer of the focus team is sent again (R407): its access is made and its scoreboard entry taken, in each occupied slot, since a wafer does not say which
path issued it (DESIGN CHOICE, log 71). -/
def State.sendWafer (s : State) (w : Wafer) : Acc Unit :=
  let n := accessBytes w.ty
  let regs : List RegRef := if w.kind = 3 then uniformReg (w.dreg.setWidth 7) else loadRegs w.ty w.dreg
  let vals (data : BitVec 1024) : List (Nat × Dword) :=
    w.offs.map fun o => (o.1, if w.kind = 3 then sldValue w.ty (BitVec.ofNat 64 (lineNat data o.2 n)) else laneValue w.ty data o.2)
  let s := { s with slot := w.slot }
  if w.kind = 2 then
    .ok () (s.writeLanes w.ty w.dreg (w.offs.map fun o => (o.1, extendLane w.ty (BitVec.ofNat 64 (s.team.winNat (w.line * 128 + o.2) n)))))
  else
    let want := w.offs.foldl (fun (b : BitVec 128) o => b ||| placeBe o.2 n) 0
    let k : Option Nat := if w.kind = 1 then some s.team.tree else none
    match l1Load s s.who (w.line * 128) want k w.na with
    | .ok v s =>
      let (id, s) := s.loadId regs
      let s := s.addLoad id w (vals v.1) regs ((regs.filterMap RegRef.isLane).filter s.team.spoilt)
      .ok () { s with team := s.team.setPath (!w.slot) ((s.team.path !w.slot).map fun p => p.addSb id regs) }
    | .busy s => .busy s
    | .fault c => .fault c
    | .misplaced => .misplaced
    | .refused => .refused
    | .unbacked => .unbacked

/-- The wafers of the focus team, sent in their order; `n` bounds their number. One that faults parks the team, as the load itself would have (DEDUCED, log
34); a system team's path, or a team's in solo mode, traps instead (R396). -/
def State.sendWafers (s : State) : Nat → Acc Unit
  | 0 => .ok () s
  | n + 1 =>
    match s.team.wafers with
    | [] => .ok () s
    | w :: rest =>
      match s.sendWafer w with
      | .ok _ s => State.sendWafers { s with team := { s.team with wafers := rest } } n
      | .busy s => .busy s
      | .unbacked => .unbacked
      | .fault c =>
        let f : FaultAt := ⟨s.team.asidNow, w.line * 128 + ((w.offs.headD (0, 0)).2), .load, c, w.offs.length, (w.offs.headD (0, 0)).1⟩
        if s.team.privileged then
          .ok () ({ s with slot := w.slot, team := { s.team with wafers := rest } }.waitHere false (.trapping 0x0B (BitVec.ofNat 64 f.va)))
        else
          let s := s.offerFaults s.team s.path.pc [f]
          .ok () { s with team := { s.team with park := some ⟨s.slot, 0, [f], true⟩ } }
      | _ =>
        let va := w.line * 128 + ((w.offs.headD (0, 0)).2)
        .ok () ({ s with slot := w.slot, team := { s.team with wafers := rest } }.waitHere false (.trapping 0x11 (BitVec.ofNat 64 va)))

/-- A saved team is placed (R407, R411): its area is read as it stands, its lane registers above LIVE are any value, its wafers are sent again. -/
def State.restoreTeam (s : State) (pid : BitVec 5) (id core sub : Nat) : Acc Unit :=
  match s.findTeam pid id, s.part pid with
  | some t, some p =>
    match growSplit core t.window s with
    | .ok _ s =>
      match readArea s pid 0 (t.saveAddr p) t.areaBytes with
      | .busy => .busy s
      | .no => s.killFamily pid id 1
      | .ok bs s =>
        match teamOf bs t p s.serial with
        | none => s.killFamily pid id 1
        | some (t', ws) =>
          let n := s.free
          let live := getN bs 0x14 4
          let t' := ({ t' with phase := .resident, core := core, sub := sub, wafers := ws }.forgetRegs live n).freshPaths s.cycle
          let s := { s with free := n + 1, serial := s.serial + getN bs 0x5C 2 + getN bs 0x5E 2 + getN bs 0x60 2 }
          let s := s.mapTeam pid id fun _ => t'
          match (s.focusOn pid id false).sendWafers 64 with
          | .busy s => .ok () s
          | a => a
    | a => a
  | _, _ => .ok () s

/-- An entry is taken by a sub-core (R357): a child starts, a continuation is stolen or returns, a saved team is restored. -/
def State.takeEntry (s : State) (sub : Nat) (e : DeqEnt) : Acc Unit :=
  let core := sub / 8
  match e.kind with
  | .spawn spec next first frames cancelled =>
    let left := (List.range spec.size).filter fun k => decide (next ≤ k) && !cancelled.contains k
    match left with
    | [] => .ok () (s.dropEntry e)
    | k :: rest =>
      let handle : Dword := match spec.cohort, (s.findTeam e.pid ((spec.parent.map (·.1)).getD 0)).bind fun t => t.kids.find? fun x => x.first == first with
        | some _, some kid => handleOf kid.frame kid.tag
        | _, _ => 0
      match s.startChild spec (first + k) k (frames.getD k 0) handle e.aff core (sub % 8) with
      | .ok _ s =>
        .ok () (if rest = [] then s.dropEntry e else s.mapEntry e.pid e.age fun x => { x with kind := .spawn spec (k + 1) first frames cancelled })
      | a => a
  | .cont id frames child =>
    match s.resumeCont e.pid id frames core (sub % 8) !(e.sub == sub && (s.findTeam e.pid child).isNone) with
    | .ok _ s => .ok () (s.dropEntry e)
    | a => a
  | .saved id =>
    match (s.dropEntry e).restoreTeam e.pid id core (sub % 8) with
    | .busy _ => .busy s
    | a => a

end Sys2Proof.Machine
end

