-- ==== Sys2Proof/Machine/Graph.lean ====
section
/-! DEFINITION. The graph and sync family (R350 to R374, R129 to R134): SPAWN, AWAIT, CBAR, PUB, AWAITW, XSHUF. -/
namespace Sys2Proof.Machine

/-! ## SPAWN -/

/-- What a SPAWN gives its children before frames are taken (R354 to R356, R393); `tree = none`: a new launch tree. -/
structure SpawnPlan where
  lanes  : Nat
  entry  : Dword
  counts : Nat × Nat × Nat
  asid   : BitVec 16
  cls    : Nat
  sys    : Bool
  tree   : Option Nat

/-- The fields of a SPAWN as its issue finds them (R353, R393). -/
def State.spawnPlan (s : State) (o : SpawnO) : SpawnPlan :=
  let t := s.team
  let entry := s.path.pc + o.off.signExtend 64
  let lanes := match o.lanes with | .imm n => n.toNat | .reg b => ((s.readU b).setWidth 32 : Word).toNat
  let (asid, cls, sys, tree) := match t.attr with
    | none => (t.asid, t.cls, t.sys, some t.tree)
    | some w =>
      let sys := w.getLsbD 21
      (w.setWidth 16, if sys then 0 else if field w 23 22 = 0 then 1 else field w 23 22, sys, if w.getLsbD 20 then none else some t.tree)
  ⟨lanes, entry, s.countsAt t.pid asid entry.toNat (t.vregs, t.ntiles), asid, cls, sys, tree⟩

/-- The checks 1 to 4 of R354, in order. -/
def State.spawnCheck (s : State) (p : SpawnPlan) (size : Nat) : Option Nat :=
  let ours := match s.part s.team.pid with | some x => x.ownsAsid p.asid | none => false
  if s.team.attr.isSome && !ours then some 0x02
  else if p.lanes = 0 ∨ 1024 < p.lanes ∨ Config.laneRegBytes < footprint p.counts.1 p.lanes then some 0x03
  else if size = 0 ∨ 1024 < size then some 0x03
  else if p.entry.extractLsb' 0 2 ≠ 0 then some 0x04
  else none

/-- The frames of a SPAWN are reserved (R354): those that the waiting path holds, or `n` of the pool. -/
def State.reserve (s : State) (ns : List Nat) : Option State :=
  if ns.contains s.path.held.length then some s
  else
    let s := (s.giveFrames s.team.pid s.path.held).setPath { s.path with held := [] }
    ns.findSome? fun n => (s.takeFrames s.team.pid n).map fun r => r.2.setPath { s.path with held := r.1 }

/-- The lowest free launch-tree number (R393). -/
def Partition.freeTree (p : Partition) : Option Nat := (List.range Config.launchTrees).find? fun i => !p.trees.contains i

/-- Two stitch blocks have a quad in common. -/
def Partition.blocksMeet (p : Partition) (first last : Nat) (b : Nat × Nat × Nat × Nat) : Bool :=
  (p.blockQuads first last).any (p.blockQuads b.2.2.1 b.2.2.2).contains

/-- A stitch block may be wired (R112): every quad and bank stop in its rectangle is the partition's, but for quads that are not enabled, and no team of
the partition runs on its quads, nor on those of an older block that it takes a quad from, which is rewired with it (DEDUCED, log 21). -/
def State.wireable (s : State) (pid : BitVec 5) (w : Dword) : Bool :=
  let last := field w 55 48
  let first := field w 47 40
  match s.part pid with
  | none => false
  | some p =>
    let qs := p.blockQuads first last ++ (p.stitch.filter (p.blocksMeet first last)).flatMap fun b => p.blockQuads b.2.2.1 b.2.2.2
    decide (first ≤ last) && decide (last < p.quads.length) &&
      ((List.range 48).all fun q => p.quads.contains q || s.harvested.contains q || !p.inBlock first last (.quad q)) &&
      ((List.range 256).all fun b => p.banks.contains b || !p.inBlock first last (.bank b)) &&
      !(s.live.any fun t => t.pid == pid && t.phase == .resident && qs.contains (p.denseQuad t.core))

/-- The stitch request of a spawn-attribute word (R393): the block is wired for a launch tree, and an older block that it takes a quad from is plain mesh; or
the request is ignored. -/
def State.wire (s : State) (pid : BitVec 5) (tree : Nat) (w : Dword) : State :=
  if field w 63 62 ≠ 0 ∧ s.wireable pid w = true then
    s.mapPart pid fun p =>
      { p with stitch := (tree, field w 63 62, field w 47 40, field w 55 48) :: p.stitch.filter fun b => !p.blocksMeet (field w 47 40) (field w 55 48) b }
  else s

/-- The team's spawn-attribute word makes a stitch request that is ignored (R393). -/
def State.unwired (s : State) : Bool :=
  match s.team.attr with
  | some w => decide (field w 63 62 ≠ 0) && !s.wireable s.team.pid w
  | none => false

/-- The argument block (R352). -/
def State.argBlock (s : State) (c : UReg) : List Dword :=
  if c = 0 then List.replicate 8 0 else (List.range 8).map fun i => s.readU (c + BitVec.ofNat 7 i)

/-- The children of a SPAWN come into being (R355, R356): the specification, the TEAMID of the first, the record in the spawner, the handle, the
frames of the children. The first `1` or `size + 1` held frames are used; the core's store holds the record's (R350). -/
def State.bear (s : State) (o : SpawnO) (p : SpawnPlan) (tree : Nat) (coh : Option Nat) : TeamSpec × Nat × Dword × List Nat × State :=
  let t := s.team
  let size := coh.getD 1
  let held := s.path.held
  let rec0 := held.headD 0
  let frames := match coh with | some n => (held.drop 1).take n | none => [rec0]
  let (seq, s) := s.nextSerial
  let (tag, s) := s.newHandle t.pid rec0
  let first := match s.part t.pid with | some x => x.nextTeam | none => 0
  let s := s.mapPart t.pid fun x => { x with nextTeam := x.nextTeam + size }
  let spec : TeamSpec := ⟨t.pid, p.entry, p.lanes, p.counts.1, p.counts.2.1, p.counts.2.2, p.asid, p.cls, p.sys, tree, t.chksb && p.tree.isSome, s.argBlock o.args, size,
    coh.map fun _ => seq, some (t.id, t.frame), p.tree.isNone, s.unwired⟩
  let handle := handleOf rec0 tag
  let s := s.fillFrame t.pid rec0 ⟨spec.args, p.entry, t.frame, if coh.isSome then handle else 0, p.lanes, o.aff, size⟩
  let kid : Kid := ⟨seq, rec0, tag, first, size, 0, if coh.isSome then frames else [], []⟩
  let s := if coh.isSome then { s with cohorts := s.cohorts ++ [⟨seq, t.pid, first, size, false, [], []⟩] } else s
  let s := { s with team := { s.team with kids := s.team.kids ++ [kid], attr := none } }.useFrames t.core t.pid [rec0]
  (spec, first, handle, frames, s)

/-- The tree of the children (R393): the spawner's, or the lowest free number, which is then taken; and the stitch request. -/
def State.spawnTree (s : State) (p : SpawnPlan) : Option (Nat × State) :=
  match p.tree with
  | some k => some (k, s.wire s.team.pid k (s.team.attr.getD 0))
  | none =>
    ((s.part s.team.pid).bind Partition.freeTree).map fun k =>
      (k, (s.mapPart s.team.pid fun x => { x with trees := x.trees ++ [k] }).wire s.team.pid k (s.team.attr.getD 0))

/-- The commit of a single or cohort SPAWN (R355): one deque entry for its children. -/
def State.commitSpawn (s : State) (h : Hdr) (o : SpawnO) (p : SpawnPlan) (tree : Nat) (coh : Option Nat) : State :=
  let (spec, first, handle, frames, s) := s.bear o p tree coh
  let (age, s) := s.nextSerial
  let s := s.pushDeque s.team.core ⟨s.team.pid, age, s.cycle, s.team.subKey, o.aff, .spawn spec 0 first frames []⟩
  let extra := s.path.held.drop (match coh with | some n => n + 1 | none => 1)
  ((s.giveFrames s.team.pid extra).writeU o.d handle).retire h 16

/-- SPAWN, single and cohort (R354, R355): checks, reservation, waits and flush, commit. -/
def spawnWith (h : Hdr) (o : SpawnO) (coh : Option Nat) (s : State) : Out :=
  if !s.acts h.guard then .next (s.retire h 16)
  else
    let p := s.spawnPlan o
    match s.spawnCheck p (coh.getD 1) with
    | some code => s.trap code 0
    | none =>
      if p.tree = none ∧ ((s.part s.team.pid).bind Partition.freeTree) = none then .next (s.waitHere false .issue)
      else match s.reserve [match coh with | some n => n + 1 | none => 1] with
        | none => s.trap 0x0E 0
        | some s => s.releaseEdge true fun s =>
          match s.spawnTree p with
          | some (tree, s) => .next (s.commitSpawn h o p tree coh)
          | none => .next (s.waitHere true (.upTo s.waitLimit))

/-- SPAWN, single (R353 to R356). -/
def execSpawn (h : Hdr) (o : SpawnO) (s : State) : Out := spawnWith h o none s

/-- SPAWN, cohort (R353 to R356); N is s[A]. -/
def execSpawnCoh (h : Hdr) (o : SpawnCohO) (s : State) : Out := spawnWith h o.base (some (s.readU o.a).toNat) s

/-- Frames of a continuation's chain (R360). -/
def contFrames (live lanes : Nat) : Nat := (live * 4 * 32 * passes lanes + 1152 + 255) / 256

/-- The conditions of R359 that are decided just before the commit: the team can leave its registers to the child here. -/
def State.eagerHere (s : State) (p : SpawnPlan) : Bool :=
  let t := s.team
  (t.path !s.slot).isNone && t.stack.isEmpty && t.ntiles == 0 && t.window == 0 &&
    s.fits t.core t.sub (some t.id) p.lanes p.counts.1 p.counts.2.1 p.counts.2.2 && ((s.part t.pid).bind Partition.freeSlot).isSome

/-- The focus team becomes a continuation (R360): it keeps the lane registers below `live`, and its path goes on after the SPAWN.E. -/
def State.leaveForChild (s : State) (live : Nat) : State :=
  let keep (v : Store Word) : Store Word := v.filter fun x => decide (x.1 < live * 1024)
  { s with team := { s.team with phase := .continuation, contLive := live, v := keep s.team.v, preempt := none, pend := [], sure := s.team.tstat, flagPend := [] } }

/-- SPAWN.E (R359 to R361). -/
def execSpawnE (h : Hdr) (o : SpawnEO) (s : State) : Out :=
  if !s.acts h.guard then .next (s.retire h 16)
  else
    let p := s.spawnPlan o.base
    match s.spawnCheck p 1 with
    | some code => s.trap code 0
    | none =>
      let live := min o.live.toNat s.team.vregs
      let more := 1 + contFrames live s.team.lanes
      let want : List Nat := if s.path.held.length = 1 ∨ s.team.attr.isSome then [1] else [more, 1]
      if p.tree = none ∧ ((s.part s.team.pid).bind Partition.freeTree) = none then .next (s.waitHere false .issue)
      else match s.reserve want with
        | none => s.trap 0x0E 0
        | some s => s.releaseEdge true fun s =>
          if s.path.held.length = more ∧ s.eagerHere p then
            if s.loads.any fun r => r.pid == s.team.pid && r.team == s.team.id then .next (s.waitHere true (.upTo s.waitLimit))
            else match growSplit s.team.core p.counts.2.2 s with
            | .busy s => .next (s.waitHere true (.upTo s.waitLimit))
            | .ok _ s =>
              let chain := s.path.held.drop 1
              let t := s.team
              let (spec, first, handle, frames, s) := s.bear o.base p t.tree none
              let (age, s) := s.nextSerial
              let s := (s.pushDeque t.core ⟨t.pid, age, s.cycle, t.subKey, o.base.aff, .cont t.id chain first⟩).useFrames t.core t.pid chain
              let s := (((s.writeU o.base.d handle).retire { h with fin := true } 16).leaveForChild live).relaxSplit t.core
              match s.startChild spec first 0 (frames.headD 0) 0 o.base.aff t.core t.sub with
              | .ok _ s => .next s
              | .busy s => .next s
              | _ => .fault .unbackedFrame
            | _ => .fault .unbackedFrame
          else match s.spawnTree p with
            | some (tree, s) => .next (s.commitSpawn h o.base p tree none)
            | none => .next (s.waitHere true (.upTo s.waitLimit))

/-! ## AWAIT -/

/-- The record of a live handle (R362). -/
def Team.kidOf (t : Team) (handle : Dword) : Option Kid := t.kids.find? fun k => handleOf k.frame k.tag == handle

/-- The set of an AWAIT (R363). -/
def Team.awaitSet (t : Team) (lim : Nat) (handle : Option Dword) : List Kid :=
  match handle with
  | some x => (t.kidOf x).toList
  | none => t.kids.filter fun k => decide (k.seq < lim)

/-- The common form of AWAIT (R363, R364). -/
def awaitSetOf (h : Hdr) (handle : Option Dword) (s : State) : Out :=
  if !s.acts h.guard then .next (s.retire h 8)
  else
    let handle := match s.path.wait with | some (.awaiting _ x) => x | _ => handle
    match s.edgeWait true fun l => .awaiting l handle with
    | some o => o
    | none =>
      let set := s.team.awaitSet s.waitLimit handle
      if !kidsDone set then .next (s.waitHere true (.awaiting s.waitLimit handle))
      else
        let s := s.giveFrames s.team.pid ((set.filter fun k => !k.frames.isEmpty).map (·.frame))
        let s := { s with team := { s.team with kids := s.team.kids.filter fun k => !set.contains k } }
        let s := s.selfInv
        match firstBad set with
        | none => .next (s.retire h 8)
        | some e => s.trap 0x10 (BitVec.ofNat 64 (e.status.toNat + 2 ^ 32 * (e.team % 2 ^ 32)))

/-- AWAIT, every child (R363). -/
def execAwait (h : Hdr) (s : State) : Out := awaitSetOf h none s

/-- AWAIT, the children of a handle (R363). -/
def execAwaitHandle (h : Hdr) (o : UA) (s : State) : Out := awaitSetOf h (some (s.readU o.a)) s

/-! ## CBAR -/

/-- CBAR (R366, R367). -/
def execCbar (h : Hdr) (s : State) : Out :=
  if !s.acts h.guard then .next (s.retire h 8)
  else if s.team.cbar.contains s.slot then
    .next ({ s with team := { s.team with cbar := s.team.cbar.filter (· != s.slot) } }.selfInv.retire h 8)
  else s.releaseEdgeBy true .edge fun s =>
    match s.team.cohort with
    | none => .next (s.selfInv.retire h 8)
    | some _ => .next (s.waitHere true .barrier).arriveCohort

/-! ## PUB -/

/-- PUB without a write (R369). -/
def execPub (h : Hdr) (s : State) : Out :=
  if !s.acts h.guard then .next (s.retire h 8)
  else s.releaseEdge h.fin fun s => .next (s.retire h 8)

/-- The check of R155 on a one-lane access that is made later (R369, R371): its page is looked up, and a write to an owned page is refused. -/
def State.mayAccess (s : State) (a : Nat) (write : Bool) : Acc Unit :=
  let w := s.who
  match homeAccess s w.pid w.asid (a / 128 * 128) (if write then .write else .read) w.sys with
  | .line _ _ s => if write && s.owned w.pid w.asid a then .refused else .ok () s
  | .host _ _ s => .ok () s
  | x => x.fail s

/-- The checks of R154 and R155 that PUB and AWAITW make before anything else (R369, R371), once; `k` goes on. -/
def State.checkFirst (s : State) (a : Dword) (n : Nat) (write : Bool) (k : State → Out) : Out :=
  match s.path.wait with
  | some (.upTo _) => k s
  | some (.edge _) => k s
  | _ =>
    match checkUniform a n with
    | some (code, va) => s.trap code va
    | none =>
      match s.mayAccess a.toNat write with
      | .ok _ s => k s
      | .busy s => .next (s.waitHere false .issue)
      | e => s.failOne e a.toNat (if write then .store else .load)

/-- A word of the range [a, a + n) has a write held for the core, numbered from `k` on (R305). -/
def State.stillHeld (s : State) (k a n : Nat) : Bool :=
  (s.bindsOf s.team.pid s.team.asidNow).any fun b => b.hold.any fun w => decide (k ≤ w.id) && w.meets a (a + n)

/-- PUB's write, once its flush is complete (R369), and the wait of R305. -/
def pubWrite (h : Hdr) (len lim a n : Nat) (write : State → Nat → Nat → Acc Unit) (s : State) : Out :=
  let k := s.serial
  match write (dropCopies s s.team.core (keyOf s.team.pid s.team.asidNow a) (wordsOfRange (a % 128) n)) a n with
  | .ok _ s =>
    let s := s.passLoads s.who a (placeBe (a % 128) n)
    if s.stillHeld k a n then .next (s.waitHere h.fin (.held k a n)) else .next (s.retire h len)
  | .busy s => .next (s.waitHere h.fin (.begun lim))
  | e => s.failOne e a .store

/-- The frame of a PUB with a write (R369): checks, waits and flush, then `write`. -/
def pubWith (h : Hdr) (o : SstO) (write : State → Nat → Nat → Acc Unit) (s : State) : Out :=
  let len := offBytes o.off
  if !s.acts h.guard then .next (s.retire h len)
  else
    let a := s.readU o.a + offset o.off
    let n := accessBytes o.ty
    match s.path.wait with
    | some (.held k va m) => if s.stillHeld k va m then .next (s.waitHere h.fin (.held k va m)) else .next (s.retire h len)
    | some (.begun lim) => pubWrite h len lim a.toNat n write s
    | _ => s.checkFirst a n true fun s => s.releaseEdge h.fin fun s => pubWrite h len s.waitLimit a.toNat n write s

/-- The write of PUB.st at home (R369). -/
def pubStore (v : Dword) (s : State) (a n : Nat) : Acc Unit :=
  let w := s.who
  let data := placeNat (a % 128) n v.toNat
  let be := placeBe (a % 128) n
  match homeWrite s w.pid w.asid a data be w.sys (some w.core) with
  | .ok s => .ok () s
  | .busy s => .busy s
  | .fault c => .fault c
  | .misplaced => .misplaced
  | .refused => .refused
  | .unbacked => .unbacked
  | .host addr _ s =>
    match s.part w.pid with
    | none => .fault 0
    | some p =>
      match portWrite s p (addr / 128 * 128) data be with
      | .ok _ s => .ok () (s.portWatches w.pid w.asid (a / 128 * 128) (addr / 128 * 128))
      | .busy s => .busy s

/-- PUB.st (R368, R369). -/
def execPubSt (h : Hdr) (o : SstO) (s : State) : Out := pubWith h o (pubStore (s.readU o.b)) s

/-- The addition of PUB.add at home (R368, R369), as an atomic `add`. -/
def pubAddAt (ty : Ty) (v : Dword) (s : State) (a _n : Nat) : Acc Unit :=
  let w := s.who
  match homeAtomicOp s w.pid w.asid a ty .add v 0 w.sys (some w.core) with
  | .ok _ s => .ok () s
  | .no (.host addr _ s) =>
    match s.findAtom w.pid w.team s.slot 0 with
    | some r => if r.done then .ok () { s with hostAtoms := s.hostAtoms.erase r } else .busy s
    | none => .busy { s with hostAtoms := s.hostAtoms ++ [⟨w.pid, w.team, s.slot, 0, addr, ty, .add, v, 0, none, false⟩] }
  | .no (.busy s) => .busy s
  | .no (.fault c) => .fault c
  | .no .misplaced => .misplaced
  | .no .refused => .refused
  | .no .unbacked => .unbacked
  | .no (.ok s) => .ok () s

/-- PUB.add (R368, R369). -/
def execPubAdd (h : Hdr) (o : SstO) (s : State) : Out := pubWith h o (pubAddAt o.ty (s.readUTy o.ty o.b)) s

/-! ## AWAITW -/

def awLen : AwCmp → Nat
  | .reg _ => 8 | .regOff .. => 12 | .imm .. => 16

def awOff : AwCmp → Dword
  | .reg _ => 0 | .regOff off _ => off.signExtend 64 | .imm off _ => off.signExtend 64

/-- The compare value (R370). -/
def State.awValue (s : State) (ty : Ty) : AwCmp → Dword
  | .reg b => s.readUTy ty b
  | .regOff _ b => s.readUTy ty b
  | .imm _ v => immValue ty v

/-- The word of a watch as its home, or the host port, holds it now (R371). -/
def State.watchRead (s : State) (a n : Nat) : Acc Dword :=
  let w := s.who
  match homeAccess s w.pid w.asid (a / 128 * 128) .read w.sys with
  | .line bank l s =>
    let (d, s) := homeReadLine s bank l (wordsOfRange (a % 128) n)
    .ok (BitVec.ofNat 64 (lineNat d (a % 128) n)) s
  | .host addr _ s =>
    match s.part w.pid with
    | none => .fault 0
    | some p =>
      match portRead s p (addr / 128 * 128) with
      | .ok d s => .ok (BitVec.ofNat 64 (lineNat d (a % 128) n)) s
      | .busy s => .busy s
  | x => x.fail s

/-- The watch of the path in focus. -/
def State.myWatch (s : State) : Option Watch := s.watches.find? fun w => w.pid == s.team.pid && w.team == s.team.id && w.slot == s.slot

/-- The value is accepted (R371): s[D] is written as a uniform result, and the team self-invalidates. -/
def State.acceptWatch (s : State) (h : Hdr) (o : AwaitwO) (v : Dword) : Out :=
  let s := { s with watches := s.watches.filter fun w => !(w.pid == s.team.pid && w.team == s.team.id && w.slot == s.slot) }
  .next ((s.writeU o.d (uniformResult o.ty v)).selfInv.retire h (awLen o.cmp))

/-- AWAITW (R370, R371). -/
def execAwaitw (h : Hdr) (o : AwaitwO) (s : State) : Out :=
  if !s.acts h.guard then .next (s.retire h (awLen o.cmp))
  else if s.path.wait = some .watch then
    match s.myWatch with
    | some w => match w.got with
      | some v => s.acceptWatch h o v
      | none => .next (s.waitHere true .watch)
    | none => .next (s.waitHere true (.edge s.serial))
  else
    let a := s.readU o.a + awOff o.cmp
    let n := accessBytes o.ty
    s.checkFirst a n false fun s =>
      match s.edgeWait true .edge with
      | some out => out
      | none =>
        let lim := s.waitLimit
        match s.watchRead a.toNat n with
        | .ok v s =>
          let cmp := s.awValue o.ty o.cmp
          if condHolds o.ty o.cc v cmp then s.acceptWatch h o v
          else
            let w : Watch := ⟨s.team.pid, s.team.id, s.slot, s.team.asidNow, a.toNat, o.ty, o.cc, cmp, none⟩
            .next ({ s with watches := s.watches ++ [w] }.waitHere true .watch)
        | .busy s => .next (s.waitHere true (.edge lim))
        | e => s.failOne e a.toNat .load

/-! ## XSHUF -/

/-- The bank whose rally table serves an ID (R132). -/
def Partition.rallyBank (p : Partition) (id : Word) : Nat := p.banks.getD (fold16 id.toNat % p.banks.length) 0

/-- XSHUF (R129 to R134): the entry is posted, and the path waits until the table pairs it or its timeout ends. -/
def execXshuf (h : Hdr) (o : XshufO) (s : State) : Out :=
  if !s.acts h.guard then .next (s.retire h 16)
  else match s.path.wait with
    | some .broken =>
      let vals := (s.lanes h.guard).zipIdx.flatMap fun l => o.regs.zipIdx.map fun r => (r.1, l.1, s.free + (l.2 * 8 + r.2))
      let s' := vals.foldl (fun (s : State) x => s.writeLanes .b32 x.1 [(x.2.1, (Config.freeBits 32 x.2.2).setWidth 64)]) s
      { s' with free := s.free + vals.length }.trap 0x09 0
    | some .rally => .next (s.waitHere true .rally)
    | _ =>
      let w := s.readU o.a
      let tmo := field w 63 48
      let bank := match s.part s.team.pid with | some p => p.rallyBank (w.setWidth 32) | none => 0
      let e : Rally := ⟨bank, s.team.pid, s.team.id, s.slot, w.setWidth 32, o.regs, s.selected h.guard, s.cycle + 256 * (if tmo = 0 then 64 else tmo), none⟩
      .next ({ s with rally := s.rally ++ [e] }.waitHere true .rally)

end Sys2Proof.Machine
end

