-- ==== Sys2Proof/Machine/LaneMask.lean ====
section
/-! DEFINITION. The lane-exchange forms, OP 0x80 to 0x84 and 0x8D (R198, R203 to R211), and the mask forms, OP 0x85 to 0x8C (R212, R213). -/
namespace Sys2Proof.Machine

/-- Lane `j` counts as a source lane (R198): below LANES and active in the issuing path. -/
def State.sourceLane (s : State) (j : Int) : Bool :=
  decide (0 ≤ j) && decide (j < s.team.lanes) && s.active.getLsbD j.toNat

/-- The lane that VSHFL reads, as an exact integer (R204). -/
def shflLane (mode : ShflMode) (l : Nat) (b : Word) : Int :=
  match mode with
  | .idx => b.toNat
  | .up => (l : Int) - b.toNat
  | .down => (l : Int) + b.toNat
  | .bfly => (l ^^^ b.toNat : Nat)

/-- VSHFL (R204). -/
def execVshfl (h : Hdr) (o : ShflO) (s : State) : Out :=
  .next ((s.writeLanes o.ty o.d (s.mapLanes h.guard fun l =>
    let j := shflLane o.mode l (s.vctl o.b l)
    s.readLane o.ty o.a (if s.sourceLane j then j.toNat else l))).retire h o.b.bytes)

/-- VBCAST (R205). -/
def execVbcast (h : Hdr) (o : BcastO) (s : State) : Out :=
  let j (l : Nat) : Nat := (s.uctlIn o.b (l / 32)).toNat
  .next ((s.writeLanes o.ty o.d (((s.lanes h.guard).filter fun l => s.sourceLane (j l)).map fun l => (l, s.readLane o.ty o.a (j l)))).retire h o.b.bytes)

/-- VTOS (R206): a team form. -/
def execVtos (h : Hdr) (o : VtosO) (s : State) : Out :=
  let j := (s.uctl o.b).toNat
  .next ((if s.acts h.guard && s.sourceLane j then s.writeU o.d (uniformResult o.ty (s.readLane o.ty o.a j)) else s).retire h o.b.bytes)

/-- VBALLOT (R207): the whole mask is written, also when the guard selects no lane. -/
def execVballot (h : Hdr) (o : BallotO) (s : State) : Out :=
  .next ((s.writeM o.d (s.mapMask h.guard 0 fun l => s.readV o.a l != 0)).retire h 8)

/-- The identities of VRED and VSCAN (R208). -/
def redIdentity (op : RedOp) (t : Ty) : Dword :=
  match op with
  | .add | .or | .xor | .fadd => 0
  | .min => if t = .i32 then 0x7FFFFFFF else 0xFFFFFFFF
  | .max => if t = .i32 then 0x80000000 else 0
  | .and => 0xFFFFFFFF
  | .fmin => 0x7F800000
  | .fmax => 0xFF800000

/-- One step of an integer reduction or scan (R208, R210). -/
def redStep (op : RedOp) (t : Ty) (a b : Dword) : Dword :=
  match op with
  | .add => intAdd t false a b
  | .min => intMin t a b
  | .max => intMax t a b
  | .and => a &&& b
  | .or => a ||| b
  | .xor => a ^^^ b
  | _ => a

/-- The float reductions (R209): result and flags. -/
def redFloat (op : RedOp) (xs : List Nat) : Nat × BitVec 5 :=
  let f := fmtOf .f32
  let vs := xs.map (fval f)
  match op with
  | .fadd => if xs = [] then (0, 0) else sumRound f .rne false vs false vs
  | _ =>
    let nv : BitVec 5 := if vs.any FVal.isSnan then 1 else 0
    let max := op == .fmax
    match xs.filter fun x => !(fval f x).isNan with
    | [] => (if xs = [] then (redIdentity op .f32).toNat else f.nan, nv)
    | y :: ys => (ys.foldl (fun a b => (fpMinMax f false max a b).1) y, nv)

/-- The lanes whose passes raise the flags of a float reduction (R202): NV the first lane with which it is raised, any other flag the last. -/
def redRaises (op : RedOp) (ls : List (Nat × Nat)) (g : BitVec 5) : List (Nat × BitVec 5) :=
  let last := (ls.getLastD (0, 0)).1
  match (List.range ls.length).find? fun k => (redFloat op ((ls.take (k + 1)).map (·.2))).2.getLsbD 0 with
  | some k => [((ls.getD k (0, 0)).1, g &&& flagNV), (last, g &&& ~~~flagNV)]
  | none => [(last, g)]

/-- VRED (R208, R209): the result over the participating lanes, the identity over none. -/
def execVred (h : Hdr) (o : RedO) (s : State) : Out :=
  let xs := (s.lanes h.guard).map fun l => (s.readV o.a l).setWidth 64
  let (r, g) : Dword × BitVec 5 := match o.op with
    | .fadd | .fmin | .fmax => let (r, g) := redFloat o.op (xs.map BitVec.toNat); (BitVec.ofNat 64 r, g)
    | op => (xs.foldl (redStep op o.ty) (redIdentity op o.ty), 0)
  .next (((s.writeU o.d (uniformResult o.ty r)).raiseFlags (redRaises o.op ((s.lanes h.guard).zip (xs.map BitVec.toNat)) g)).retire h 8)

/-- The values that VSCAN writes, in ascending lane order (R210). -/
def scanVals (op : RedOp) (t : Ty) (exc : Bool) : Dword → List (Nat × Dword) → List (Nat × Dword)
  | _, [] => []
  | acc, (l, x) :: rest =>
    let acc' := redStep op t acc x
    (l, if exc then acc else acc') :: scanVals op t exc acc' rest

/-- VSCAN (R210). -/
def execVscan (h : Hdr) (o : ScanO) (s : State) : Out :=
  .next ((s.writeLanes .b32 o.d (scanVals o.op o.ty o.exc (redIdentity o.op o.ty)
    (s.mapLanes h.guard fun l => (s.readV o.a l).setWidth 64))).retire h 8)

/-- A mask form that writes a mask register (R212, R213). -/
def maskForm (h : Hdr) (n : Nat) (d : MReg) (m : LaneMask) (s : State) : Out :=
  .next ((if s.acts h.guard then s.writeM d m else s).retire h n)

/-- A mask form that writes a uniform register (R212, R213). -/
def maskToUniform (h : Hdr) (n : Nat) (d : UReg) (v : Dword) (s : State) : Out :=
  .next ((if s.acts h.guard then s.writeU d v else s).retire h n)

/-- MAND (R213). -/
def execMand (h : Hdr) (o : M2) (s : State) : Out := maskForm h 8 o.d (s.readM o.a &&& s.readM o.b) s
/-- MOR (R213). -/
def execMor (h : Hdr) (o : M2) (s : State) : Out := maskForm h 8 o.d (s.readM o.a ||| s.readM o.b) s
/-- MXOR (R213). -/
def execMxor (h : Hdr) (o : M2) (s : State) : Out := maskForm h 8 o.d (s.readM o.a ^^^ s.readM o.b) s
/-- MNOT (R213, R195). -/
def execMnot (h : Hdr) (o : M1) (s : State) : Out := maskForm h 8 o.d (~~~(s.readM o.a)) s

/-- MCNT (R213). -/
def execMcnt (h : Hdr) (o : MToU) (s : State) : Out :=
  maskToUniform h 8 o.d (BitVec.ofNat 64 (lanesOf s.team.lanes (s.readM o.a)).length) s

/-- MFIRST (R213). -/
def execMfirst (h : Hdr) (o : MFirstO) (s : State) : Out :=
  let ls := lanesOf s.team.lanes (s.readM o.a)
  let pick := if o.last then ls.getLast? else ls.head?
  maskToUniform h 8 o.d (match pick with | none => BitVec.allOnes 64 | some l => BitVec.ofNat 64 l) s

/-- MSET.range (R213). The table names s[A] and s[B] whole and their bits 31:0 elsewhere; both are taken from bits 31:0 (DESIGN CHOICE, log 76). -/
def execMsetRange (h : Hdr) (o : MSetO) (s : State) : Out :=
  let k := ((s.readU o.a).setWidth 32 : Word).toNat
  let n := (s.uctl o.b).toNat
  let lo := min k 1024
  let hi := min (k + n) 1024
  maskForm h o.b.bytes o.d (BitVec.ofNat 1024 (2 ^ hi - 2 ^ lo)) s

/-- MSET.active (R213). -/
def execMsetActive (h : Hdr) (d : MReg) (s : State) : Out := maskForm h 8 d s.active s

/-- MSET.word (R213): other words keep their values; no effect with k > 31. -/
def execMsetWord (h : Hdr) (o : MSetO) (s : State) : Out :=
  let k := (s.uctl o.b).toNat
  let old := storeGet 0 s.team.m o.d.toNat
  let x : LaneMask := ((s.readU o.a).setWidth 32 : Word).setWidth 1024 <<< (32 * k)
  let hole : LaneMask := (0xFFFFFFFF : LaneMask) <<< (32 * k)
  maskForm h o.b.bytes o.d (if k ≤ 31 then (old &&& ~~~hole) ||| x else old) s

/-- MTEST (R213). -/
def execMtest (h : Hdr) (o : MTestO) (s : State) : Out :=
  let k := (s.uctl o.b).toNat
  maskToUniform h o.b.bytes o.d (if k ≤ 1023 && (s.readM o.a).getLsbD k then 1 else 0) s

/-- MTEST.word (R213). -/
def execMtestWord (h : Hdr) (o : MTestO) (s : State) : Out :=
  let k := (s.uctl o.b).toNat
  maskToUniform h o.b.bytes o.d (if k ≤ 31 then (maskWord (s.readM o.a) k).setWidth 64 else 0) s

/-- The summary word of a mask (R195): bit w is 1 exactly when word w is non-zero. -/
def summaryWord (m : LaneMask) : Word :=
  (List.range 32).foldl (fun a w => if maskWord m w = 0 then a else a ||| BitVec.twoPow 32 w) 0

/-- MTEST.sum (R213). -/
def execMtestSum (h : Hdr) (o : MToU) (s : State) : Out := maskToUniform h 8 o.d ((summaryWord (s.readM o.a)).setWidth 64) s

end Sys2Proof.Machine
end

