-- ==== Sys2Proof/Machine/Engine.lean ====
section
/-! DEFINITION. The copy unit and the chain engine (R167 to R189): the engine family of instructions, and what the engines do with their operations. -/
namespace Sys2Proof.Machine

/-! ## COPY (R170 to R174) -/

/-- A window granule holds a byte of the rows of an extent, of `rows` rows from `a` on. -/
def rowsTouch (a : Dword) (stride : Dword) (len rows g : Nat) : Bool :=
  (List.range rows).any fun r =>
    let x := (a + BitVec.ofNat 64 r * stride).toNat
    decide (x < (g + 1) * 128) && decide (g * 128 < x + len)

/-- Copies in flight on a core (R167). -/
def State.copiesOn (s : State) (core : Nat) : Nat := (s.residents core).foldl (fun n t => n + t.copies.length) 0
def State.chainsOn (s : State) (core : Nat) : Nat := (s.residents core).foldl (fun n t => n + t.chains.length) 0

/-- COPY (R170 to R173). -/
def execCopy (h : Hdr) (o : CopyO) (s : State) : Out :=
  if !s.acts h.guard then .next (s.retire h 12)
  else
    let ext := s.readU o.b
    let stride : Dword := match o.c with | some c => s.readU c | none => 0
    let c : CopyArgs :=
      { sa := s.readU o.a, da := s.readU o.d, len := ext.toNat % 2 ^ 32, rows := if o.c.isSome then ext.toNat / 2 ^ 32 else 1,
        ss := (sstrideOf stride).toInt, ds := (dstrideOf stride).toInt }
    match copyCheck o c ext s.team.window with
    | some (code, va) => s.trap code va
    | none =>
      if c.len = 0 ∨ c.rows = 0 then .next (s.retire h 12)
      else if Config.copiesPerTeam ≤ s.team.copies.length ∨ Config.copiesPerCore ≤ s.copiesOn s.team.core then .next (s.waitHere false .issue)
      else match (if o.ss then Acc.ok () s else s.flushTeam) with
        | .ok _ s =>
          let (id, s) := s.nextSerial
          let t := s.team
          let t := if o.ds then (List.range (t.window / 128)).foldl (fun t g =>
              if rowsTouch c.da (dstrideOf stride) c.len c.rows g then t.setFull g false else t) t else t
          let op : CopyOp :=
            { id := id, tag := o.tag, ss := o.ss, ds := o.ds, stride := stride, asid := t.asid, src := c.sa, dst := c.da, len := c.len, rows := c.rows,
              twoD := o.c.isSome, off := 0, flying := [], stop := none }
          .next ({ s with team := { t with copies := t.copies ++ [op] } }.retire h 12)
        | .busy s => .next (s.waitHere false .issue)
        | _ => .fault .unbackedFrame

/-! ## Waits (R175 to R177) -/

/-- The wait of COPYW and CHAINW for the operations that they name, issued before them, then the self-invalidation (R175). -/
def waitEngines (h : Hdr) (cs : List CopyOp) (hs : List ChainOp) (s : State) : Out :=
  if !s.acts h.guard then .next (s.retire h 8)
  else
    let ids := match s.path.wait with | some (.ops l) => l | _ => cs.map (·.id) ++ hs.map (·.id)
    match s.awaitEngines h.fin (.ops ids) (cs.filter fun c => ids.contains c.id) (hs.filter fun c => ids.contains c.id) with
    | some o => o
    | none => .next (s.selfInv.retire h 8)

/-- COPYW (R175). -/
def execCopyw (h : Hdr) (o : TagO) (s : State) : Out := waitEngines h (s.team.copies.filter fun c => c.tag == o.tag) [] s
/-- COPYW, all tags (R175). -/
def execCopywAll (h : Hdr) (s : State) : Out := waitEngines h s.team.copies [] s
/-- CHAINW (R175). -/
def execChainw (h : Hdr) (o : TagO) (s : State) : Out := waitEngines h [] (s.team.chains.filter fun c => c.tag == o.tag) s
/-- CHAINW, all tags (R175). -/
def execChainwAll (h : Hdr) (s : State) : Out := waitEngines h [] s.team.chains s

/-! ## FESET and FEQ (R180, R181) -/

/-- FESET (R180). -/
def execFeset (h : Hdr) (o : FesetO) (s : State) : Out :=
  let a := (s.readU o.a + offset o.off).toNat
  let n := (s.readU o.b).toNat
  if !s.acts h.guard || n == 0 then .next (s.retire h (offBytes o.off))
  else if s.team.window < a + n then s.trap 0x0A 0
  else .next ({ s with team := s.team.setFullRange a (a + n) o.full }.retire h (offBytes o.off))

/-- FEQ (R181). -/
def execFeq (h : Hdr) (o : FeqO) (s : State) : Out :=
  let a := (s.readU o.a + offset o.off).toNat
  let n := (s.readU o.b).toNat
  if !s.acts h.guard then .next (s.retire h (offBytes o.off))
  else if n ≠ 0 ∧ (s.team.window < a + n ∨ 64 < (a + n + 127) / 128 - a / 128) then s.trap 0x0A 0
  else
    let gs := granules a (a + n)
    .next ((s.writeU o.d (BitVec.ofNat 64 (bitsNat 64 fun i => match gs[i]? with | some g => s.team.full g | none => false))).retire h (offBytes o.off))

/-! ## Memory as the engines reach it (R168, R169) -/

/-- A read of bytes inside one line at home, or at the host port. -/
def engineRead (s : State) (w : Who) (va n : Nat) : Acc (List Byte) :=
  match s.part w.pid with
  | none => .fault 0
  | some p =>
    match homeAccess s w.pid w.asid va .read w.sys with
    | .line bank l s =>
      let (d, s) := homeReadLine s bank l (wordsOfRange (va % 128) n)
      .ok (natBytes n (lineNat d (va % 128) n)) s
    | .host addr _ s =>
      match portRead s p (addr / 128 * 128) with
      | .ok d s => .ok (natBytes n (lineNat d (va % 128) n)) s
      | .busy s => .busy s
    | a => a.fail s

/-- A write of bytes inside one line at home, or at the host port. -/
def engineWrite (s : State) (w : Who) (va : Nat) (bs : List Byte) : Acc Unit :=
  let data := placeNat (va % 128) bs.length (bytesNat bs)
  let be := placeBe (va % 128) bs.length
  match s.part w.pid with
  | none => .fault 0
  | some p =>
    match homeWrite s w.pid w.asid va data be w.sys (some w.core) with
    | .ok s => .ok () s
    | .busy s => .busy s
    | .fault c => .fault c
    | .misplaced => .misplaced
    | .refused => .refused
    | .unbacked => .unbacked
    | .host addr _ s =>
      match portWrite s p (addr / 128 * 128) data be with
      | .ok _ s => .ok () (s.portWatches w.pid w.asid (va / 128 * 128) (addr / 128 * 128))
      | .busy s => .busy s

/-- A read of a range, line by line; `k` bounds the lines. -/
def engineReadAll (w : Who) : Nat → State → Nat → Nat → Acc (List Byte)
  | 0, s, _, _ => .ok [] s
  | k + 1, s, va, n =>
    if n = 0 then .ok [] s
    else
      let m := min n (128 - va % 128)
      match engineRead s w va m with
      | .ok bs s =>
        match engineReadAll w k s (va + m) (n - m) with
        | .ok rest s => .ok (bs ++ rest) s
        | a => a
      | a => a

def engineReadRange (s : State) (w : Who) (va n : Nat) : Acc (List Byte) := engineReadAll w (n / 128 + 2) s va n

/-- Who an engine operation of a team is for. -/
def Team.engineWho (t : Team) (asid : BitVec 16) : Who := ⟨t.core, t.pid, asid, t.sys, t.id, t.tree⟩

/-! ## CHAIN (R185 to R187) -/

/-- CHAIN (R185). The checks of addresses and descriptor are made for N = 0 too (DEDUCED, log 56). -/
def execChain (h : Hdr) (o : ChainO) (s : State) : Out :=
  if !s.acts h.guard then .next (s.retire h 12)
  else
    let a := s.readU o.a
    let n := s.readU o.b
    if 2 ^ 52 < a.toNat + 128 then s.trap 0x0B a
    else match s.flushTeam with
      | .ok _ s =>
        match engineReadRange s s.who a.toNat 128 with
        | .ok bs s =>
          match chainCheck a bs n with
          | some (code, va) => s.trap code va
          | none =>
            if n = 0 then .next (s.retire h 12)
            else if Config.chainsPerTeam ≤ s.team.chains.length ∨ Config.chainsPerCore ≤ s.chainsOn s.team.core then .next (s.waitHere false .issue)
            else
              let (id, s) := s.nextSerial
              let op : ChainOp := { id := id, tag := o.tag, asid := s.team.asid, desc := bs, dst := (chainDesc bs).dst, n := n.toNat, next := 0, stop := none }
              .next ({ s with team := { s.team with chains := s.team.chains ++ [op] } }.retire h 12)
        | .busy s => .next (s.waitHere false .issue)
        | e => s.failOne e a.toNat .load
      | .busy s => .next (s.waitHere false .issue)
      | _ => .fault .unbackedFrame

/-! ## A chain's elements (R187, R188) -/

/-- The integer of a W-bit pattern. -/
def ChainDesc.int (d : ChainDesc) (x : Nat) : Int := if d.sg && decide (2 ^ (d.w - 1) ≤ x) then (x : Int) - 2 ^ d.w else x

/-- `fit` of R187: a W-bit pattern. -/
def ChainDesc.fit (d : ChainDesc) (x : Int) : Nat :=
  let y := if d.sat then (if d.sg then satSigned d.w x else satUnsigned d.w x) else x
  (y % 2 ^ d.w).toNat

/-- An operand of a step. -/
def ChainDesc.operand (d : ChainDesc) (src temps : List Nat) (c : Nat) : Nat :=
  if c < 4 then src.getD c 0 else if c < 8 then temps.getD (c - 4) 0 else d.consts.getD (c - 8) 0 % 2 ^ d.w

/-- One step (R187): the temporaries after it. SAR shifts in the pattern's top bit whatever SG says (DESIGN CHOICE, log 75). -/
def ChainDesc.apply (d : ChainDesc) (src temps : List Nat) (word : Nat) : List Nat :=
  let dt := word / 16 % 4
  let x := d.operand src temps (word / 256 % 16)
  let y := d.operand src temps (word / 4096 % 16)
  let z := d.operand src temps (word / 65536 % 16)
  let xi := d.int x
  let yi := d.int y
  let n := y % 16
  let p := xi * yi
  let pick (i : Int) : Nat := (i % 2 ^ d.w).toNat
  let r : Nat := match word % 16 with
    | 0x0 => d.fit (xi + yi)
    | 0x1 => d.fit (xi - yi)
    | 0x2 => d.fit (roundInt .rne (decide (p < 0)) p.natAbs (-(d.frac : Int))).1
    | 0x3 => pick (min xi yi)
    | 0x4 => pick (max xi yi)
    | 0x5 => x &&& y
    | 0x6 => x ||| y
    | 0x7 => x ^^^ y
    | 0x8 => x * 2 ^ n % 2 ^ d.w
    | 0x9 => x / 2 ^ n
    | 0xA => let i : Int := if x.testBit (d.w - 1) then (x : Int) - 2 ^ d.w else x; pick (i.fdiv (2 ^ n))
    | 0xB => pick (min (max xi yi) (d.int z))
    | 0xC => if xi > yi then z else temps.getD dt 0
    | _ => d.fit xi.natAbs
  temps.set dt r

/-- The 16-bit result of an element (R188). The codebook entry is named by bits 3:0 of the result's W-bit pattern, extended by zeros where W < 4, also with SG = 1
(DESIGN CHOICE, log 84). -/
def ChainDesc.element (d : ChainDesc) (src : List Nat) : Nat :=
  let temps := (d.steps.take d.nstep).foldl (d.apply src) [0, 0, 0, 0]
  let r := if d.nstep = 0 then src.getD 0 0 else temps.getD 0 0
  let i := d.int r
  match d.out with
  | 0 => (roundTo (fmtOf .bf16) .rne false false (decide (i < 0)) i.natAbs (-(d.frac : Int))).1
  | 1 => (roundTo (fmtOf .f16) .rne false d.osat (decide (i < 0)) i.natAbs (-(d.frac : Int))).1
  | _ => d.book.getD (r % 16) 0

/-! ## What the engines do -/

/-- A team's instructions issue, and the engines issue requests for it (R179, R406, R427, R443): its partition runs, and it is not being saved whole. -/
def State.enginesRun (s : State) (t : Team) : Bool :=
  (match t.preempt with | some r => !r.hard | none => true) && !s.fatal && (match s.part t.pid with | some p => !p.err && p.enabled | none => false)

/-- The copies of a core with a request to make, in the order of the teams: team and copy. -/
def State.copyWork (s : State) (core : Nat) : List (Team × CopyOp) :=
  ((s.residents core).filter s.enginesRun).flatMap fun t => (t.copies.filter fun c => c.stop.isNone && decide (0 < c.rows)).map fun c => (t, c)

/-- The element with the least key of a list. -/
def leastBy {α : Type} (key : α → Nat) (l : List α) : Option α :=
  l.foldl (fun (m : Option α) x => match m with | some y => if key x < key y then some x else m | none => some x) none

/-- Whose turn it is, going round by key: the next above the one served last, else the least. -/
def turnAfter {α : Type} (key : α → Nat) (last : Nat) (l : List α) : Option α := (leastBy key (l.filter fun x => decide (last < key x))).or (leastBy key l)

/-- The copy whose turn it is, round-robin in the order of issue (R167); `copyRR` is the number of the one served last. -/
def State.copyTurn (s : State) (core : Nat) : Option (Team × CopyOp) := turnAfter (fun x => x.2.id) (s.core core).copyRR (s.copyWork core)

def State.mapCopy (s : State) (pid : BitVec 5) (team id : Nat) (f : CopyOp → CopyOp) : State :=
  s.mapTeam pid team fun t => { t with copies := t.copies.map fun c => if c.id = id then f c else c }

/-- The next request of a copy (R167): it crosses no 128-byte line on either side. -/
def CopyOp.nextReq (c : CopyOp) : CopyReq :=
  let o := BitVec.ofNat 64 c.off
  let src := (c.src + o).toNat
  let dst := (c.dst + o).toNat
  ⟨src, dst, min (c.len - c.off) (min (128 - src % 128) (128 - dst % 128)), c.rows, c.off⟩

/-- The copy after its next request has been made. A copy makes its requests row by row and in ascending order, and each reads its source then, where R167 lets
them be in any order (DESIGN CHOICE, log 87). -/
def CopyOp.advance (c : CopyOp) (n : Nat) : CopyOp :=
  if c.off + n < c.len then { c with off := c.off + n }
  else { c with off := 0, rows := c.rows - 1, src := c.src + sstrideOf (if c.twoD then c.stride else 0), dst := c.dst + dstrideOf (if c.twoD then c.stride else 0) }

/-- The bytes of a request's source, read now (R168, R174). -/
def State.copySource (s : State) (t : Team) (c : CopyOp) (r : CopyReq) : Acc (List Byte) :=
  if c.ss then .ok (t.winBytes r.src r.len) s else engineRead s (t.engineWho c.asid) r.src r.len

/-- The requests of a core that have not landed: team, copy, request, bytes. -/
def State.copyFlying (s : State) (core : Nat) : List (Team × CopyOp × CopyReq × List Byte) :=
  (s.residents core).flatMap fun t => t.copies.flatMap fun c => c.flying.map fun f => (t, c, f.1, f.2)

/-- A granule has no byte of the copy left to land (R142, R173). -/
def CopyOp.granuleDone (c : CopyOp) (g : Nat) : Bool :=
  let d := dstrideOf (if c.twoD then c.stride else 0)
  !(rowsTouch (c.dst + BitVec.ofNat 64 c.off) 0 (c.len - c.off) (min c.rows 1) g) && !(rowsTouch (c.dst + d) d c.len (c.rows - 1) g) &&
    !(c.flying.any fun f => decide (f.1.dst < (g + 1) * 128) && decide (g * 128 < f.1.dst + f.1.len))

/-- A request lands (R142, R168, R169). -/
def State.landCopy (s : State) (t : Team) (c : CopyOp) (r : CopyReq) (bs : List Byte) : Acc Unit :=
  let done (s : State) : State := s.mapCopy t.pid t.id c.id fun c => { c with flying := c.flying.erase (r, bs) }
  if c.ds then
    let s := done (s.mapTeam t.pid t.id fun t => t.winPut r.dst bs)
    .ok () (s.mapTeam t.pid t.id fun t =>
      match t.copies.find? fun x => x.id == c.id with
      | some c => (granules r.dst (r.dst + r.len)).foldl (fun t g => if c.granuleDone g then t.setFull g true else t) t
      | none => t)
  else match engineWrite s (t.engineWho c.asid) r.dst bs with
    | .ok _ s => .ok () (done s)
    | a => a

/-- A request of a stopped copy whose landing cannot be made (R176). -/
def State.stuck (s : State) (t : Team) (c : CopyOp) (f : CopyReq × List Byte) : Bool :=
  c.stop.isSome && (match s.landCopy t c f.1 f.2 with | .fault _ => true | .misplaced => true | .refused => true | _ => false)

/-- The first chain of each team on a core that can run, in the order of the teams (R183). -/
def State.chainWork (s : State) (core : Nat) : List (Team × ChainOp) :=
  ((s.residents core).filter s.enginesRun).filterMap fun t =>
    match t.chains with
    | c :: _ => if c.stop.isNone && decide (c.next < c.n) then some (t, c) else none
    | [] => none

/-- The chain whose turn it is, round-robin among the teams (R183); `chainRR` names the team served last. -/
def State.chainTurn (s : State) (core : Nat) : Option (Team × ChainOp) := turnAfter (fun x => evOf x.1) (s.core core).chainRR (s.chainWork core)

def State.mapChain (s : State) (pid : BitVec 5) (team id : Nat) (f : ChainOp → ChainOp) : State :=
  s.mapTeam pid team fun t => { t with chains := t.chains.map fun c => if c.id = id then f c else c }

/-- The W-bit elements of a run of bytes from bit `bit` on. -/
def bitFields (x bit w : Nat) (n : Nat) : List Nat := (List.range n).map fun i => x / 2 ^ (bit + i * w) % 2 ^ w

/-- The sources of elements [lo, lo + n) (R188, R189), each stream read whole before anything is written. -/
def chainSources (w : Who) (d : ChainDesc) (lo n : Nat) : List Nat → State → Acc (List (List Nat))
  | [], s => .ok [] s
  | base :: rest, s =>
    let b0 := lo * d.w / 8
    let b1 := ((lo + n) * d.w + 7) / 8
    match engineReadRange s w (base + b0) (b1 - b0) with
    | .ok bs s =>
      match chainSources w d lo n rest s with
      | .ok l s => .ok (bitFields (bytesNat bs) (lo * d.w % 8) d.w n :: l) s
      | a => a
    | .busy s => .busy s
    | .fault c => .fault c
    | .misplaced => .misplaced
    | .refused => .refused
    | .unbacked => .unbacked

/-- Where a chain's access stopped: its address and how. -/
inductive EngineTry where
  | go (s : State)
  | busy (s : State)
  | stop (k : EngineStop) (va : Nat) (cause : BitVec 4) (write : Bool) (s : State)
  | unbacked

/-- The lowest address of a range whose read does not complete. -/
def firstBadRead (w : Who) : Nat → State → Nat → Nat → Nat
  | 0, _, va, _ => va
  | k + 1, s, va, n =>
    let m := min n (128 - va % 128)
    match engineRead s w va m with
    | .ok _ s => if n ≤ m then va else firstBadRead w k s (va + m) (n - m)
    | _ => va

/-- Writes of the results from element `lo` on; where one fails, the elements before it are written. -/
def chainWrites (w : Who) (team : Nat) (id dst : Nat) : List Nat → Nat → State → EngineTry
  | [], _, s => .go s
  | x :: rest, i, s =>
    match engineWrite s w (dst + 2 * i) (natBytes 2 x) with
    | .ok _ s => chainWrites w team id dst rest (i + 1) (s.mapChain w.pid team id fun c => { c with next := i + 1 })
    | .busy s => .busy s
    | .fault c => .stop .fault (dst + 2 * i) c true s
    | .misplaced => .stop .misplaced (dst + 2 * i) 0 true s
    | .refused => .stop .bound (dst + 2 * i) 0 true s
    | .unbacked => .unbacked

/-- One block of a chain (R183, R188, R189). -/
def chainStep (s : State) (t : Team) (c : ChainOp) : EngineTry :=
  let d := chainDesc c.desc
  let w := t.engineWho c.asid
  let n := min (65536 / d.w) (c.n - c.next)
  let bases := d.bases.take (d.nsrc + 1)
  match chainSources w d c.next n bases s with
  | .ok cols s =>
    let outs := (List.range n).map fun i => d.element (cols.map fun col => col.getD i 0)
    chainWrites w t.id c.id c.dst outs c.next s
  | .busy s => .busy s
  | .unbacked => .unbacked
  | e =>
    let b0 := c.next * d.w / 8
    let b1 := ((c.next + n) * d.w + 7) / 8
    let same (a : Acc (List Byte)) : Bool := match a, e with
      | .fault _, .fault _ => true | .misplaced, .misplaced => true | .refused, .refused => true | _, _ => false
    let bad := (bases.filter fun b => same (engineReadRange s w (b + b0) (b1 - b0))).map fun b => firstBadRead w ((b1 - b0) / 128 + 2) s (b + b0) (b1 - b0)
    let va := bad.foldl min (bad.headD 0)
    match e with
    | .fault cause => .stop .fault va cause false s
    | .refused => .stop .bound va 0 false s
    | _ => .stop .misplaced va 0 false s

/-- The next request of the copy whose turn it is, or the first landing that cannot be made (R176). -/
def copyTry (s : State) (core : Nat) : Option (Team × CopyOp × EngineTry) :=
  let stopOf {α : Type} (a : Acc α) (va : Nat) (wr : Bool) : EngineTry :=
    match a with
    | .ok _ s => .go s
    | .busy s => .busy s
    | .fault c => .stop .fault va c wr s
    | .misplaced => .stop .misplaced va 0 wr s
    | .refused => .stop .bound va 0 wr s
    | .unbacked => .unbacked
  let landing := (s.copyFlying core).filterMap fun f =>
    match stopOf (s.landCopy f.1 f.2.1 f.2.2.1 f.2.2.2) f.2.2.1.dst true with
    | .stop k va c w _ => if f.2.1.stop.isNone then some (f.1, f.2.1, EngineTry.stop k va c w s) else none
    | _ => none
  match landing with
  | x :: _ => some x
  | [] =>
    match s.copyTurn core with
    | none => none
    | some (t, c) =>
      let r := c.nextReq
      some (t, c, match s.copySource t c r with
        | .ok bs s => stopOf (s.landCopy t c r bs) r.dst true
        | a => stopOf a r.src false)

/-- The requests that a copy has still to make; `n` bounds their number. -/
def CopyOp.toMake : Nat → CopyOp → List CopyReq
  | 0, _ => []
  | n + 1, c => if c.rows = 0 then [] else c.nextReq :: CopyOp.toMake n (c.advance c.nextReq.len)

/-- The lowest address at which a copy meets the cause that stops it (R176), `va` being one: its requests are in no order, so each that is left counts. -/
def State.lowestStop (s : State) (t : Team) (c : CopyOp) (k : EngineStop) (va : Nat) : Nat :=
  let meets {α : Type} (a : Acc α) : Bool := match a with | .misplaced => k == .misplaced | .refused => k == .bound | _ => false
  let sources := (CopyOp.toMake (c.len * c.rows) c).flatMap fun r => if meets (s.copySource t c r) then [r.src] else if meets (s.landCopy t c r (zeros r.len)) then [r.dst] else []
  let landings := c.flying.flatMap fun f => if meets (s.landCopy t c f.1 f.2) then [f.1.dst] else []
  (sources ++ landings).foldl min va

end Sys2Proof.Machine
end

