-- ==== Sys2Proof/Machine/Matrix.lean ====
section
/-! DEFINITION. The matrix family (R266 to R293, R383): issue of commands and tile operations, and what the array and the drain unit do with them. -/
namespace Sys2Proof.Machine

/-! ## Formats -/

/-- An integer as an exact value. -/
def intVal (x : Int) : FVal := .fin (decide (x < 0)) x.natAbs 0

/-- An element's exact value (R268); CB4 through the codebook of a slot (R219). -/
def elemVal (t : Ty) (book : Store (BitVec 16)) (slot : Nat) (x : Nat) : FVal :=
  match t with
  | .cb4 => fval (fmtOf .bf16) (storeGet 0 book (16 * slot + x)).toNat
  | .i4 | .i8 => intVal (intOf t (BitVec.ofNat 64 x))
  | t => fval (fmtOf t) x

/-- Element (r, c) of an operand (R271, R272): from the window, or from lane r's registers; rows at or above LANES read as zero. -/
def State.mmaElem (s : State) (x : MmaOperand) (t : Ty) (r c : Nat) : Nat :=
  let b := mmaBits t
  match x with
  | .win off =>
    let i := (64 * r + c) * b
    s.team.winNat (off + i / 8) ((b + 7) / 8) / 2 ^ (i % 8) % 2 ^ b
  | .lane v =>
    if s.team.lanes ≤ r then 0
    else (storeGet 0 s.team.v (laneKey (v + BitVec.ofNat 8 (c * b / 32)) r)).toNat / 2 ^ (c * b % 32) % 2 ^ b

/-! ## Issue -/

/-- Tile operations and MMAs of a queue. -/
def MatEntry.isMma (e : MatEntry) : Bool := match e.op with | .mma _ => true | .tile _ => false

/-- The unretired MMA with an ID, if any (R277). -/
def Team.mmaWith (t : Team) (id : BitVec 6) : Option (Nat × MmaCmd) :=
  t.matq.findSome? fun e => match e.op with | .mma c => if c.o.id == id then some (e.order, c) else none | .tile _ => none

/-- Orders reachable through predecessors among unretired commands (R281); `n` bounds the depth. -/
def predPath (q : List MatEntry) : Nat → List Nat → List Nat
  | 0, l => l
  | n + 1, l =>
    l ++ predPath q n (l.flatMap fun o => (q.find? fun e => e.order == o).elim [] fun e => match e.op with | .mma c => c.after | .tile _ => [])

/-- A touch of the commands whose order satisfies `p` (R281). -/
def Team.touch (t : Team) (p : Nat → MmaCmd → Bool) : Team :=
  { t with matq := t.matq.map fun e => match e.op with
      | .mma c => if p e.order c then { e with op := .mma { c with touched := true } } else e
      | .tile _ => e }

/-- An instruction's entry joins the matrix queue. -/
def State.pushMat (s : State) (i : Instr) (sa sb : Dword) (op : MatOp) : State :=
  let (n, s) := s.nextSerial
  { s with team := { s.team with matq := s.team.matq ++ [⟨n, i, sa, sb, op⟩] } }

/-- The formats of an MMA as its issue finds them (R273, R275). -/
def State.mmaArgs (s : State) (o : MmaO) : MmaArgs := mmaArgsOf o (s.readU (mmaFreg o))

/-- s[A] or s[B] of an MMA; 0 for a lane operand. -/
def State.mmaReg (s : State) (x : MmaSrc) : Dword := match x with | .win b _ => s.readU b | .lane _ => 0

/-- A window operand's base (R276). -/
def State.mmaBase (s : State) (x : MmaSrc) : Dword := mmaSrcBase x (s.mmaReg x)

/-- The checks of R276, in order. -/
def State.mmaCheck (s : State) (o : MmaO) (a : MmaArgs) : Option (Nat × Dword) :=
  mmaCheckOf o a (s.mmaBase o.a) (s.mmaBase o.b) s.team.vregs s.team.window

/-- The predecessors that an MMA names and that are not retired (R278). -/
def State.mmaAfter (s : State) (o : MmaO) : List Nat :=
  let one (p : Option (BitVec 6)) : List Nat := match p with
    | none => []
    | some id => match s.team.mmaWith id with | some x => [x.1] | none => []
  match o.j with
  | none => []
  | some j => one j.p1 ++ one j.p2

/-- MMA (R275 to R278, R281). -/
def execMma (h : Hdr) (o : MmaO) (s : State) : Out :=
  let len := if o.j.isSome then 16 else 12
  if !s.acts h.guard then .next (s.retire h len)
  else
    let a := s.mmaArgs o
    match s.mmaCheck o a with
    | some (code, va) => s.trap code va
    | none =>
      if Config.mmaPerTeam ≤ s.team.cmdq ∨ (s.team.mmaWith o.id).isSome then .next (s.waitHere false .issue)
      else
        let after := s.mmaAfter o
        let path := predPath s.team.matq s.team.matq.length after
        let hits (n : Nat) (c : MmaCmd) : Bool := c.o.d == o.d && !(path.contains n)
        let touched := s.team.matq.any fun e => match e.op with | .mma c => hits e.order c | .tile _ => false
        let cmd := mmaCmdOf o a (s.mmaBase o.a) (s.mmaBase o.b) after touched
        let t := s.team.touch hits
        let s' := { s with team := { t with tags := storePut ScaleTag.none t.tags o.d.toNat a.tag } }
        .next ((s'.pushMat (.mma h o) (s.mmaReg o.a) (s.mmaReg o.b) (.mma cmd)).retire h len)

/-- A tile operation joins the queue when it has room (R278), touching the commands that `p` names (R281). -/
def issueTile (h : Hdr) (len : Nat) (i : Instr) (sa : Dword) (op : TileOp) (p : MmaCmd → Bool) (f : Team → Team) (s : State) : Out :=
  if Config.topsPerTeam ≤ s.team.topq then .next (s.waitHere false .issue)
  else .next (({ s with team := f (s.team.touch fun _ c => p c) }.pushMat i sa 0 (.tile op)).retire h len)

/-- A window address of a tile operation (R286): misaligned or past the end of the window. -/
def State.badWindow (s : State) (a : Dword) (align n : Nat) : Bool := badWindowOf a align n s.team.window

/-- MZERO (R286, R287, R274). -/
def execMzero (h : Hdr) (o : TileO) (s : State) : Out :=
  if !s.acts h.guard then .next (s.retire h 8)
  else issueTile h 8 (.mzero h o) 0 (.zero o.d) (fun c => c.o.d == o.d) (fun t => { t with tags := storePut ScaleTag.none t.tags o.d.toNat ScaleTag.none }) s

/-- MLDA (R286, R287, R274). -/
def execMlda (h : Hdr) (o : TileMemO) (s : State) : Out :=
  let a := s.readU o.a + offset o.off
  if !s.acts h.guard then .next (s.retire h (offBytes o.off))
  else if s.badWindow a 128 16384 then s.trap 0x0D 0
  else issueTile h (offBytes o.off) (.mlda h o) (s.readU o.a) (.load o.t a.toNat) (fun c => c.o.d == o.t)
    (fun t => { t with tags := storePut ScaleTag.none t.tags o.t.toNat ScaleTag.none }) s

/-- MSTA (R286, R287): F clears when it issues. -/
def execMsta (h : Hdr) (o : TileMemO) (s : State) : Out :=
  let a := s.readU o.a + offset o.off
  if !s.acts h.guard then .next (s.retire h (offBytes o.off))
  else if s.badWindow a 128 16384 then s.trap 0x0D 0
  else issueTile h (offBytes o.off) (.msta h o) (s.readU o.a) (.store o.t a.toNat) (fun c => c.o.d == o.t) (fun t => t.setFullRange a.toNat (a.toNat + 16384) false) s

/-- A command reads a codebook slot (R281). -/
def MmaCmd.usesSlot (c : MmaCmd) (k : BitVec 2) : Bool := (c.af == .cb4 && c.aslot == k) || (c.bf == .cb4 && c.bslot == k)

/-- MCBL (R286, R287). -/
def execMcbl (h : Hdr) (o : McblO) (s : State) : Out :=
  let a := s.readU o.a + offset o.off
  if !s.acts h.guard then .next (s.retire h (offBytes o.off))
  else if s.badWindow a 32 32 then s.trap 0x0D 0
  else issueTile h (offBytes o.off) (.mcbl h o) (s.readU o.a) (.codebook o.slot a.toNat) (fun c => c.usesSlot o.slot) id s

/-- The granules that 64 rows of a matrix in the window touch. -/
def rowGranules (a stride width : Nat) : List Nat := (List.range 64).flatMap fun m => granules (a + m * stride) (a + m * stride + width)

/-- DRAIN (R288, R290): it waits to issue for its descriptor, checks it and keeps a copy; F clears in its output granules. -/
def execDrain (h : Hdr) (o : DrainO) (s : State) : Out :=
  let a := s.readU o.a + offset o.off
  if !s.acts h.guard then .next (s.retire h (offBytes o.off))
  else if s.badWindow a 64 64 then s.trap 0x0D a
  else if !(s.team.allFull a.toNat (a.toNat + 64)) then .next (s.waitHere false .issue)
  else
    let bs := s.team.winBytes a.toNat 64
    if !drainLegal bs o.ty s.team.window then s.trap 0x0D a
    else
      let d := drainDesc bs
      let tag := storeGet ScaleTag.none s.team.tags o.d.toNat
      issueTile h (offBytes o.off) (.drain h o) (s.readU o.a) (.drain o bs tag) (fun c => c.o.d == o.d)
        (fun t => (rowGranules d.dst d.dstride (64 * drainSize o.ty)).foldl (fun t g => t.setFull g false) t) s

/-! ## Waits and status (R285, R292) -/

/-- The wait of MWAIT for the queue entries issued before it that satisfy `p` (R285). -/
def waitMatrix (h : Hdr) (p : MatEntry → Bool) (s : State) : Out :=
  if !s.acts h.guard then .next (s.retire h 8)
  else
    let ids := match s.path.wait with | some (.ops l) => l | _ => (s.team.matq.filter p).map (·.order)
    if s.team.matq.any fun e => ids.contains e.order then .next (s.waitHere h.fin (.ops ids)) else .next (s.retire h 8)

/-- MWAIT (R285). -/
def execMwait (h : Hdr) (o : TagO) (s : State) : Out :=
  waitMatrix h (fun e => match e.op with | .mma c => c.o.id == o.tag | .tile _ => false) s
/-- MWAIT, all entries (R285). -/
def execMwaitAll (h : Hdr) (s : State) : Out := waitMatrix h (fun _ => true) s

/-- MSTAT (R292). -/
def execMstat (h : Hdr) (o : UD) (s : State) : Out := .next ((if s.acts h.guard then s.writeU o.d s.team.mstat else s).retire h 8)
/-- MSTAT, IDs (R292). -/
def execMstatIds (h : Hdr) (o : UD) (s : State) : Out := .next ((if s.acts h.guard then s.writeU o.d s.team.mmaIds else s).retire h 8)
/-- MSTAT, clearing (R292). -/
def execMstatClr (h : Hdr) (o : UD) (s : State) : Out :=
  if !s.acts h.guard then .next (s.retire h 8)
  else
    let s := s.writeU o.d s.team.mstat
    .next ({ s with team := { s.team with nan := false, ovf := false, narrow := false } }.retire h 8)

/-! ## The array (R266 to R270, R279) -/

def tileKey (t : Tile) (m n : Nat) : Nat := t.toNat * 4096 + 64 * m + n

/-- The granules of a command's window operands. -/
def MmaCmd.granules (c : MmaCmd) : List Nat :=
  let f (x : MmaOperand) (t : Ty) : List Nat := match x with | .win off => Machine.granules off (off + mmaExtent t) | .lane _ => []
  f c.a c.af ++ f c.b c.bf

/-- The start conditions of R279, for the focus team's command. -/
def State.mmaReady (s : State) (order : Nat) (c : MmaCmd) : Bool :=
  let regs := c.regs
  let sb (p : Option Path) : Bool := match p with
    | some x => x.sb.any fun e => match e.reg with | .v r => regs.contains r && (match e.due with | some d => decide (s.cycle < d) | none => true) | _ => false
    | none => false
  !c.started && s.team.wafers.isEmpty && (c.after.all fun o => !(s.team.matq.any fun e => e.order == o)) &&
    !(s.team.matq.any fun e => !e.isMma && decide (e.order < order)) && c.granules.all s.team.full &&
    !(s.team.pend.any fun p => decide (s.cycle < p.ready) && (match p.reg with | .v r => regs.contains r | _ => false)) &&
    !(sb s.team.path0) && !(sb s.team.path1) &&
    !((s.residents s.team.core).any fun t => t.sub == s.team.sub && t.matq.any fun e => match e.op with
      | .mma c => c.started && decide (s.cycle < c.ends)
      | .tile _ => false)

/-- The result of a command (R266 to R268): 4,096 words, whether a NaN was written, whether a rounding overflowed. -/
def State.mmaCompute (s : State) (c : MmaCmd) : List Word × Bool × Bool :=
  let ints := (c.af == .i8 || c.af == .i4) && (c.bf == .i8 || c.bf == .i4)
  let acc (m n : Nat) : Word := if c.o.ovr then 0 else storeGet 0 s.team.tiles (tileKey c.o.d m n)
  let av := (List.range 4096).map fun i => s.mmaElem c.a c.af (i / 64) (i % 64)
  let bv := (List.range 4096).map fun i => s.mmaElem c.b c.bf (i / 64) (i % 64)
  if ints then
    let ai := av.map fun x => intOf c.af (BitVec.ofNat 64 x)
    let bi := bv.map fun x => intOf c.bf (BitVec.ofNat 64 x)
    ((List.range 4096).map fun i =>
      let sum := (List.range 64).foldl (fun (t : Int) k => t + ai.getD (64 * (i / 64) + k) 0 * bi.getD (64 * k + i % 64) 0) 0
      BitVec.ofInt 32 ((acc (i / 64) (i % 64)).toInt + sum), false, false)
  else
    let af := av.map fun x => elemVal c.af s.team.codebook c.aslot.toNat x
    let bf := bv.map fun x => elemVal c.bf s.team.codebook c.bslot.toNat x
    let rs := (List.range 4096).map fun i =>
      let pairs := (List.range 64).map fun k => (af.getD (64 * (i / 64) + k) (.fin false 0 0), bf.getD (64 * k + i % 64) (.fin false 0 0))
      let a := fval (fmtOf .f32) (acc (i / 64) (i % 64)).toNat
      sumRound (fmtOf .f32) .rne false (a :: pairs.flatMap fun p => [p.1, p.2]) (pairs.any fun p => mulInvalid p.1 p.2)
        (a :: pairs.map fun p => mulVal p.1 p.2)
    (rs.map fun r => BitVec.ofNat 32 r.1, rs.any fun r => r.1 == 0x7FC00000, rs.any fun r => r.2 &&& flagOF != 0)

/-- The compute time of a command (R269, R270). -/
def mmaTime (c : MmaCmd) (narrow : Bool) : Nat :=
  (match max (mmaBits c.af) (mmaBits c.bf) with | 16 => 64 | 8 => 32 | _ => 16) * (if narrow then 2 else 1)

/-- A command starts (R269, R270, R279): it reads its operands; under the power alarm it runs narrowed. Of a window that is written between the command's issue and
its retirement (R282) it takes the bytes that stand there now, all at once (DESIGN CHOICE, log 85). -/
def State.startMma (s : State) (order : Nat) (c : MmaCmd) : State :=
  let (res, nan, ovf) := s.mmaCompute c
  let c' := { c with started := true, narrow := s.alarm, ends := s.cycle + mmaTime c s.alarm, result := res, nan := nan, ovf := ovf }
  { s with team := { s.team with
      narrow := s.team.narrow || s.alarm,
      matq := s.team.matq.map fun e => if e.order = order then { e with op := .mma c' } else e } }

/-- The tile after a list of 4,096 patterns. -/
def putTile (tiles : Store Word) (t : Tile) (ws : List Word) : Store Word :=
  (List.range 4096).foldl (fun st i => storePut 0 st (tileKey t (i / 64) (i % 64)) (ws.getD i 0)) tiles

/-- Every element of a tile yields any value of its type (R281). -/
def loseTile (tiles : Store Word) (t : Tile) (n : Nat) : Store Word :=
  (List.range 4096).foldl (fun st i => storeSet st (tileKey t (i / 64) (i % 64)) (Config.earlyBits 32 n t.toNat i)) tiles

/-- A command retires (R269, R277, R281). -/
def State.retireMma (s : State) (order : Nat) (c : MmaCmd) : State :=
  let tiles := if c.touched then loseTile s.team.tiles c.o.d s.free else putTile s.team.tiles c.o.d c.result
  { s with free := if c.touched then s.free + 1 else s.free,
           team := { s.team with tiles := tiles, nan := s.team.nan || c.nan, ovf := s.team.ovf || c.ovf,
                                 matq := s.team.matq.filter fun e => e.order != order } }

/-! ## Tile operations (R287, R290, R291) -/

/-- The tile operation whose queue place is reached (R280). -/
def Team.nextTile (t : Team) : Option (Nat × TileOp) :=
  t.matq.findSome? fun e => match e.op with | .tile op => some (e.order, op) | .mma _ => none

/-- An unretired command issued before names the tile: what is read of it is any value (R281). -/
def Team.tileTouched (t : Team) (d : Tile) (order : Nat) : Bool :=
  t.matq.any fun e => match e.op with | .mma c => c.o.d == d && decide (e.order < order) | .tile _ => false

def Team.popTile (t : Team) (order : Nat) : Team := { t with matq := t.matq.filter fun e => e.order != order }

/-- The words of a tile as an operation reads them, and the counter after. -/
def State.tileWords (s : State) (d : Tile) (order : Nat) : List Word × Nat :=
  if s.team.tileTouched d order then ((List.range 4096).map fun i => Config.earlyBits 32 s.free d.toNat i, s.free + 1)
  else ((List.range 4096).map fun i => storeGet 0 s.team.tiles (tileKey d (i / 64) (i % 64)), s.free)

/-- A tile operation other than DRAIN executes once its waits are met (R287). -/
def State.runTile (s : State) (order : Nat) (op : TileOp) : State :=
  let t := s.team
  match op with
  | .zero d => { s with team := { t with tiles := putTile t.tiles d [] }.popTile order }
  | .load d off =>
    if t.allFull off (off + 16384) then
      { s with team := { t with tiles := putTile t.tiles d ((List.range 4096).map fun i => BitVec.ofNat 32 (t.winNat (off + 4 * i) 4)) }.popTile order }
    else s
  | .store d off =>
    let (ws, n) := s.tileWords d order
    { s with free := n, team := ((t.winPut off (ws.flatMap wordBytes)).setFullRange off (off + 16384) true).popTile order }
  | .codebook k off =>
    if t.allFull off (off + 32) then
      { s with team := { t with codebook := (List.range 16).foldl (fun st i =>
          storePut 0 st (16 * k.toNat + i) (BitVec.ofNat 16 (t.winNat (off + 2 * i) 2))) t.codebook }.popTile order }
    else s
  | .drain .. => s

/-- The coordinate hash (R291). -/
def ch32 (lo hi row col : Word) : Word :=
  let r := (List.range 4).foldl (fun (x : Word × Word) _ =>
    let a := x.1 + x.2
    (a.rotateLeft 16, x.2.rotateLeft 7 ^^^ a)) (lo ^^^ row, hi ^^^ col)
  r.1 ^^^ (r.2 * 0x2C1B3C6D)

/-- A product rounded to F32, with the specials of R267: pattern and flags. -/
def drainMul (a b : FVal) : Nat × BitVec 5 := sumRound (fmtOf .f32) .rne false [a, b] (mulInvalid a b) [mulVal a b]

/-- One element of a drain (R290): its bits, whether a NaN is written, whether a step or the conversion overflowed or saturated. -/
def drainElem (o : DrainO) (d : DrainDesc) (acc : Word) (sa sb : Nat) (res : Nat) (m n : Nat) : Nat × Bool × Bool :=
  let f := fmtOf .f32
  let a0 : FVal := if o.int then intVal acc.toInt else fval f acc.toNat
  let (t1, f1) := drainMul a0 (fval f sa)
  let (t2, f2) := drainMul (fval f t1) (fval f sb)
  let rf : Ty := if d.rfmt = 2 then .bf16 else if d.rfmt = 3 then .f16 else .f32
  let (t3, f3) := if d.rfmt = 0 then (t2, 0)
    else sumRound f .rne false [fval f t2, fval (fmtOf rf) res] false [fval f t2, fval (fmtOf rf) res]
  let drop := decide ((ch32 d.seedLo d.seedHi (BitVec.ofNat 32 (d.row0 + m)) (BitVec.ofNat 32 (d.col0 + n))).toNat < d.p)
  let (t4, f4) := if !d.doen then (t3, 0) else if drop then (0, 0) else drainMul (fval f t3) (fval f d.keep)
  let steps := (f1 ||| f2 ||| f3 ||| f4) &&& flagOF != 0
  let v := fval f t4
  match o.ty with
  | .f32 => (t4, v.isNan, steps)
  | .i8 | .i32 =>
    let (i, fl) := floatToInt o.ty f o.rm t4
    ((i % 2 ^ Ty.bits o.ty).toNat, false, steps || (fl &&& flagNV != 0 && !v.isNan))
  | ty =>
    let (r, fl) := fpConvert (fmtOf ty) f o.rm o.sat t4
    (r, (fval (fmtOf ty) r).isNan, steps || fl &&& flagOF != 0 || (o.sat && fl &&& flagNV != 0 && v.isInf))

/-- The granules that a DRAIN waits for (R290). -/
def drainNeeds (d : DrainDesc) (tag : ScaleTag) : List Nat :=
  (if d.rfmt = 0 then [] else rowGranules d.res d.rstride (64 * d.resSize)) ++
    (match tag.a with | some o => granules (256 * o.toNat) (256 * o.toNat + 256) | .none => []) ++
    (match tag.b with | some o => granules (256 * o.toNat) (256 * o.toNat + 256) | .none => [])

/-- A DRAIN in its queue place executes once its waits are met (R290). -/
def State.runDrain (s : State) (order : Nat) (o : DrainO) (bs : List Byte) (tag : ScaleTag) : State :=
  let t := s.team
  let d := drainDesc bs
  if !((drainNeeds d tag).all t.full) then s
  else
    let (ws, k) := s.tileWords o.d order
    let scale (x : Option (BitVec 12)) (i : Nat) : Nat := match x with | some off => t.winNat (256 * off.toNat + 4 * i) 4 | .none => 0x3F800000
    let n := drainSize o.ty
    let es := (List.range 4096).map fun i =>
      let m := i / 64
      let c := i % 64
      let res := if d.rfmt = 0 then 0 else t.winNat (d.res + m * d.rstride + c * d.resSize) d.resSize
      (d.dst + m * d.dstride + c * n, drainElem o d (ws.getD i 0) (scale tag.a m) (scale tag.b c) res m c)
    let t := es.foldl (fun (t : Team) e => t.winPut e.1 (natBytes n e.2.1)) t
    let t := (rowGranules d.dst d.dstride (64 * n)).foldl (fun t g => t.setFull g true) t
    { s with free := k, team := { t with nan := t.nan || es.any (fun e => e.2.2.1), ovf := t.ovf || es.any (fun e => e.2.2.2) }.popTile order }

end Sys2Proof.Machine
end

