-- ==== Sys2Proof/Machine/Spe.lean ====
section
/-! DEFINITION. The standing-product engine (R298 to R316, R321): descriptors, corrections, recomputation, marks and errors. -/
namespace Sys2Proof.Machine

/-! ## Extents -/

def Extent.last (x : Extent) : Nat := x.base + (x.rows - 1) * x.stride + x.width

/-- Two extents share a word. -/
def Extent.meets (x y : Extent) : Bool :=
  (List.range x.rows).any fun i =>
    let lo := x.base + i * x.stride
    rowsMeet y.base y.stride y.rows (roundUp y.width 4) lo (lo + roundUp x.width 4)

/-- An operand word lies in an owned page of `owner` (R297). -/
def Binding.treads (b owner : Binding) : Bool :=
  [false, true].any fun opB => (b.side opB).extent.pages.any fun p =>
    owner.owns (p * 4096) && (
      (rowsMeet (b.side opB).base (b.side opB).stride (b.side opB).rows (b.side opB).extent.width (p * 4096) (p * 4096 + 4096)))

/-- The words of an operand's extent. -/
def Side.words (d : Side) : List Nat :=
  (List.range d.rows).flatMap fun i =>
    (List.range (roundUp (d.cols * elemBytes d.ty) 4 / 4)).map fun k => d.base + i * d.stride + 4 * k

/-! ## Reading and writing by the engine -/

/-- A word of an operand as of the place before `later` (R307). -/
def asOf (later : List LogEntry) (opB : Bool) (va : Nat) (home : Word) : Word :=
  match later.find? fun e => e.opB == opB && e.va == va with
  | some e => e.old
  | none => home

/-- The value of a word at home as a binding has captured it: with a write that it has captured and that others hold still. R307 takes the value at home; as
the entry of that write may be applied before it is performed, later corrections read the word with it (DESIGN CHOICE, log 82). -/
def State.captured (s : State) (b : Binding) (va : Nat) (home : Word) : Word :=
  match ((s.bindsOf b.pid b.asid).flatMap (·.hold)).find? fun h => h.va == va && !b.hold.any fun x => x.id == h.id with
  | some h => mergeWord home h.data h.be
  | none => home

/-- Element (row, col) of an operand as of a place: its bits. -/
def speElem (b : Binding) (later : List LogEntry) (opB : Bool) (s : State) (row col : Nat) : Dev Nat :=
  let d := b.side opB
  let va := d.base + row * d.stride + col * elemBytes d.ty
  (homeWord s b.pid b.asid (va / 4 * 4)).bind fun w s =>
    .ok ((asOf later opB (va / 4 * 4) (s.captured ((s.binding b.slot).getD b) (va / 4 * 4) w)).toNat / 2 ^ (8 * (va % 4)) % 2 ^ (8 * elemBytes d.ty)) s

def speReadC (b : Binding) (s : State) (i j : Nat) : Dev Word := homeWord s b.pid b.asid (b.cAddr i j)

def speWriteC (b : Binding) (s : State) (i j : Nat) (x : Word) : Dev Unit :=
  let (v, s) := if b.lost then s.anyBytes 4 else (natBytes 4 x.toNat, s)
  deviceWrite s b.pid b.asid (b.cAddr i j) v

/-- The value of an operand's element, as a float binding uses it (R266 to R268). -/
def Binding.val (b : Binding) (opB : Bool) (x : Nat) : FVal := elemVal (b.side opB).ty [] 0 x
def Binding.int (b : Binding) (opB : Bool) (x : Nat) : Int := intOf (b.side opB).ty (BitVec.ofNat 64 x)

/-- One block of a recomputation (R311): the running element and the block's pairs. -/
def Binding.block (b : Binding) (c : Word) (ps : List (Nat × Nat)) : Word :=
  if b.cfmt = .i32 then BitVec.ofInt 32 (ps.foldl (fun (t : Int) p => t + b.int false p.1 * b.int true p.2) c.toInt)
  else
    let v := ps.map fun p => (b.val false p.1, b.val true p.2)
    let a := fval (fmtOf .f32) c.toNat
    BitVec.ofNat 32 (sumRound (fmtOf .f32) .rne false (a :: v.flatMap fun p => [p.1, p.2]) (v.any fun p => mulInvalid p.1 p.2)
      (a :: v.map fun p => mulVal p.1 p.2)).1

/-- Element (i, j) recomputed as of a place (R311). -/
def speDot (b : Binding) (later : List LogEntry) (s : State) (i j : Nat) : Dev Word :=
  (devList (fun s k => (speElem b later false s i k).bind fun x s => (speElem b later true s k j).bind fun y s => .ok (x, y) s) (List.range b.k) s).bind
    fun ps s => .ok ((List.range ((b.k + 63) / 64)).foldl (fun c q => b.block c ((ps.drop (64 * q)).take 64)) 0) s

/-- Recomputation of a list of elements (R311). -/
def speElements (b : Binding) (later : List LogEntry) (l : List (Nat × Nat)) (s : State) : Dev Unit :=
  devEach (fun s x => (speDot b later s x.1 x.2).bind fun c s => speWriteC b s x.1 x.2 c) l s

/-- A row or column is recomputed as of a place; its correction count goes to 0 (R311). -/
def speLine (slot : Nat) (later : List LogEntry) (col : Bool) (s : State) (i : Nat) : Dev Unit :=
  match s.binding slot with
  | none => .ok () s
  | some b =>
    let l := if col then (List.range b.m).map fun r => (r, i) else (List.range b.n).map fun c => (i, c)
    (speElements b later l s).bind fun _ s => .ok () (s.mapBinding slot fun b =>
      if col then { b with colCnt := storeErase b.colCnt i } else { b with rowCnt := storeErase b.rowCnt i })

/-! ## Corrections -/

/-- The terms of a correction to an element of C: NEW − OLD, and the other operand's element. -/
structure Term where
  new   : Nat
  old   : Nat
  other : Nat

/-- C plus the exact sum of terms, rounded once (R308, R309). -/
def Binding.correct (b : Binding) (opB : Bool) (c : Word) (ts : List Term) : Word :=
  if b.cfmt = .i32 then
    BitVec.ofInt 32 (ts.foldl (fun (t : Int) x => t + (b.int opB x.new - b.int opB x.old) * b.int (!opB) x.other) c.toInt)
  else
    let a := fval (fmtOf .f32) c.toNat
    let vs := ts.map fun x => mulVal (sumFin .rne [b.val opB x.new, (b.val opB x.old).negate]) (b.val (!opB) x.other)
    BitVec.ofNat 32 (sumRound (fmtOf .f32) .rne false (a :: vs) false (a :: vs)).1

def FVal.special (v : FVal) : Bool := v.isNan || v.isInf

/-- A correction meets a NaN or an infinity (R310). -/
def Binding.meetsSpecial (b : Binding) (opB : Bool) (cs : List Word) (ts : List Term) : Bool :=
  b.cfmt != .i32 && ((cs.any fun c => FVal.special (fval (fmtOf .f32) c.toNat)) ||
    ts.any fun t => FVal.special (b.val opB t.new) || FVal.special (b.val opB t.old) || FVal.special (b.val (!opB) t.other))

/-- The bits of element `e` of a word of an operand. -/
def Binding.elem (b : Binding) (opB : Bool) (w : Word) (e : Nat) : Nat :=
  let n := 8 * elemBytes (b.side opB).ty
  w.toNat / 2 ^ (n * e) % 2 ^ n

/-- The element corrections of an entry, ascending: the row and column of the element, OLD and NEW (R304). -/
def Binding.corrections (b : Binding) (e : LogEntry) : List (Nat × Nat × Nat × Nat) :=
  ((List.range 4).filter fun k => e.emask.getLsbD k).map fun k => (e.row, e.col + k, b.elem e.opB e.old k, b.elem e.opB e.new k)

/-- The target line of corrections that share it: row of C for A, column for B; each with the inner index k, OLD and NEW. The line's elements are
corrected, or recomputed where a special is met (R308 to R310), which it answers; `later`: the entries after the group. -/
def speTarget (b : Binding) (opB : Bool) (later : List LogEntry) (line : Nat) (cs : List (Nat × Nat × Nat)) (s : State) : Dev Bool :=
  let n := if opB then b.m else b.n
  let cell (q : Nat) : Nat × Nat := if opB then (q, line) else (line, q)
  let term (q : Nat) (s : State) (x : Nat × Nat × Nat) : Dev Term :=
    (speElem b later (!opB) s (if opB then q else x.1) (if opB then x.1 else q)).bind fun r s => .ok ⟨x.2.2, x.2.1, r⟩ s
  let read (s : State) (q : Nat) : Dev (Word × List Term) :=
    (speReadC b s (cell q).1 (cell q).2).bind fun c s => (devList (term q) cs s).bind fun ts s => .ok (c, ts) s
  (devList read (List.range n) s).bind fun l s =>
    if b.meetsSpecial opB (l.map (·.1)) (l.flatMap (·.2)) then (speLine b.slot later opB s line).bind fun _ s => .ok true s
    else (devEach (fun s (x : (Word × List Term) × Nat) => speWriteC b s (cell x.2).1 (cell x.2).2 (b.correct opB x.1.1 x.1.2)) l.zipIdx s).bind
      fun _ s => .ok false s

/-- The correction count of a line grows (R311). -/
def Binding.count (b : Binding) (opB : Bool) (line n : Nat) : Binding :=
  if opB then { b with colCnt := storePut 0 b.colCnt line (storeGet 0 b.colCnt line + n) }
  else { b with rowCnt := storePut 0 b.rowCnt line (storeGet 0 b.rowCnt line + n) }

/-- Corrections of one line in turn, until one has recomputed the line. -/
def speInTurn (b : Binding) (opB : Bool) (later : List LogEntry) (line : Nat) : List (List (Nat × Nat × Nat)) → State → Dev Bool
  | [], s => .ok false s
  | ts :: rest, s => (speTarget b opB later line ts s).bind fun redone s => if redone then .ok true s else speInTurn b opB later line rest s

/-- A group of entries from the head is applied: line by line, the corrections of each line with one rounding per element when `joint`, one after the
other else. A line that was recomputed takes no further correction of the group. -/
def speGroup (slot : Nat) (es later : List LogEntry) (joint : Bool) (s : State) : Dev Unit :=
  match s.binding slot, es with
  | some b, e0 :: _ =>
    let opB := e0.opB
    let cs := es.flatMap b.corrections
    let lineOf (x : Nat × Nat × Nat × Nat) : Nat := if opB then x.2.1 else x.1
    let lines := dedupe (sortBy id (cs.map lineOf))
    let terms (l : Nat) : List (Nat × Nat × Nat) := (cs.filter fun x => lineOf x == l).map fun x => (if opB then x.1 else x.2.1, x.2.2)
    devEach (fun s l => (speInTurn b opB later l (if joint then [terms l] else (terms l).map fun x => [x]) s).bind fun redone s =>
      .ok () (s.mapBinding slot fun b => if redone then b else b.count opB l (terms l).length)) lines s
  | _, _ => .ok () s

/-- Rows and columns whose count has reached T are recomputed (R311). -/
def speRefresh (slot : Nat) (later : List LogEntry) (s : State) : Dev Unit :=
  match s.binding slot with
  | none => .ok () s
  | some b =>
    if b.t = 0 then .ok () s
    else
      let due (st : Store Nat) : List Nat := (st.filter fun x => decide (b.t ≤ x.2)).map (·.1)
      (devEach (speLine slot later false) (due b.rowCnt) s).bind fun _ s => devEach (speLine slot later true) (due b.colCnt) s

/-! ## Errors -/

/-- The binding enters ERR (R321). -/
def speFail (s : State) (slot : Nat) : Dev Unit := (loseC s slot).bind fun _ s => bindErr s slot

/-- An operation of the engine, or ERR where an access of it does not succeed. -/
def speTry (slot : Nat) (f : State → Dev Unit) (s : State) : Dev Unit :=
  match f s with
  | .ok _ s => match s.binding slot with
    | some b => if b.err then speFail s slot else .ok () s
    | none => .ok () s
  | .busy => .busy
  | .no => speFail s slot

/-- `n` entries from the head are applied (R308, R309): APPSEQ, PEND, refresh, and IDLE with the release of the held writes when none is left. -/
def speApply (slot n : Nat) (joint : Bool) (s : State) : Dev Unit :=
  match s.binding slot with
  | none => .ok () s
  | some b =>
    let es := b.entries.take n
    let later := b.entries.drop n
    Dev.settled ((speTry slot (fun s =>
      (speGroup slot es later joint s).bind fun _ s =>
        let s := s.mapBinding slot fun b => { b with entries := later, appseq := match es.getLast? with | some e => e.seq | none => b.appseq }
        (speRefresh slot later s).bind fun _ s => speHeader s slot) s).bind fun _ s =>
      match s.binding slot with
      | some b => if b.entries = [] ∧ !b.err then enterIdle s slot else .ok () s
      | none => .ok () s)

/-- The initial product (R302): every element of C is computed, the interlock becomes IDLE and the held writes are released. -/
def speStart (slot : Nat) (s : State) : Dev Unit :=
  match s.binding slot with
  | none => .ok () s
  | some b =>
    let all := (List.range b.m).flatMap fun i => (List.range b.n).map fun j => (i, j)
    Dev.settled ((speTry slot (speElements b b.entries all) s).bind fun _ s =>
      match s.binding slot with
      | some b => if b.err then .ok () s else enterIdle s slot
      | none => .ok () s)

/-! ## Marks -/

/-- The mark bitmaps' bytes of a list of bits, written as the marks now stand. -/
def speMarkBytes (slot : Nat) (col : Bool) (bits : List Nat) (s : State) : Dev Unit :=
  match s.binding slot with
  | none => .ok () s
  | some b =>
    devEach (fun s i => speWrite s slot (b.lbase + 0x100 + (if col then b.rb else 0) + i / 8) [markByte (if col then b.colMarks else b.rowMarks) i]) bits s

/-- The rows and columns marked now are recomputed as of the engine's place, and their marks cleared (R315, R316). -/
def speSettle (slot : Nat) (s : State) : Dev Unit :=
  match s.binding slot with
  | none => .ok () s
  | some b =>
    if b.err ∨ (b.rowMarks = [] ∧ b.colMarks = []) then .ok () s
    else Dev.settled (speTry slot (fun s =>
      (devEach (speLine slot b.entries false) (sortBy id b.rowMarks) s).bind fun _ s =>
        (devEach (speLine slot b.entries true) (sortBy id b.colMarks) s).bind fun _ s =>
          let s := s.mapBinding slot fun b => { b with rowMarks := [], colMarks := [] }
          (speMarkBytes slot false b.rowMarks s).bind fun _ s => (speMarkBytes slot true b.colMarks s).bind fun _ s => speHeader s slot) s)

end Sys2Proof.Machine
end

