-- ==== Sys2Proof/Machine/Product.lean ====
section
/-! DEFINITION. The standing-product family (R294 to R320): BIND, UNBIND, SETTLE, QSTALE. -/
namespace Sys2Proof.Machine

/-! ## Handles and descriptors -/

/-- The layout of a binding handle (R295). -/
def Binding.handle (b : Binding) : Dword := BitVec.ofNat 64 (b.slot + 65536 * b.tag.toNat)

/-- The binding of a live handle of the focus team's partition (R295). -/
def State.liveBinding (s : State) (h : Dword) : Option Binding := s.binds.find? fun b => b.pid == s.team.pid && b.handle == h

/-- An operand or result format code (R298). -/
def bindFmt (c : Nat) : Option Ty :=
  match c with
  | 0x0C => some .f32 | 0x0B => some .bf16 | 0x0A => some .f16 | 0x02 => some .i8 | _ => none

/-- The binding that a descriptor describes (R298), with slot and tag still 0; `none` where a field is outside its legal values. A reserved bit that is set, of
BCTL 31:21 or of the bytes from 0x40 to 0x7F, counts as such a field: R298 calls them reserved and does not say what a value other than 0 does (DESIGN CHOICE,
log 31). -/
def bindingOf (bs : List Byte) (pid : BitVec 5) (asid : BitVec 16) : Option Binding :=
  let ctl := getN bs 0x3C 4
  let cfmt : Option Ty := match ctl / 1024 % 32 with | 0x0C => some .f32 | 0x04 => some .i32 | _ => none
  match bindFmt (ctl % 32), bindFmt (ctl / 32 % 32), cfmt with
  | some af, some bf, some cf =>
    let b : Binding :=
      { slot := 0, tag := 0, pid := pid, asid := asid, cbase := getN bs 0 8, abase := getN bs 8 8, bbase := getN bs 0x10 8, lbase := getN bs 0x18 8,
        m := getN bs 0x20 4, n := getN bs 0x24 4, k := getN bs 0x28 4, cstride := getN bs 0x2C 4, astride := getN bs 0x30 4, bstride := getN bs 0x34 4,
        t := getN bs 0x38 4, afmt := af, bfmt := bf, cfmt := cf, bat := ctl.testBit 15, logn := ctl / 65536 % 32, capseq := 0, appseq := 0,
        entries := [], rowMarks := [], colMarks := [], rowCnt := [], colCnt := [], il := .init, hold := [], rej := 0, err := false, lost := false }
    let dim (x : Nat) : Bool := decide (1 ≤ x) && decide (x ≤ 65536)
    let stride (x w : Nat) : Bool := decide (x % 4 = 0) && decide (w ≤ x)
    if decide (b.cbase % 4 = 0) && decide (b.abase % 4 = 0) && decide (b.bbase % 4 = 0) && decide (b.lbase % 4096 = 0) && dim b.m && dim b.n && dim b.k &&
        stride b.cstride (4 * b.n) && stride b.astride (b.k * elemBytes af) && stride b.bstride (b.n * elemBytes bf) &&
        (cf != .i32 || (af == .i8 && bf == .i8)) && decide (4 ≤ b.logn) && decide (b.logn ≤ 20) && decide (ctl / 2 ^ 21 = 0) &&
        decide (getN bs 0x40 64 = 0) then some b else none
  | _, _, _ => none

/-- R297 holds of a new binding beside the live ones of its ASID, but for its limit of 4. -/
def bindApart (b : Binding) (live : List Binding) : Bool :=
  !((b.side false).extent.meets (b.side true).extent) && !b.treads b && live.all fun o => !b.treads o && !o.treads b

/-- A word would join a fifth binding (R297). -/
def bindFifth (b : Binding) (live : List Binding) : Bool :=
  decide (4 ≤ live.length) && [false, true].any fun opB => (b.side opB).words.any fun va =>
    decide (4 ≤ (live.filter fun o => [false, true].any fun x => ((o.side x).word va).isSome).length)

/-! ## BIND -/

/-- Some page of the extents is in host memory (R298). -/
def bindOutside (s : State) (b : Binding) : Bool :=
  b.walkPages.any fun p => match translate s b.pid b.asid (p.1 * 4096) with
    | .ok _ true _ _ => true
    | _ => false

/-- The walk of R301, page by page: how it ends, and where. -/
def bindWalk (b : Binding) (sys : Bool) : List (Nat × Need) → State → Acc Unit × Nat
  | [], s => (.ok () s, 0)
  | (p, need) :: rest, s =>
    match translate s b.pid b.asid (p * 4096) with
    | .ok _ _ perms s => if perms.allow need sys then bindWalk b sys rest s else (.fault 1, p * 4096)
    | .fault c => (.fault c, p * 4096)
    | .misplaced => (.misplaced, p * 4096)
    | .unbacked => (.unbacked, p * 4096)

/-- The slot of a new binding (R294): the lowest free one, within the limits of module and partition. -/
def State.freeBinding (s : State) (pid : BitVec 5) : Option Nat :=
  if Config.bindingsPerPartition ≤ (s.binds.filter fun b => b.pid == pid).length ∨ Config.bindingSlots ≤ s.binds.length then none
  else (List.range (s.binds.length + 1)).find? fun i => !(s.binds.any fun b => b.slot == i)

/-- The slot is allocated (R301): its tag advances, the log header and the cleared bitmaps are written. -/
def State.makeBinding (s : State) (b : Binding) (slot : Nat) : Dev Binding :=
  let tag := (storeGet 0 s.bindTag slot + 1) % 65536
  let b := { b with slot := slot, tag := BitVec.ofNat 16 tag }
  let s := { s with binds := s.binds ++ [b], bindTag := storePut 0 s.bindTag slot tag }
  (Dev.settled (speWrite s slot b.lbase (padTo 256 b.header ++ zeros (b.rb + b.cb)))).bind fun _ s => .ok b s

/-- The checks and the walk of BIND (R301), and its result. -/
def bindChecked (h : Hdr) (d : UReg) (a : Dword) (bs : List Byte) (s : State) : Out :=
  if a.toNat % 128 ≠ 0 then s.trap 0x0A 0
  else match bindingOf bs s.team.pid s.team.asid with
    | none => s.trap 0x01 a
    | some b =>
      let live := s.bindsOf b.pid b.asid
      if b.extents.any fun x => decide (2 ^ 52 < x.1.last) then s.trap 0x0B 0
      else
        if bindOutside s b || !bindApart b live then s.trap 0x01 a
        else match s.freeBinding b.pid with
          | none => s.trap 0x0F 0
          | some slot =>
            if bindFifth b live then s.trap 0x0F 0
            else match bindWalk b s.team.privileged b.walkPages s with
              | (.ok _ s, _) =>
                match s.makeBinding b slot with
                | .ok b s => .next ((s.writeU d b.handle).retire h 8)
                | _ => .next (s.waitHere false .retry)
              | (.fault c, va) => s.parkOne va .engineRead c
              | (e, va) => s.failOne e va .engineRead

/-- BIND (R301). -/
def execBind (h : Hdr) (o : UDA) (s : State) : Out :=
  if !s.acts h.guard then .next (s.retire h 8)
  else
    let a := s.readU o.a
    match s.flushTeam with
    | .ok _ s =>
      if 2 ^ 52 < a.toNat + 128 then s.trap 0x0B a
      else match engineReadRange s s.who a.toNat 128 with
        | .ok bs s => bindChecked h o.d a bs s
        | e => s.failOne e a.toNat .engineRead
    | .busy s => .next (s.waitHere false .retry)
    | _ => .fault .unbackedFrame

/-! ## UNBIND, SETTLE, QSTALE -/

/-- The held writes of a binding that has ended are performed in their order (R319), but for those that another binding holds too. -/
def releaseHeld (b : Binding) (s : State) : Dev Unit :=
  devEach (fun s (w : HeldWrite) =>
    if s.binds.any fun x => x.hold.any fun y => y.id == w.id then .ok () s else (performWord s b.pid b.asid w.va w.data w.be).orSkip s) b.hold s

/-- UNBIND (R319). -/
def execUnbind (h : Hdr) (o : UA) (s : State) : Out :=
  if !s.acts h.guard then .next (s.retire h 8)
  else match s.liveBinding (s.readU o.a) with
    | none => .next (s.retire h 8)
    | some b =>
      match releaseHeld b { s with binds := s.binds.filter fun x => x.slot != b.slot } with
      | .ok _ s => .next (s.retire h 8)
      | _ => .next (s.waitHere false .retry)

/-- The engine has reached what a SETTLE waits for (R316, R321). -/
def Binding.settled (b : Binding) (seq : Nat) : Bool := b.err || (b.il != .init && decide (seq ≤ b.appseq))

/-- SETTLE once its waits and its flush are over (R316): with the capture sequence `q` taken, it waits for the engine, and then recomputes what is marked. -/
def settleAt (h : Hdr) (handle : Dword) (lim q : Nat) (s : State) : Out :=
  match s.liveBinding handle with
  | none => .next (s.retire h 8)
  | some b =>
    let again : Out := .next (s.waitHere true (.settle handle lim (some q)))
    if !b.settled q then again
    else match speSettle b.slot s with
      | .ok _ s => .next (s.selfInv.retire h 8)
      | _ => again

/-- SETTLE (R316 to R318): on a handle that is not live, or no longer, it has no effect. -/
def execSettle (h : Hdr) (o : UA) (s : State) : Out :=
  if !s.acts h.guard then .next (s.retire h 8)
  else
    let lim := s.waitLimit
    let (handle, q) : Dword × Option Nat := match s.path.wait with | some (.settle x _ q) => (x, q) | _ => (s.readU o.a, none)
    match s.liveBinding handle, q with
    | none, _ => .next (s.retire h 8)
    | some _, some q => settleAt h handle lim q s
    | some b, none =>
      let wait := Wait.settle handle lim none
      match s.awaitEngines true wait (s.team.copies.filter fun c => decide (c.id < lim)) (s.team.chains.filter fun c => decide (c.id < lim)) with
      | some out => out
      | none =>
        if s.team.matq.any fun e => decide (e.order < lim) then .next (s.waitHere true wait)
        else match s.flushTeam with
          | .ok _ s => settleAt h handle lim ((s.binding b.slot).elim 0 (·.capseq)) s
          | .busy s => .next (s.waitHere true wait)
          | _ => .fault .unbackedFrame

/-- The common form of QSTALE (R320). Its snapshot is taken in the step that issues it, where R320 allows any moment up to the write (DESIGN CHOICE, log 29). -/
def qstaleWith (h : Hdr) (o : UDA) (f : Binding → Nat) (s : State) : Out :=
  if !s.acts h.guard then .next (s.retire h 8)
  else
    let v := match s.liveBinding (s.readU o.a) with | some b => f b | none => 0
    .next ((s.writeU o.d (BitVec.ofNat 64 v)).retire h 8)

/-- QSTALE .cnt (R320). -/
def execQstaleCnt (h : Hdr) (o : UDA) (s : State) : Out := qstaleWith h o (fun b => b.pending + 2 ^ 32 * b.coarse) s
/-- QSTALE .state (R320). -/
def execQstaleState (h : Hdr) (o : UDA) (s : State) : Out :=
  qstaleWith h o (fun b => 2 ^ 63 + (if b.err then 2 ^ 36 else 0) + (if b.hold = [] then 0 else 2 ^ 35) + 2 ^ 32 * b.il.code + b.maxCnt % 2 ^ 32) s
/-- QSTALE .cap (R320). -/
def execQstaleCap (h : Hdr) (o : UDA) (s : State) : Out := qstaleWith h o (·.capseq) s
/-- QSTALE .app (R320). -/
def execQstaleApp (h : Hdr) (o : UDA) (s : State) : Out := qstaleWith h o (·.appseq) s

end Sys2Proof.Machine
end

