-- ==== Sys2Proof/Machine/Registers.lean ====
section
/-! DEFINITION. The registers of the function register block (R67, R92, R94, R103, R123, R127, R351, R388, R425) and of the management function (R117,
R123, R442, R443): reads, writes and the fields that a write changes. -/
namespace Sys2Proof.Machine

/-- The bits hi:lo of a value, in their place. -/
def bits (v : Dword) (hi lo : Nat) : Dword := BitVec.ofNat 64 (field v hi lo * 2 ^ lo)

/-- XRWAY (R92): a legal write sets floor and ceiling and clamps S on each die at once. -/
def Partition.putXrway (p : Partition) (v : Dword) : Partition :=
  let c := field v 11 8
  let f := field v 3 0
  if c < f ∨ 8 < c then p else { p with ceil := c, floor := f, share := p.share.map fun x => max f (min c x) }

/-- Some team of the partition lives or is queued. -/
def State.anyTeam (s : State) (pid : BitVec 5) : Bool := (s.live.any fun t => t.pid == pid) || !(s.deqs pid).isEmpty

/-- The partition manager sets V only for a frame on the die that the guest address names, and in a channel set that the partition owns (R66). -/
def Partition.stageOk (p : Partition) (chanSets : Store (List Nat)) (i : Nat) (v : Dword) : Bool :=
  let set := storeGet [] chanSets (field v 51 21)
  decide (i < 2 ^ 19) && (!v.getLsbD 0 || (field v 51 40 == 0 && p.dies[i / 2 ^ 17]? == some (field v 39 38) && !set.isEmpty &&
    set.all fun c => p.channels.contains c))

/-- The channel sets that the partition manager may give a frame (R58): 1 to 128 channels, a power of two, of the frame's die, each once, all owned by one
partition. -/
def State.channelSetOk (s : State) (frame : Nat) (set : List Nat) : Bool :=
  [1, 2, 4, 8, 16, 32, 64, 128].contains set.length && decide (frame < 2 ^ 19) && (set.all fun c => c / 128 == frame / 2 ^ 17) && set.Nodup &&
    s.parts.any fun p => set.all fun c => p.channels.contains c

/-- The frame backs guest memory of some partition (R66). -/
def State.frameUsed (s : State) (frame : Nat) : Bool := s.parts.any fun p => p.stage2.any fun e => e.2.getLsbD 0 && field e.2 51 21 == frame

/-- A write to a register of a partition's block by its name's RW fields (R67, R351, R388, R425, R439); the frame pool and the save slots keep their
registers while a team lives, XHWIN and XHPM while the interface is bound. -/
def Partition.putReg (p : Partition) (chanSets : Store (List Nat)) (r : RegName) (v : Dword) (live : Bool) : Partition :=
  match r with
  | .xasid _ => { p with xasid := bits v 51 12 }
  | .xfpool _ => if live then p else { p with xfpool := bits v 51 12 }
  | .xfpsz _ => if live then p else { p with xfpsz := bits v 31 0 }
  | .xsched _ => { p with xsched := bits v 23 16 ||| bits v 7 0 }
  | .xfq _ => { p with xfq := bits v 26 16 ||| bits v 10 0 }
  | .xfqdb _ => { p with xfqdb := bits v 51 3 }
  | .xtrapent _ => { p with xtrapent := bits v 51 2 }
  | .xsvpool _ => if live then p else { p with xsvpool := bits v 51 21 }
  | .xsvcnt _ => if live then p else { p with xsvcnt := bits v 31 0 }
  | .xlaunch _ => { p with xlaunch := bits v 51 12 }
  | .xhwin _ => if p.bound then p else { p with xhwin := bits v 16 0 }
  | .xhpm _ => if p.bound then p else { p with xhpm := bits v 53 18 ||| bits v 0 0 }
  | .stage2 _ i => if p.stageOk chanSets i v then { p with stage2 := storePut 0 p.stage2 i (bits v 51 21 ||| bits v 0 0) } else p
  | .fabsus => p
  | .mpwr => p
  | .channelSet .. => p
  | .object .. => p
  | .retire _ => p

/-- The partition whose register it is; `none` for the management function's. -/
def regPid : RegName → Option (BitVec 5)
  | .xasid p | .xfpool p | .xfpsz p | .xsched p | .xfq p | .xfqdb p | .xtrapent p | .xsvpool p | .xsvcnt p | .xlaunch p | .xhwin p | .xhpm p => some p
  | .stage2 p _ => some p
  | .fabsus => none
  | .mpwr => none
  | .channelSet .. => none
  | .object .. => none
  | .retire _ => none

/-- The record of a code object that the runtime has loaded (R459), in place of one for the same base. The window is rounded up to 4 KiB (R136); `zilasm`
makes no record with other counts. -/
def State.loadObject (s : State) (o : CodeObj) : State :=
  if 1 ≤ o.vregs ∧ o.vregs ≤ 256 ∧ o.tiles ≤ 8 ∧ o.window ≤ Config.stagingMax then
    { s with objects := { o with window := roundUp o.window 4096 } ::
        s.objects.filter fun x => !(x.pid == o.pid && x.asid == o.asid && x.base == o.base) }
  else s

/-- The system frames that back a partition's guest memory (R66). -/
def Partition.sysFrames (p : Partition) : List Nat := (p.stage2.filter fun e => e.2.getLsbD 0).map fun e => field e.2 51 21

/-- The frames that lie on the partition's channels: those whose channel set it owns (R58), mapped by its second stage or not, and those that its second stage
maps. -/
def State.ownFrames (s : State) (p : Partition) : List Nat :=
  p.sysFrames ++ (s.chanSets.filter fun c => !c.2.isEmpty && c.2.all p.channels.contains).map (·.1)

/-- HBM frames lose their contents (R429): they read as any value until written. -/
def State.loseFrames (s : State) (fs : List Nat) : State :=
  { s with mem := s.mem.filter fun c => !fs.contains (c.1 / 2097152), haq := s.haq.filter fun w => !fs.contains (w.spa / 2097152),
           lost := ⟨some fs, s.epoch⟩ :: s.lost, epoch := s.epoch + 1 }

/-- A frame is given a channel set (R58): its bytes lie on other channels than before, where it had another set or none, and are any value (DESIGN CHOICE, log
61). -/
def State.setChannels (s : State) (frame : Nat) (set : List Nat) : State :=
  if storeGet [] s.chanSets frame = set then s else { s with chanSets := storePut [] s.chanSets frame set }.loseFrames [frame]

/-- The unit exists that the retirement list would name. -/
def isUnit (u : Nat) : Bool := decide (u < 48) || (decide (64 ≤ u) && decide (u < 320)) || (decide (1024 ≤ u) && decide (u < 1536))

/-- The management function retires a unit (R422): it is removed from a partition when that is next created. -/
def State.retireUnit (s : State) (u : Nat) : State :=
  if isUnit u && !s.retiredUnits.contains u then { s with retiredUnits := u :: s.retiredUnits } else s

/-- A write to a register (R7), the assignment of a frame to a channel set (R58), which stands as long as the frame backs guest memory (DESIGN CHOICE,
log 61), the record of a code object (R459), or the retirement of a unit (R422; that the list is written so is the model's, DESIGN CHOICE, log 61). -/
def State.writeReg (s : State) (r : RegName) (v : Dword) : State :=
  match r with
  | .fabsus => if field v 15 0 < 64 then s else { s with tsus := field v 15 0 }
  | .mpwr => if 2800 < field v 15 0 then s else { s with limit := field v 15 0 }
  | .channelSet frame set =>
    if s.channelSetOk frame set && !s.frameUsed frame then s.setChannels frame set else s
  | .object pid asid base size vregs tiles window => s.loadObject ⟨pid, asid, base, size, vregs, tiles, window⟩
  | .retire u => s.retireUnit u
  | r =>
    match regPid r with
    | none => s
    | some pid => let live := s.anyTeam pid; s.mapPart pid fun p => p.putReg s.chanSets r v live

/-- PSWR FN 1 (R417): the registers that a system team writes, by their offsets. -/
def State.writeOffset (s : State) (pid : BitVec 5) (off : Nat) (v : Dword) : State :=
  match off with
  | 0x1000 => s.writeReg (.xasid pid) v
  | 0x1008 => s.mapPart pid fun p => p.putXrway v
  | 0x1040 => s.writeReg (.xsched pid) v
  | 0x1050 => s.writeReg (.xfqdb pid) v
  | 0x1058 => s.writeReg (.xtrapent pid) v
  | 0x1070 => s.writeReg (.xlaunch pid) v
  | _ => s

/-- XRSHR (R94): the dies as the partition numbers them (R8, R13). -/
def Partition.xrshr (p : Partition) : Dword :=
  BitVec.ofNat 64 ((List.range 4).foldl (fun n d =>
    n + (if d < p.dies.length then p.share.getD d 0 else 0) * 2 ^ (4 * d)) 0)

/-- XPINFO, XASIDR, XHWR, XERR, XHSTAT (R425). -/
def Partition.xpinfo (p : Partition) : Dword :=
  BitVec.ofNat 64 (p.weight * 2 ^ 56 + p.keyslot * 2 ^ 48 + p.channels.length * 2 ^ 32 + p.banks.length * 2 ^ 23 + p.quads.length * 2 ^ 16 +
    p.dies.length * 2 ^ 8 + p.pid.toNat)
def Partition.xasidr (p : Partition) : Dword := BitVec.ofNat 64 (p.last1 * 2 ^ 48 + p.base1 * 2 ^ 32 + p.last0 * 2 ^ 16 + p.base0)
def Partition.xhwr (p : Partition) : Dword := BitVec.ofNat 64 (p.hwLast * 2 ^ 32 + p.hwBase)
def Partition.xerr (p : Partition) : Dword := bit64 63 p.err ||| p.cause.setWidth 64
def Partition.xhstat (p : Partition) : Dword := BitVec.ofNat 64 (p.drop * 2 ^ 32 + p.hfault)
def Partition.xrway (p : Partition) : Dword := BitVec.ofNat 64 (p.ceil * 256 + p.floor)

/-- A register of a partition's block as a read without effect finds it. -/
def Partition.getReg (p : Partition) (off : Nat) : Dword :=
  match off with
  | 0x1000 => p.xasid
  | 0x1008 => p.xrway
  | 0x1010 => p.xrshr
  | 0x1018 => BitVec.ofNat 64 p.xnullack
  | 0x1020 => BitVec.ofNat 64 p.xrecov
  | 0x1028 => BitVec.ofNat 64 p.xreject
  | 0x1030 => p.xfpool
  | 0x1038 => p.xfpsz
  | 0x1040 => p.xsched
  | 0x1048 => p.xfq
  | 0x1050 => p.xfqdb
  | 0x1058 => p.xtrapent
  | 0x1060 => p.xsvpool
  | 0x1068 => p.xsvcnt
  | 0x1070 => p.xlaunch
  | 0x1078 => p.xpinfo
  | 0x1080 => p.xasidr
  | 0x1088 => p.xerr
  | 0x1090 => p.xhwin
  | 0x1098 => p.xhpm
  | 0x10A0 => p.xhwr
  | 0x10A8 => p.xhstat
  | _ => 0

/-- FABSUS, FABREC, MPWR and MDUMP (R117, R123, R442, R443). -/
def State.getMgmt (s : State) (off : Nat) : Dword :=
  match off with
  | 0x2000 => BitVec.ofNat 64 s.tsus
  | 0x2008 => BitVec.ofNat 64 (s.rescues % 2 ^ 32 + s.reissues % 2 ^ 16 * 2 ^ 32)
  | 0x2010 => bit64 16 s.alarm ||| BitVec.ofNat 64 s.limit
  | 0x2018 => BitVec.ofNat 64 s.dump
  | _ => 0

end Sys2Proof.Machine
end

