-- ==== Sys2Proof/Machine/Privileged.lean ====
section
/-! DEFINITION. The privileged family (R402 to R404, R412 to R418): TLBI, CINV, REPLAY, KILL, FQPOP, PSWR, PREEMPT. -/
namespace Sys2Proof.Machine

/-! ## Ranges -/

/-- The bytes that an invalidation covers: an ASID (`none`: every ASID), from `lo` up to `hi`. -/
structure Cover where
  asid : Option (BitVec 16)
  lo   : Nat
  hi   : Nat

/-- How a `.va` range reads (R413): no effect, a trap, or a cover widened to pages. -/
inductive RangeArg where
  | nothing
  | reach
  | cover (c : Cover)

def State.rangeArg (s : State) (o : RangeO) : RangeArg :=
  let a := (s.readU o.a).toNat
  let n := (s.readU o.b).toNat
  if n = 0 then .nothing
  else if 2 ^ 52 < a + n then .reach
  else .cover ⟨some ((s.readU o.c).setWidth 16), a / 4096 * 4096, (a + n + 4095) / 4096 * 4096⟩

/-- The cover's ASID is the partition's (R412). -/
def State.coverOurs (s : State) (c : Cover) : Bool :=
  match c.asid, s.part s.team.pid with
  | some a, some p => p.ownsAsid a
  | none, some _ => true
  | _, none => false

def Cover.has (c : Cover) (asid : BitVec 16) (lo hi : Nat) : Bool := (c.asid == none || c.asid == some asid) && decide (c.lo < hi) && decide (lo < c.hi)

/-! ## TLBI -/

/-- TLBI (R404): TLB entries and walk-cache entries go, the cached ASID entries with `.asid` and `.all`; the windows that it covers close. -/
def State.tlbi (s : State) (pid : BitVec 5) (c : Cover) (whole : Bool) : State :=
  { s with
    tlb := s.tlb.filter fun t => !(t.pid == pid && c.has t.asid t.base (t.base + t.size)),
    walks := s.walks.filter fun w => !(w.pid == pid && c.has w.asid w.lo w.hi && (whole || decide (w.hi - w.lo < 2 ^ 52))),
    shoots := s.shoots.filter fun w => !(w.pid == pid && (c.asid == none || c.asid == w.asid) && decide (c.lo ≤ w.lo) && decide (w.hi ≤ c.hi)) }

def wholeSpace (asid : Option (BitVec 16)) : Cover := ⟨asid, 0, 2 ^ 52⟩

/-- The common form of TLBI. -/
def tlbiWith (h : Hdr) (c : Cover) (whole : Bool) (s : State) : Out :=
  .next ((if s.acts h.guard && s.coverOurs c then s.tlbi s.team.pid c whole else s).retire h 8)

/-- TLBI.va (R404, R413). -/
def execTlbiVa (h : Hdr) (o : RangeO) (s : State) : Out :=
  if !s.acts h.guard then .next (s.retire h 8)
  else match s.rangeArg o with
    | .nothing => .next (s.retire h 8)
    | .reach => s.trap 0x0B 0
    | .cover c => tlbiWith h c false s

/-- TLBI.asid (R404). -/
def execTlbiAsid (h : Hdr) (o : UC) (s : State) : Out := tlbiWith h (wholeSpace (some ((s.readU o.c).setWidth 16))) true s
/-- TLBI.all (R404). -/
def execTlbiAll (h : Hdr) (s : State) : Out := tlbiWith h (wholeSpace none) true s

/-! ## CINV -/

/-- The lines of a key list that a cover names, in one L1: dirty words go home, the lines are dropped (R402). -/
def cinvCore (pid : BitVec 5) (c : Cover) (s : State) (core : Nat) : Acc Unit :=
  let hit (l : L1Line) : Bool := l.key.pid == pid && c.has l.key.asid l.key.va (l.key.va + 128)
  match flushLines core 0 ((s.core core).l1.filter hit) s with
  | .ok _ s =>
    let x := s.core core
    if x.acks.any fun a => a.kind.writes && a.key.pid == pid && c.has a.key.asid a.key.va (a.key.va + 128) then .busy s
    else .ok () (s.putCore core { x with l1 := x.l1.filter fun l => !hit l })
  | a => a

def cinvCores (pid : BitVec 5) (c : Cover) : List Nat → State → Acc Unit
  | [], s => .ok () s
  | k :: rest, s =>
    match cinvCore pid c s k with
    | .ok _ s => cinvCores pid c rest s
    | a => a

/-- The home lines of a bank that a cover names go, with every copy of them (R402). -/
def cinvHomes (pid : BitVec 5) (c : Cover) (s : State) (bank : Nat) : State :=
  let hit (l : L2Line) : Bool := l.key.pid == pid && c.has l.key.asid l.key.va (l.key.va + 128)
  ((s.bank bank).lines.filter fun l => hit l && !l.remote).foldl (fun s l =>
    match (s.bank bank).find l.key false with
    | some l => evictHome s bank l
    | none => s) s

/-- The remote copies of a bank that a cover names go (R402): their home lines have taken back what they owned. -/
def cinvCopies (pid : BitVec 5) (c : Cover) (s : State) (bank : Nat) : State :=
  let hit (l : L2Line) : Bool := l.key.pid == pid && c.has l.key.asid l.key.va (l.key.va + 128)
  let b := s.bank bank
  s.putBank bank { b with lines := b.lines.filter fun l => !(hit l && l.remote) }

/-- A message that brings words home under a cover is under way. -/
def State.bringing (s : State) (pid : BitVec 5) (c : Cover) : Bool :=
  s.msgs.any fun p =>
    let hit (k : LineKey) : Bool := k.pid == pid && c.has k.asid k.va (k.va + 128)
    match p.msg with
    | .wb k .. => hit k
    | .write k .. => hit k
    | _ => false

/-- An MTU serves the partition (R127). -/
def Partition.mtus (p : Partition) : List Nat := dedupe (p.banks.map (· / 16))

/-- The windows that an MTU records (R404). -/
def State.windowsOf (s : State) (mtu : Nat) : List ShootWindow :=
  s.shoots.filter fun w => match s.part w.pid with | some p => p.mtus.contains mtu | none => false

/-- A window opens (R404): a ninth in an MTU first performs the TLBI of that MTU's oldest window. -/
def State.openWindow (s : State) (p : Partition) (c : Cover) (whole : Bool) : State :=
  let w : ShootWindow := ⟨p.pid, c.asid, c.lo, c.hi, whole⟩
  if s.shoots.contains w then s
  else
    let s := p.mtus.foldl (fun s m =>
      match s.windowsOf m with
      | x :: rest => if rest.length + 1 < Config.mtuWindows then s else s.tlbi x.pid ⟨x.asid, x.lo, x.hi⟩ x.whole
      | [] => s) s
    { s with shoots := s.shoots ++ [w] }

/-- CINV of a cover (R402): held writes of the range are waited for, then every core and bank of the partition is done. -/
def State.cinv (s : State) (p : Partition) (c : Cover) (whole : Bool) : Acc Unit :=
  let s := s.openWindow p c whole
  if s.binds.any fun b => b.pid == p.pid && b.hold.any fun h => c.has b.asid h.va (h.va + 4) then .busy s
  else if p.banks.any fun b => (s.bank b).txns.any fun t => t.key.pid == p.pid && c.has t.key.asid t.key.va (t.key.va + 128) then .busy s
  else match cinvCores p.pid c (p.quads.flatMap fun q => (List.range 4).map (4 * q + ·)) s with
    | .ok _ s => if s.bringing p.pid c then .busy s else .ok () (p.banks.foldl (cinvCopies p.pid c) (p.banks.foldl (cinvHomes p.pid c) s))
    | a => a

/-- The common form of CINV: it holds issue until it completes (R412). -/
def cinvWith (h : Hdr) (c : Cover) (whole : Bool) (s : State) : Out :=
  if !(s.acts h.guard && s.coverOurs c) then .next (s.retire h 8)
  else match s.part s.team.pid with
    | none => .next (s.retire h 8)
    | some p =>
      match s.cinv p c whole with
      | .ok _ s => .next (s.retire h 8)
      | .busy s => .next (s.waitHere false .retry)
      | _ => .fault .unbackedFrame

/-- CINV.va (R402, R413). -/
def execCinvVa (h : Hdr) (o : RangeO) (s : State) : Out :=
  if !s.acts h.guard then .next (s.retire h 8)
  else match s.rangeArg o with
    | .nothing => .next (s.retire h 8)
    | .reach => s.trap 0x0B 0
    | .cover c => cinvWith h c false s

/-- CINV.asid (R402). -/
def execCinvAsid (h : Hdr) (o : UC) (s : State) : Out := cinvWith h (wholeSpace (some ((s.readU o.c).setWidth 16))) true s
/-- CINV.all (R402). -/
def execCinvAll (h : Hdr) (s : State) : Out := cinvWith h (wholeSpace none) true s

/-! ## REPLAY -/

/-- The fault that a team is parked on, in the range (R414). -/
def Team.parkedIn (t : Team) (asid : BitVec 16) (lo hi : Nat) : Option FaultAt :=
  match t.park with
  | some k => k.faults.find? fun f => f.asid == asid && decide (lo ≤ f.va) && decide (f.va < hi)
  | none => none

/-- Suspended engine operations of the range resume, whether or not their team waits for them already (R176). -/
def Team.resumeEngines (t : Team) (asid : BitVec 16) (lo hi : Nat) : Team :=
  let go (a : BitVec 16) (o : Option (EngineStop × Nat)) : Option (EngineStop × Nat) :=
    match o with
    | some (.fault, va) => if a = asid ∧ lo ≤ va ∧ va < hi then none else o
    | _ => o
  { t with copies := t.copies.map fun c => { c with stop := go c.asid c.stop }, chains := t.chains.map fun c => { c with stop := go c.asid c.stop } }

/-- A parked team goes on (R414): its instruction executes again for the unfinished lanes, in a new run. -/
def Team.unpark (t : Team) (cycle : Nat) : Team :=
  match t.park with
  | none => t
  | some k =>
    let t := { (t.startRun k.slot) with park := none }
    t.setPath k.slot ((t.path k.slot).map fun p =>
      { p with wait := none, gaveUp := false, runCount := if p.charged then 1 else 0, prev := none, readyAt := cycle, redo := if k.engine then p.redo else some k.unfinished })

/-- The suspended operations for which a team has parked at a wait (R176, R414). -/
def Team.parkedOps (t : Team) (k : Park) : List Nat :=
  let named (asid : BitVec 16) (o : Option (EngineStop × Nat)) : Bool := k.engine && match o with | some (_, va) => k.faults.any fun f => f.asid == asid && f.va == va | none => false
  ((t.copies.filter fun c => named c.asid c.stop).map (·.id)) ++ (t.chains.filter fun c => named c.asid c.stop).map (·.id)

/-- A parked team's instruction is to trap with code 0x0B (R414). -/
def Team.deliver (t : Team) (va : Nat) : Team :=
  match t.park with
  | none => t
  | some k => ({ t.dropStopped .fault (t.parkedOps k) with park := none } : Team).setPath k.slot
      ((t.path k.slot).map fun p => { p with wait := some (.trapping 0x0B (BitVec.ofNat 64 va)), gaveUp := false })

/-- Every suspended engine operation of a team resumes (R414). -/
def Team.resumeAll (t : Team) : Team :=
  let go (o : Option (EngineStop × Nat)) : Option (EngineStop × Nat) := match o with | some (.fault, _) => none | _ => o
  { t with copies := t.copies.map fun c => { c with stop := go c.stop }, chains := t.chains.map fun c => { c with stop := go c.stop } }

/-- REPLAY of one team; with `dlv` its instruction traps with code 0x0B (R414). -/
def State.replayTeam (s : State) (t : Team) (f : FaultAt) (dlv : Bool) : State :=
  let s := s.mapTeam t.pid t.id fun t => if dlv then t.deliver f.va else (t.unpark s.cycle).resumeAll
  if t.phase = .saved then s.pushSaved t.pid t.id else s

/-- The common form of REPLAY (R414). -/
def replayWith (h : Hdr) (o : ReplayO) (dlv : Bool) (s : State) : Out :=
  if !s.acts h.guard then .next (s.retire h 8)
  else
    let a := s.readU o.a
    let n := if o.c = 0 ∨ s.readU o.c = 0 then 1 else (s.readU o.c).toNat
    let asid : BitVec 16 := (s.readU o.b).setWidth 16
    let lo := a.toNat / 4096 * 4096
    let hi := (a.toNat + n + 4095) / 4096 * 4096
    let hit := s.live.filterMap fun t => if t.pid = s.team.pid then (t.parkedIn asid lo hi).map fun f => (t, f) else none
    let s := hit.foldl (fun s x => s.replayTeam x.1 x.2 dlv) s
    let wake (t : Team) : Team := if t.pid = s.team.pid then t.resumeEngines asid lo hi else t
    let s := if dlv then s else { s with team := wake s.team, teams := s.teams.map wake }
    .next ((s.writeU o.d (BitVec.ofNat 64 hit.length)).retire h 8)

/-- REPLAY (R414). -/
def execReplay (h : Hdr) (o : ReplayO) (s : State) : Out := replayWith h o false s
/-- REPLAY.dlv (R414). -/
def execReplayDlv (h : Hdr) (o : ReplayO) (s : State) : Out := replayWith h o true s

/-! ## KILL -/

/-- The fields of a team word (R415). -/
def wordTeam (w : Dword) : Nat := field w 31 0
def wordGenOk (w : Dword) (gen : BitVec 16) : Bool := !w.getLsbD 63 || decide (field w 47 32 = gen.toNat)

/-- The team of the partition with a TEAMID, by its low 32 bits. -/
def State.teamNamed (s : State) (pid : BitVec 5) (id : Nat) : Option Team := s.live.find? fun t => t.pid == pid && decide (t.id % 2 ^ 32 = id)

/-- The deque entry and index of a queued child with a TEAMID (R325, R415). -/
def State.queuedNamed (s : State) (pid : BitVec 5) (id : Nat) : Option (DeqEnt × Nat) :=
  (s.deqs pid).findSome? fun e => match e.kind with
    | .spawn spec next first _ cancelled =>
      ((List.range spec.size).find? fun k => decide (next ≤ k) && !cancelled.contains k && decide ((first + k) % 2 ^ 32 = id)).map fun k => (e, k)
    | _ => none

/-- A queued child ends (R415): it leaves its entry, and its spawner counts it. -/
def State.killQueued (s : State) (e : DeqEnt) (k : Nat) (status : Word) : State :=
  match e.kind with
  | .spawn spec next first frames cancelled =>
    let left := (List.range spec.size).filter fun i => decide (next ≤ i) && !(k :: cancelled).contains i
    let s := if left = [] then s.dropEntry e else s.mapEntry e.pid e.age fun x => { x with kind := .spawn spec next first frames (k :: cancelled) }
    let t := { spec.born (first + k) k (frames.getD k 0) 0 0 0 s.cycle with phase := .saved, slotNo := none }
    finishTeam s.teamFuel s t (some ⟨s.cycle, first + k, status⟩)
  | _ => s

/-- KILL (R415). -/
def execKill (h : Hdr) (o : KillO) (s : State) : Out :=
  if !s.acts h.guard then .next (s.retire h 8)
  else
    let w := s.readU o.a
    let status : Word := (s.readU o.b).setWidth 32
    let miss : Out := .next ((s.writeU o.d 0).retire h 8)
    match s.teamNamed s.team.pid (wordTeam w) with
    | some t =>
      if t.id = s.team.id ∨ !wordGenOk w t.gen then miss
      else
        match s.killFamily t.pid t.id status with
        | .ok _ s => if s.team.phase = .ended then .next s else .next ((s.writeU o.d 1).retire h 8)
        | .busy s => .next (s.waitHere false .retry)
        | _ => .fault .unbackedFrame
    | none =>
      match s.queuedNamed s.team.pid (wordTeam w) with
      | some (e, k) => if wordGenOk w 0 then .next (((s.killQueued e k status).writeU o.d 1).retire h 8) else miss
      | none => miss

/-! ## FQPOP, PSWR, PREEMPT -/

/-- FQPOP (R416): the oldest entry, or zeros; the entry that it frees goes to the partition's oldest waiting fault (R398). -/
def execFqpop (h : Hdr) (o : UD) (s : State) : Out :=
  if !s.acts h.guard then .next (s.retire h 8)
  else
    let e := s.fq.find? fun e => e.pid == s.team.pid
    let ws := match e with | some e => e.words | none => [0, 0, 0, 0]
    let s := match e with | some e => State.admitFault { s with fq := s.fq.erase e } s.team.pid | none => s
    .next (((List.range 4).foldl (fun s i => s.writeU (o.d + BitVec.ofNat 7 i) (ws.getD i 0)) s).retire h 8)

/-- PSWR (R417): TRAPCODE, TRAPPC and TRAPVA whole, any other register as SWR writes it. -/
def execPswr (h : Hdr) (o : PswrO) (s : State) : Out :=
  if !s.acts h.guard then .next (s.retire h 8)
  else
    let v := s.readU o.b
    let s := match o.num.toNat with
      | 0x17 => { s with team := { s.team with trapcode := v } }
      | 0x18 => { s with team := { s.team with trappc := v } }
      | 0x19 => { s with team := { s.team with trapva := v } }
      | _ => s.writeSpecial o.num v
    .next (s.retire h 8)

/-- PSWR.x (R417). -/
def execPswrX (h : Hdr) (o : PswrXO) (s : State) : Out :=
  if !s.acts h.guard then .next (s.retire h 12)
  else if o.off.toNat % 8 ≠ 0 then s.trap 0x01 0
  else .next ((s.writeOffset s.team.pid o.off.toNat (s.readU o.b)).retire h 12)

/-- PSWR.spawn (R393, R417). -/
def execPswrSpawn (h : Hdr) (o : UA) (s : State) : Out :=
  .next ((if s.acts h.guard then { s with team := { s.team with attr := some (s.readU o.a) } } else s).retire h 8)

/-- A request registers (R405, R418): it merges with one that is pending, and hard prevails. -/
def Team.request (t : Team) (hard : Bool) (cycle : Nat) : Team :=
  { t with preempt := match t.preempt with
      | some r => some { r with hard := r.hard || hard }
      | none => some ⟨hard, cycle, false⟩ }

/-- With GRACE 0 every request is hard at once (R388). -/
def State.hardNow (s : State) (pid : BitVec 5) : Bool := match s.part pid with | some p => decide (field p.xsched 23 16 = 0) | none => false

/-- The common form of PREEMPT (R418). -/
def preemptWith (h : Hdr) (o : UDA) (hard : Bool) (s : State) : Out :=
  if !s.acts h.guard then .next (s.retire h 8)
  else
    let w := s.readU o.a
    match s.teamNamed s.team.pid (wordTeam w) with
    | some t =>
      if t.id = s.team.id ∨ !wordGenOk w t.gen ∨ t.phase ≠ .resident then .next ((s.writeU o.d 0).retire h 8)
      else .next (((s.mapTeam t.pid t.id fun x => x.request (hard || s.hardNow t.pid) s.cycle).writeU o.d 1).retire h 8)
    | none => .next ((s.writeU o.d 0).retire h 8)

/-- PREEMPT (R405, R418). -/
def execPreempt (h : Hdr) (o : UDA) (s : State) : Out := preemptWith h o false s
/-- PREEMPT.hard (R406, R418). -/
def execPreemptHard (h : Hdr) (o : UDA) (s : State) : Out := preemptWith h o true s

end Sys2Proof.Machine
end

