-- ==== Sys2Proof/Machine/Uniform.lean ====
section
/-! DEFINITION. The uniform forms, OP 0x20 to 0x35 (R231 to R243). Each acts once for the path, when its guard selects a lane (R37). -/
namespace Sys2Proof.Machine

/-- Write of a uniform result under the guard, and retirement: the shape of every uniform form (R37, R237). -/
def uniformForm (h : Hdr) (n : Nat) (d : UReg) (v : Dword) (s : State) : Out :=
  .next ((if s.acts h.guard then s.writeU d v else s).retire h n)

/-- SADD (R238, R239, R240, R233). -/
def execSadd (h : Hdr) (o : U2) (s : State) : Out :=
  uniformForm h o.b.bytes o.d (uniformResult o.ty (intAdd o.ty o.sat (s.readUTy o.ty o.a) (s.usrc o.ty o.b))) s

/-- SSUB (R238, R239, R240, R233). -/
def execSsub (h : Hdr) (o : U2) (s : State) : Out :=
  uniformForm h o.b.bytes o.d (uniformResult o.ty (intSub o.ty o.sat (s.readUTy o.ty o.a) (s.usrc o.ty o.b))) s

/-- SMUL (R238, R239, R240, R233). -/
def execSmul (h : Hdr) (o : U2) (s : State) : Out :=
  uniformForm h o.b.bytes o.d (uniformResult o.ty (intMul o.ty o.sat (s.readUTy o.ty o.a) (s.usrc o.ty o.b))) s

/-- SMULH (R238, R239, R240, R233). -/
def execSmulh (h : Hdr) (o : U2) (s : State) : Out :=
  uniformForm h o.b.bytes o.d (uniformResult o.ty (intMulh o.ty (s.readUTy o.ty o.a) (s.usrc o.ty o.b))) s

/-- SDIV (R238, R239, R240, R233). -/
def execSdiv (h : Hdr) (o : U2) (s : State) : Out :=
  uniformForm h o.b.bytes o.d (uniformResult o.ty (intDiv o.ty (s.readUTy o.ty o.a) (s.usrc o.ty o.b))) s

/-- SREM (R238, R239, R240, R233). -/
def execSrem (h : Hdr) (o : U2) (s : State) : Out :=
  uniformForm h o.b.bytes o.d (uniformResult o.ty (intRem o.ty (s.readUTy o.ty o.a) (s.usrc o.ty o.b))) s

/-- SMIN (R238, R239, R240, R233). -/
def execSmin (h : Hdr) (o : U2) (s : State) : Out :=
  uniformForm h o.b.bytes o.d (uniformResult o.ty (intMin o.ty (s.readUTy o.ty o.a) (s.usrc o.ty o.b))) s

/-- SMAX (R238, R239, R240, R233). -/
def execSmax (h : Hdr) (o : U2) (s : State) : Out :=
  uniformForm h o.b.bytes o.d (uniformResult o.ty (intMax o.ty (s.readUTy o.ty o.a) (s.usrc o.ty o.b))) s

/-- SAND (R239). -/
def execSand (h : Hdr) (o : U2) (s : State) : Out :=
  uniformForm h o.b.bytes o.d (uniformResult o.ty (s.readUTy o.ty o.a &&& s.usrc o.ty o.b)) s

/-- SOR (R239). -/
def execSor (h : Hdr) (o : U2) (s : State) : Out :=
  uniformForm h o.b.bytes o.d (uniformResult o.ty (s.readUTy o.ty o.a ||| s.usrc o.ty o.b)) s

/-- SXOR (R239). -/
def execSxor (h : Hdr) (o : U2) (s : State) : Out :=
  uniformForm h o.b.bytes o.d (uniformResult o.ty (s.readUTy o.ty o.a ^^^ s.usrc o.ty o.b)) s

/-- SSHL (R239): a control operand. -/
def execSshl (h : Hdr) (o : U2) (s : State) : Out :=
  uniformForm h o.b.bytes o.d (uniformResult o.ty (intShl o.ty (s.readUTy o.ty o.a) (s.uctl o.b))) s

/-- SSHR (R239): a control operand. -/
def execSshr (h : Hdr) (o : U2) (s : State) : Out :=
  uniformForm h o.b.bytes o.d (uniformResult o.ty (intShr o.ty (s.readUTy o.ty o.a) (s.uctl o.b))) s

/-- SSAR (R239): a control operand. -/
def execSsar (h : Hdr) (o : U2) (s : State) : Out :=
  uniformForm h o.b.bytes o.d (uniformResult o.ty (intSar o.ty (s.readUTy o.ty o.a) (s.uctl o.b))) s

/-- SBFE (R239): a control operand. -/
def execSbfe (h : Hdr) (o : U2) (s : State) : Out :=
  uniformForm h o.b.bytes o.d (uniformResult o.ty (intBfe o.ty (s.readUTy o.ty o.a) (s.uctl o.b))) s

/-- SCMP (R242, R243). -/
def execScmp (h : Hdr) (o : UCmp) (s : State) : Out :=
  uniformForm h o.b.bytes o.d (if condHolds o.ty o.cc (s.readUTy o.ty o.a) (s.usrc o.ty o.b) then 1 else 0) s

/-- SSEL (R242): all 64 bits; I gives sext(I, 32). -/
def execSsel (h : Hdr) (o : USel) (s : State) : Out :=
  uniformForm h o.b.bytes o.d (if s.readU o.c ≠ 0 then s.readU o.a else s.usrc .b64 o.b) s

/-- SMOV (R242). -/
def execSmov (h : Hdr) (o : UDA) (s : State) : Out := uniformForm h 8 o.d (s.readU o.a) s

/-- SLI (R242). -/
def execSli (h : Hdr) (o : ULi) (s : State) : Out :=
  uniformForm h o.v.bytes o.d (match o.v with | .short i => i.signExtend 64 | .long v => v) s

/-- SBFI (R239). -/
def execSbfi (h : Hdr) (o : U3) (s : State) : Out :=
  uniformForm h o.b.bytes o.d (uniformResult o.ty (intBfi o.ty (s.readUTy o.ty o.a) (s.uctl o.b) (s.readUTy o.ty o.c))) s

/-- SPOPC (R239): a count, zero-extended (R233). -/
def execSpopc (h : Hdr) (o : U1) (s : State) : Out := uniformForm h 8 o.d (intPopc o.ty (s.readUTy o.ty o.a)) s

/-- SCLZ (R239): a count, zero-extended (R233). -/
def execSclz (h : Hdr) (o : U1) (s : State) : Out := uniformForm h 8 o.d (intClz o.ty (s.readUTy o.ty o.a)) s

end Sys2Proof.Machine
end

