-- ==== Sys2Proof/Machine/VectorFloat.lean ====
section
/-! DEFINITION. The vector float and conversion forms, OP 0x60 to 0x76 (R226 to R230, R249 to R264). -/
namespace Sys2Proof.Machine

/-- Element `k` of a packed value, or the value itself (R218, R250). -/
def elem (t : Ty) (k : Nat) (x : Dword) : Nat :=
  if t.isPacked then x.toNat / 2 ^ (16 * k) % 2 ^ 16 else natOf t x

/-- An operation on one element applied to a value: each element of a packed type separately, flags ORed (R250). -/
def perElem (t : Ty) (f : Nat → Nat × BitVec 5) : Dword × BitVec 5 :=
  if t.isPacked then
    let (r0, f0) := f 0
    let (r1, f1) := f 1
    (BitVec.ofNat 64 (r1 * 2 ^ 16 + r0), f0 ||| f1)
  else
    let (r, g) := f 0
    (BitVec.ofNat 64 r, g)

/-- An F32 pattern as the F64 pattern of the same value, a NaN keeping its mantissa bits (R33). -/
def widenF32 (i : Word) : Dword :=
  match fval (fmtOf .f32) i.toNat with
  | .nan _ => BitVec.ofNat 64 (i.toNat / 2 ^ 31 * 2 ^ 63 + 0x7FF * 2 ^ 52 + i.toNat % 2 ^ 23 * 2 ^ 29)
  | _ => BitVec.ofNat 64 (fpConvert (fmtOf .f64) (fmtOf .f32) .rne false i.toNat).1

/-- Operand B of a float form in lane `l` (R250). -/
def State.fsrc (s : State) (t : Ty) (b : VSrc) (l : Nat) : Dword :=
  match t, b with
  | .f64, .imm i => widenF32 i
  | t, b => s.vsrc t b l

/-- Writes of one lane register and of the flags that the lanes raise, and retirement: the shape of every float form with a lane destination. -/
def floatForm (h : Hdr) (n : Nat) (t : Ty) (d : LaneReg) (f : Nat → Dword × BitVec 5) (s : State) : Out :=
  let ls := s.lanes h.guard
  .next (((s.writeLanes t d (ls.map fun l => (l, (f l).1))).raiseFlags (ls.map fun l => (l, (f l).2))).retire h n)

/-- FADD (R251, R252). -/
def execFadd (h : Hdr) (o : F2) (s : State) : Out :=
  floatForm h o.b.bytes o.ty o.d
    (fun l => perElem o.ty fun k => fpAdd (fmtOf o.ty) o.rm o.ftz false (elem o.ty k (s.readLane o.ty o.a l)) (elem o.ty k (s.fsrc o.ty o.b l))) s

/-- FSUB (R251, R252). -/
def execFsub (h : Hdr) (o : F2) (s : State) : Out :=
  floatForm h o.b.bytes o.ty o.d
    (fun l => perElem o.ty fun k => fpAdd (fmtOf o.ty) o.rm o.ftz true (elem o.ty k (s.readLane o.ty o.a l)) (elem o.ty k (s.fsrc o.ty o.b l))) s

/-- FMUL (R251, R252). -/
def execFmul (h : Hdr) (o : F2) (s : State) : Out :=
  floatForm h o.b.bytes o.ty o.d
    (fun l => perElem o.ty fun k => fpMul (fmtOf o.ty) o.rm o.ftz (elem o.ty k (s.readLane o.ty o.a l)) (elem o.ty k (s.fsrc o.ty o.b l))) s

/-- FMIN (R253). -/
def execFmin (h : Hdr) (o : F2) (s : State) : Out :=
  floatForm h o.b.bytes o.ty o.d
    (fun l => perElem o.ty fun k => fpMinMax (fmtOf o.ty) o.ftz false (elem o.ty k (s.readLane o.ty o.a l)) (elem o.ty k (s.fsrc o.ty o.b l))) s

/-- FMAX (R253). -/
def execFmax (h : Hdr) (o : F2) (s : State) : Out :=
  floatForm h o.b.bytes o.ty o.d
    (fun l => perElem o.ty fun k => fpMinMax (fmtOf o.ty) o.ftz true (elem o.ty k (s.readLane o.ty o.a l)) (elem o.ty k (s.fsrc o.ty o.b l))) s

/-- FDIV (R257, R258). -/
def execFdiv (h : Hdr) (o : F2) (s : State) : Out :=
  floatForm h o.b.bytes o.ty o.d
    (fun l => perElem o.ty fun k => fpDiv (fmtOf o.ty) o.rm o.ftz (elem o.ty k (s.readLane o.ty o.a l)) (elem o.ty k (s.fsrc o.ty o.b l))) s

/-- FFMA (R251, R252): one rounding. -/
def execFfma (h : Hdr) (o : F3) (s : State) : Out :=
  floatForm h o.b.bytes o.ty o.d
    (fun l => perElem o.ty fun k => fpFma (fmtOf o.ty) o.rm o.ftz (elem o.ty k (s.readLane o.ty o.a l)) (elem o.ty k (s.fsrc o.ty o.b l))
      (elem o.ty k (s.readLane o.ty o.c l))) s

/-- FABS (R253). -/
def execFabs (h : Hdr) (o : F1) (s : State) : Out :=
  floatForm h 8 o.ty o.d (fun l => perElem o.ty fun k => fpSign (fmtOf o.ty) o.ftz true (elem o.ty k (s.readLane o.ty o.a l))) s

/-- FNEG (R253). -/
def execFneg (h : Hdr) (o : F1) (s : State) : Out :=
  floatForm h 8 o.ty o.d (fun l => perElem o.ty fun k => fpSign (fmtOf o.ty) o.ftz false (elem o.ty k (s.readLane o.ty o.a l))) s

/-- FSQRT (R257, R258). -/
def execFsqrt (h : Hdr) (o : F1) (s : State) : Out :=
  floatForm h 8 o.ty o.d (fun l => perElem o.ty fun k => fpSqrt (fmtOf o.ty) o.rm o.ftz (elem o.ty k (s.readLane o.ty o.a l))) s

/-- FRND (R230). -/
def execFrnd (h : Hdr) (o : F1) (s : State) : Out :=
  floatForm h 8 o.ty o.d (fun l => perElem o.ty fun k => fpRnd (fmtOf o.ty) o.rm o.ftz (elem o.ty k (s.readLane o.ty o.a l))) s

/-- FRCP (R260, R261). -/
def execFrcp (h : Hdr) (o : F1) (s : State) : Out :=
  floatForm h 8 o.ty o.d (fun l => perElem o.ty fun k => fpApprox .rcp o.ty o.ftz (elem o.ty k (s.readLane o.ty o.a l))) s

/-- FRSQ (R260, R261). -/
def execFrsq (h : Hdr) (o : F1) (s : State) : Out :=
  floatForm h 8 o.ty o.d (fun l => perElem o.ty fun k => fpApprox .rsq o.ty o.ftz (elem o.ty k (s.readLane o.ty o.a l))) s

/-- FEXP2 (R260, R261). -/
def execFexp2 (h : Hdr) (o : F1) (s : State) : Out :=
  floatForm h 8 o.ty o.d (fun l => perElem o.ty fun k => fpApprox .exp2 o.ty o.ftz (elem o.ty k (s.readLane o.ty o.a l))) s

/-- FLOG2 (R260, R261). -/
def execFlog2 (h : Hdr) (o : F1) (s : State) : Out :=
  floatForm h 8 o.ty o.d (fun l => perElem o.ty fun k => fpApprox .log2 o.ty o.ftz (elem o.ty k (s.readLane o.ty o.a l))) s

/-- FSIN (R260, R261). -/
def execFsin (h : Hdr) (o : F1) (s : State) : Out :=
  floatForm h 8 o.ty o.d (fun l => perElem o.ty fun k => fpApprox .sin o.ty o.ftz (elem o.ty k (s.readLane o.ty o.a l))) s

/-- FCOS (R260, R261). -/
def execFcos (h : Hdr) (o : F1) (s : State) : Out :=
  floatForm h 8 o.ty o.d (fun l => perElem o.ty fun k => fpApprox .cos o.ty o.ftz (elem o.ty k (s.readLane o.ty o.a l))) s

/-- FSCALE (R229, R230): n is an I32 control operand whatever the type. -/
def execFscale (h : Hdr) (o : F2) (s : State) : Out :=
  floatForm h o.b.bytes o.ty o.d
    (fun l => perElem o.ty fun k => fpScale (fmtOf o.ty) o.rm o.ftz (elem o.ty k (s.readLane o.ty o.a l)) (s.vctl o.b l).toInt) s

/-- FCMP (R254): only the participating lanes' bits change. -/
def execFcmp (h : Hdr) (o : FCmpO) (s : State) : Out :=
  let f l := fpCmp (fmtOf o.ty) o.cc (natOf o.ty (s.readLane o.ty o.a l)) (natOf o.ty (s.fsrc o.ty o.b l))
  .next (((s.writeM o.d (s.mapMask h.guard (storeGet 0 s.team.m o.d.toNat) fun l => (f l).1)).raiseFlags
    ((s.lanes h.guard).map fun l => (l, (f l).2))).retire h o.b.bytes)

/-- FCLASS (R255): the class word of each element; one 32-bit register whatever the type; no flag. -/
def execFclass (h : Hdr) (o : FClassO) (s : State) : Out :=
  floatForm h 8 .b32 o.d
    (fun l => ((perElem o.ty fun k => (fpClass (fmtOf o.ty) (elem o.ty k (s.readLane o.ty o.a l)), 0)).1, 0)) s

/-- FDOT2 (R256). -/
def execFdot2 (h : Hdr) (o : F3) (s : State) : Out :=
  floatForm h o.b.bytes .f32 o.d
    (fun l =>
      let a := s.readLane o.ty o.a l
      let b := s.fsrc o.ty o.b l
      let (r, g) := fpDot2 (fmtOf o.ty) o.rm o.ftz (elem o.ty 0 a) (elem o.ty 1 a) (elem o.ty 0 b) (elem o.ty 1 b) (s.readV o.c l).toNat
      (BitVec.ofNat 64 r, g)) s

/-- FCVT between two formats (R227). -/
def execFcvt (h : Hdr) (o : CvtO) (s : State) : Out :=
  floatForm h 8 o.dt o.d
    (fun l =>
      let (r, g) := fpConvert (fmtOf o.dt) (fmtOf o.st) o.rm o.sat (natOf o.st (s.readLane o.st o.a l))
      (BitVec.ofNat 64 r, g)) s

/-- FCVT, pack form (R227): element 0 from A, element 1 from B. -/
def execFcvtPack (h : Hdr) (o : PackO) (s : State) : Out :=
  floatForm h 8 o.dt o.d
    (fun l => perElem o.dt fun k =>
      fpConvert (fmtOf o.dt) (fmtOf .f32) o.rm o.sat (if k = 0 then (s.readV o.a l).toNat else (s.readV o.b l).toNat)) s

/-- FCVT, unpack form (R227): exact. -/
def execFcvtUnpack (h : Hdr) (o : UnpackO) (s : State) : Out :=
  floatForm h 8 .f32 o.d
    (fun l =>
      let (r, g) := fpConvert (fmtOf .f32) (fmtOf o.st) .rne false (elem o.st (if o.k then 1 else 0) (s.readLane o.st o.a l))
      (BitVec.ofNat 64 r, g)) s

/-- ICVT of one value (R228), as its register holds it (R218). -/
def icvt (o : CvtO) (x : Dword) : Dword × BitVec 5 :=
  if o.dt.isInt then
    if o.st.isInt then (extendLane o.dt (fitTo o.dt o.sat (intOf o.st x)), 0)
    else let (q, g) := floatToInt o.dt (fmtOf o.st) o.rm (natOf o.st x); (extendLane o.dt (wrapTo o.dt q), g)
  else let (r, g) := intToFloat (fmtOf o.dt) o.rm o.sat (intOf o.st x); (BitVec.ofNat 64 r, g)

/-- ICVT (R228). -/
def execIcvt (h : Hdr) (o : CvtO) (s : State) : Out := floatForm h 8 o.dt o.d (fun l => icvt o (s.readLane o.st o.a l)) s

end Sys2Proof.Machine
end

