-- ==== Sys2Proof/Machine/VectorInt.lean ====
section
/-! DEFINITION. The vector integer forms, OP 0x40 to 0x5C (R231 to R248): computed lane by lane over the participating lanes. -/
namespace Sys2Proof.Machine

/-- Writes of one lane register, a value of type `t` for each participating lane, and retirement: the shape of every vector form with a lane
destination (R25, R196). The values are computed from the state before the instruction. -/
def vectorForm (h : Hdr) (n : Nat) (t : Ty) (d : LaneReg) (f : Nat → Dword) (s : State) : Out :=
  .next ((s.writeLanes t d (s.mapLanes h.guard f)).retire h n)

/-- VADD (R239, R240). -/
def execVadd (h : Hdr) (o : V2) (s : State) : Out :=
  vectorForm h o.b.bytes o.ty o.d (fun l => intAdd o.ty o.sat (s.readLane o.ty o.a l) (s.vsrc o.ty o.b l)) s

/-- VSUB (R239, R240). -/
def execVsub (h : Hdr) (o : V2) (s : State) : Out :=
  vectorForm h o.b.bytes o.ty o.d (fun l => intSub o.ty o.sat (s.readLane o.ty o.a l) (s.vsrc o.ty o.b l)) s

/-- VMUL (R239, R240). -/
def execVmul (h : Hdr) (o : V2) (s : State) : Out :=
  vectorForm h o.b.bytes o.ty o.d (fun l => intMul o.ty o.sat (s.readLane o.ty o.a l) (s.vsrc o.ty o.b l)) s

/-- VMULH (R239, R240). -/
def execVmulh (h : Hdr) (o : V2) (s : State) : Out :=
  vectorForm h o.b.bytes o.ty o.d (fun l => intMulh o.ty (s.readLane o.ty o.a l) (s.vsrc o.ty o.b l)) s

/-- VDIV (R239, R240). -/
def execVdiv (h : Hdr) (o : V2) (s : State) : Out :=
  vectorForm h o.b.bytes o.ty o.d (fun l => intDiv o.ty (s.readLane o.ty o.a l) (s.vsrc o.ty o.b l)) s

/-- VREM (R239, R240). -/
def execVrem (h : Hdr) (o : V2) (s : State) : Out :=
  vectorForm h o.b.bytes o.ty o.d (fun l => intRem o.ty (s.readLane o.ty o.a l) (s.vsrc o.ty o.b l)) s

/-- VMIN (R239, R240). -/
def execVmin (h : Hdr) (o : V2) (s : State) : Out :=
  vectorForm h o.b.bytes o.ty o.d (fun l => intMin o.ty (s.readLane o.ty o.a l) (s.vsrc o.ty o.b l)) s

/-- VMAX (R239, R240). -/
def execVmax (h : Hdr) (o : V2) (s : State) : Out :=
  vectorForm h o.b.bytes o.ty o.d (fun l => intMax o.ty (s.readLane o.ty o.a l) (s.vsrc o.ty o.b l)) s

/-- VAND (R239). -/
def execVand (h : Hdr) (o : V2) (s : State) : Out :=
  vectorForm h o.b.bytes o.ty o.d (fun l => s.readLane o.ty o.a l &&& s.vsrc o.ty o.b l) s

/-- VOR (R239). -/
def execVor (h : Hdr) (o : V2) (s : State) : Out :=
  vectorForm h o.b.bytes o.ty o.d (fun l => s.readLane o.ty o.a l ||| s.vsrc o.ty o.b l) s

/-- VXOR (R239). -/
def execVxor (h : Hdr) (o : V2) (s : State) : Out :=
  vectorForm h o.b.bytes o.ty o.d (fun l => s.readLane o.ty o.a l ^^^ s.vsrc o.ty o.b l) s

/-- VSHL (R239, R232): the control operand is 32 bits whatever the type. -/
def execVshl (h : Hdr) (o : V2) (s : State) : Out :=
  vectorForm h o.b.bytes o.ty o.d (fun l => intShl o.ty (s.readLane o.ty o.a l) (s.vctl o.b l)) s

/-- VSHR (R239, R232): the control operand is 32 bits whatever the type. -/
def execVshr (h : Hdr) (o : V2) (s : State) : Out :=
  vectorForm h o.b.bytes o.ty o.d (fun l => intShr o.ty (s.readLane o.ty o.a l) (s.vctl o.b l)) s

/-- VSAR (R239, R232): the control operand is 32 bits whatever the type. -/
def execVsar (h : Hdr) (o : V2) (s : State) : Out :=
  vectorForm h o.b.bytes o.ty o.d (fun l => intSar o.ty (s.readLane o.ty o.a l) (s.vctl o.b l)) s

/-- VBFE (R239, R232): the control operand is 32 bits whatever the type. -/
def execVbfe (h : Hdr) (o : V2) (s : State) : Out :=
  vectorForm h o.b.bytes o.ty o.d (fun l => intBfe o.ty (s.readLane o.ty o.a l) (s.vctl o.b l)) s

/-- VMAD (R245): exact, one wrap or saturation. -/
def execVmad (h : Hdr) (o : V3) (s : State) : Out :=
  vectorForm h o.b.bytes o.ty o.d
    (fun l => fitTo o.ty o.sat (intOf o.ty (s.readLane o.ty o.a l) * intOf o.ty (s.vsrc o.ty o.b l) + intOf o.ty (s.readLane o.ty o.c l))) s

/-- VCLAMP (R245): the high bound wins. -/
def execVclamp (h : Hdr) (o : V3) (s : State) : Out :=
  vectorForm h o.b.bytes o.ty o.d (fun l => intMin o.ty (intMax o.ty (s.readLane o.ty o.a l) (s.vsrc o.ty o.b l)) (s.readLane o.ty o.c l)) s

/-- VBFI (R239). -/
def execVbfi (h : Hdr) (o : V3) (s : State) : Out :=
  vectorForm h o.b.bytes o.ty o.d (fun l => intBfi o.ty (s.readLane o.ty o.a l) (s.vctl o.b l) (s.readLane o.ty o.c l)) s

/-- VABS (R245). -/
def execVabs (h : Hdr) (o : V1) (s : State) : Out :=
  vectorForm h 8 o.ty o.d (fun l => fitTo o.ty o.sat (intOf o.ty (s.readLane o.ty o.a l)).natAbs) s

/-- VNEG (R245). -/
def execVneg (h : Hdr) (o : V1) (s : State) : Out :=
  vectorForm h 8 o.ty o.d (fun l => fitTo o.ty o.sat (-(intOf o.ty (s.readLane o.ty o.a l)))) s

/-- VPOPC (R239): the count fills one 32-bit register whatever the type. -/
def execVpopc (h : Hdr) (o : V1) (s : State) : Out := vectorForm h 8 .b32 o.d (fun l => intPopc o.ty (s.readLane o.ty o.a l)) s

/-- VCLZ (R239): the count fills one 32-bit register whatever the type. -/
def execVclz (h : Hdr) (o : V1) (s : State) : Out := vectorForm h 8 .b32 o.d (fun l => intClz o.ty (s.readLane o.ty o.a l)) s

/-- VBREV (R245). -/
def execVbrev (h : Hdr) (o : V1) (s : State) : Out := vectorForm h 8 o.ty o.d (fun l => intBrev o.ty (s.readLane o.ty o.a l)) s

/-- VCMP (R245, R246): only the participating lanes' bits change. -/
def execVcmp (h : Hdr) (o : VCmp) (s : State) : Out :=
  .next ((s.writeM o.d (s.mapMask h.guard (storeGet 0 s.team.m o.d.toNat)
    fun l => condHolds o.ty o.cc (s.readLane o.ty o.a l) (s.vsrc o.ty o.b l))).retire h o.b.bytes)

/-- VSEL (R245). -/
def execVsel (h : Hdr) (o : VSelO) (s : State) : Out :=
  vectorForm h o.b.bytes o.ty o.d (fun l => if (s.readM o.c).getLsbD l then s.readLane o.ty o.a l else s.vsrc o.ty o.b l) s

/-- VMOV (R245). -/
def execVmov (h : Hdr) (o : VMovO) (s : State) : Out :=
  vectorForm h 8 o.ty o.d (fun l => match o.a with | .lane r => s.readLane o.ty r l | .unif r => s.readUTyIn o.ty r (l / 32)) s

/-- VLI (R245). -/
def execVli (h : Hdr) (o : VLiO) (s : State) : Out :=
  vectorForm h o.v.bytes o.ty o.d (fun _ => match o.v with | .short i => immValue o.ty i | .long v => v) s

/-- The exact sum or difference of VADDC in a lane (R245). -/
def addcExact (o : VAddc) (s : State) (l : Nat) : Int :=
  let ci : Int := if (s.readM o.c).getLsbD l then 1 else 0
  if o.sub then intOf o.ty (s.readLane o.ty o.a l) - intOf o.ty (s.vsrc o.ty o.b l) - ci
  else intOf o.ty (s.readLane o.ty o.a l) + intOf o.ty (s.vsrc o.ty o.b l) + ci

/-- VADDC (R245, R246): the carry-in is the mask as it stood at issue; only the participating lanes' carry bits change. -/
def execVaddc (h : Hdr) (o : VAddc) (s : State) : Out :=
  let carry := s.mapMask h.guard (storeGet 0 s.team.m o.c.toNat)
    fun l => decide (addcExact o s l < 0) || decide (2 ^ Ty.bits o.ty ≤ addcExact o s l)
  .next (((s.writeLanes o.ty o.d (s.mapLanes h.guard fun l => wrapTo o.ty (addcExact o s l))).writeM o.c carry).retire h o.b.bytes)

/-- VIDX (R245). -/
def execVidx (h : Hdr) (o : VIdx) (s : State) : Out :=
  vectorForm h (offBytes o.off) .n32 o.d (fun l => BitVec.ofNat 64 ((l + (match o.off with | none => 0 | some i => i.toNat)) % 2 ^ 32)) s

end Sys2Proof.Machine
end

