-- ==== Sys2Proof/Machine/Uses.lean ====
section
/-! DEFINITION. What the issue rules need of each form: the registers it reads with their places (R395), the registers it writes (R50), its pipe
(R53), whether it is a lane form (R37), and when its result can be read (R48, R211, R241, R259). -/
namespace Sys2Proof.Machine

/-- A register that a form reads: its position and its number as encoded (R395), and whether a pass reads only its own mask word. -/
structure RegUse where
  pos     : Nat
  num     : Nat
  reg     : RegRef
  perWord : Bool
  deriving DecidableEq, Repr

def useU (pos : Nat) (r : UReg) : List RegUse := if r = 0 then [] else [⟨pos, r.toNat, .s r, false⟩]
def useM (pos : Nat) (m : MReg) : List RegUse := [⟨pos, m.toNat, .m m, false⟩]
def useV (pos : Nat) (r : LaneReg) : List RegUse := [⟨pos, r.toNat, .v r, true⟩]
def useT (pos : Nat) (t : Ty) (r : LaneReg) : List RegUse := if t.is64 then useV pos r ++ [⟨pos, r.toNat, .v (r ||| 1), true⟩] else useV pos r

/-- Operand B of a vector form, as a value or as a control operand. -/
def useVal (t : Ty) : VSrc → List RegUse
  | .lane r => useT 2 t r | .unif r => useU 2 r | .imm _ => []
def useCtl : VSrc → List RegUse
  | .lane r => useV 2 r | .unif r => useU 2 r | .imm _ => []
def useSrc : USrc → List RegUse
  | .reg r => useU 2 r | .imm _ => []

def useIdx : Option MIdx → List RegUse
  | some i => useV 3 i.r | none => []
def useMem (m : MemOp) : List RegUse := useU 1 m.base ++ useIdx m.idx

def useV2 (o : V2) (control : Bool) : List RegUse := useT 1 o.ty o.a ++ (if control then useCtl o.b else useVal o.ty o.b)
def useV3 (o : V3) (control : Bool) : List RegUse := useT 1 o.ty o.a ++ (if control then useCtl o.b else useVal o.ty o.b) ++ useT 3 o.ty o.c
def useF3 (o : F3) (c : Ty) : List RegUse := useT 1 o.ty o.a ++ useVal o.ty o.b ++ useT 3 c o.c
def useU2 (o : U2) : List RegUse := useU 1 o.a ++ useSrc o.b

def useSpawn (o : SpawnO) : List RegUse :=
  (match o.lanes with | .reg b => useU 2 b | .imm _ => []) ++
    (if o.args = 0 then [] else (List.range 8).map fun i => ⟨3, o.args.toNat, .s (o.args + BitVec.ofNat 7 i), false⟩)

def useMma (pos : Nat) : MmaSrc → List RegUse
  | .win b _ => useU pos b | .lane _ => []

/-- The registers that an instruction reads at issue, without its guard, in the order of their positions (R395, R49). -/
def Instr.operands : Instr → List RegUse
  | .brx _ o => useU 1 o.a
  | .ret _ o | .sret _ o | .awaitHandle _ o | .unbind _ o | .settle _ o => useU 1 o.a
  | .swr _ o => useSrc o.b
  | .spawn _ o => useSpawn o
  | .spawnE _ o => useSpawn o.base
  | .spawnCoh _ o => useU 1 o.a ++ useSpawn o.base
  | .pubSt _ o | .pubAdd _ o | .sst _ o => useU 1 o.a ++ useU 2 o.b
  | .awaitw _ o => useU 1 o.a ++ (match o.cmp with | .reg b => useU 2 b | .regOff _ b => useU 2 b | .imm .. => [])
  | .xshuf _ o => useU 1 o.a ++ (o.regs.take 4).flatMap (useV 5) ++ (o.regs.drop 4).flatMap (useV 6)
  | .bind _ o | .qstaleCnt _ o | .qstaleState _ o | .qstaleCap _ o | .qstaleApp _ o | .smov _ o | .preempt _ o | .preemptHard _ o => useU 1 o.a
  | .sadd _ o | .ssub _ o | .smul _ o | .smulh _ o | .sdiv _ o | .srem _ o | .sand _ o | .sor _ o | .sxor _ o | .sshl _ o | .sshr _ o | .ssar _ o
  | .smin _ o | .smax _ o | .sbfe _ o => useU2 o
  | .scmp _ o => useU 1 o.a ++ useSrc o.b
  | .ssel _ o => useU 1 o.a ++ useSrc o.b ++ useU 3 o.c
  | .sbfi _ o => useU 1 o.a ++ useSrc o.b ++ useU 3 o.c
  | .spopc _ o | .sclz _ o => useU 1 o.a
  | .vadd _ o | .vsub _ o | .vmul _ o | .vmulh _ o | .vdiv _ o | .vrem _ o | .vand _ o | .vor _ o | .vxor _ o | .vmin _ o | .vmax _ o => useV2 o false
  | .vshl _ o | .vshr _ o | .vsar _ o | .vbfe _ o => useV2 o true
  | .vmad _ o | .vclamp _ o => useV3 o false
  | .vbfi _ o => useV3 o true
  | .vabs _ o | .vneg _ o | .vpopc _ o | .vclz _ o | .vbrev _ o => useT 1 o.ty o.a
  | .vcmp _ o => useT 1 o.ty o.a ++ useVal o.ty o.b
  | .vsel _ o => useT 1 o.ty o.a ++ useVal o.ty o.b ++ useM 3 o.c
  | .vmov _ o => match o.a with | .lane r => useT 1 o.ty r | .unif r => useU 1 r
  | .vaddc _ o => useT 1 o.ty o.a ++ useVal o.ty o.b ++ useM 3 o.c
  | .fadd _ o | .fsub _ o | .fmul _ o | .fmin _ o | .fmax _ o | .fdiv _ o => useT 1 o.ty o.a ++ useVal o.ty o.b
  | .fscale _ o => useT 1 o.ty o.a ++ useCtl o.b
  | .ffma _ o => useF3 o o.ty
  | .fdot2 _ o => useF3 o .f32
  | .fabs _ o | .fneg _ o | .fsqrt _ o | .frcp _ o | .frsq _ o | .fexp2 _ o | .flog2 _ o | .fsin _ o | .fcos _ o | .frnd _ o => useT 1 o.ty o.a
  | .fcmp _ o => useT 1 o.ty o.a ++ useVal o.ty o.b
  | .fclass _ o => useT 1 o.ty o.a
  | .fcvt _ o | .icvt _ o => useT 1 o.st o.a
  | .fcvtPack _ o => useV 1 o.a ++ useV 2 o.b
  | .fcvtUnpack _ o => useV 1 o.a
  | .vshfl _ o => useT 1 o.ty o.a ++ useCtl o.b
  | .vbcast _ o => useT 1 o.ty o.a ++ useSrc o.b
  | .vred _ o => useT 1 o.ty o.a
  | .vscan _ o => useT 1 o.ty o.a
  | .vballot _ o => useV 1 o.a
  | .vtos _ o => useT 1 o.ty o.a ++ useSrc o.b
  | .mand _ o | .mor _ o | .mxor _ o => useM 1 o.a ++ useM 2 o.b
  | .mnot _ o => useM 1 o.a
  | .mcnt _ o | .mtestSum _ o => useM 1 o.a
  | .mfirst _ o => useM 1 o.a
  | .msetRange _ o | .msetWord _ o => useU 1 o.a ++ useSrc o.b
  | .mtest _ o | .mtestWord _ o => useM 1 o.a ++ useSrc o.b
  | .ld _ o => useMem o.mem
  | .ldk _ o | .lds _ o => useMem o.mem
  | .st _ o => useU 1 o.mem.base ++ useT 2 o.ty o.b ++ useIdx o.mem.idx
  | .sts _ o => useU 1 o.mem.base ++ useT 2 o.ty o.b ++ useIdx o.mem.idx
  | .pref _ o => useMem o.mem
  | .sld _ o => useU 1 o.a
  | .persist _ o => useU 1 o.a ++ useU 2 o.b
  | .amo _ o => useU 1 o.base ++ useT 2 o.ty o.b ++ useIdx o.idx ++ (if o.aop = .cas then useT 6 o.ty o.cmp else [])
  | .red _ o => useU 1 o.base ++ useT 2 o.ty o.b ++ useIdx o.idx
  | .samo _ o => useU 1 o.a ++ useU 2 o.b ++ (if o.aop = .cas then useU 6 o.cmp else [])
  | .copy _ o => useU 0 o.d ++ useU 1 o.a ++ useU 2 o.b ++ (match o.c with | some c => useU 3 c | none => [])
  | .chain _ o => useU 1 o.a ++ useU 2 o.b
  | .feset _ o => useU 1 o.a ++ useU 2 o.b
  | .feq _ o => useU 1 o.a ++ useU 2 o.b
  | .mma _ o => useMma 1 o.a ++ useMma 2 o.b ++ (match o.j with | some j => useU 6 j.freg | none => [])
  | .mlda _ o | .msta _ o => useU 1 o.a
  | .drain _ o => useU 1 o.a
  | .mcbl _ o => useU 1 o.a
  | .tlbiVa _ o | .cinvVa _ o => useU 1 o.a ++ useU 2 o.b ++ useU 3 o.c
  | .tlbiAsid _ o | .cinvAsid _ o => useU 3 o.c
  | .replay _ o | .replayDlv _ o => useU 1 o.a ++ useU 2 o.b ++ useU 3 o.c
  | .kill _ o => useU 1 o.a ++ useU 2 o.b
  | .pswr _ o => useU 2 o.b
  | .pswrX _ o => useU 2 o.b
  | .pswrSpawn _ o => useU 2 o.a
  | _ => []

/-- The registers that an instruction reads at issue, in the order of R395: its guard stands after byte C. -/
def Instr.reads (i : Instr) : List RegUse :=
  let g := (Instr.hdr i).guard.gm
  let l := Instr.operands i
  (l.filter fun u => decide (u.pos < 4)) ++ (if g = 15 then [] else useM 4 g) ++ l.filter fun u => decide (4 < u.pos)

def defU (r : UReg) : List RegRef := if r = 0 then [] else [.s r]
def defT (t : Ty) (r : LaneReg) : List RegRef := if t.is64 then [.v r, .v (r ||| 1)] else [.v r]

/-- The registers that an instruction writes (R50). -/
def Instr.writes : Instr → List RegRef
  | .call _ o => defU o.d
  | .srd _ o => defU o.d
  | .spawn _ o => defU o.d
  | .spawnE _ o => defU o.base.d
  | .spawnCoh _ o => defU o.base.d
  | .awaitw _ o => defU o.d
  | .xshuf _ o => o.regs.map .v
  | .bind _ o | .qstaleCnt _ o | .qstaleState _ o | .qstaleCap _ o | .qstaleApp _ o | .smov _ o | .preempt _ o | .preemptHard _ o => defU o.d
  | .sadd _ o | .ssub _ o | .smul _ o | .smulh _ o | .sdiv _ o | .srem _ o | .sand _ o | .sor _ o | .sxor _ o | .sshl _ o | .sshr _ o | .ssar _ o
  | .smin _ o | .smax _ o | .sbfe _ o => defU o.d
  | .scmp _ o => defU o.d
  | .ssel _ o => defU o.d
  | .sli _ o => defU o.d
  | .sbfi _ o => defU o.d
  | .spopc _ o | .sclz _ o => defU o.d
  | .vadd _ o | .vsub _ o | .vmul _ o | .vmulh _ o | .vdiv _ o | .vrem _ o | .vand _ o | .vor _ o | .vxor _ o | .vmin _ o | .vmax _ o
  | .vshl _ o | .vshr _ o | .vsar _ o | .vbfe _ o => defT o.ty o.d
  | .vmad _ o | .vclamp _ o | .vbfi _ o => defT o.ty o.d
  | .vabs _ o | .vneg _ o | .vbrev _ o => defT o.ty o.d
  | .vpopc _ o | .vclz _ o => [.v o.d]
  | .vcmp _ o => [.m o.d]
  | .vsel _ o => defT o.ty o.d
  | .vmov _ o => defT o.ty o.d
  | .vli _ o => defT o.ty o.d
  | .vaddc _ o => defT o.ty o.d ++ [.m o.c]
  | .vidx _ o => [.v o.d]
  | .fadd _ o | .fsub _ o | .fmul _ o | .fmin _ o | .fmax _ o | .fdiv _ o | .fscale _ o => defT o.ty o.d
  | .ffma _ o => defT o.ty o.d
  | .fdot2 _ o => [.v o.d]
  | .fabs _ o | .fneg _ o | .fsqrt _ o | .frcp _ o | .frsq _ o | .fexp2 _ o | .flog2 _ o | .fsin _ o | .fcos _ o | .frnd _ o => defT o.ty o.d
  | .fcmp _ o => [.m o.d]
  | .fclass _ o => [.v o.d]
  | .fcvt _ o | .icvt _ o => defT o.dt o.d
  | .fcvtPack _ o => [.v o.d]
  | .fcvtUnpack _ o => [.v o.d]
  | .vshfl _ o => defT o.ty o.d
  | .vbcast _ o => defT o.ty o.d
  | .vred _ o => defU o.d
  | .vscan _ o => defT o.ty o.d
  | .vballot _ o => [.m o.d]
  | .vtos _ o => defU o.d
  | .mand _ o | .mor _ o | .mxor _ o => [.m o.d]
  | .mnot _ o => [.m o.d]
  | .mcnt _ o | .mtestSum _ o => defU o.d
  | .mfirst _ o => defU o.d
  | .msetRange _ o | .msetWord _ o => [.m o.d]
  | .msetActive _ d => [.m d]
  | .mtest _ o | .mtestWord _ o => defU o.d
  | .ld _ o => defT o.ty o.d
  | .ldk _ o | .lds _ o => defT o.ty o.d
  | .sld _ o => defU o.d
  | .amo _ o => defT o.ty o.d
  | .samo _ o => defU o.d
  | .feq _ o => defU o.d
  | .mstat _ o | .mstatIds _ o | .mstatClr _ o => defU o.d
  | .replay _ o | .replayDlv _ o => defU o.d
  | .kill _ o => defU o.d
  | .fqpop _ o => (List.range 4).flatMap fun i => defU (o.d + BitVec.ofNat 7 i)
  | _ => []

/-- The opcode of an instruction form. -/
def Instr.opcode (i : Instr) : Nat := match Instr.enc i with | some x => x.2.op.toNat | none => 0

/-- The pipe of an opcode (R53): 0 uniform and branch, 1 vector, 2 special-function, 3 memory. -/
def pipeOf (op : Nat) : Nat :=
  if 0x16 ≤ op ∧ op ≤ 0x19 then 3
  else if op < 0x40 then 0
  else if 0x6A ≤ op ∧ op ≤ 0x71 then 2
  else if op < 0x85 ∨ op = 0x8D then 1
  else if op < 0x90 then 0
  else if op < 0xE0 ∨ op = 0xE4 then 3
  else 0

/-- The opcode is a lane form, swept in passes (R25, R37); VTOS is a team form (R206). -/
def laneOp (op : Nat) : Bool :=
  (decide (0x40 ≤ op) && decide (op ≤ 0x84)) || (decide (0x90 ≤ op) && decide (op ≤ 0x94)) || (decide (0x97 ≤ op) && decide (op ≤ 0x99))

/-- The opcode reads lanes outside its own mask word and waits for every earlier result of its path (R48). -/
def exchangeOp (op : Nat) : Bool := op == 0x80 || op == 0x81 || op == 0x84 || op == 0x8D

/-- When a result can be read: `L` cycles after the pass that wrote it (R48), or within `a` cycles for each pass and `b` more (R211, R241, R259);
`own`: the form makes its own scoreboard entries, or its result stands at once. -/
inductive Latency where
  | fixed (l : Nat)
  | bound (a b : Nat)
  | own
  deriving DecidableEq, Repr

def code64 (c : BitVec 5) : Bool := match Ty.ofCode c with | some t => t.is64 | none => false

/-- The latency of an encoding (R48, R211, R241, R259, R343, R412). -/
def latencyOf (e : Enc) : Latency :=
  let op := e.op.toNat
  let wide := code64 e.ty
  if op = 0x24 ∨ op = 0x25 ∨ op = 0x45 ∨ op = 0x46 then (if wide then .bound 48 48 else .bound 24 24)
  else if op = 0x6A ∨ op = 0x6B then (if wide then .bound 16 32 else .bound 8 16)
  else if op = 0x82 ∨ op = 0x83 then .bound 4 12
  else if 0x42 ≤ op ∧ op ≤ 0x44 then .fixed 6
  else if 0x40 ≤ op ∧ op ≤ 0x5C then .fixed 4
  else if 0x6C ≤ op ∧ op ≤ 0x71 then .fixed 12
  else if op = 0x74 ∨ op = 0x75 then (if wide || code64 (e.c.setWidth 5) then .fixed 8 else .fixed 4)
  else if 0x60 ≤ op ∧ op ≤ 0x76 then (if wide then .fixed 8 else .fixed 4)
  else if op = 0x80 ∨ op = 0x81 ∨ op = 0x84 ∨ op = 0x8D then .fixed 6
  else if op = 0xA5 then .fixed 4
  else if op = 0x14 ∨ op = 0x15 ∨ op = 0x18 ∨ op = 0x19 ∨ (0x90 ≤ op ∧ op ≤ 0xB7) ∨ op = 0xE4 then .own
  else .fixed 2

/-- The cycles for which a pass occupies its pipe (R263): float forms on F64 take 2, the approximate functions 4, FDIV and FSQRT 8 or 16; every other
pass takes 1. -/
def passCycles (e : Enc) : Nat :=
  let op := e.op.toNat
  if op < 0x60 ∨ 0x76 < op then 1
  else if op = 0x6A ∨ op = 0x6B then (if code64 e.ty then 16 else 8)
  else if 0x6C ≤ op ∧ op ≤ 0x71 then 4
  else if op = 0x74 ∨ op = 0x75 then (if code64 e.ty || code64 (e.c.setWidth 5) then 2 else 1)
  else if code64 e.ty then 2 else 1

def Instr.gap (i : Instr) : Nat := match Instr.enc i with | some x => passCycles x.2 | none => 1

end Sys2Proof.Machine
end

