-- ==== Sys2Proof/Machine/Issue.lean ====
section
/-! DEFINITION. Issue of the next instruction of a run: its fetch (R38 to R40, R74), the decode checks (R53 to R55), the yield budget (R337), stall
counts, pipes and the scoreboard (R46 to R50), early reads (R49), and what the machine notes when an instruction has retired. -/
namespace Sys2Proof.Machine

/-! ## Fetch -/

/-- The `n` bytes at an address inside one line, as a fetch reads them (R74). -/
def fetchBytes (s : State) (w : Who) (va n : Nat) : Acc (List Byte) :=
  match s.part w.pid with
  | none => .fault 0
  | some p =>
    match homeAccess s w.pid w.asid va .fetch w.sys with
    | .line bank l s =>
      let (d, s) := homeReadLine s bank l (wordsOfRange (va % 128) n)
      .ok (natBytes n (lineNat d (va % 128) n)) s
    | .host addr _ s =>
      match portRead s p (addr / 128 * 128) with
      | .ok d s => .ok (natBytes n (lineNat d (va % 128) n)) s
      | .busy s => .busy s
    | a => a.fail s

/-- What is at the focus path's pc: the bytes up to the end of its fetch block, or how the fetch ends. -/
inductive Fetched where
  | code (bs : List Byte) (s : State)
  | done (o : Out)
  | wait (s : State)

/-- A fetch from the focus path's pc to the end of its 32-byte block (R38); one that faults parks the team (R397). -/
def State.fetchBlock (s : State) : Fetched :=
  let pc := s.path.pc.toNat
  if 2 ^ 52 ≤ pc then .done (s.trap 0x0B s.path.pc)
  else match fetchBytes s s.who pc (32 - pc % 32) with
    | .ok bs s => .code bs s
    | .busy s => .wait s
    | .fault c => .done (s.park s.path.mask [⟨s.team.asidNow, pc, .fetch, c, (lanesOf s.team.lanes s.active).length, 0⟩] false)
    | .misplaced => .done (s.trap 0x11 s.path.pc)
    | .refused => .done (s.trap 0x0C s.path.pc)
    | .unbacked => .done (.fault .unbackedFrame)

/-- A pad word at the end of a block is skipped (R39): it takes no issue slot and counts toward nothing. -/
def State.fetch (s : State) : Fetched :=
  match s.fetchBlock with
  | .code bs s =>
    if s.path.pc.toNat % 32 = 0x1C ∧ bytesWord bs = 3 then
      (s.setPath { s.path with pc := s.path.pc + 4 }).fetchBlock
    else .code bs s
  | x => x

/-! ## Decode checks (R53 to R55) -/

/-- The form is decoded in solo mode (R53). -/
def soloOp (op : Nat) : Bool :=
  decide (op ≤ 0x0C) || (decide (0x20 ≤ op) && decide (op ≤ 0x35)) || op == 0x95 || op == 0x96 || op == 0x9B || (decide (0xE0 ≤ op) && decide (op ≤ 0xE6))

/-- A privileged form (R53). -/
def privOp (op : Nat) : Bool := decide (0xE0 ≤ op) && decide (op ≤ 0xE6)

/-- The lane registers that a form names lie below `.vregs`, its tiles below `.tiles` (R31). -/
def Instr.withinCounts (i : Instr) (vregs tiles : Nat) : Bool :=
  ((Instr.operands i).all fun u => match u.reg with | .v r => decide (r.toNat < vregs) | _ => true) &&
    ((Instr.writes i).all fun r => match r with | .v r => decide (r.toNat < vregs) | _ => true) &&
    (match i with
     | .mma _ o =>
       let lane (x : MmaSrc) : Bool := match x with | .lane r => decide (r.toNat < vregs) | .win .. => true
       decide (o.d.toNat < tiles) && lane o.a && lane o.b
     | .mzero _ o => decide (o.d.toNat < tiles)
     | .mlda _ o => decide (o.t.toNat < tiles)
     | .msta _ o => decide (o.t.toNat < tiles)
     | .drain _ o => decide (o.d.toNat < tiles)
     | _ => true)

/-- The bytes of the instruction at a pc, `bs` being those up to the block's end: it crosses the block (R38). -/
def crosses (bs : List Byte) : Bool := decide (bs.length < lowWordLength (bytesWord bs))

/-- How decode ends: an instruction, or the code of a decode trap, the first of R55's order. -/
inductive Checked where
  | legal (i : Instr)
  | trap (code : Nat)

def State.checkCode (s : State) (bs : List Byte) : Checked :=
  if crosses bs then .trap 0x04
  else if s.path.runCount = Config.runLength ∧ s.path.charged = false then .trap 0x07
  else match decode bs with
    | .reject _ => .trap 0x01
    | .instr i =>
      let op := Instr.opcode i
      if s.team.solo.isSome ∧ (!soloOp op ∨ !(Instr.hdr i).guard.none) then .trap 0x01
      else if privOp op ∧ !s.team.privileged then .trap 0x02
      else if !Instr.withinCounts i s.team.vregs s.team.ntiles then .trap 0x03
      else .legal i

/-! ## Timing (R46 to R50) -/

/-- The mask words in which a lane form makes a pass (R196): those of the selected mask that are not zero. -/
def State.sweep (s : State) (i : Instr) : List Nat :=
  if laneOp (Instr.opcode i) then
    let m := s.selected (Instr.hdr i).guard
    (List.range 32).filter fun w => maskWord m w != 0
  else []

/-- The cycle from which the previous instruction's stall for word `k` counts (R46). -/
def Prev.base (p : Prev) (k : Nat) : Nat := ((p.passes.filter fun x => decide (x.1 ≤ k)).getLast?).elim p.issue (·.2)

/-- The passes over mask words, from a first cycle on: each `gap` cycles after the one before at the earliest (R263), and as the previous instruction's
stall count allows (R46); mask word and cycle. -/
def passesAfter (prev : Option Prev) (gap : Nat) : Nat → List Nat → List (Nat × Nat)
  | _, [] => []
  | t, w :: ws =>
    let c := match prev with | some p => max t (p.base w + p.stl) | none => t
    (w, c) :: passesAfter prev gap (c + gap) ws

/-- The earliest issue that the previous instruction's stall count allows (R46). -/
def Prev.bound (p : Prev) (lane : Bool) (gap : Nat) (words : List Nat) : Nat :=
  if lane then words.zipIdx.foldl (fun m w => max m (p.base w.1 + p.stl - gap * w.2)) (p.issue + (if words = [] then p.stl else 0))
  else p.base 32 + p.stl

/-- A register is among those an instruction reads or writes. -/
def Instr.names (i : Instr) (r : RegRef) : Bool := (Instr.reads i).any (fun u => u.reg == r) || (Instr.writes i).contains r

/-- The scoreboard entries that an instruction waits for (R50). -/
def State.sbWaits (s : State) (i : Instr) : List SbEntry := s.path.sb.filter fun e => Instr.names i e.reg

/-- The cycle from which the scoreboard has room for an instruction's own entries (R50); `none`: not before a load's response. -/
def State.sbRoom (s : State) (i : Instr) (t : Nat) : Option Nat :=
  let need := if (Instr.hdr i).sb then (Instr.writes i).length else 0
  let held (at_ : Nat) : Nat := (s.path.sb.filter fun e => match e.due with | some d => decide (at_ < d) | none => true).length
  if held t + need ≤ Config.scoreboardEntries then some t
  else
    let last := s.path.sb.foldl (fun m e => max m (e.due.getD 0)) t
    if held last + need ≤ Config.scoreboardEntries then some last else none

def State.pipeKey (s : State) (op : Nat) : Nat := s.team.subKey * 4 + pipeOf op

/-- The cycle in which an instruction issues, `delay` cycles later than it could; `none`: an outstanding load holds it. The first instruction of a run
issues in a later cycle than every instruction of an earlier run of its sub-core (R17). -/
def State.issueCycle (s : State) (i : Instr) (words : List Nat) (delay : Nat) : Option Nat :=
  let op := Instr.opcode i
  let waits := s.sbWaits i
  if waits.any fun e => e.due.isNone then none
  else
    let t := max (s.cycle + delay) (max s.path.gate (storeGet 0 s.pipes (s.pipeKey op)))
    let t := if s.path.runCount = 0 then max t (storeGet 0 s.issued s.team.subKey) else t
    let t := waits.foldl (fun m e => max m (e.due.getD 0)) t
    let t := match s.path.prev with | some p => max t (p.bound (laneOp op) (Instr.gap i) words) | none => t
    let t := if exchangeOp op then s.team.pend.foldl (fun m p => if p.slot = s.slot then max m p.ready else m) t else t
    s.sbRoom i t

/-! ## Early reads (R48, R49) -/

/-- A pending result covers the register in a mask word at a cycle: a result of the path; or one of the partner path in a register that the team shares,
where the use reads what the partner wrote, a whole register or, with `all`, lanes that are not the path's own. -/
def State.pending (s : State) (all : Bool) (r : RegRef) (word : Option Nat) (at_ : Nat) : Bool :=
  let shared : Bool := match r with | .v _ => false | _ => true
  s.team.pend.any fun p => (p.slot == s.slot || (shared && (all || p.word.isNone))) && p.reg == r && decide (at_ < p.ready) &&
    (match p.word, word with | some a, some b => a == b | _, _ => true)

/-- The mask words of a register use that are read too early. A lane form reads each register in each of its passes, its guard word by word; a team
form reads whole registers at its issue. -/
def State.earlyWords (s : State) (lane : Bool) (gap : Nat) (passes : List (Nat × Nat)) (t : Nat) (u : RegUse) : List (RegRef × Option Nat) :=
  if lane then
    if u.pos = 4 then
      (List.range 32).filterMap fun k =>
        if s.pending false u.reg (some k) (t + gap * (passes.filter fun x => decide (x.1 < k)).length) then some (u.reg, some k) else none
    else passes.filterMap fun x => if s.pending false u.reg (some x.1) x.2 then some (u.reg, some x.1) else none
  else if s.pending (u.pos != 4) u.reg none t then [(u.reg, none)] else []

/-- The early reads of an instruction, with the uses they belong to. A team form whose guard selects no lane reads its guard only. -/
def State.earlyReads (s : State) (i : Instr) (passes : List (Nat × Nat)) (t : Nat) : List (RegUse × (RegRef × Option Nat)) :=
  let lane := laneOp (Instr.opcode i)
  let acts := lane || s.acts (Instr.hdr i).guard
  ((Instr.reads i).filter fun u => acts || u.pos == 4).flatMap fun u => (s.earlyWords lane (Instr.gap i) passes t u).map fun e => (u, e)

/-! ## Plans -/

/-- What an issue has decided: the instruction, its cycle, its passes, the lanes that its guard selects, whether it acts, whether operands were read too
early, the path's slot and team, the registers with which it has touched a matrix command before, and whether the partner slot was free. -/
structure Plan where
  i      : Instr
  t      : Nat
  passes : List (Nat × Nat)
  sel    : LaneMask
  live   : Bool
  early  : Bool
  slot   : Bool
  pid    : BitVec 5
  team   : Nat
  spoils : List LaneReg
  alone  : Bool

/-- The plan of an instruction that issues at `t` with the passes given. -/
def State.planAt (s : State) (i : Instr) (t : Nat) (passes : List (Nat × Nat)) (early : Bool) : Plan :=
  let op := Instr.opcode i
  { i := i, t := t, passes := passes, sel := s.selected (Instr.hdr i).guard,
    live := if laneOp op then !passes.isEmpty || op == 0x82 || op == 0x84 else s.acts (Instr.hdr i).guard,
    early := early, slot := s.slot, pid := s.team.pid, team := s.team.id, spoils := s.path.spoils, alone := (s.team.path !s.slot).isNone }

/-- The instruction is counted in the run and the budget, once (R43, R336). -/
def State.charge (s : State) (i : Instr) : State :=
  let p := s.path
  if p.charged then s
  else
    let isYld : Bool := match i with | .yld .. => true | _ => false
    s.setPath { p with charged := true, runCount := p.runCount + 1, budget := if isYld then p.budget else p.budget - 1 }

/-- How an issue goes on: an instruction executes, an event is due, the turn is over, or nothing can issue yet. -/
inductive Ready where
  | run (p : Plan) (s : State)
  | event (e : Instr) (s : State)
  | over (o : Out)
  | held (s : State)

/-- The cycle from which the pipe of a form that issues at `t` is free again (R47, R263): after its last pass, or one cycle on with no pass. -/
def heldTo (gap t : Nat) (passes : List (Nat × Nat)) : Nat := (passes.getLast?).elim (t + 1) fun x => x.2 + gap

/-- The state in which an issued instruction executes: it holds its pipe until its last pass has gone through (R47, R263), one cycle with no pass, the
operands that it reads too early are noted, and it is counted. -/
def State.issued_ (s : State) (i : Instr) (t : Nat) (passes : List (Nat × Nat)) (early : List (RegRef × Option Nat)) : State :=
  { s with cycle := t, pipes := storePut 0 s.pipes (s.pipeKey (Instr.opcode i)) (heldTo (Instr.gap i) t passes), issued := storePut 0 s.issued s.team.subKey (t + 1),
           early := early, retired := false, raised := [] }.charge i

/-- A first issue of a decoded instruction (R337, R46 to R50). A guard that is read too early decides the passes anew (R49). -/
def State.issueFirst (s : State) (i : Instr) (delay : Nat) : Ready :=
  let isYld : Bool := match i with | .yld .. => true | _ => false
  if s.path.budget = 0 ∧ !isYld then .event .yieldWatchdog s
  else
    let words := s.sweep i
    match s.issueCycle i words delay with
    | none => .held s
    | some t =>
      let lay (ws : List Nat) := passesAfter s.path.prev (Instr.gap i) t ws
      let first : List (RegUse × (RegRef × Option Nat)) := s.earlyReads i (lay words) t
      match first with
      | [] => .run (s.planAt i t (lay words) false) (s.issued_ i t (lay words) [])
      | (u, _) :: _ =>
        if s.team.chkNow then .over ({ s with cycle := t }.trap 0x05 (BitVec.ofNat 64 (u.num + 256 * u.pos)))
        else
          let guardEarly : State := { s with early := (first.filter fun (e : RegUse × (RegRef × Option Nat)) => e.1.pos == 4).map (·.2) }
          let passes := lay (guardEarly.sweep i)
          .run (guardEarly.planAt i t passes true) (s.issued_ i t passes ((guardEarly.earlyReads i passes t).map (·.2)))

/-- An instruction that waits, or that a REPLAY has made ready, executes again (R335, R142, R177, R414): it has been counted, and no check is made
twice. One that waited to issue, or that a REPLAY makes issue anew, waits for its pipe and holds it (R47); after a REPLAY it starts a new run (R42,
R17). -/
def State.issueAgain (s : State) (i : Instr) (delay : Nat) : Ready :=
  let anew : Bool := match s.path.wait with | none => true | some .issue => true | _ => false
  let key := s.pipeKey (Instr.opcode i)
  let now := s.cycle + delay
  let t := if anew then max now (storeGet 0 s.pipes key) else now
  let t := if s.path.wait.isNone then max t (storeGet 0 s.issued s.team.subKey) else t
  let passes := passesAfter none (Instr.gap i) t (s.sweep i)
  let s := { s with cycle := t, issued := if s.path.wait.isNone then storePut 0 s.issued s.team.subKey (t + 1) else s.issued,
                    pipes := if anew then storePut 0 s.pipes key (heldTo (Instr.gap i) t passes) else s.pipes, early := [], retired := false, raised := [] }
  .run (s.planAt i t passes false) s

/-- A path that starts a run applies the TCTL that it wrote in its last (R201). -/
def State.startRun (s : State) : State :=
  if s.path.runCount = 0 ∧ s.path.charged = false then { s with team := s.team.startRun s.slot } else s

/-- The next instruction of the path in focus: fetched, decoded, checked, and timed. -/
def State.issuePath (s : State) (delay : Nat) : Ready :=
  match s.startRun.fetch with
  | .done o => .over o
  | .wait s => .held s
  | .code bs s =>
    match s.checkCode bs with
    | .trap code => .event (.notLegalInstruction (BitVec.ofNat 8 code)) s
    | .legal i => if s.path.charged then s.issueAgain i delay else s.issueFirst i delay

/-- The turn of a sub-core (R333): the path that has the run issues; with none, one is chosen. -/
def State.issueOn (s : State) (sub delay : Nat) : Ready :=
  match storeFind s.running sub with
  | none => .event (.runArbitration sub) s
  | some r =>
    match s.findTeam r.pid r.team with
    | none => .event (.runArbitration sub) { s with running := storeErase s.running sub }
    | some t =>
      let goesOn : Bool := match t.path r.slot with | some p => s.mayGoOn t r.slot p | none => false
      if !goesOn then .event (.runArbitration sub) { s with running := storeErase s.running sub }
      else
        let s := s.focusOn r.pid r.team r.slot
        if s.team.wafers ≠ [] then
          match s.sendWafers 64 with
          | .ok _ s => .over (.next (s.focusOn r.pid r.team r.slot))
          | .busy s => .held (s.focusOn r.pid r.team r.slot)
          | _ => .over (.fault .unbackedFrame)
        else match s.path.wait with
          | some (.trapping code va) => .over ({ s with cycle := s.cycle + delay + 1 }.trap code va)
          | _ => s.issuePath delay

/-! ## After the instruction -/

/-- The last pass of a plan, or its issue. -/
def Plan.last (p : Plan) : Nat := (p.passes.getLast?).elim p.t (·.2)

/-- The latency of a plan's instruction. -/
def Plan.latency (p : Plan) : Latency := match Instr.enc p.i with | some x => latencyOf x.2 | none => .own

/-- The cycle from which a plan's results can be read, all of them. -/
def Plan.ready (p : Plan) : Nat :=
  match p.latency with
  | .fixed l => p.last + l
  | .bound a b => p.t + a * (if laneOp (Instr.opcode p.i) then p.passes.length else 1) + b
  | .own => p.t

/-- The instruction wrote the registers that it names: a lane form has made a pass, a team form has acted (R248). -/
def Plan.wrote (p : Plan) : Bool := p.live && (!laneOp (Instr.opcode p.i) || !p.passes.isEmpty)

/-- The pending results of a fixed-latency form (R48): word by word for lane and mask registers of a lane form. VBALLOT writes its whole
mask after the last pass (R207). -/
def Plan.pends (p : Plan) : List Pend :=
  match p.latency with
  | .fixed l =>
    let lane := laneOp (Instr.opcode p.i) && Instr.opcode p.i != 0x84
    (Instr.writes p.i).flatMap fun r =>
      let whole : List Pend := [⟨p.slot, r, none, BitVec.allOnes 32, p.last + l⟩]
      match r with
      | .s _ => whole
      | _ => if lane then p.passes.map fun x => ⟨p.slot, r, some x.1, maskWord p.sel x.1, x.2 + l⟩ else whole
  | _ => []

/-- An earlier result is written over by a plan's instruction (R48, R456): by a whole write of its register, or in every lane of its mask word by the same
path. -/
def Plan.rewrites (p : Plan) (x : Pend) : Bool :=
  p.wrote && (Instr.writes p.i).contains x.reg &&
    match x.reg with
    | .s _ => true
    | _ =>
      if laneOp (Instr.opcode p.i) && Instr.opcode p.i != 0x84 then
        x.slot == p.slot && match x.word with | some k => x.lanes &&& ~~~(maskWord p.sel k) == 0 | none => false
      else true

/-- A load's write of a uniform register that a plan's instruction has written later, in the other path (R237): the last issued stands. -/
def Plan.outdates (p : Plan) (r : LoadRec) : Bool :=
  p.wrote && r.pid == p.pid && r.team == p.team && r.slot != p.slot && r.wafer.kind == 3 && (Instr.writes p.i).contains (.s (r.wafer.dreg.setWidth 7))

/-- The lane registers of a plan that an unretired matrix command reads (R281). -/
def State.touched (s : State) (p : Plan) : List LaneReg :=
  (if p.wrote then (Instr.writes p.i).filterMap RegRef.isLane else []).filter fun r => s.team.reads r

/-- Lane registers become any value (R281): free values number `n`. -/
def Team.spoil (t : Team) (regs : List LaneReg) (n : Nat) : Team :=
  { t with v := regs.foldl (fun v r => (List.range t.lanes).foldl (fun v l => storePut 0 v (laneKey r l) (Config.earlyBits 32 n r.toNat l)) v) t.v }

/-- A lane register that an unretired matrix command reads is written (R281): the command is touched; once the instruction has retired, the register
is any value. -/
def State.touchRegs (s : State) (p : Plan) : State :=
  let hit := s.touched p
  let s := { s with team := s.team.touch fun _ c => hit.any c.regs.contains }
  let gone := p.spoils ++ hit
  if !s.retired then (if hit = [] then s else s.setPath { s.path with spoils := gone })
  else if gone = [] then s
  else { s with team := s.team.spoil gone s.free, free := s.free + 1 }

/-- What has become readable by the current cycle is no longer noted. -/
def Team.settle (t : Team) (cycle : Nat) : Team :=
  let f (p : Path) : Path := { p with sb := p.sb.filter fun e => match e.due with | some d => decide (cycle < d) | none => true }
  { t.settleFlags cycle with
      pend := t.pend.filter fun p => decide (cycle < p.ready), path0 := t.path0.map f, path1 := t.path1.map f }

/-- The flags that a plan's passes raise, with the cycles between which each sets its own (R202, R265). -/
def Plan.flags (p : Plan) (form : Nat) (raised : List (Nat × BitVec 5)) : List FlagPend :=
  (p.passes.map fun x => (⟨form, raised.foldl (fun g y => if y.1 / 32 = x.1 then g ||| y.2 else g) 0, x.2, p.ready⟩ : FlagPend)).filter fun f => f.flags != 0

/-- The notes of a retired instruction: pending results and scoreboard entries, flags not yet settled, and what the next stall counts from. A path
that a BRD has made counts from the BRD, and holds its maker's pending results (R328). A fixed-latency result under SB = 1 is pending too: a
lane-exchange form waits for it (R48). -/
def State.noteRetired (s : State) (p : Plan) : State :=
  let h := Instr.hdr p.i
  let (id, s) := s.nextSerial
  let entry (r : RegRef) : SbEntry := ⟨id, r, some p.ready, p.last⟩
  let entries : List SbEntry := if !p.live then [] else match p.latency with
    | .own => []
    | .fixed _ => if h.sb then (Instr.writes p.i).map fun r => { entry r with last := p.ready } else []
    | .bound .. => (Instr.writes p.i).map entry
  let isBrd : Bool := match p.i with | .brd .. => true | _ => false
  let t := s.team.settle s.cycle
  let t := { t with pend := (t.pend.filter fun x => !p.rewrites x) ++ (if p.live then p.pends else []), flagPend := t.flagPend ++ p.flags id s.raised }
  let note (x : Path) : Path := { x with sb := x.sb ++ entries, prev := some ⟨p.t, h.stl.toNat, p.passes⟩ }
  let t := t.setPath s.slot ((t.path s.slot).map note)
  let other := !s.slot
  let t := if isBrd && p.alone && (t.path other).isSome then
      ({ t with pend := t.pend ++ (t.pend.filter fun x => x.slot == s.slot).map fun (x : Pend) => { x with slot := other } } : Team).setPath other
        ((t.path other).map note)
    else t
  { s with team := t, loads := s.loads.map fun r => if p.outdates r then { r with vals := [] } else r }

/-- After an instruction: one that has retired is noted; one that still waits lets a cycle pass; early values are used up. -/
def State.conclude (p : Plan) (s : State) : State :=
  let s := if p.early then { s with free := s.free + 1 } else s
  let s := { s with early := [] }
  let here := s.team.pid == p.pid && s.team.id == p.team && s.team.phase != .ended
  if s.retired then (if here then (s.noteRetired p).touchRegs p else s)
  else if here && (s.path.wait.isSome || s.team.park.isSome) then
    let s := s.touchRegs p
    if s.path.wait.isSome then { s with cycle := s.cycle + 1 } else s
  else s

end Sys2Proof.Machine
end

