-- ==== Sys2Proof/Machine/Sched.lean ====
section
/-! DEFINITION. Scheduling, pre-emption, responses and faults as events of the hardware (R333 to R337, R357, R361, R366, R367, R394, R397 to R408,
R54). An event that is not due has no effect. An operand `team` is a TEAMID plus 2³² times the partition's number; cores, sub-cores and banks are
physical. -/
namespace Sys2Proof.Machine

/-- Partition and TEAMID of an event's `team` operand. -/
def evPid (team : Nat) : BitVec 5 := BitVec.ofNat 5 (team / 2 ^ 32)
def evId (team : Nat) : Nat := team % 2 ^ 32
def State.evTeam (s : State) (team : Nat) : Option Team := s.teamNamed (evPid team) (evId team)

/-! ## Choosing a run (R333, R334, R394) -/

/-- One of the copies and chains numbered below the limit cannot complete: the wait for them traps or parks (R176). -/
def Team.engineStopped (t : Team) (lim : Nat) : Bool :=
  (t.copies.any fun c => decide (c.id < lim) && c.stop.isSome) || t.chains.any fun c => decide (c.id < lim) && c.stop.isSome

/-- No copy, chain or matrix entry numbered below the limit is outstanding (R178, R283). -/
def Team.enginesClear (t : Team) (lim : Nat) : Bool :=
  !(t.copies.any fun c => decide (c.id < lim)) && !(t.chains.any fun c => decide (c.id < lim)) && !(t.matq.any fun e => decide (e.order < lim))

/-- A PERSIST of the team is not acknowledged (R81). -/
def State.persistsOf (s : State) (t : Team) : Bool := (s.core t.core).acks.any fun a => a.pid == t.pid && a.team == t.id && a.kind == .persist

/-- No write of the team's core under its ASID is on its way or held: a flush is complete, or has more words to send (R145, R305). -/
def State.writesOver (s : State) (t : Team) : Bool := !s.writingAny t.core t.pid t.asidNow && !s.holds t.pid t.asidNow t.core

/-- The wait of a path is over: its instruction goes on when the path is chosen (R334, R335). -/
def State.waitOver (s : State) (t : Team) (slot : Bool) (p : Path) : Bool :=
  match p.wait with
  | none => true
  | some (.upTo lim) => t.engineStopped lim || (t.enginesClear lim && !s.persistsOf t && s.writesOver t)
  | some (.edge lim) => t.engineStopped lim || (t.enginesClear lim && !s.persistsOf t && s.writesOver t)
  | some (.ops ids) =>
    let named (id : Nat) : Bool := ids.contains id
    (t.copies.any fun c => named c.id && c.stop.isSome) || (t.chains.any fun c => named c.id && c.stop.isSome) ||
      !((t.copies.any fun c => named c.id) || (t.chains.any fun c => named c.id) || t.matq.any fun e => named e.order)
  | some (.awaiting lim h) => t.engineStopped lim || (t.enginesClear lim && !s.persistsOf t && kidsDone (t.awaitSet lim h))
  | some (.settle h lim q) =>
    match s.binds.find? fun b => b.pid == t.pid && b.handle == h, q with
    | none, _ => true
    | some b, some q => b.settled q
    | some _, none => t.engineStopped lim || (t.enginesClear lim && s.writesOver t)
  | some .watch =>
    match s.watches.find? fun w => w.pid == t.pid && w.team == t.id && w.slot == slot with
    | some w => w.got.isSome
    | none => true
  | some (.held k va n) => !(s.bindsOf t.pid t.asidNow).any fun b => b.hold.any fun w => decide (k ≤ w.id) && w.meets va (va + n)
  | some .broken => true
  | some .retry => true
  | some .issue => true
  | some .granule => true
  | some (.begun _) => true
  | some (.trapping ..) => true
  | some .yielded => false
  | some .barrier => false
  | some .woken => false
  | some .rally => false
  | some .join => false

/-- A path is ready (R334): it may start a run now. -/
def State.ready (s : State) (t : Team) (slot : Bool) (p : Path) : Bool := s.mayStart t slot p && s.waitOver t slot p

/-- The class of a path for its next choice (R394). -/
def effective (cls promo : Nat) : Nat := if 1 < cls then max 1 (cls - promo) else cls

/-- A path that a sub-core may choose: team, slot, class and the end of its last run. -/
structure Cand where
  pid  : BitVec 5
  team : Nat
  slot : Bool
  cls  : Nat
  last : Nat
  deriving DecidableEq, Repr

/-- The ready paths of a team. -/
def State.readyPaths (s : State) (t : Team) : List Cand :=
  [false, true].filterMap fun slot =>
    match t.path slot with
    | some p => if s.ready t slot p then some ⟨t.pid, t.id, slot, effective t.cls p.promo, p.lastEnd⟩ else none
    | none => none

/-- The ready paths of a sub-core. -/
def State.candidates (s : State) (sub : Nat) : List Cand := ((s.residents (sub / 8)).filter fun t => t.sub == sub % 8).flatMap s.readyPaths

/-- The candidates of the lowest class, and among them those whose last run ended longest ago (R334). -/
def best (l : List Cand) : List Cand :=
  let c := l.foldl (fun m x => min m x.cls) 3
  let l := l.filter fun x => x.cls == c
  let e := l.foldl (fun m x => min m x.last) ((l.map (·.last)).headD 0)
  l.filter fun x => x.last == e

/-- The ready paths among which a sub-core chooses (R334): any of them may be chosen. -/
def State.choices (s : State) (sub : Nat) : List Cand := best (s.candidates sub)

/-- A path that is not ready, or that has the run, has not waited for one (R394): its time without a run starts now. A request that has reached a point of its team
is granted there, also where the team's instruction goes on while the save waits (R405). -/
def State.noteReady (s : State) : State :=
  let note (t : Team) (slot : Bool) (p : Path) : Path :=
    if s.ready t slot p && !(storeFind s.running t.subKey == some ⟨t.pid, t.id, slot⟩) then p else { p with readyAt := s.cycle }
  let f (t : Team) : Team :=
    if t.phase = .resident then
      { t with path0 := t.path0.map (note t false), path1 := t.path1.map (note t true), preempt := t.preempt.map fun r => { r with granted := s.leaves t } }
    else t
  { s with team := f s.team, teams := s.teams.map f }

/-- RUN_ARBITRATION (R334): a sub-core without a run chooses one. -/
def execRunArbitration (sub : Nat) (s : State) : Out :=
  if (storeFind s.running sub).isSome then .next s
  else
    let l := s.choices sub
    let (k, s') := if l.length ≤ 1 then (0, s) else s.choose l.length
    match l[k]? with
    | none => .next s
    | some c => .next { s' with running := storeSet s'.running sub ⟨c.pid, c.team, c.slot⟩ }

/-- STARVATION_PROMOTION (R394). -/
def execStarvationPromotion (team : Nat) (slot : Bool) (s : State) : Out :=
  match s.evTeam team with
  | none => .next s
  | some t =>
    match t.path slot, s.part t.pid with
    | some p, some part =>
      let starve := field part.xsched 7 0 * 256
      let running := storeFind s.running t.subKey == some ⟨t.pid, t.id, slot⟩
      if starve ≠ 0 ∧ s.ready t slot p ∧ !running ∧ 1 < effective t.cls p.promo ∧ p.readyAt + starve ≤ s.cycle then
        .next (s.mapTeam t.pid t.id fun t => t.setPath slot (some { p with promo := p.promo + 1, readyAt := s.cycle }))
      else .next s
    | _, _ => .next s

/-- YIELD_WATCHDOG (R337): the path in focus has no budget for the instruction at its pc, which is legal and no YLD. -/
def execYieldWatchdog (s : State) : Out :=
  if s.path.budget ≠ 0 ∨ s.path.charged then .next s
  else match s.fetch with
    | .code bs s' =>
      match s'.checkCode bs with
      | .legal (.yld ..) => .next s
      | .legal _ => s'.trap 0x06 0
      | .trap _ => .next s
    | _ => .next s

/-- NOT_LEGAL_INSTRUCTION (R54, R55): the word at the pc of the path in focus meets its decode trap. -/
def execNotLegalInstruction (code : BitVec 8) (s : State) : Out :=
  match s.fetch with
  | .code bs s' =>
    match s'.checkCode bs with
    | .trap c => if c = code.toNat then s'.trap c (if c = 0x04 then s'.path.pc else 0) else .next s
    | .legal _ => .next s
  | _ => .next s

/-! ## Deques (R357, R361, R407) -/

/-- A sub-core with no run and no ready path. -/
def State.idleSub (s : State) (sub : Nat) : Bool := (storeFind s.running sub).isNone && (s.candidates sub).isEmpty

/-- DEQUE_TAKE (R357, R358). -/
def execDequeTake (sub : Nat) (s : State) : Out :=
  match s.partOfCore (sub / 8) with
  | none => .next s
  | some p =>
    if s.idleSub sub && s.issuing p.pid then
      match s.nextEntry p.pid sub with
      | some e => .next ((s.takeEntry sub e).orElse s)
      | none => .next s
    else .next s

/-- CONTINUATION_TAKE_BACK (R361). -/
def execContinuationTakeBack (sub : Nat) (team : Nat) (s : State) : Out :=
  let pid := evPid team
  let mine (e : DeqEnt) : Bool := match e.kind with
    | .cont id _ child => id % 2 ^ 32 == evId team && (s.findTeam pid child).isNone && e.sub == sub
    | _ => false
  match (s.deqs pid).find? mine with
  | some e => if s.entryFits sub e && s.issuing pid then .next ((s.takeEntry sub e).orElse s) else .next s
  | none => .next s

/-- TEAM_RESTORE (R407): a saved team is placed under R357. -/
def execTeamRestore (sub : Nat) (team : Nat) (s : State) : Out :=
  let pid := evPid team
  if s.idleSub sub && s.issuing pid && (match s.partOfCore (sub / 8) with | some p => p.pid == pid | none => false) then
    match s.nextEntry pid sub with
    | some e =>
      match e.kind with
      | .saved id => if id % 2 ^ 32 = evId team then .next ((s.takeEntry sub e).orElse s) else .next s
      | _ => .next s
    | none => .next s
  else .next s

/-! ## Barriers (R366, R367) -/

def Path.wakeUp (cycle : Nat) (p : Path) : Path := if p.wait = some .woken then { p with wait := none, readyAt := cycle } else p

/-- CBAR_WAKE (R366): the wake message of a cohort reaches a core. -/
def execCbarWake (core : Nat) (cohort : Nat) (s : State) : Out :=
  let wake (t : Team) : Team :=
    if t.core == core && t.phase == .resident && t.cohort == some cohort then
      { t with path0 := t.path0.map (Path.wakeUp s.cycle), path1 := t.path1.map (Path.wakeUp s.cycle) }
    else t
  .next { s with team := wake s.team, teams := s.teams.map wake }

/-- Some sub-core of the partition could take the entry. -/
def State.placeable (s : State) (e : DeqEnt) : Bool :=
  match s.part e.pid with
  | none => false
  | some p => (p.quads.flatMap fun q => (List.range 32).map (32 * q + ·)).any fun sub => e.allows sub && s.entryFits sub e

/-- CBAR_PLACEMENT_PREEMPTION (R367): a queued sibling has no place; a team of the cohort that waits at the CBAR is asked to leave, which one is open. -/
def execCbarPlacementPreemption (cohort : Nat) (s : State) : Out :=
  match s.cohorts.find? fun c => c.id == cohort with
  | none => .next s
  | some c =>
    let queued := (s.deqs c.pid).any fun e => (match e.kind with | .spawn spec .. => spec.cohort == some cohort | _ => false) && !s.placeable e
    let waiting := (s.teams ++ [s.team]).filter fun t => t.pid == c.pid && t.cohort == some cohort && t.phase == .resident && t.preempt.isNone &&
      ((match t.path0 with | some p => p.wait == some .barrier | none => false) || (match t.path1 with | some p => p.wait == some .barrier | none => false))
    if queued then
      let (k, s) := s.choose waiting.length
      match waiting[k]? with
      | some t => .next (s.mapTeam t.pid t.id fun t => t.request (s.hardNow t.pid) s.cycle)
      | none => .next s
    else .next s

/-! ## Pre-emption (R405, R406) -/

/-- No path of the team has the run of its sub-core, but for one that waits in it. -/
def State.atBoundary (s : State) (t : Team) : Bool :=
  match storeFind s.running t.subKey with
  | some r => !(r.pid == t.pid && r.team == t.id) || (match t.path r.slot with | some p => s.pointOf t r.slot p | none => true)
  | none => true

/-- No path of the team is inside an instruction that must complete (R374, R406). -/
def State.outside (s : State) (t : Team) : Bool :=
  (match t.path0 with | some p => !s.inside t false p | none => true) && (match t.path1 with | some p => !s.inside t true p | none => true)

/-- SOFT_PREEMPTION_GRANT (R405): at a point of R405, once copies, chains and the matrix queue are empty, and loads and stores are answered, the team
is saved. -/
def execSoftPreemptionGrant (team : Nat) (s : State) : Out :=
  match s.evTeam team with
  | none => .next s
  | some t =>
    match t.preempt with
    | none => .next s
    | some r =>
      let quiet := t.copies.isEmpty && t.chains.isEmpty && t.matq.isEmpty && !s.unacked t &&
        !(s.loads.any fun l => l.pid == t.pid && l.team == t.id && l.gen == t.gen) && t.wafers.isEmpty && s.outside t
      if !r.hard && t.phase == .resident && s.leaves t && s.atBoundary t && t.ending.isNone && quiet then
        match flushOf s t with
        | .ok _ s => .next ((s.saveTeam t false).orElse s)
        | a => .next (a.orElse s)
      else .next s

/-- GRACE_EXPIRY (R405): no point has been reached in the window. -/
def execGraceExpiry (team : Nat) (s : State) : Out :=
  match s.evTeam team with
  | none => .next s
  | some t =>
    match t.preempt, s.part t.pid with
    | some r, some p =>
      if !r.hard && !s.leaves t && decide (r.at_ + field p.xsched 23 16 * 256 ≤ s.cycle) then
        .next (s.mapTeam t.pid t.id fun t => { t with preempt := some { r with hard := true } })
      else .next s
    | _, _ => .next s

/-- What waits for residency in an entry: class and needs. -/
def State.entryNeeds (s : State) (e : DeqEnt) : Option (Nat × Nat × Nat × Nat × Nat) :=
  let ofTeam (id : Nat) := (s.findTeam e.pid id).map fun t => (t.cls, t.lanes, t.vregs, t.ntiles, t.window)
  match e.kind with
  | .spawn spec .. => some (spec.cls, spec.lanes, spec.vregs, spec.tiles, spec.window)
  | .cont id .. => ofTeam id
  | .saved id => ofTeam id

/-- RESIDENCY_STARVATION_REQUEST (R405): entry `index` of a core's deque and, after it, of the overflow list. A class-0 team has waited too long: the
team of the highest class on a sub-core where it would fit without that team is asked to leave; which sub-core is open. With STARVE = 0 none is asked: the
register's table says that there is no promotion, and R405 nothing (DESIGN CHOICE, log 88). -/
def execResidencyStarvationRequest (core : Nat) (index : Nat) (s : State) : Out :=
  match s.partOfCore core with
  | none => .next s
  | some p =>
    match ((s.core core).deque ++ p.overflow)[index]? with
    | none => .next s
    | some e =>
      match s.entryNeeds e with
      | none => .next s
      | some (cls, lanes, vregs, tiles, window) =>
        let starve := field p.xsched 7 0 * 256
        if cls ≠ 0 ∨ starve = 0 ∨ s.cycle < e.since + starve ∨ s.placeable e then .next s
        else
          let subs := (p.quads.flatMap fun q => (List.range 32).map (32 * q + ·)).filter e.allows
          let pick (sub : Nat) : Option Team :=
            let here := (s.residents (sub / 8)).filter fun t => t.sub == sub % 8
            let top := here.foldl (fun (m : Option Team) t => match m with | some x => if x.cls < t.cls then some t else m | none => some t) none
            top.filter fun t => s.fits (sub / 8) (sub % 8) (some t.id) lanes vregs tiles window
          let l := subs.filterMap pick
          let (k, s) := s.choose l.length
          match l[k]? with
          | some t => .next (s.mapTeam t.pid t.id fun t => t.request (s.hardNow t.pid) s.cycle)
          | none => .next s

/-- The halt of R406 is complete: what must complete has, started matrix commands are finished, the landings of engine requests are over but for those that cannot
be made (R176), the wafers fit, and none of them would read a store that the team has made after it (R141, R156). -/
def State.halted (s : State) (t : Team) : Bool :=
  s.stopped false t && !(t.matq.any fun e => match e.op with | .mma c => c.started | .tile _ => false) &&
    (t.copies.all fun c => c.flying.all fun f => s.stuck t c f) &&
    decide ((t.wafers.flatMap Wafer.pieces ++ s.wafersOf t).length ≤ 64) && !(s.loads.any fun r => r.pid == t.pid && r.team == t.id && r.gen == t.gen && r.passed)

/-- HARD_PREEMPTION (R406). -/
def execHardPreemption (team : Nat) (s : State) : Out :=
  match s.evTeam team with
  | none => .next s
  | some t =>
    let hard : Bool := match t.preempt with | some r => r.hard | none => false
    if hard && t.phase == .resident && t.ending.isNone && s.halted t then
      match flushOf s t with
      | .ok _ s => .next ((s.saveTeam t true).orElse s)
      | a => .next (a.orElse s)
    else .next s

/-! ## Responses (R50, R126, R408) -/

/-- Lanes of lane registers become any value (R281): free values number `n`. -/
def anyLanes (v : Store Word) (regs : List LaneReg) (lanes : List Nat) (n : Nat) : Store Word :=
  regs.foldl (fun v r => lanes.foldl (fun v l => storePut 0 v (laneKey r l) (Config.earlyBits 32 n r.toNat l)) v) v

/-- A load writes its lanes, or its uniform register; the registers of `any` have touched an unretired matrix command, and any value comes (R281). -/
def Team.takeResponse (t : Team) (w : Wafer) (vals : List (Nat × Dword)) (any : List LaneReg) (n : Nat) : Team :=
  if w.kind = 3 then
    (if w.dreg = 0 then t else { t with s := vals.foldl (fun st x => storePut 0 st w.dreg.toNat x.2) t.s })
  else { t with v := anyLanes (vals.foldl (fun v x => putLaneTy w.ty v w.dreg x.1 x.2) t.v) any (vals.map (·.1)) n }

/-- RESPONSE_ARRIVAL (R50, R126, R408): a response for a team that is gone or of another generation is dropped. Past the end of the loads, `index` less their number
is a line that a PREF has asked for (R165). -/
def execResponseArrival (index : Nat) (s : State) : Out :=
  match s.loads[index]? with
  | none =>
    match s.prefs[index - s.loads.length]? with
    | none => .next s
    | some r => .next ({ s with prefs := s.prefs.erase r }.prefetch r)
  | some r =>
    let s := { s with loads := s.loads.eraseIdx index, free := s.free + 1 }
    match s.findTeam r.pid r.team with
    | none => .next s
    | some t =>
      if t.gen = r.gen ∧ t.core = r.core ∧ t.phase = .resident then
        let more := s.loads.any fun x => x.pid == r.pid && x.team == r.team && x.sb == r.sb
        .next (s.mapTeam r.pid r.team fun t =>
          let t := t.takeResponse r.wafer r.vals r.any s.free
          if more then t else t.clearSb r.sb)
      else .next s

/-- SB_RESULT_WRITE (R211, R241, R259): the oldest result of variable latency of a path is tracked no more, once the form's last pass has issued; its
entries clear in both paths, and its flags are in TSTAT. The registers hold the value from the issue on (DESIGN CHOICE, log 50). -/
def execSbResultWrite (team : Nat) (slot : Bool) (s : State) : Out :=
  match s.evTeam team with
  | none => .next s
  | some t =>
    match (t.path slot).bind fun p => p.sb.find? fun e => e.due.isSome with
    | none => .next s
    | some e =>
      if s.cycle ≤ e.last then .next s
      else .next (s.mapTeam t.pid t.id fun t =>
        let t := t.clearSb e.id
        { t with sure := t.flagPend.foldl (fun g f => if f.form = e.id then g ||| f.flags else g) t.sure,
                 flagPend := t.flagPend.filter fun f => f.form != e.id })

/-- FAULT_ENQUEUE (R398, R399, R400). -/
def execFaultEnqueue (pid : BitVec 5) (s : State) : Out := .next (s.admitFault pid)

end Sys2Proof.Machine
end

