-- ==== Sys2Proof/Machine/Directory.lean ====
section
/-! DEFINITION. The directory's messages (R96 to R105): transactions at home, copies in remote banks, grants and probes. -/
namespace Sys2Proof.Machine

/-! ## The network -/

def State.dropInbox (s : State) (index : Nat) : State := { s with inbox := s.inbox.eraseIdx index }

/-! ## Transactions at home -/

def Bank.txn (b : Bank) (key : LineKey) : Option Txn := b.txns.find? fun t => t.key == key
def Bank.mapTxn (b : Bank) (key : LineKey) (f : Txn → Txn) : Bank := { b with txns := replaceFirst (fun t => t.key == key) f b.txns }

def State.mapTxn (s : State) (home : Nat) (key : LineKey) (f : Txn → Txn) : State := s.putBank home ((s.bank home).mapTxn key f)

/-- A transaction ends when its answer has landed and every INV is answered. The eviction of a directory entry frees the entry with its last line. -/
def State.closeTxn (s : State) (home : Nat) (key : LineKey) : State :=
  let b := s.bank home
  match b.txn key with
  | none => s
  | some t =>
    if t.sent && t.landed && t.fwd.isEmpty && t.need.isEmpty && t.inv.isEmpty then
      let b := { b with txns := b.txns.filter fun x => x.key != key }
      if t.kind = .evict ∧ !b.evicting key then s.putBank home (b.dropEntry key)
      else s.putBank home b
    else s

/-- The pointer of a die becomes valid; the entry becomes the most recently used one (R96, R98). -/
def Bank.point (b : Bank) (key : LineKey) (die copy : Nat) : Bank :=
  let old := match b.dirEntry key with | some e => e.ptrs.filter fun p => p.1 != die | none => []
  { b with dir := ⟨dirSet key, dirTag key, (die, copy) :: old⟩ :: b.dir.filter fun e => !(e.set == dirSet key && e.ptag == dirTag key) }

/-- The other dies whose pointers are valid. -/
def Bank.others (b : Bank) (key : LineKey) (die : Nat) : List Nat :=
  match b.dirEntry key with | some e => (e.ptrs.map (·.1)).filter (· != die) | none => []

/-- The answer of a transaction whose forwards have come back (R98): data, data with ownership, or the grant; INVs go with the latter two. -/
def State.answer (s : State) (home : Nat) (key : LineKey) (t : Txn) : State :=
  let b := s.bank home
  match b.find key false with
  | none => (s.mapTxn home key fun t => { t with sent := true, landed := true, inv := [] }).closeTxn home key
  | some l =>
    let copy := s.keepBank key t.die
    let post (s : State) (m : Msg) : State := s.send key.pid (.bank home) (.bank copy) m
    let invs (s : State) (l : List Nat) : State :=
      l.foldl (fun s d => s.send key.pid (.bank home) (.bank (s.copyBank home key d)) (.inv key d t.words)) s
    let own (l : L2Line) : L2Line := l.setOwner t.words t.die
    match t.kind with
    | .evict => (s.mapTxn home key fun t => { t with sent := true, landed := true }).closeTxn home key
    | .rd =>
      let (l, s) := fillWords s l t.words
      let s := s.putBank home (((s.bank home).put l).point key t.die copy)
      (post s (.data key t.words l.data l.perms l.pa false)).mapTxn home key fun t => { t with sent := true }
    | .rdx =>
      let (l, s) := fillWords s l t.words
      let ds := b.others key t.die
      let s := invs s ds
      let s := s.putBank home (((s.bank home).put (own l)).point key t.die copy)
      (post s (.data key t.words l.data l.perms l.pa true)).mapTxn home key fun t => { t with sent := true, inv := ds }
    | .upg =>
      let ds := b.others key t.die
      let s := invs s ds
      let s := s.putBank home (((s.bank home).put (own l)).point key t.die copy)
      (post s (.grant key t.words)).mapTxn home key fun t => { t with sent := true, inv := ds }

/-- A transaction goes on as far as it can. -/
def State.progress (s : State) (home : Nat) (key : LineKey) : State :=
  match (s.bank home).txn key with
  | none => s
  | some t =>
    if !t.fwd.isEmpty || !t.need.isEmpty then s
    else if t.sent then s.closeTxn home key
    else s.answer home key t

/-- A transaction starts: words that other dies own are forwarded first (R98). -/
def State.openTxn (s : State) (home : Nat) (l : L2Line) (kind : TxnKind) (die : Nat) (words : BitVec 32) : State :=
  let key := l.key
  let ds := l.owners words die
  let s := s.putBank home { s.bank home with txns := (s.bank home).txns ++ [⟨key, kind, die, words, ds, [], [], false, false⟩] }
  let s := ds.foldl (fun s d => s.send key.pid (.bank home) (.bank (s.copyBank home key d)) (.fwd key d (l.ownedBy d &&& words))) s
  s.progress home key

/-- A directory entry starts to be evicted (R100): INV-WB goes to every pointer of each line that the entry covers, once none of them is in a transaction; an
entry that covers none is free at once. -/
def State.evictEntry (s : State) (home : Nat) (e : DirEntry) : Bool × State :=
  let b := s.bank home
  let lines := b.lines.filter fun l => !l.remote && dirSet l.key == e.set && dirTag l.key == e.ptag
  if lines.isEmpty then (true, s.putBank home { b with dir := b.dir.filter fun x => !(x == e) })
  else if lines.any fun l => b.busyOn l.key then (false, s)
  else
    (false, lines.foldl (fun s l =>
      let ds := e.ptrs.map (·.1)
      let s := s.putBank home { s.bank home with txns := (s.bank home).txns ++ [⟨l.key, .evict, 0, BitVec.allOnes 32, ds, [], [], false, false⟩] }
      let s := e.ptrs.foldl (fun s p => s.send l.key.pid (.bank home) (.bank p.2) (.invWb l.key p.1)) s
      s.progress home l.key) s)

/-- The directory has an entry for a die's copy of a line in bank `copy`, or room for one; else its least recently used entry starts to be evicted (R100). An
entry whose pointer to the die names another bank, for a line that shares its partial tag or since before a bank moved, is evicted first (DEDUCED, log 66). -/
def State.makeEntry (s : State) (home : Nat) (key : LineKey) (die copy : Nat) : Bool × State :=
  let b := s.bank home
  match b.dirEntry key with
  | some e => if e.ptrs.any fun p => p.1 == die && p.2 != copy then s.evictEntry home e else (true, s)
  | none =>
    let here := b.dir.filter fun e => e.set == dirSet key
    if here.length < 16 then (true, s)
    else match here.getLast? with
      | none => (true, s)
      | some e => s.evictEntry home e

/-- Writes that wait in a remote bank for a grant that cannot come are lost (DESIGN CHOICE, log 24). -/
def State.losePend (s : State) (bank : Nat) (key : LineKey) : State :=
  let b := s.bank bank
  s.putBank bank { b with pend := b.pend.filter fun r => r.key != key }

/-- The remote copy that an UPG names still holds its words clean (R98). -/
def State.holdsClean (s : State) (key : LineKey) (die : Nat) (words : BitVec 32) : Bool :=
  match (s.bank (s.keepBank key die)).find key true with
  | some c => c.v &&& words == words
  | none => false

/-- A message asks home for a line: such requests wait in the order of their arrival (R98). -/
def Msg.asks (m : Msg) (key : LineKey) : Bool :=
  match m with
  | .rd k _ _ => k == key
  | .upg k _ _ => k == key
  | .rdx k _ _ => k == key
  | .write k _ _ _ => k == key
  | _ => false

/-- No request for the line arrived at its home bank before packet `index` of the inboxes. -/
def State.firstFor (s : State) (index home : Nat) (key : LineKey) : Bool :=
  !((s.inbox.take index).any fun a => a.stop == .bank home && a.pkt.msg.asks key)

/-- A request joins the inboxes: behind all others, but for an UPG before those of higher dies for its line that arrive in the same cycle (R104). -/
def State.arrive (s : State) (p : Packet) : State :=
  let a : Arrived := ⟨p.dst, p, s.cycle⟩
  let beats (x : Arrived) : Bool :=
    match p.msg, x.pkt.msg with
    | .upg key die _, .upg k d _ => x.stop == p.dst && k == key && decide (die < d) && x.at_ == s.cycle
    | _, _ => false
  { s with inbox := s.inbox.take (s.inbox.findIdx beats) ++ a :: s.inbox.drop (s.inbox.findIdx beats) }

/-- The other UPGs for a line that came to its home in the cycle of the one that won become RDXs and are served next (R104). -/
def State.losers (s : State) (home : Nat) (key : LineKey) (at_ : Nat) : State :=
  let lost (x : Arrived) : Option Arrived :=
    match x.pkt.msg with
    | .upg k d w => if x.stop == .bank home && k == key && x.at_ == at_ then some { x with pkt := { x.pkt with msg := .rdx k d w } } else none
    | _ => none
  { s with inbox := s.inbox.filterMap lost ++ s.inbox.filter fun x => (lost x).isNone }

/-- RD, UPG and RDX at home (R98, R104): the request waits behind earlier ones for the line, while the line is in a transaction, and while its directory set is
full; an UPG waits for those that arrive in its cycle. An UPG whose words another die owns, or that its die no longer holds, becomes an RDX (DEDUCED, log 66). -/
def State.serveRequest (s : State) (index : Nat) (kind : TxnKind) (key : LineKey) (die : Nat) (words : BitVec 32) (home : Nat) : State :=
  let need : Need := match kind with | .rd => .read | _ => .write
  let at_ := match s.inbox[index]? with | some a => a.at_ | none => 0
  if (s.bank home).busyOn key || !s.firstFor index home key || (kind == .upg && decide (s.cycle ≤ at_)) then s
  else match homeAccess s key.pid key.asid key.va need true with
    | .line bank l s' =>
      if bank ≠ home then s.dropInbox index
      else
        let (room, s') := s'.makeEntry home key die (s.keepBank key die)
        if !room then s'
        else
          let others := (l.owners words die) != []
          let own := if kind = .upg ∧ (others ∨ !s'.holdsClean key die words) then .rdx else kind
          let s' := s'.dropInbox index
          (if kind = .upg then s'.losers home key at_ else s').openTxn home l own die words
    | .busy s => s
    | _ => let s := s.dropInbox index; if kind = .rd then s else s.losePend (s.keepBank key die) key

/-! ## Copies in remote banks -/

/-- Words come to a remote copy (R86, R91): its own written bytes stand. Where no copy can be kept they are dropped. -/
def State.fillCopy (s : State) (bank : Nat) (key : LineKey) (words : BitVec 32) (data : BitVec 1024) (perms : Perms) (pa : Nat) : State :=
  let merge (c : L2Line) : L2Line :=
    { c with data := mergeLine c.data data (wordsToBytes words &&& ~~~(dirtyBytes c.d c.be)), v := c.v ||| words, perms := perms }
  match (s.bank bank).find key true with
  | some c => s.putBank bank ((s.bank bank).put (merge c))
  | none =>
    match (s.part key.pid).bind fun p => if p.shareOf bank (setIndex key.asid key.va) = 0 then none else makeRoom s p bank key true with
    | some s => s.putBank bank ((s.bank bank).put (merge (newLine key perms pa true)))
    | none => s

/-- The answer of a transaction has landed at its die. -/
def State.landed (s : State) (key : LineKey) : State :=
  match s.homeOf key with
  | some (_, home) => (s.mapTxn home key fun t => { t with landed := true }).closeTxn home key
  | none => s

/-- The writes that waited for a grant are performed in the copy (R99); where the die keeps no copy, or the words have come to be watched or bound, they go
on to home, where they are served next (DEDUCED, log 66). -/
def State.performPend (s : State) (bank : Nat) (key : LineKey) : State :=
  let mine := (s.bank bank).pend.filter fun r => r.key == key
  let s := s.losePend bank key
  mine.foldl (fun s r =>
    match (if s.atHomeOnly key (bytesToWords r.be) then none else (s.bank bank).find key true) with
    | some c =>
      s.putBank bank ((s.bank bank).put { c with data := mergeLine c.data r.data r.be, d := c.d ||| bytesToWords r.be, be := dirtyBytes c.d c.be ||| r.be })
    | none =>
      match s.homeOf key with
      | some (_, home) =>
        { s with inbox := ⟨.bank home, packetOf key.pid (.bank bank) (.bank home) (.write key r.data r.be r.req) s.cycle, s.cycle⟩ :: s.inbox }
      | none => s) s

/-- A grant, or data with ownership, arrives (R99). -/
def State.takeGrant (s : State) (bank : Nat) (m : Msg) : State :=
  match m with
  | .grant key _ => (s.performPend bank key).landed key
  | .data key words data perms pa _ => ((s.fillCopy bank key words data perms pa).performPend bank key).landed key
  | _ => s

/-- The words that a die has written back and that have not reached home (R102). -/
def State.wbWords (s : State) (key : LineKey) (die : Nat) : BitVec 32 :=
  s.msgs.foldl (fun a p => match p.msg with | .wb k d w _ _ _ => if k = key ∧ d = die then a ||| w else a | _ => a) 0

/-- A probe finds no copy (R102), or is dropped at a partition filter (R101). The acknowledge carries the home's PID: R127 has a stop write its owner's, which the
home would reject, and R101 has the home count it (DESIGN CHOICE, log 67). -/
def State.nullAnswer (s : State) (bank home : Nat) (key : LineKey) (die : Nat) (words : BitVec 32) : State :=
  s.send key.pid (.bank bank) (.bank home) (.nullAck key die words)

/-! ## Answers at home -/

/-- The bytes that a die's answer or WB brings are merged into the home copy (R98, R105): with `clean` they become clean, as in a forward. -/
def State.mergeHome (s : State) (home : Nat) (key : LineKey) (words : BitVec 32) (data : BitVec 1024) (be : BitVec 128) (clean : Bool) : State :=
  match (s.bank home).find key false with
  | none => s
  | some l =>
    if clean || l.perms.wt then
      let (l, out) := l.regainClean words data be
      (s.putBank home ((s.bank home).put l)).toAgent l.pa l.data out
    else
      let l := l.regain words data be
      let l := { l with d := l.d ||| words, be := dirtyBytes l.d l.be ||| be }
      s.putBank home ((s.bank home).put l)

/-- A die has answered a forward or INV-WB: it owns none of the words asked for any more, but those whose WB is still to come. -/
def State.answered (s : State) (home : Nat) (key : LineKey) (die : Nat) (coming : BitVec 32) : State :=
  let asked := match (s.bank home).txn key with | some t => if t.fwd.contains die then t.words else 0 | none => 0
  match (s.bank home).find key false with
  | some l =>
    let free := l.ownedBy die &&& asked &&& ~~~coming
    if free = 0 then s
    else s.putBank home { s.bank home with lines := (s.bank home).lines.map fun x => if x == l then l.disown free else x }
  | none => s

/-- An acknowledge with data (R105): a held WB for the same words is discarded. -/
def State.takeData (s : State) (home : Nat) (key : LineKey) (die : Nat) (words : BitVec 32) (data : BitVec 1024) (be : BitVec 128) : State :=
  let evict : Bool := match (s.bank home).txn key with | some t => t.kind == .evict | none => false
  let s := ((takeWbs s key die words).mergeHome home key words data be !evict).answered home key die 0
  (s.mapTxn home key fun t => { t with fwd := t.fwd.filter (· != die) }).progress home key

/-- An acknowledge of an INV. -/
def State.takeAck (s : State) (home : Nat) (key : LineKey) (die : Nat) : State :=
  (s.mapTxn home key fun t => { t with inv := t.inv.filter (· != die), fwd := t.fwd.filter (· != die) }).progress home key

/-- A null acknowledge (R101 to R103, R105): it is counted; the words that it lists must still arrive, and the die owns no other of the words asked for. -/
def State.takeNull (s : State) (home : Nat) (key : LineKey) (die : Nat) (words : BitVec 32) : State :=
  let s := (s.countNull key.pid).answered home key die words
  let more (t : Txn) : List (Nat × BitVec 32) := if t.fwd.contains die && words != 0 then [(die, words)] else []
  (s.mapTxn home key fun t => { t with need := t.need ++ more t, inv := t.inv.filter (· != die), fwd := t.fwd.filter (· != die) }).progress home key

/-- A WB at home (R98, R105): it is held while a forward or INV-WB to its die is outstanding. The pointer to its die clears where the directory entry covers no
other line that the die might hold (R97; DEDUCED, log 66). -/
def State.takeWb (s : State) (index home : Nat) (key : LineKey) (die : Nat) (words : BitVec 32) (data : BitVec 1024) (be : BitVec 128) (leaves : Bool) :
    State :=
  let held : Bool := match (s.bank home).txn key with | some t => t.fwd.contains die | none => false
  if held then s
  else
    let s := s.dropInbox index
    let s := match (s.bank home).find key false with
      | some _ => s
      | none => match homeAccess s key.pid key.asid key.va .read true with | .line _ _ s => s | _ => s
    let s := s.mergeHome home key words data be false
    let b := s.bank home
    let gone (e : DirEntry) : DirEntry := if e.set == dirSet key && e.ptag == dirTag key then { e with ptrs := e.ptrs.filter fun p => p.1 != die } else e
    let alone : Bool := (b.covered key).all fun l => l.key == key
    let s := if leaves && alone then s.putBank home { b with dir := b.dir.map gone } else s
    let cut (n : Nat × BitVec 32) : Option (Nat × BitVec 32) :=
      if n.1 = die then (if n.2 &&& ~~~words = 0 then none else some (die, n.2 &&& ~~~words)) else some n
    (s.mapTxn home key fun t => { t with need := t.need.filterMap cut }).progress home key

end Sys2Proof.Machine
end

