-- ==== Sys2Proof/Machine/MemEvents.lean ====
section
/-! DEFINITION. Events of translation, memory and the die caches (R56, R59, R70 to R74, R84 to R108, R124, R140). An event that is not due has no
effect. `index` is a place in the list that the event names, counted from 0; banks and cores are physical. -/
namespace Sys2Proof.Machine

/-- MTU_WALK (R64, R68, R71): a hit or a walk that ends well fills the TLB; one that does not fills nothing, its access parks or traps. A poisoned
entry read puts its channel's owner in the error state (R59). -/
def execMtuWalk (pid : BitVec 5) (asid : BitVec 16) (va : Nat) (s : State) : Out :=
  match translate s pid asid va with
  | .ok _ _ _ s' => .next s'
  | .fault _ => .next (s.walkPoison pid asid va)
  | .misplaced => .next (s.walkPoison pid asid va)
  | .unbacked => .fault .unbackedFrame

/-- PERMISSION_MISS (R74): the lookup is repeated for a line of the core's partition that lacks W, or X for a fetch; a grant upgrades the line's bits,
at home and in the core's L1. -/
def execPermissionMiss (core : Nat) (asid : BitVec 16) (va : Nat) (fetch : Bool) (s : State) : Out :=
  match s.partOfCore core with
  | none => .next s
  | some p =>
    let key := keyOf p.pid asid va
    match s.homeOf key with
    | none => .next s
    | some (_, home) =>
      if ((s.bank home).find key false).isNone then .next s
      else match homeAccess s p.pid asid va (if fetch then .fetch else .write) true with
        | .line _ l s' =>
          .next (match (s'.core core).findLine key none with
            | some x => s'.putL1 core { x with perms := { x.perms with w := x.perms.w || l.perms.w, x := x.perms.x || l.perms.x } }
            | none => s')
        | .busy s' => .next s'
        | .unbacked => .fault .unbackedFrame
        | _ => .next s

/-- HOME_AGENT_REQUEST (R56, R59): write-back `index` of the queue is merged into memory, if no earlier one is for its 256-byte block. Past the end of the
queue, `index` less the queue's length is a block that is read. An error that cannot be corrected poisons the block, and the owner of its channel enters its
error state. A poisoned block stays poisoned, whatever is written to it (DESIGN CHOICE, log 61). No traffic to the reserved regions waits here in the model, so
the round robin of R424 leaves an agent its channel's owner alone (log 59). -/
def execHomeAgentRequest (index : Nat) (uncorrectable : Bool) (s : State) : Out :=
  let poison (s : State) (block : Nat) (chan : Option Nat) : State :=
    if uncorrectable then ({ s with poison := if s.poison.contains block then s.poison else block :: s.poison } : State).poisonErr chan else s
  match s.haq[index]? with
  | none => let block := index - s.haq.length; .next (poison s block (s.channelOf (block * 256)))
  | some w =>
    if (s.haq.take index).any fun x => x.spa / 256 == w.spa / 256 then .next s
    else .next (poison ({ s with haq := s.haq.eraseIdx index }.memPutList w.spa w.data w.be) (w.spa / 256) w.chan)

/-- L2_FILL (R86): a sector of line `index` of a bank is filled from memory; the bytes written stand. -/
def execL2Fill (bank : Nat) (index : Nat) (sector : BitVec 2) (s : State) : Out :=
  match (s.bank bank).lines[index]? with
  | none => .next s
  | some l =>
    if l.remote then .next s
    else
      let (l', s) := fillWords s l ((0xFF : BitVec 32) <<< (8 * sector.toNat))
      .next (s.putBank bank { s.bank bank with lines := (s.bank bank).lines.map fun x => if x == l then l' else x })

/-- L2_LINE_EVICTION (R87, R91, R100). -/
def execL2LineEviction (bank : Nat) (index : Nat) (s : State) : Out :=
  match (s.bank bank).lines[index]? with
  | none => .next s
  | some l =>
    if !s.canEvict bank l then .next s
    else .next (if l.remote then evictRemote s bank l else evictHome s bank l)

/-- L1_REPLACEMENT (R139, R140): the least recently used line of a set leaves. -/
def execL1Replacement (core : Nat) (set : BitVec 7) (s : State) : Out :=
  match ((s.core core).l1.filter fun l => l1Set l.key == set.toNat).getLast? with
  | none => .next s
  | some l =>
    match evictL1 s core 0 l with
    | .ok _ s => .next s
    | .busy s => .next s
    | .unbacked => .fault .unbackedFrame
    | _ => .next s

/-! ## The directory (R98 to R105) -/

/-- RD (R98): packet `index` of the inboxes. -/
def execRd (index : Nat) (s : State) : Out :=
  match s.inbox[index]? with
  | some ⟨.bank h, { msg := .rd key die words, .. }, _⟩ => .next (s.serveRequest index .rd key die words h)
  | _ => .next s

/-- UPG (R98, R99, R104). -/
def execUpg (index : Nat) (s : State) : Out :=
  match s.inbox[index]? with
  | some ⟨.bank h, { msg := .upg key die words, .. }, _⟩ => .next (s.serveRequest index .upg key die words h)
  | _ => .next s

/-- RDX (R98). -/
def execRdx (index : Nat) (s : State) : Out :=
  match s.inbox[index]? with
  | some ⟨.bank h, { msg := .rdx key die words, .. }, _⟩ => .next (s.serveRequest index .rdx key die words h)
  | _ => .next s

/-- WB (R98, R105). -/
def execWb (index : Nat) (s : State) : Out :=
  match s.inbox[index]? with
  | some ⟨.bank h, { msg := .wb key die words data be leaves, .. }, _⟩ => .next (s.takeWb index h key die words data be leaves)
  | _ => .next s

/-- The bank's partition filter passes a probe of a partition (R101). -/
def State.passes (s : State) (bank : Nat) (pid : BitVec 5) : Bool := (s.bank bank).owner == some pid

/-- INV (R98, R102): the words are dropped, or there is no copy. -/
def execInv (index : Nat) (s : State) : Out :=
  match s.inbox[index]? with
  | some ⟨.bank b, { msg := .inv key die words, .. }, _⟩ =>
    match s.homeOf key with
    | none => .next (s.dropInbox index)
    | some (_, home) =>
      if !s.passes b key.pid then .next s
      else
        let s := s.dropInbox index
        match (s.bank b).find key true with
        | none => .next (s.nullAnswer b home key die 0)
        | some c =>
          let c := { c with v := c.v &&& ~~~words, d := c.d &&& ~~~words }
          let s := s.putBank b (if c.v = 0 ∧ c.d = 0 then (s.bank b).dropLine key true else (s.bank b).put c)
          .next (s.send key.pid (.bank b) (.bank home) (.ack key die))
  | _ => .next s

/-- INV-WB (R100, R102): the owned words go home and the line is dropped, or there is no copy. -/
def execInvWb (index : Nat) (s : State) : Out :=
  match s.inbox[index]? with
  | some ⟨.bank b, { msg := .invWb key die, .. }, _⟩ =>
    match s.homeOf key with
    | none => .next (s.dropInbox index)
    | some (_, home) =>
      if !s.passes b key.pid then .next s
      else
        let s := s.dropInbox index
        match (s.bank b).find key true with
        | none => .next (s.nullAnswer b home key die (s.wbWords key die))
        | some c =>
          let s := s.putBank b ((s.bank b).dropLine key true)
          .next (s.send key.pid (.bank b) (.bank home) (.ackData key die c.d c.data (c.ownBytes c.d)))
  | _ => .next s

/-- FWD (R98, R102): the owner returns the words, and keeps clean copies of them; or there is no copy. -/
def execFwd (index : Nat) (s : State) : Out :=
  match s.inbox[index]? with
  | some ⟨.bank b, { msg := .fwd key die words, .. }, _⟩ =>
    match s.homeOf key with
    | none => .next (s.dropInbox index)
    | some (_, home) =>
      if !s.passes b key.pid then .next s
      else
        let s := s.dropInbox index
        match (s.bank b).find key true with
        | none => .next (s.nullAnswer b home key die (s.wbWords key die))
        | some c =>
          let s := s.putBank b ((s.bank b).put { c with d := c.d &&& ~~~words, be := dirtyBytes (c.d &&& ~~~words) c.be })
          .next (s.send key.pid (.bank b) (.bank home) (.ackData key die (c.d &&& words) c.data (c.ownBytes (c.d &&& words))))
  | _ => .next s

/-- NULL_ACK (R101 to R103, R105). -/
def execNullAck (index : Nat) (s : State) : Out :=
  match s.inbox[index]? with
  | some ⟨.bank h, { msg := .nullAck key die words, .. }, _⟩ => .next ((s.dropInbox index).takeNull h key die words)
  | _ => .next s

/-- PROBE_FILTER_DROP (R101): the bank belongs to another partition, or to none. -/
def execProbeFilterDrop (index : Nat) (s : State) : Out :=
  let drop (b : Nat) (key : LineKey) (die : Nat) : Out :=
    if s.passes b key.pid then .next s
    else match s.homeOf key with
      | some (_, home) => .next ((s.dropInbox index).nullAnswer b home key die 0)
      | none => .next (s.dropInbox index)
  match s.inbox[index]? with
  | some ⟨.bank b, { msg := .inv key die _, .. }, _⟩ => drop b key die
  | some ⟨.bank b, { msg := .invWb key die, .. }, _⟩ => drop b key die
  | some ⟨.bank b, { msg := .fwd key die _, .. }, _⟩ => drop b key die
  | _ => .next s

/-- UPG_GRANT (R99). -/
def execUpgGrant (index : Nat) (s : State) : Out :=
  match s.inbox[index]? with
  | some ⟨.bank b, { msg := .grant key words, .. }, _⟩ => .next ((s.dropInbox index).takeGrant b (.grant key words))
  | some ⟨.bank b, { msg := .data key words data perms pa true, .. }, _⟩ => .next ((s.dropInbox index).takeGrant b (.data key words data perms pa true))
  | _ => .next s

/-- HOME_ATOMIC (R106, R164, R400): atomic `index` of those on their way: at home, or at the host port where its word is host memory; the doorbell's addition
is dropped where it cannot be made. -/
def execHomeAtomic (index : Nat) (s : State) : Out :=
  match s.atomics[index]? with
  | none => .next s
  | some a =>
    let done : State := { s with atomics := s.atomics.eraseIdx index }
    match homeAtomicOp done a.pid a.asid a.va a.ty a.aop a.o 0 true none with
    | .ok _ s' => .next s'
    | .no (.busy _) => .next s
    | .no (.host addr _ s') => .next { s' with hostAtoms := s'.hostAtoms ++ [⟨a.pid, 0, false, 0, addr, a.ty, a.aop, a.o, 0, none, false⟩] }
    | _ => .next done

/-- The counter of a team's requests toward a stop (R124). -/
def seqKey (p : Packet) : Nat := (p.pid.toNat * 2 ^ 32 + p.team) * 1024 + (match p.dst with | .bank b => b | _ => 1023)

/-- SEQ_ORDER_RELEASE (R124, R108): held request `index` goes on once every earlier-numbered one has arrived. -/
def execSeqOrderRelease (index : Nat) (s : State) : Out :=
  match s.held[index]? with
  | none => .next s
  | some a =>
    if a.pkt.seq = some (storeGet 0 s.seqNext (seqKey a.pkt)) then
      .next { s with held := s.held.eraseIdx index, inbox := s.inbox ++ [{ a with at_ := s.cycle }],
                     seqNext := storePut 0 s.seqNext (seqKey a.pkt) ((storeGet 0 s.seqNext (seqKey a.pkt) + 1) % 65536) }
    else .next s

/-- RWAY_EPOCH_END (R93): for a dense die of a partition, once the module's count of cycles has passed a multiple of 65,536 since the die's last one (DESIGN
CHOICE, log 66). -/
def execRwayEpochEnd (pid : BitVec 5) (die : BitVec 2) (s : State) : Out :=
  match s.part pid with
  | none => .next s
  | some p =>
    if s.cycle / 65536 ≤ storeGet 0 p.epochs die.toNat then .next s
    else
    let banks := p.banksOn (p.dies.getD die.toNat 4)
    let hi := banks.foldl (fun n b => n + (s.bank b).hiMiss) 0
    let lo := banks.foldl (fun n b => n + (s.bank b).loMiss) 0
    let old := p.share.getD die.toNat 0
    let new := if hi < lo ∧ max hi lo < 16 * (lo - hi) then min (old + 1) p.ceil
      else if lo < hi ∧ max hi lo < 16 * (hi - lo) then max (old - 1) p.floor
      else old
    let s := banks.foldl (fun s b => s.putBank b { s.bank b with hiMiss := 0, loMiss := 0 }) s
    .next (s.mapPart pid fun p => { p with share := p.share.set die.toNat (max p.floor (min p.ceil new)), epochs := storePut 0 p.epochs die.toNat (s.cycle / 65536) })

end Sys2Proof.Machine
end

