-- ==== Sys2Proof/Machine/FabricEvents.lean ====
section
/-! DEFINITION. Events of the Guorn fabric (R109 to R134): hops, suspects, the caddie and the bunker lane, acceptance, and the rally tables. -/
namespace Sys2Proof.Machine

/-- The stop with a number: quads from 0, banks from 64, MTUs from 320, SPEs from 336, die edges from 340, the host port 342, peer ports from 343, the
service die 351. -/
def stopOf (n : Nat) : Stop :=
  if n < 64 then .quad n else if n < 320 then .bank (n - 64) else if n < 336 then .mtu (n - 320) else if n < 340 then .spe (n - 336)
  else if n < 342 then .edge (n - 340) else if n = 342 then .host else if n < 351 then .peer (n - 343) else .service

/-- The number of a stop in `stopOf`. -/
def stopNumber : Stop → Nat
  | .quad q => q | .bank b => 64 + b | .mtu m => 320 + m | .spe d => 336 + d | .edge e => 340 + e | .host => 342 | .peer p => 343 + p | .service => 351

/-! ## Fatal errors (R443) -/

/-- The dump of a fatal error is being written: MDUMP.STATE is 1. -/
def State.dumping (s : State) : Bool := s.fatal && s.dump / 2 ^ 62 == 1

/-- A fatal error (R443): issue stops on every core, the fabric freezes, the dump is begun, and physical function 0 reports the error. -/
def State.fail (s : State) : State := { s with fatal := true, dump := 2 ^ 62, dumped := none, running := [], aer := none :: s.aer }

/-- FATAL_ERROR (R443); once the module has stopped, the event ends the dump: it is complete, or its writing has failed, and its size is any value. The dump
holds the sections of the partitions whose interface is not bound; how a section is laid out the spec does not say (DESIGN CHOICE, log 46). -/
def execFatalError (s : State) : Out :=
  if s.dumping then
    let (k, s) := s.choose 2
    let (size, s) := s.freshBits 32
    .next { s with dump := (2 + k) * 2 ^ 62 + size.toNat, dumped := if k = 0 then some ((s.parts.filter fun p => !p.bound).map (·.pid)) else none }
  else if s.fatal then .next s
  else .next s.fail

/-! ## Acceptance (R127) -/

/-- A packet that is a probe: a bank's partition filter answers for it (R101). -/
def Msg.probe (m : Msg) : Bool :=
  match m with
  | .inv .. => true
  | .invWb .. => true
  | .fwd .. => true
  | _ => false

/-- A stop, the packet's own or one that it passes, accepts a packet (R127). -/
def State.acceptsAt (s : State) (stop : Stop) (p : Packet) : Bool :=
  if p.pid = 0x20 then p.src == .service
  else if 32 ≤ p.pid.toNat then false
  else
    let pid : BitVec 5 := p.pid.setWidth 5
    match s.part pid with
    | none => false
    | some x =>
      match stop with
      | .quad q => x.quads.contains q
      | .bank b => s.passes b pid || p.msg.probe
      | .mtu m => (x.banks.any fun b => b / 16 == m) || x.channels.any fun c => c / 32 == m
      | .spe d => x.banks.any fun b => b / 64 == d
      | _ => x.enabled

/-- The stop that a packet goes to accepts it (R127). -/
def State.accepts (s : State) (p : Packet) : Bool := s.acceptsAt p.dst p

/-- A stop drops a packet that it does not accept; the sender's partition counts the reject and enters its error state (R127). -/
def State.reject (s : State) (p : Packet) : State :=
  if p.pid.toNat < 32 then
    let pid : BitVec 5 := p.pid.setWidth 5
    (s.mapPart pid fun x => { x with xreject := min (x.xreject + 1) 0xFFFFFFFF }).partErr pid 1
  else s

/-- An accepted packet is taken by its stop: answers are consumed at once, requests and probes join the inboxes, and a numbered request that comes
too soon is held (R124). -/
def State.take (s : State) (p : Packet) : State :=
  match p.seq with
  | some n =>
    let next := storeGet 0 s.seqNext (seqKey p)
    if n = next then { s.arrive p with seqNext := storePut 0 s.seqNext (seqKey p) ((next + 1) % 65536) }
    else { s with held := s.held ++ [⟨p.dst, p, s.cycle⟩] }
  | none =>
    match p.dst, p.msg with
    | .bank b, .data key words data perms pa false => (s.fillCopy b key words data perms pa).landed key
    | .bank h, .ack key die => s.takeAck h key die
    | .bank h, .ackData key die words data be => s.takeData h key die words data be
    | _, .other => s
    | _, _ => s.arrive p

/-- A packet reaches its stop. -/
def State.deliver (s : State) (p : Packet) : State := if s.accepts p then s.take p else s.reject p

/-! ## Hops (R111, R115, R117) -/

/-- The packet heads its VC: none before it stands in the same one. -/
def State.heads (s : State) (index : Nat) (p : Packet) : Bool :=
  !((s.packets.take index).any fun q => q.x == p.x && q.y == p.y && q.port == p.port && q.vc == p.vc)

/-- The next router in a direction: 0 +x, 1 −x, 2 +y, 3 −y; `none` at the mesh's rim. -/
def hop (x y dir : Nat) : Option (Nat × Nat) :=
  match dir with
  | 0 => if x < 15 then some (x + 1, y) else none
  | 1 => if 0 < x then some (x - 1, y) else none
  | 2 => if y < 15 then some (x, y + 1) else none
  | _ => if 0 < y then some (x, y - 1) else none

/-- The distance of a router to a stop's. -/
def distance (x y : Nat) (d : Nat × Nat) : Nat := (x - d.1) + (d.1 - x) + ((y - d.2) + (d.2 - y))

/-- The flits in a VC of a router's input port. -/
def State.vcFlits (s : State) (x y port vc : Nat) : Nat :=
  (s.packets.filter fun q => q.x == x && q.y == y && q.port == port && q.vc == vc).foldl (fun n q => n + q.flits) 0

/-- A stop has a bunker packet to serve first (R120). -/
def State.bunkerFirst (s : State) (d : Stop) : Bool := s.bunker.any fun a => a.stop == d

/-- The host port, a peer port or a die-edge stop (R424): a shared stop that several partitions' packets wait at. -/
def Stop.weighs (d : Stop) : Bool :=
  match d with
  | .edge _ | .host | .peer _ => true
  | _ => false

/-- The PIDs of the packets that stand before a stop, each at the head of its VC. -/
def State.waitersAt (s : State) (d : Stop) : List Nat :=
  (s.packets.zipIdx.filter fun x => x.1.dst == d && x.1.x == d.router.1 && x.1.y == d.router.2 && s.heads x.2 x.1).map fun x => x.1.pid.toNat

/-- A stop serves the partition of a packet that stands before it now (R424). -/
def State.fairAt (s : State) (p : Packet) : Bool := !p.dst.weighs || s.mayServe (stopNumber p.dst) p.pid.toNat (s.waitersAt p.dst)

/-- The packet has been served in its stop's round (R424). -/
def State.servedAt (s : State) (p : Packet) : State := if p.dst.weighs then s.serve (stopNumber p.dst) p.pid.toNat else s

/-- ROUTER_FORWARD (R111, R115, R424): the packet at the head of its VC goes one hop to a free VC, or is taken by its stop when it is there, at a shared stop by
weighted round robin. A packet whose MIS is 8 takes only minimal hops. -/
def execRouterForward (index : Nat) (dir : BitVec 2) (vc : BitVec 2) (s : State) : Out :=
  match s.packets[index]? with
  | none => .next s
  | some p =>
    if !s.heads index p then .next s
    else
      let d := p.dst.router
      if p.x = d.1 ∧ p.y = d.2 then
        if s.bunkerFirst p.dst || !s.accepts p || !s.fairAt p then .next s
        else .next (({ s with packets := s.packets.eraseIdx index }.servedAt p).take p)
      else match hop p.x p.y dir.toNat with
        | none => .next s
        | some (x, y) =>
          let away := distance p.x p.y d ≤ distance x y d
          let port := if dir.toNat % 2 = 0 then dir.toNat + 1 else dir.toNat - 1
          if (away ∧ 8 ≤ p.mis) ∨ 8 < s.vcFlits x y port vc.toNat + p.flits then .next s
          else
            let q := { p with x := x, y := y, port := port, vc := vc.toNat, mis := if away then p.mis + 1 else p.mis, blocked := s.cycle, suspect := false }
            .next { s with packets := s.packets.eraseIdx index ++ [q] }

/-- PACKET_SUSPECT (R117). The cycles of a packet that waited behind another in its VC are counted from its arrival in the VC, not from when it came to head
it; R119's longest blocked packet is the one of the same count (DESIGN CHOICE, log 65). -/
def execPacketSuspect (index : Nat) (s : State) : Out :=
  match s.packets[index]? with
  | none => .next s
  | some p =>
    if s.heads index p && decide (p.blocked + s.tsus < s.cycle) then .next { s with packets := s.packets.set index { p with suspect := true } }
    else .next s

/-- PACKET_REJECT (R127): a packet at its stop that does not accept it. -/
def execPacketReject (index : Nat) (s : State) : Out :=
  match s.packets[index]? with
  | none => .next s
  | some p =>
    if p.x = p.dst.router.1 ∧ p.y = p.dst.router.2 ∧ s.heads index p ∧ s.accepts p = false then
      .next ({ s with packets := s.packets.eraseIdx index }.reject p)
    else .next s

/-! ## The caddie and the bunker lane (R118 to R123) -/

/-- Place `k` of the caddie's cycle (R118). -/
def caddieAt (k : Nat) : Nat × Nat :=
  if k < 16 then (k, 0)
  else if k < 241 then
    let y := (k - 16) / 15 + 1
    let i := (k - 16) % 15
    (if y % 2 = 1 then 15 - i else 1 + i, y)
  else (0, 256 - k)

/-- The suspect packet that a router ejects (R119): blocked longest, then the lower port, then the lower VC. -/
def State.ejects (s : State) (at_ : Nat × Nat) : Option Packet :=
  (s.packets.filter fun p => p.suspect && p.x == at_.1 && p.y == at_.2).foldl (fun (m : Option Packet) p =>
    match m with
    | none => some p
    | some q =>
      if p.blocked < q.blocked ∨ (p.blocked = q.blocked ∧ (p.port < q.port ∨ (p.port = q.port ∧ p.vc < q.vc))) then some p else m) none

/-- The router at the caddie's place ejects one packet and keeps the caddie (R119, R123). FABREC's count wraps at its width (DESIGN CHOICE, log 68). -/
def State.rescue (s : State) (p : Packet) : State :=
  let s := { s with packets := s.packets.erase p, lane := s.lane ++ [{ p with suspect := false }], rescues := (s.rescues + 1) % 2 ^ 32, caddieHeld := some s.caddie }
  if p.pid.toNat < 32 then s.mapPart (p.pid.setWidth 5) fun x => { x with xrecov := min (x.xrecov + 1) 0xFFFFFFFF } else s

/-- CADDIE_ARRIVAL (R118, R119): the caddie goes to the next router, which ejects one of its suspect packets and keeps the caddie until the packet has left the
lane. -/
def execCaddieArrival (s : State) : Out :=
  let k := (s.caddie + 1) % 256
  if !s.lane.isEmpty && (s.caddieHeld.isSome || (s.ejects (caddieAt k)).isSome) then .next s
  else
    let s := { s with caddie := k, caddieHeld := none, caddieSeen := if k = 0 then s.cycle else s.caddieSeen, reissued := s.reissued && k != 0 }
    match s.ejects (caddieAt k) with
    | none => .next s
    | some p => .next (s.rescue p)

/-- BUNKER_DELIVERY (R119, R120): a packet of the lane enters a bunker slot of its stop, if one of the two is free. -/
def execBunkerDelivery (index : Nat) (s : State) : Out :=
  match s.lane[index]? with
  | none => .next s
  | some p =>
    if (s.bunker.filter fun a => a.stop == p.dst).length < 2 then
      .next { s with lane := s.lane.eraseIdx index, bunker := s.bunker ++ [⟨p.dst, p, s.cycle⟩] }
    else .next s

/-- BUNKER_SLOT_SERVICE (R120): the oldest bunker packet of the stop with a number is served. -/
def execBunkerSlotService (stop : Nat) (s : State) : Out :=
  match s.bunker.find? fun a => a.stop == stopOf stop with
  | none => .next s
  | some a => .next ({ s with bunker := s.bunker.erase a }.deliver a.pkt)

/-- CADDIE_REISSUE (R122, R123, R443): a second reissue before the caddie has passed router (0, 0) again is a fatal error; since the root controller waits 2²⁰
cycles before each, that is the one that falls within 2²⁰ cycles of the first (DEDUCED, log 68). FABREC's count wraps at its width (DESIGN CHOICE, log 68). -/
def execCaddieReissue (s : State) : Out :=
  if s.caddieSeen + 2 ^ 20 ≤ s.cycle then
    let t : State := { s with caddie := 0, caddieHeld := none, caddieSeen := s.cycle, reissues := (s.reissues + 1) % 65536, reissued := true }
    .next (if s.reissued then t.fail else t)
  else .next s

/-- PEER_LINK_ARRIVAL (R110, R127): a peer's packet enters the fabric as a new packet of the port's stop, where the port, and the die-edge stop that it
passes next, accept the same partitions: those with an enabled function. Otherwise the port drops it. -/
def execPeerLinkArrival (port : BitVec 3) (p : PeerPacket) (s : State) : Out :=
  let src : Stop := .peer port.toNat
  let q : Packet :=
    { pid := p.pid, dst := stopOf p.dst, src := src, team := 0, gen := 0, seq := none, mis := 0, x := src.router.1, y := src.router.2, port := src.port, vc := 0,
      blocked := s.cycle, suspect := false, flits := min 5 (max 1 p.flits), msg := .other }
  .next (if s.acceptsAt src q then { s with packets := s.packets ++ [q] } else s.reject q)

/-! ## The rally (R132 to R134) -/

/-- The entries in a bank's rally table: the first sixteen of those posted to it. -/
def State.rallyTable (s : State) (bank : Nat) : List Rally := (s.rally.filter fun r => r.bank == bank).take Config.rallyEntries

/-- The entry that the table pairs with an unpaired one: the oldest of the same ID from a different team. -/
def State.partner (s : State) (r : Rally) : Option Rally :=
  (s.rallyTable r.bank).find? fun x => x.pid == r.pid && x.id == r.id && x.paired.isNone && x.team != r.team

/-- One party's registers after the exchange: it takes its partner's old values, position by position, in the lanes of both. -/
def takeFrom (mine : Rally) (v : Store Word) (other : Rally) (old : Store Word) : Store Word :=
  (mine.regs.zip other.regs).foldl (fun v rr =>
    (lanesOf 1024 (mine.lanes &&& other.lanes)).foldl (fun v l => putLane v rr.1 l (storeGet 0 old (laneKey rr.2 l))) v) v

/-- The path of a party whose XSHUF is done: it goes on behind it, at the start of a run. -/
def Path.rallied (p : Path) (cycle : Nat) : Path :=
  { p with pc := p.pc + 16, wait := none, charged := false, redo := none, held := [], runCount := 0, readyAt := cycle, gaveUp := false, spoils := [] }

/-- The party's XSHUF is done: its path goes on behind it. A register that an unretired matrix command reads becomes any value (R281). -/
def Team.rallied (t : Team) (mine other : Rally) (old : Store Word) (cycle n : Nat) : Team :=
  let hit := mine.regs.filter t.reads
  let t : Team := { t.touch (fun _ c => hit.any c.regs.contains) with v := takeFrom mine t.v other old }
  match t.path mine.slot with
  | none => t
  | some p =>
    (t.spoil (p.spoils ++ hit) n).setPath mine.slot (some (p.rallied cycle))

/-- The exchange of a pair completes (R132, R134): both paths go on, both entries leave the table. -/
def State.exchange (s : State) (x y : Rally) : State :=
  let old (r : Rally) : Store Word := match s.findTeam r.pid r.team with | some t => t.v | none => []
  let vx := old x
  let vy := old y
  let s := s.mapTeam x.pid x.team fun t => t.rallied x y vy s.cycle s.free
  let s := s.mapTeam y.pid y.team fun t => t.rallied y x vx s.cycle (s.free + 1)
  { s with rally := (s.rally.erase x).erase y, free := s.free + 2 }

/-- RALLY_PAIR (R132, R133): entry `index` pairs with the oldest partner; the values arrive at once, or with a later event. -/
def execRallyPair (index : Nat) (s : State) : Out :=
  match s.rally[index]? with
  | none => .next s
  | some r =>
    match r.paired with
    | some n =>
      match s.rally.find? fun x => x.paired == some n && x.team != r.team with
      | some x => .next (s.exchange r x)
      | none => .next s
    | none =>
      if !(s.rallyTable r.bank).contains r then .next s
      else match s.partner r with
        | none => .next s
        | some x =>
          let (k, s) := s.choose 2
          if k = 1 then .next (s.exchange r x)
          else
            let (n, s) := s.nextSerial
            .next { s with rally := s.rally.map fun y => if y == r || y == x then { y with paired := some n } else y }

/-- RALLY_TIMEOUT (R132, R133): an entry that is not paired is withdrawn, and its XSHUF traps with code 0x09, as soon as what the trap waits for is over. -/
def execRallyTimeout (index : Nat) (s : State) : Out :=
  match s.rally[index]? with
  | none => .next s
  | some r =>
    if r.paired.isSome ∨ s.cycle < r.deadline then .next s
    else
      match { s with rally := s.rally.erase r }.onTeam r.pid r.team r.slot (fun s => s.takeTrap 0x09 0) with
      | .ok _ s => .next s
      | .unbacked => .fault .unbackedFrame
      | a => .next (({ a.orElse s with rally := s.rally.erase r } : State).mapTeam r.pid r.team fun t =>
          t.setPath r.slot ((t.path r.slot).map fun p => { p with wait := some (.trapping 0x09 0) }))

/-! ## Acknowledgements (R140, R145, R166) -/

/-- The write request with a number, where it waits at its home bank and its turn has come, is performed there (R98, R303); one that home no longer takes is
lost (DESIGN CHOICE, log 24). -/
def State.performWrite (s : State) (id : Nat) : Acc Unit :=
  let mine (a : Arrived) : Bool := match a.pkt.msg with | .write _ _ _ r => r.id == id | _ => false
  let gone (s : State) : State := { s with inbox := s.inbox.filter fun a => !mine a }
  let i := s.inbox.findIdx mine
  match s.inbox[i]? with
  | some ⟨.bank home, { msg := .write key data be r, .. }, _⟩ =>
    if !s.firstFor i home key then .busy s
    else match homeWrite s key.pid key.asid key.va data be true (some r.core) with
      | .ok s => .ok () (gone s)
      | .busy s => .busy s
      | .unbacked => .unbacked
      | .host addr _ s =>
        match s.part key.pid with
        | none => .ok () (gone s)
        | some p =>
          match portWrite s p (addr / 128 * 128) data be with
          | .ok _ s => .ok () (gone (s.portWatches key.pid key.asid key.va (addr / 128 * 128)))
          | .busy s => .busy s
      | _ => .ok () (gone s)
  | _ => .ok () s

/-- REQUEST_ACKNOWLEDGE: the acknowledgement of a request of a core. A write is performed at its home bank first; one that is still under way, that waits
for a grant (R99) or that a binding holds (R305) is not acknowledged. A flush's words become clean (R145). A PERSIST is acknowledged when its words are durable (R81). -/
def execRequestAcknowledge (core : Nat) (index : Nat) (s : State) : Out :=
  match (s.core core).acks[index]? with
  | none => .next s
  | some a =>
    let pop (s : State) : State := s.putCore core { s.core core with acks := (s.core core).acks.eraseIdx index }
    match (if a.kind = .persist then persistStep s core a else s.performWrite a.id) with
    | .ok _ s =>
      if s.underWay a.id || (a.kind != .persist && s.heldLine core a.key) then .next s
      else
        let s := pop s
        .next (if a.kind = .flush then s.putCore core ((s.core core).flushed a.key) else s)
    | .busy s => .next s
    | .unbacked => .fault .unbackedFrame
    | _ => .next (pop s)

end Sys2Proof.Machine
end

