-- ==== Sys2Proof/Machine/EngineEvents.lean ====
section
/-! DEFINITION. Events of the copy unit, the chain engine (R167 to R189) and the matrix arrays (R266 to R291). An event that is not due has no effect. -/
namespace Sys2Proof.Machine

/-! ## Copies and chains -/

/-- COPY_LINE_REQUEST (R167): the next request of the copy whose turn it is; its source bytes are read now. One that cannot be made, or whose bytes could not
land, waits, or is ENGINE_FAULT's. -/
def execCopyLineRequest (core : Nat) (s : State) : Out :=
  match s.copyTurn core with
  | none => .next s
  | some (t, c) =>
    let r := c.nextReq
    match s.copySource t c r with
    | .ok bs s' =>
      match s'.landCopy t c r bs with
      | .fault _ => .next s
      | .misplaced => .next s
      | .refused => .next s
      | .unbacked => .fault .unbackedFrame
      | _ =>
      let s' := s'.mapCopy t.pid t.id c.id fun c => { c with flying := c.flying ++ [(r, bs)] }.advance r.len
      .next (s'.putCore core { s'.core core with copyRR := c.id })
    | .busy s' => .next (s'.putCore core { s'.core core with copyRR := c.id })
    | .unbacked => .fault .unbackedFrame
    | a => .next (a.orElse s)

/-- COPY_LAND (R142, R168, R169): the bytes of request `index` of those in flight on a core land; a granule that is then finished becomes full. -/
def execCopyLand (core : Nat) (index : Nat) (s : State) : Out :=
  match (s.copyFlying core)[index]? with
  | none => .next s
  | some (t, c, r, bs) =>
    match s.landCopy t c r bs with
    | .ok _ s' => .next s'
    | .unbacked => .fault .unbackedFrame
    | a => .next (a.orElse s)

/-- The address of the wait for an engine operation (R401): where a path of the team waits for what was issued before; any value while none does. -/
def State.waitPc (s : State) (t : Team) : Dword × State :=
  let at_ (p : Option Path) : Option Dword := p.bind fun p => match p.wait with
    | some (.upTo _) => some p.pc
    | some (.edge _) => some p.pc
    | some (.ops _) => some p.pc
    | some (.awaiting ..) => some p.pc
    | some (.settle ..) => some p.pc
    | _ => none
  match at_ t.path0, at_ t.path1 with
  | some pc, _ => (pc, s)
  | none, some pc => (pc, s)
  | none, none => s.freshBits 64

/-- The fault of a user team's engine operation is offered to the queue when it happens (R176, R399); a system team's wait delivers it (R396). -/
def State.engineOffer (s : State) (t : Team) (asid : BitVec 16) (va : Nat) (cause : BitVec 4) (write : Bool) : State :=
  let s := s.walkPoison t.pid asid va
  if t.sys then s
  else
  let (pc, s) := s.waitPc t
  s.offerFault t pc ⟨asid, va, if write then .engineWrite else .engineRead, cause, 0, 0⟩

/-- ENGINE_FAULT (R176): the operation whose turn it is cannot go on and is suspended; a translation fault is queued at once. What a chain's block had
written before stays written. -/
def execEngineFault (core : Nat) (chain : Bool) (s : State) : Out :=
  if chain then
    match s.chainTurn core with
    | none => .next s
    | some (t, c) =>
      match chainStep s t c with
      | .stop k va cause w s' =>
        let s' := s'.mapChain t.pid t.id c.id fun c => { c with stop := some (k, va) }
        .next (if k = .fault then s'.engineOffer t c.asid va cause w else s')
      | .unbacked => .fault .unbackedFrame
      | _ => .next s
  else
    match copyTry s core with
    | none => .next s
    | some (t, c, r) =>
      match r with
      | .stop k va cause w s' =>
        let low := if k = .fault then va else s'.lowestStop t c k va
        let s' := s'.mapCopy t.pid t.id c.id fun c => { c with stop := some (k, low) }
        .next (if k = .fault then s'.engineOffer t c.asid va cause w else s')
      | .unbacked => .fault .unbackedFrame
      | _ => .next s

/-- A write of the core to this address space is still held by a binding, so it is not visible at home (R305). -/
def State.heldFrom (s : State) (core : Nat) (pid : BitVec 5) (asid : BitVec 16) : Bool :=
  (s.bindsOf pid asid).any fun b => b.hold.any fun h => h.core == some core

/-- ENGINE_COMPLETION (R176): copy or chain `index` of those of a core's teams completes when every byte is visible or has landed. -/
def execEngineCompletion (core : Nat) (chain : Bool) (index : Nat) (s : State) : Out :=
  if chain then
    match ((s.residents core).flatMap fun t => t.chains.map fun c => (t, c))[index]? with
    | none => .next s
    | some (t, c) =>
      if c.n ≤ c.next ∧ s.heldFrom core t.pid c.asid = false then
        .next (s.mapTeam t.pid t.id fun t => { t with chains := t.chains.filter fun x => x.id != c.id })
      else .next s
  else
    match ((s.residents core).flatMap fun t => t.copies.map fun c => (t, c))[index]? with
    | none => .next s
    | some (t, c) =>
      if c.rows = 0 ∧ c.flying = [] ∧ (c.ds ∨ s.heldFrom core t.pid c.asid = false) then
        .next (s.mapTeam t.pid t.id fun t => { t with copies := t.copies.filter fun x => x.id != c.id })
      else .next s

/-- CHAIN_BLOCK (R183, R184, R189): one block of the chain whose turn it is. -/
def execChainBlock (core : Nat) (s : State) : Out :=
  match s.chainTurn core with
  | none => .next s
  | some (t, c) =>
    match chainStep s t c with
    | .go s' => .next (s'.putCore core { s'.core core with chainRR := evOf t })
    | .busy s' => .next s'
    | .unbacked => .fault .unbackedFrame
    | .stop .. => .next s

/-! ## Matrix arrays -/

/-- Another team is put in focus for `f`, and the focus returns. -/
def State.inTeam (s : State) (t : Team) (f : State → State) : State :=
  (f (s.focusOn t.pid t.id s.slot)).focusOn s.team.pid s.team.id s.slot

/-- The team in focus has a command that could start (R279). -/
def State.anyReady (s : State) : Bool := s.team.matq.any fun e => match e.op with | .mma c => s.mmaReady e.order c | .tile _ => false

/-- The team of a sub-core whose turn it is to start a command, round-robin among those that have a ready one (R269); `mmaRR` names the team that started one
last. A team that is to be saved whole starts none (R284). -/
def State.mmaTurn (s : State) (core sub : Nat) : Option Team :=
  turnAfter evOf (storeGet 0 s.mmaRR (core * 8 + sub))
    ((s.residents core).filter fun t => t.sub == sub && s.enginesRun t && (s.focusOn t.pid t.id s.slot).anyReady)

/-- MMA_START (R269, R279): the command with an ID starts when all of R279 holds and it is its team's turn. -/
def execMmaStart (team : Nat) (id : BitVec 6) (s : State) : Out :=
  match s.evTeam team with
  | none => .next s
  | some t =>
    if t.phase = .resident ∧ (s.mmaTurn t.core t.sub).map evOf = some (evOf t) then
      .next (s.inTeam t fun s =>
        match s.team.mmaWith id with
        | some (order, c) => if s.mmaReady order c then { s.startMma order c with mmaRR := storePut 0 s.mmaRR t.subKey (evOf t) } else s
        | none => s)
    else .next s

/-- MMA_RETIRE (R269, R277): a started command whose compute time has passed writes its tile and retires. -/
def execMmaRetire (team : Nat) (id : BitVec 6) (s : State) : Out :=
  match s.evTeam team with
  | none => .next s
  | some t =>
    .next (s.inTeam t fun s =>
      match s.team.mmaWith id with
      | some (order, c) => if c.started && decide (c.ends ≤ s.cycle) then s.retireMma order c else s
      | none => s)

/-- TILE_OP_EXECUTE (R280, R287): the tile operation in its queue place, if it is no DRAIN. -/
def execTileOpExecute (team : Nat) (s : State) : Out :=
  match s.evTeam team with
  | none => .next s
  | some t =>
    if t.phase ≠ .resident ∨ s.enginesRun t = false then .next s
    else .next (s.inTeam t fun s =>
      match s.team.nextTile with
      | some (order, op) => s.runTile order op
      | none => s)

/-- DRAIN_EXECUTE (R290): the DRAIN in its queue place. -/
def execDrainExecute (team : Nat) (s : State) : Out :=
  match s.evTeam team with
  | none => .next s
  | some t =>
    if t.phase ≠ .resident ∨ s.enginesRun t = false then .next s
    else .next (s.inTeam t fun s =>
      match s.team.nextTile with
      | some (order, .drain o bs tag) => s.runDrain order o bs tag
      | _ => s)

end Sys2Proof.Machine
end

