-- ==== Sys2Proof/Machine/ProductEvents.lean ====
section
/-! DEFINITION. Events of standing products (R302 to R316, R321): capture, the initial product, corrections, and errors. An event that is not due has
no effect. -/
namespace Sys2Proof.Machine

/-- OPERAND_CAPTURE (R303): a write of one word, of any party, reaches the home of an operand word. -/
def execOperandCapture (pid : BitVec 5) (asid : BitVec 16) (va : Nat) (data : Word) (be : BitVec 4) (s : State) : Out :=
  let w := va % 2 ^ 52 / 4 * 4
  if (s.members pid asid w).isEmpty then .next s
  else match homeWrite s pid asid w (placeNat (w % 128) 4 data.toNat) (be.setWidth 128 <<< (w % 128)) true none with
    | .ok s' => .next s'
    | .busy s' => .next s'
    | .unbacked => .fault .unbackedFrame
    | _ => .next s

/-- What an operation of the engine comes to: one that meets a line in a directory transaction is made later. -/
def Dev.next (d : Dev Unit) (s : State) : Out :=
  match d with
  | .ok _ s' => .next s'
  | _ => .next s

/-- The engine works on a binding (R321, R427): its partition runs and it is not in ERR. -/
def State.speRuns (s : State) (b : Binding) : Bool := s.issuing b.pid && !b.err

/-- SPE_INITIAL_PRODUCT (R302): every element of C is computed, the interlock becomes IDLE and the held writes are released. -/
def execSpeInitialProduct (slot : Nat) (s : State) : Out :=
  match s.binding slot with
  | none => .next s
  | some b => if b.il = .init ∧ s.speRuns b = true then (speStart slot s).next s else .next s

/-- SPE_APPLY_ENTRY (R308): in DET mode the first pending entry is applied. -/
def execSpeApplyEntry (slot : Nat) (s : State) : Out :=
  match s.binding slot with
  | none => .next s
  | some b => if b.bat = false ∧ b.il ≠ .init ∧ b.entries ≠ [] ∧ s.speRuns b = true then (speApply slot 1 false s).next s else .next s

/-- Entries that may form a group (R309): one operand; A entries share their row, B entries one target column. -/
def groupable (es : List LogEntry) : Bool :=
  match es with
  | [] => false
  | e :: _ =>
    (es.all fun x => x.opB == e.opB) &&
      (if e.opB then (List.range 4).any fun k => e.emask.getLsbD k &&
          es.all fun x => (List.range 4).any fun i => x.emask.getLsbD i && decide (x.col + i = e.col + k)
       else es.all fun x => x.row == e.row)

/-- SPE_APPLY_GROUP (R309): in BAT mode a group of the first `count` pending entries is applied. -/
def execSpeApplyGroup (slot : Nat) (count : Nat) (s : State) : Out :=
  match s.binding slot with
  | none => .next s
  | some b =>
    if b.bat = true ∧ b.il ≠ .init ∧ count ≤ 16 ∧ count ≤ b.entries.length ∧ groupable (b.entries.take count) = true ∧ s.speRuns b = true then
      (speApply slot count true s).next s
    else .next s

/-- An access of the engine to a page of the extents would fault, or would find the page misplaced (R321). -/
def State.speBroken (s : State) (b : Binding) : Bool :=
  b.walkPages.any fun p => match translate s b.pid b.asid (p.1 * 4096) with
    | .ok _ _ perms _ => !perms.allow p.2 true
    | .fault _ => true
    | .misplaced => true
    | .unbacked => false

/-- BINDING_ERROR (R321). -/
def execBindingError (slot : Nat) (s : State) : Out :=
  match s.binding slot with
  | none => .next s
  | some b => if b.err ∨ s.speBroken b = true then (Dev.settled (speFail s slot)).next s else .next s

end Sys2Proof.Machine
end

