-- ==== Sys2Proof/Machine/HostEvents.lean ====
section
/-! DEFINITION. Events of the host link (R83, R371, R431 to R437, R445 to R447): the port's cache, host atomics, the aperture. An event that is not due
has no effect. A port line is named by host address / 64. -/
namespace Sys2Proof.Machine

/-! ## Watches on host memory (R371, R447) -/

/-- The host address of a watch's word, if it lies in host memory. -/
def State.watchHost (s : State) (w : Watch) : Option Nat :=
  match translate s w.pid w.asid w.va with
  | .ok addr true _ _ => some addr
  | _ => none

/-- A watch whose word lies in a port line is read again. -/
def State.rereadLine (s : State) (line : Nat) : State :=
  { s with watches := s.watches.map fun w =>
      match w.got, s.watchHost w with
      | none, some a =>
        if a / 64 = line then
          let v := BitVec.ofNat 64 (s.portNat a (if w.ty.is64 then 8 else 4))
          if condHolds w.ty w.cc v w.cmp then { w with got := some v } else w
        else w
      | _, _ => w }

/-- An AWAITW that still waits watches a word of the line, in a partition whose lines the port caches. -/
def State.watchedLine (s : State) (line : Nat) : Bool :=
  s.watches.any fun w => w.got.isNone && (match s.watchHost w, s.part w.pid with
    | some a, some p => a / 64 == line && s.portCaches p && !p.err
    | _, _ => false)

/-- AWAITW_POLL (R371, R447): the watched host words of a team for which the port holds no copy are read again. Where the port could cache them, it
asks for the line again. -/
def execAwaitwPoll (team : Nat) (s : State) : Out :=
  match s.evTeam team with
  | none => .next s
  | some t =>
    match s.part t.pid with
    | none => .next s
    | some p =>
      if p.err then .next s
      else .next (((s.watches.filter fun w => w.pid == t.pid && w.team == t.id && w.got.isNone).filterMap s.watchHost).foldl (fun s a =>
        if (s.portLine (a / 64)).isSome then s
        else if s.portCaches p then s.askHost (a / 64) false
        else (s.sendPosted t.pid).rereadLine (a / 64)) s)

/-! ## The port's cache (R433) -/

/-- SNPDATA (R433, R445): the line's data go to the host if M; the line is then S. -/
def execSnpdata (line : Nat) (s : State) : Out :=
  match s.portLine line with
  | none => .next s
  | some l => .next ((s.writeBackPort l).putPortLine { l with st := .s })

/-- SNPINV (R433, R447): the host takes the line and stores bytes to it; a watched line is asked for again. -/
def execSnpinv (line : Nat) (addr : Nat) (data : List Byte) (s : State) : Out :=
  let s := match s.portLine line with | some l => s.writeBackPort l | none => s
  let s := { s with port := s.port.filter fun l => l.line != line }
  let s := if line * 64 ≤ addr ∧ addr + data.length ≤ line * 64 + 64 then s.hostPutList addr data else s
  .next (if s.watchedLine line then s.askHost line false else s)

/-- PORT_LINE_EVICTION (R433, R371): an M line is written back; a watched one is asked for again. -/
def execPortLineEviction (line : Nat) (s : State) : Out :=
  match s.portLine line with
  | none => .next s
  | some l =>
    let s := s.writeBackPort l
    let s := { s with port := s.port.filter fun l => l.line != line }
    .next (if s.watchedLine line then s.askHost line false else s)

/-- HOST_LINK_RESPONSE (R433): the host's grant brings a line in S or E, and watched words in it are read again; a read's completion shows that the host has
performed the posted writes on the link (R437), and those that wait at the port are sent, by weighted round robin (R424). -/
def execHostLinkResponse (line : Nat) (ans : HostAnswer) (s : State) : Out :=
  match ans with
  | .readDone =>
    .next (s.land.sendRounds s.hostOut.length)
  | _ =>
    match s.portReq.find? fun r => r.1 == line with
    | none => .next s
    | some (_, own) =>
      if own ≠ (ans == .owned) ∨ s.cxl = false then .next s
      else
        let st : PortState := if ans = .shared then .s else .e
        let s := { s with portReq := s.portReq.filter fun r => r.1 != line }
        .next ((s.putPortLine ⟨line, st, s.hostLine line⟩).rereadLine line)

/-! ## Host atomics (R434) -/

/-- How the link performs an operation: in the port's cache, whole at the host, by compare and swap, or by a read and a write. -/
inductive AtomMethod where
  | cache | native | casLoop | readWrite
  deriving DecidableEq, Repr

def atomMethod (s : State) (p : Partition) (op : Aop) : AtomMethod :=
  let whole : Bool := op == .add || op == .swap || op == .cas
  if s.portCaches p then .cache
  else match s.link with
    | .pcie => .readWrite
    | .pcieCasOnly => .casLoop
    | _ => if whole then .native else .casLoop

/-- A host atomic's record after a step; the record of a doorbell's addition, whose result nobody takes, goes when it is done (R400). -/
def State.setAtom (s : State) (index : Nat) (a : HostAtom) : State :=
  { s with hostAtoms := if a.done && a.team == 0 then s.hostAtoms.eraseIdx index else s.hostAtoms.set index a }

/-- The host port as a queue of weighted round robin (R424): its stop's number. -/
def hostQueue : Nat := 342

/-- The partitions whose atomics wait at the host port. -/
def State.atomWaiters (s : State) : List Nat := (s.hostAtoms.filter fun x => !x.done && !s.errs x.pid).map fun x => x.pid.toNat

/-- HOST_ATOMIC (R434): the next step of host atomic `index`: all of it, the read, or one compare and swap. The port serves the partitions by weighted round robin
(R424), and none in its error state (R427). The write of a read-and-write pair comes after the posted writes on the link (R437). -/
def execHostAtomic (index : Nat) (s : State) : Out :=
  match s.hostAtoms[index]? with
  | none => .next s
  | some a =>
    match s.part a.pid with
    | none => .next s
    | some p =>
      let n := if a.ty.is64 then 8 else 4
      let new (m : Dword) : Nat := (atomicNew a.ty a.aop m a.o a.c).toNat
      if a.done || p.err || !s.mayServe hostQueue a.pid.toNat s.atomWaiters then .next s
      else
        let s := s.serve hostQueue a.pid.toNat
        match atomMethod s p a.aop with
        | .cache =>
          if s.portOwns (a.addr / 64) then
            let m := BitVec.ofNat 64 (s.portNat a.addr n)
            let k := a.addr % 64
            let s := s.portMerge (a.addr / 64) ((placeNat k n (new m)).setWidth 512) ((placeBe k n).setWidth 64)
            .next ((s.setAtom index { a with m := some m, done := true }).rereadLine (a.addr / 64))
          else .next (s.askHost (a.addr / 64) true)
        | .native =>
          let s := s.sendPosted a.pid
          let m := BitVec.ofNat 64 (s.hostNat a.addr n)
          .next (((s.hostPutList a.addr (natBytes n (new m))).setAtom index { a with m := some m, done := true }).rereadLine (a.addr / 64))
        | .casLoop =>
          match a.m with
          | none =>
            let s := s.sendPosted a.pid
            let m := BitVec.ofNat 64 (s.hostNat a.addr n)
            .next (s.setAtom index { a with m := some m, done := new m == m.toNat })
          | some m =>
            let s := s.sendPosted a.pid
            let now := BitVec.ofNat 64 (s.hostNat a.addr n)
            if now = m then .next (((s.hostPutList a.addr (natBytes n (new m))).setAtom index { a with done := true }).rereadLine (a.addr / 64))
            else .next (s.setAtom index { a with m := some now, done := new now == now.toNat })
        | .readWrite =>
          match a.m with
          | none =>
            let s := s.sendPosted a.pid
            let open_ : Bool := s.hostAtoms.any fun x => x.m.isSome && !x.done && decide (a.addr < x.addr + 8) && decide (x.addr < a.addr + n)
            if open_ || s.hostOut.any (fun w => w.pid == a.pid) then .next s else .next (s.setAtom index { a with m := some (BitVec.ofNat 64 (s.hostNat a.addr n)) })
          | some m => .next (((s.land.hostPutList a.addr (natBytes n (new m))).setAtom index { a with done := true }).rereadLine (a.addr / 64))

/-! ## The aperture (R435, R436) -/

/-- How a host access to an aperture stands: refused and counted or not (R427, R435), or as an access under an ASID. -/
inductive Aperture where
  | refused (counted : Bool)
  | open_ (asid : BitVec 16)

def Partition.aperture (p : Partition) (off len : Nat) : Aperture :=
  let asid : BitVec 16 := p.xhwin.setWidth 16
  if p.err then .refused false
  else if p.xhwin.getLsbD 16 ∧ p.ownsAsid asid ∧ off + len ≤ 2 ^ 52 then .open_ asid
  else .refused true

/-- A refused access is counted (R425, R435). -/
def State.countHfault (s : State) (pid : BitVec 5) (counted : Bool) : State :=
  if counted then s.mapPart pid fun p => { p with hfault := min (p.hfault + 1) 0xFFFFFFFF } else s

/-- What a refused read returns: poison over CXL.mem, all ones over PCIe. -/
def State.refusedRead (s : State) (len : Nat) : Option (List Byte) := if s.cxl then none else some (List.replicate len 0xFF)

/-- The host as the maker of an access: it has no core and no privilege. -/
def hostWho (pid : BitVec 5) (asid : BitVec 16) : Who := ⟨0, pid, asid, false, 0, 0⟩

/-- HOST_APERTURE_READ (R435): performed at home, or refused and counted. Under CXL 3.x the host may keep the lines. -/
def execHostApertureRead (pid : BitVec 5) (off len : Nat) (s : State) : Out :=
  match s.part pid with
  | none => .next s
  | some p =>
    match p.aperture off len with
    | .refused counted => .next ((({ s with hostRead := s.refusedRead len } : State)).countHfault pid counted)
    | .open_ asid =>
      match engineReadRange s (hostWho pid asid) off len with
      | .ok bs s =>
        let (k, s) := s.choose 2
        let lines := (List.range ((off + len + 127) / 128 - off / 128)).map fun i => (pid, off / 128 + i)
        let keep := if s.link = .cxl3 ∧ k = 1 then lines.filter fun l => !s.hostCache.contains l else []
        .next { s with hostRead := some bs, hostCache := s.hostCache ++ keep }
      | .busy s => .next s
      | .unbacked => .fault .unbackedFrame
      | _ => .next ((({ s with hostRead := s.refusedRead len } : State)).countHfault pid true)

/-- A host write to an owned page is discarded, and counted in REJ of the log header of each binding that owns the page (R296, R299). -/
def State.countRej (s : State) (pid : BitVec 5) (asid : BitVec 16) (va : Nat) : Dev Unit :=
  Dev.settled (devEach (fun s b => speHeader (s.mapBinding b.slot fun b => { b with rej := min (b.rej + 1) 0xFFFFFFFF }) b.slot)
    ((s.bindsOf pid asid).filter fun b => b.owns va) s)

/-- A host write's pieces, line by line; one that is refused is discarded, with those after it. -/
def hostWritePieces (pid : BitVec 5) (asid : BitVec 16) : List (Nat × List Byte) → State → Acc Unit
  | [], s => .ok () s
  | (va, bs) :: rest, s =>
    match homeWrite { s with hostCache := s.hostCache.filter fun h => h != (pid, va / 128) } pid asid va (placeNat (va % 128) bs.length (bytesNat bs))
        (placeBe (va % 128) bs.length) false none with
    | .ok s => hostWritePieces pid asid rest s
    | .busy s => .busy s
    | .fault c => .fault c
    | .misplaced => .misplaced
    | .refused => match s.countRej pid asid va with
      | .ok _ s => .ok () s
      | _ => .busy s
    | .unbacked => .unbacked
    | .host addr _ s =>
      match s.part pid with
      | none => .fault 0
      | some p =>
        match portWrite s p (addr / 128 * 128) (placeNat (va % 128) bs.length (bytesNat bs)) (placeBe (va % 128) bs.length) with
        | .ok _ s => hostWritePieces pid asid rest (s.portWatches pid asid (va / 128 * 128) (addr / 128 * 128))
        | .busy s => .busy s

/-- A host write to the function's aperture that a binding still holds (R305, R436). -/
def State.hostHeld (s : State) (pid : BitVec 5) : Bool :=
  s.binds.any fun b => b.pid == pid && b.hold.any fun h => h.core.isNone

/-- HOST_APERTURE_WRITE (R435, R436): performed at home, or discarded and counted. With the Relaxed Ordering attribute clear it comes after every
earlier one, those that a binding holds among them. -/
def execHostApertureWrite (pid : BitVec 5) (off : Nat) (data : List Byte) (relaxed : Bool) (s : State) : Out :=
  match s.part pid with
  | none => .next s
  | some p =>
    match p.aperture off data.length with
    | .refused counted => .next (s.countHfault pid counted)
    | .open_ asid =>
      if !relaxed && s.hostHeld pid then .next s
      else match hostWritePieces pid asid (linePieces (data.length / 128 + 2) off data) s with
        | .ok _ s => .next s
        | .busy s => .next s
        | .unbacked => .fault .unbackedFrame
        | _ => .next (s.countHfault pid true)

/-- BACK_INVALIDATE (R435): the host gives up an aperture line that it caches. -/
def execBackInvalidate (pid : BitVec 5) (line : Nat) (s : State) : Out :=
  .next { s with hostCache := s.hostCache.filter fun h => h != (pid, line) }

/-! ## Global persistent flush (R83) -/

/-- The dirty L1 lines of a core whose home is persistent memory. -/
def State.persistentDirty (s : State) (core : Core) : List L1Line :=
  core.l1.filter fun l => l.host && l.d != 0 && (match translate s l.key.pid l.key.asid l.key.va, s.part l.key.pid with
    | .ok a true _ _, some p => p.persistent a
    | _, _ => false)

/-- Flushes of a list of cores' persistent lines. -/
def flushPersistent : List (Nat × Core) → State → Acc Unit
  | [], s => .ok () s
  | (k, c) :: rest, s =>
    match flushLines k 0 (s.persistentDirty c) s with
    | .ok _ s => flushPersistent rest s
    | a => a

/-- A host address is persistent memory of some partition. -/
def State.persistentAt (s : State) (a : Nat) : Bool := s.parts.any fun p => p.persistent a

/-- What is dirty of persistent memory in the L1s, the queue of posted writes and the port becomes durable (R83); `busy` while a part of it cannot. -/
def State.flushAll (s : State) : Acc Unit :=
  match flushPersistent s.cores s with
  | .ok _ s =>
    let before := s.hostSent ++ s.hostOut
    let s := s.parts.foldl (fun s p => if s.hostOut.any fun w => w.pid == p.pid && s.persistentAt w.addr then s.sendPosted p.pid else s) s.land
    let s := before.foldl (fun s w => if s.persistentAt w.addr ∧ s.hostOut.contains w = false then s.makeDurable w.addr w.data.length else s) s
    let s := s.port.foldl (fun s l =>
      if l.st = .m ∧ s.persistentAt (l.line * 64) then ((s.writeBackPort l).putPortLine { l with st := .e }).makeDurable (l.line * 64) 64 else s) s
    if s.hostOut.any fun w => s.persistentAt w.addr then .busy s else .ok () s
  | a => a

/-- GLOBAL_PERSISTENT_FLUSH (R83): every dirty word of a persistent line is made durable, and only then is the flush acknowledged; a flush that cannot end yet
goes on with the event's next occurrence. -/
def execGlobalPersistentFlush (s : State) : Out :=
  match { s with flushAsked := true }.flushAll with
  | .ok _ s => .next { s with flushAsked := false, flushAcks := s.flushAcks + 1 }
  | .busy s => .next s
  | .unbacked => .fault .unbackedFrame
  | _ => .next { s with flushAsked := false, flushAcks := s.flushAcks + 1 }

end Sys2Proof.Machine
end

