-- ==== Sys2Proof/Machine/ReadBack.lean ====
section
/-! DEFINITION. The management function's read-back window (R85, R96, R426, R439, R444). -/
namespace Sys2Proof.Machine

/-- The partition that owns a unit of the module, and whether the management function can read it (R444): the module is stopped, or its partition is in
its error state. -/
def State.readable (s : State) (p : Option Partition) : Bool := s.fatal || (match p with | some p => p.err | none => false)

/-- A value that the read-back window returns: all ones for a bound partition (R439, R444). -/
def State.returns (s : State) (p : Option Partition) (v : Dword) : State :=
  if s.readable p then { s with mgmtRead := if (match p with | some p => p.bound | none => false) then BitVec.allOnes 64 else v } else s

/-- The bytes that the window returns beside a value. -/
def State.returnsBytes (s : State) (p : Option Partition) (bytes : List Byte) (v : Dword) : State :=
  let hidden : Bool := match p with | some p => p.bound | none => false
  (if s.readable p then { s with hostRead := some (if hidden then List.replicate bytes.length 0xFF else bytes) } else s).returns p v

/-- A value of a team. -/
def State.returnsOf (s : State) (team : Nat) (f : Team → Dword) : State :=
  match s.evTeam team with
  | none => s
  | some t => s.returns (s.part t.pid) (f t)

/-- A directory entry in its layout (R96). -/
def DirEntry.bits (e : DirEntry) : Dword :=
  BitVec.ofNat 64 (e.ptag % 2 ^ 20 * 2 ^ 44 + e.ptrs.foldl (fun n p => n + (128 + p.2 % 64) * 2 ^ (8 * p.1)) 0)

/-- The state of a line's words as R85 lays it out, two bytes each: OWN 8, ODIE 7:6, V 5, D 4, BE 3:0. -/
def wordStates (v d : BitVec 32) (be : BitVec 128) (own : BitVec 32) (odie : BitVec 64) : List Byte :=
  (List.range 32).flatMap fun k => natBytes 2 ((own.getLsbD k).toNat * 256 + (odie.extractLsb' (2 * k) 2).toNat * 64 + (v.getLsbD k).toNat * 32 +
    (d.getLsbD k).toNat * 16 + (be.extractLsb' (4 * k) 4).toNat)

/-! ## Queues and tables (R444; which words of an entry the window shows, and in which order, is the model's: DESIGN CHOICE, log 46) -/

def DeqEnt.words (e : DeqEnt) : List Nat :=
  [e.age, e.since, e.sub] ++ match e.kind with
    | .spawn spec next first frames _ => [0, spec.entry.toNat, spec.lanes, spec.size, next, first] ++ frames
    | .cont team frames child => [1, team, child] ++ frames
    | .saved team => [2, team]

def Packet.words (p : Packet) : List Nat :=
  [p.pid.toNat, stopNumber p.dst, stopNumber p.src, p.team, p.gen.toNat, p.seq.getD 0, p.mis, p.x, p.y, p.port, p.vc, p.flits, p.blocked, p.suspect.toNat]

def Binding.words (b : Binding) : List Nat :=
  [b.slot, b.tag.toNat, b.asid.toNat, b.cbase, b.abase, b.bbase, b.lbase, b.m, b.n, b.k, b.cstride, b.astride, b.bstride, b.t, b.logn, b.capseq, b.appseq, b.rej, b.err.toNat]

/-- A list of bytes as dwords. -/
def dwordsOf : Nat → List Byte → List Nat
  | 0, _ => []
  | n + 1, bs => if bs.isEmpty then [] else bytesNat (bs.take 8) :: dwordsOf n (bs.drop 8)

/-- The entries of a queue or table with the partition that each belongs to. -/
def State.unitEntries (s : State) (u : UnitName) : List (Option Partition × List Nat) :=
  let of (pid : BitVec 5) (ws : List Nat) : Option Partition × List Nat := (s.part pid, ws)
  let packet (p : Packet) : Option Partition × List Nat := (if p.pid.toNat < 32 then s.part (p.pid.setWidth 5) else none, p.words)
  let arrived (a : Arrived) : Option Partition × List Nat := ((packet a.pkt).1, a.at_ :: a.pkt.words)
  let posted (w : HostWrite) : Option Partition × List Nat := of w.pid ([w.addr, w.data.length] ++ dwordsOf w.data.length w.data)
  let window (line : Nat) : Option Partition := s.parts.find? fun p => p.admits (line * 64)
  let team (id : Nat) (f : Team → List (List Nat)) : List (Option Partition × List Nat) :=
    match s.evTeam id with
    | none => []
    | some t => (f t).map (of t.pid)
  let binding (slot : Nat) (f : Binding → List (List Nat)) : List (Option Partition × List Nat) :=
    (s.binds.filter fun b => b.slot == slot).flatMap fun b => (f b).map (of b.pid)
  match u with
  | .deque core => (s.core core).deque.map fun e => of e.pid e.words
  | .overflow pid => match s.part pid with
    | some p => p.overflow.map fun e => of e.pid e.words
    | none => []
  | .frameStore core => (s.core core).frames.map fun f => of f.1 [f.2]
  | .acks core => (s.core core).acks.map fun a => of a.pid [a.team, a.key.asid.toNat, a.key.va, a.lines, a.id]
  | .copies id => team id fun t => t.copies.map fun o => [o.id, o.tag.toNat, o.asid.toNat, o.src.toNat, o.dst.toNat, o.len, o.rows, o.stride.toNat, o.off]
  | .chains id => team id fun t => t.chains.map fun o => [o.id, o.tag.toNat, o.asid.toNat, o.dst, o.n, o.next]
  | .matrix id => team id fun t => t.matq.map fun e => [e.order, e.sa.toNat, e.sb.toNat]
  | .loads => s.loads.map fun r => of r.pid [r.team, r.gen.toNat, r.core, r.sb, r.wafer.line]
  | .packets => s.packets.map packet
  | .lane => s.lane.map packet
  | .inbox => s.inbox.map arrived
  | .held => s.held.map arrived
  | .bunker => s.bunker.map arrived
  | .rally => s.rally.map fun r => of r.pid [r.bank, r.team, r.id.toNat, r.deadline]
  | .watches => s.watches.map fun w => of w.pid [w.team, w.asid.toNat, w.va, w.cmp.toNat]
  | .tlb => s.tlb.map fun e => of e.pid [e.mtu, e.asid.toNat, e.base, e.size, e.addr, e.host.toNat]
  | .walks => s.walks.map fun w => of w.pid [w.mtu, w.asid.toNat, w.addr, w.value.toNat]
  | .portCache => s.port.map fun l => (window l.line, [l.line, (match l.st with | .s => 0 | .e => 1 | .m => 2)] ++ dwordsOf 8 (natBytes 64 l.data.toNat))
  | .portRequests => s.portReq.map fun r => (window r.1, [r.1, r.2.toNat])
  | .posted => s.hostOut.map posted
  | .onLink => s.hostSent.map posted
  | .hostAtoms => s.hostAtoms.map fun a => of a.pid [a.team, a.addr, a.o.toNat, a.c.toNat, (a.m.map (·.toNat)).getD 0, a.done.toNat]
  | .homeAgents => s.haq.map fun w => (w.chan.bind s.channelOwner, [w.spa, w.data.length] ++ dwordsOf w.data.length w.data)
  | .bindings => s.binds.map fun b => of b.pid b.words
  | .captureLog slot => binding slot fun b => b.entries.map fun e => [e.seq, e.opB.toNat, e.va, e.row, e.col, e.old.toNat, e.new.toNat]
  | .holdQueue slot => binding slot fun b => b.hold.map fun h => [h.id, h.va, h.data.toNat, h.be.toNat]

/-- READ_BACK (R85, R444, R426): 8 bytes of HBM, save areas among them; a line of a bank or of an L1, its bytes and its words' states in `hostRead` and its V
and D in `mgmtRead`; a
directory entry; a register, tile element, window bytes or path of a team; a fault-queue entry; a function's or the management function's register; a word of an entry of a queue or table. HBM returns the plaintext of the partition on
whose channels it lies while that one's key is loaded, any value else. -/
def execReadBack (t : ReadTarget) (s : State) : Out :=
  match t with
  | .hbm spa =>
    match s.parts.find? fun p => (s.ownFrames p).contains (spa / 2097152) with
    | some p =>
      if storeGet 0 s.keys p.keyslot ≠ 0 then .next (s.returns (some p) (BitVec.ofNat 64 (s.viewNat spa 8)))
      else let (v, s) := s.freshBits 64; .next (s.returns (some p) v)
    | none => let (v, s) := s.freshBits 64; .next (s.returns none v)
  | .bank phys index =>
    let p := (s.bank phys).owner.bind s.part
    match (s.bank phys).lines[index]? with
    | none => .next (s.returns p 0)
    | some l => .next (s.returnsBytes p ((List.range 128).map (byteAt l.data) ++ wordStates l.v l.d l.be l.own l.odie) (l.v.setWidth 64 ||| (l.d.setWidth 64 <<< 32)))
  | .l1 core index =>
    match (s.core core).l1[index]? with
    | none => .next (s.returns (s.partOfCore core) 0)
    | some l => .next (s.returnsBytes (s.part l.key.pid) ((List.range 128).map (byteAt l.data) ++ wordStates l.v l.d l.be 0 0) (l.v.setWidth 64 ||| (l.d.setWidth 64 <<< 32)))
  | .directory phys index => .next (s.returns ((s.bank phys).owner.bind s.part) (((s.bank phys).dir[index]?).elim 0 DirEntry.bits))
  | .uniform team r => .next (s.returnsOf team fun t => if r = 0 then 0 else storeGet 0 t.s r.toNat)
  | .lane team r l => .next (s.returnsOf team fun t => (storeGet 0 t.v (laneKey r l)).setWidth 64)
  | .mask team m =>
    match s.evTeam team with
    | none => .next s
    | some t => .next (s.returnsBytes (s.part t.pid) (natBytes 128 (storeGet 0 t.m m.toNat).toNat) 0)
  | .tile team k => .next (s.returnsOf team fun t => (storeGet 0 t.tiles k).setWidth 64)
  | .window team off => .next (s.returnsOf team fun t => BitVec.ofNat 64 (t.winNat off 8))
  | .special team slot num => .next (s.returnsOf team fun t => ({ s with team := t, slot := slot }.readSpecial num).1)
  | .path team slot =>
    match s.evTeam team with
    | none => .next s
    | some t =>
      let p := (t.path slot).getD Path.blank
      .next (s.returnsBytes (s.part t.pid) (natBytes 128 p.mask.toNat) p.pc)
  | .fault index k =>
    match s.fq[index]? with
    | none => .next s
    | some e => .next (s.returns (s.part e.pid) (e.words.getD k 0))
  | .function pid off =>
    match s.part pid with
    | none => .next s
    | some p => .next (s.returns (some p) (p.getReg off))
  | .entry u index k => match (s.unitEntries u)[index]? with
    | none => .next s
    | some e => .next (s.returns e.1 (BitVec.ofNat 64 (e.2.getD k 0)))
  | .management off => .next (s.returns none (s.getMgmt off))
  | .certificate slot => .next (s.returns none (if slot < 5 then Config.certificate slot else 0))

end Sys2Proof.Machine
end

