-- ==== Sys2Proof/Machine/ModuleEvents.lean ====
section
/-! DEFINITION. Events of partitions, trust and the module (R7, R80, R81, R90, R92, R103, R123, R127, R421 to R430, R439 to R444). An event that is not
due has no effect. -/
namespace Sys2Proof.Machine

/-! ## Creation and change of partitions (R421, R422) -/

/-- The bit of XERR for a cause (R425). -/
def causeBit : ErrCause → Nat
  | .poison => 0 | .reject => 1 | .tdisp => 2 | .spdm => 3 | .ide => 4

/-- Sorted, each unit once. -/
def sortedUnits (l : List Nat) : List Nat := dedupe (sortBy id l)

/-- Numbers of units in the retirement list: quads from 0, banks from 64, channels from 1024. -/
def retiredQuad (q : Nat) : Nat := q
def retiredBank (b : Nat) : Nat := 64 + b
def retiredChannel (c : Nat) : Nat := 1024 + c

/-- What a command's partition owns: units that the management function has retired are removed, and the quads that are not enabled never appear (R14,
R422). -/
def State.ownedUnits (s : State) (x : PartSpec) : PartSpec :=
  let keep (f : Nat → Nat) (l : List Nat) : List Nat := (sortedUnits l).filter fun u => !s.retiredUnits.contains (f u)
  { x with quads := (keep retiredQuad x.quads).filter (fun q => !s.harvested.contains q), banks := keep retiredBank x.banks, channels := keep retiredChannel x.channels }

def disjoint (a b : List Nat) : Bool := a.all fun x => !b.contains x

/-- ASID ranges: within 16 bits and without 0 (an empty one apart). -/
def rangeOk (base last : Nat) : Bool := decide (last < base) || (decide (1 ≤ base) && decide (last < 65536))

def rangesApart (b1 l1 b2 l2 : Nat) : Bool := decide (l1 < b1) || decide (l2 < b2) || decide (l1 < b2) || decide (l2 < b1)

/-- Two partitions share no unit, no key slot and no ASID (R421). -/
def PartSpec.apart (x : PartSpec) (p : Partition) : Bool :=
  disjoint x.quads p.quads && disjoint x.banks p.banks && disjoint x.channels p.channels && x.keyslot != p.keyslot &&
    rangesApart x.base0 x.last0 p.base0 p.last0 && rangesApart x.base0 x.last0 p.base1 p.last1 &&
    rangesApart x.base1 x.last1 p.base0 p.last0 && rangesApart x.base1 x.last1 p.base1 p.last1

/-- What a partition owns is legal (R13, R14, R89, R421, R424): existing units, a channel on each die of a bank, a bank on each die of a quad. -/
def PartSpec.legal (x : PartSpec) : Bool :=
  (x.quads.all fun q => decide (q < 48)) && (x.banks.all fun b => decide (b < 256)) && (x.channels.all fun c => decide (c < 512)) &&
    (x.banks.all fun b => x.channels.any fun c => c / 128 == b / 64) && (x.quads.all fun q => x.banks.any fun b => b / 64 == q / 12) &&
    decide (1 ≤ x.weight) && decide (x.weight ≤ 255) && decide (x.keyslot ≤ 31) && rangeOk x.base0 x.last0 && rangeOk x.base1 x.last1

/-- No die has more than ten of its quads in partitions (R14). -/
def quadsFit (x : PartSpec) (others : List Partition) : Bool :=
  (List.range 4).all fun d =>
    decide (((x.quads ++ others.flatMap (·.quads)).filter fun q => q / 12 == d).length ≤ Config.quadsPerDie)

/-- The command is obeyed (R421): it breaks no rule. -/
def State.grants (s : State) (x : PartSpec) : Bool :=
  let others := s.parts.filter fun p => p.pid != x.pid
  PartSpec.legal x && (others.all fun p => PartSpec.apart x p) && quadsFit x others

/-- The registers of a function block at their Reset values, but for those that a per-function reset keeps (R430, R388, R425, R67, R92). -/
def Partition.resetRegs (p : Partition) : Partition :=
  { p with xasid := 0, ceil := 4, floor := 0, share := [0, 0, 0, 0], xnullack := 0, xrecov := 0, xreject := 0, xsched := 0x080010, xfqdb := 0, xtrapent := 0,
           xlaunch := 0, err := false, cause := 0, xhwin := 0, xhpm := 0, drop := 0, hfault := 0 }

/-- A partition as created: the command's ownership, every register at its Reset value. -/
def PartSpec.make (x : PartSpec) : Partition :=
  Partition.resetRegs
    { pid := x.pid, quads := x.quads, banks := x.banks, channels := x.channels, weight := x.weight, keyslot := x.keyslot, base0 := x.base0, last0 := x.last0,
      base1 := x.base1, last1 := x.last1, hwBase := x.hwBase % 2 ^ 27, hwLast := x.hwLast % 2 ^ 27, enabled := true, tdisp := .unlocked, xasid := 0, ceil := 4,
      floor := 0, share := [], xnullack := 0, xrecov := 0, xreject := 0, xfpool := 0, xfpsz := 0, xsched := 0, xfq := 0x00400010, xfqdb := 0, xtrapent := 0,
      xsvpool := 0, xsvcnt := 0, xlaunch := 0, err := false, cause := 0, xhwin := 0, xhpm := 0, epochs := [], drop := 0, hfault := 0, stage2 := [], frames := [],
      frameTag := [], saveUsed := [], trees := [], overflow := [], nextTeam := 1, stitch := [], ideStream := x.pid.toNat }

/-- Banks take their owner (R422). -/
def State.ownBanks (s : State) (banks : List Nat) (pid : Option (BitVec 5)) : State :=
  banks.foldl (fun s b => s.putBank b { s.bank b with owner := pid }) s

/-- The module takes management commands: it has booted and is not stopped (R441, R443). -/
def State.managed (s : State) : Bool := s.boot == .ready && !s.fatal

/-- The key manager draws the key of a slot (R426); a key that no other partition uses any more is gone. -/
def State.drawKey (s : State) (slot : Nat) : State := { s with keys := storePut 0 s.keys slot (s.epoch + 1), epoch := s.epoch + 1 }

/-- PARTITION_CREATE (R421, R422, R426). -/
def execPartitionCreate (p : PartSpec) (s : State) : Out :=
  let x := s.ownedUnits p
  if s.managed ∧ (s.part x.pid).isNone ∧ s.grants x = true then
    let s := s.ownBanks x.banks (some x.pid)
    .next ({ s with parts := s.parts ++ [PartSpec.make x] }.drawKey x.keyslot)
  else .next s

/-- A channel set lies in one partition (R58): the manager takes the sets apart whose channels no longer do, and the second-stage entries of their frames
(R66). -/
def State.regroup (s : State) : State :=
  let owned (p : Partition) (set : List Nat) : Bool := set.all fun c => p.channels.contains c
  let keep (p : Partition) (e : Nat × Dword) : Bool := !e.2.getLsbD 0 || owned p (storeGet [] s.chanSets (field e.2 51 21))
  { s with chanSets := s.chanSets.filter (fun x => s.parts.any fun p => owned p x.2),
           parts := s.parts.map (fun p => { p with stage2 := p.stage2.filter (keep p) }) }

/-- PARTITION_CHANGE (R422): only while the function is disabled and its interface is not bound (R439). A partition that changes its key slot while it is held in
reset has its key drawn in the new one (R429 step 7; DEDUCED, log 61). -/
def execPartitionChange (p : PartSpec) (s : State) : Out :=
  let x := s.ownedUnits p
  match s.part x.pid with
  | none => .next s
  | some old =>
    if s.managed ∧ old.enabled = false ∧ old.bound = false ∧ s.grants x = true then
      let s := (s.ownBanks old.banks none).ownBanks x.banks (some x.pid)
      let s := if x.keyslot = old.keyslot then s else { s with keys := storePut 0 s.keys old.keyslot 0 }.drawKey x.keyslot
      .next (State.regroup (s.mapPart x.pid fun p =>
        { p with quads := x.quads, banks := x.banks, channels := x.channels, weight := x.weight, keyslot := x.keyslot, base0 := x.base0, last0 := x.last0,
                 base1 := x.base1, last1 := x.last1, hwBase := x.hwBase % 2 ^ 27, hwLast := x.hwLast % 2 ^ 27 }))
    else .next s

/-- A partition's ownership as a command would name it. -/
def Partition.spec (p : Partition) : PartSpec :=
  ⟨p.pid, p.quads, p.banks, p.channels, p.weight, p.keyslot, p.base0, p.last0, p.base1, p.last1, p.hwBase, p.hwLast⟩

/-- Every line of a bank leaves it, its dirty words written back. -/
def evictBank (bank : Nat) : List L2Line → State → State
  | [], s => s
  | l :: rest, s => evictBank bank rest (if l.remote then evictRemote s bank l else evictHome s bank l)

/-- Nothing about a bank is under way: no transaction, no write that waits for a grant, no packet to it. -/
def State.bankQuiet (s : State) (bank : Nat) : Bool :=
  (s.bank bank).txns.isEmpty && (s.bank bank).pend.isEmpty && !(s.msgs.any fun p => p.dst == .bank bank)

/-- BANK_MOVE (R90, R422): between two disabled partitions, once nothing about the bank is under way; the bank is written back and emptied first. -/
def execBankMove (bank : Nat) (dst : BitVec 5) (s : State) : Out :=
  match s.parts.find? (fun p => p.banks.contains bank), s.part dst with
  | some p, some q =>
    let x : PartSpec := { q.spec with banks := sortedUnits (bank :: q.banks) }
    let y : PartSpec := { p.spec with banks := p.banks.filter (· != bank) }
    if s.bankQuiet bank ∧ s.managed ∧ p.pid ≠ dst ∧ p.enabled = false ∧ q.enabled = false ∧ p.bound = false ∧ q.bound = false ∧ PartSpec.legal x = true ∧ PartSpec.legal y = true then
      let s := evictBank bank (s.bank bank).lines s
      let s := s.putBank bank { Bank.blank with owner := some dst }
      .next ((s.mapPart p.pid fun p => { p with banks := y.banks }).mapPart dst fun q => { q with banks := x.banks })
    else .next s
  | _, _ => .next s

/-! ## Errors and the per-function reset (R427 to R430) -/

/-- PARTITION_ERROR (R427, R428). -/
def execPartitionError (pid : BitVec 5) (cause : ErrCause) (s : State) : Out := .next (s.partErr pid (causeBit cause))

/-- Step 2 of R429: every team of the partition and all that belongs to teams. -/
def State.dropTeams (s : State) (pid : BitVec 5) : State :=
  let f (c : Core) : Core := { c with deque := c.deque.filter fun e => e.pid != pid, acks := c.acks.filter fun a => a.pid != pid, frames := c.frames.filter fun f => f.1 != pid }
  { s with
    team := if s.team.pid = pid then Team.blank else s.team, teams := s.teams.filter fun t => t.pid != pid,
    running := s.running.filter fun r => r.2.pid != pid, loads := s.loads.filter fun l => l.pid != pid, prefs := s.prefs.filter fun r => r.pid != pid, atomics := s.atomics.filter fun a => a.pid != pid,
    fq := s.fq.filter fun e => e.pid != pid, fqWait := s.fqWait.filter fun e => e.pid != pid, cohorts := s.cohorts.filter fun c => c.pid != pid,
    rally := s.rally.filter fun r => r.pid != pid, watches := s.watches.filter fun w => w.pid != pid,
    hostAtoms := s.hostAtoms.filter fun a => a.pid != pid, objects := s.objects.filter fun o => o.pid != pid,
    cores := s.cores.map fun c => (c.1, f c.2) }

/-- Steps 3 and 4 of R429: its cached lines, directory entries and packets, and what it has in the host port's queues. -/
def State.dropCaches (s : State) (p : Partition) : State :=
  let pid := p.pid
  let bank (k : Nat) (b : Bank) : Bank :=
    { b with lines := b.lines.filter fun l => l.key.pid != pid, dir := if p.banks.contains k then [] else b.dir,
             txns := b.txns.filter fun t => t.key.pid != pid, pend := b.pend.filter fun r => r.key.pid != pid }
  let stays (k : Packet) : Bool := k.pid != pid.setWidth 6
  { s with
    cores := s.cores.map fun c => (c.1, { c.2 with l1 := c.2.l1.filter fun l => l.key.pid != pid }),
    banks := s.banks.map fun b => (b.1, bank b.1 b.2), packets := s.packets.filter stays, lane := s.lane.filter stays,
    inbox := s.inbox.filter fun a => stays a.pkt, held := s.held.filter fun a => stays a.pkt, bunker := s.bunker.filter fun a => stays a.pkt,
    seqNext := s.seqNext.filter (fun x => x.1 / 2 ^ 42 != pid.toNat), seqSent := s.seqSent.filter (fun x => x.1 / 2 ^ 42 != pid.toNat),
    hostOut := s.hostOut.filter fun w => w.pid != pid, hostCache := s.hostCache.filter fun h => h.1 != pid,
    portReq := s.portReq.filter fun r => !p.admits (r.1 * 64) }

/-- Steps 5 to 8 of R429: bindings, translations, the key and the registers. -/
def State.dropRest (s : State) (p : Partition) : State :=
  let s := { s with
    binds := s.binds.filter fun b => b.pid != p.pid, tlb := s.tlb.filter fun t => t.pid != p.pid, walks := s.walks.filter fun w => w.pid != p.pid,
    shoots := s.shoots.filter fun w => w.pid != p.pid }
  (s.drawKey p.keyslot).mapPart p.pid fun p =>
    { p.resetRegs with enabled := false, frames := [], saveUsed := [], trees := [], overflow := [], stitch := [] }

/-- PER_FUNCTION_RESET (R429, R430): its outbound host traffic stops first, as in the error state (R427, R428), and every byte on its channels is lost. The
partition manager may hold the function in reset (R422); it enables it with a later event. -/
def execPerFunctionReset (pid : BitVec 5) (s : State) : Out :=
  match s.part pid with
  | none => .next s
  | some p =>
    if p.enabled then
      let s := (((((s.spill pid).dropTeams pid).dropCaches p).dropRest p).loseFrames (s.ownFrames p))
      let (k, s) := s.choose 2
      .next (s.mapPart pid fun p => { p with enabled := k == 0 })
    else .next (s.mapPart pid fun p => { p with enabled := true })

/-! ## TDISP, IDE and SPDM (R439, R440) -/

/-- The port gives up the lines of a partition's host window (R433). -/
def State.uncache (s : State) (p : Partition) : State :=
  let mine (l : PortLine) : Bool := p.admits (l.line * 64)
  let s := { s with portReq := s.portReq.filter fun r => !p.admits (r.1 * 64) }
  let s := (s.port.filter mine).foldl (fun s l => s.writeBackPort l) s
  { s with port := s.port.filter fun l => !mine l }

/-- TDISP_STATE_CHANGE (R439): an interface that leaves RUN other than for CONFIG_UNLOCKED puts its partition in its error state. -/
def execTdispStateChange (pid : BitVec 5) (st : Tdisp) (s : State) : Out :=
  match s.part pid with
  | none => .next s
  | some p =>
    let bad : Bool := p.tdisp == .run && st != .run && st != .unlocked
    let s := s.mapPart pid fun p => { p with tdisp := st }
    let s := if st = .locked ∨ st = .run then s.uncache p else s
    .next (if bad then s.partErr pid 2 else s)

/-- IDE_INTEGRITY_FAILURE (R439): every partition whose interface uses the stream. -/
def execIdeIntegrityFailure (stream : Nat) (s : State) : Out :=
  .next ((s.parts.filter fun p => p.ideStream == stream).foldl (fun s p => s.partErr p.pid 4) s)

/-- SPDM_SESSION_EXPIRY (R439): the interface's binding depends on the session. -/
def execSpdmSessionExpiry (pid : BitVec 5) (s : State) : Out :=
  match s.part pid with
  | none => .next s
  | some p => .next (if p.bound then s.partErr pid 3 else s)

/-- The remap-table entry of a partition (R422), as numbers. -/
def Partition.remapEntry (p : Partition) : List Nat :=
  [p.pid.toNat, p.quads.length] ++ p.quads ++ [p.banks.length] ++ p.banks ++ [p.channels.length] ++ p.channels

/-- What SPDM measures in a block (R440): the boot ROM; an image's security version; a die's microcode, fuse state and harvest map; the requesting function's
remap-table entry, XPINFO and XASIDR. -/
def State.measured (s : State) (pid : BitVec 5) (index : Nat) : List Nat :=
  if index = 1 then []
  else if index ≤ 4 then [s.images.getD (index - 2) 0]
  else if index ≤ 8 then [s.images.getD (index - 2) 0, s.fuse] ++ s.harvested.filter fun q => q / 12 == index - 5
  else match s.part pid with
    | some p => p.remapEntry ++ [p.xpinfo.toNat, p.xasidr.toNat]
    | none => []

/-- SPDM_REQUEST (R440): the measurement with an index from 1 to 9. -/
def execSpdmRequest (pid : BitVec 5) (index : Nat) (s : State) : Out :=
  .next { s with spdm := if 1 ≤ index ∧ index ≤ 9 then some (Config.measurement index (s.measured pid index)) else none }

/-! ## Boot, power, fatal errors (R441 to R444) -/

/-- The images that the boot verifies (R441): the root controller's firmware, the partition manager, the key manager, the microcode of four dies. -/
def bootImages : Nat := 7

/-- The mode that the host link trains to (R22): the host's side settles it, so it is one of the modes by a free choice (log 69). -/
def trainedLink (n : Nat) : LinkMode :=
  match Config.choice n % 5 with
  | 0 => .cxl3
  | 1 => .cxl2
  | 2 => .pcieAtomics
  | 3 => .pcieCasOnly
  | _ => .pcie

/-- The rate per lane in GT/s that a mode trains to (R431), where the two ends leave a choice by a free one (log 69). -/
def trainedRate (mode : LinkMode) (n : Nat) : Nat :=
  match mode with
  | .cxl3 => [128, 64].getD (Config.choice n % 2) 64
  | .cxl2 => 32
  | _ => [128, 64, 32].getD (Config.choice n % 3) 32

/-- The lanes that the link trains to (R431): x16, x8 or x4; x2 and x1 carry the recovery mailbox alone. -/
def trainedWidth (mailbox : Bool) (n : Nat) : Nat :=
  if mailbox then [16, 8, 4, 2, 1].getD (Config.choice n % 5) 1 else [16, 8, 4].getD (Config.choice n % 3) 4

/-- The module exposes physical function 0 alone, with its recovery mailbox (R441). -/
def State.mailbox (s : State) : Bool := s.boot == .stopped

/-- The slot of the key of the reserved regions (R426). -/
def reservedKey : Nat := 63

/-- POWER_ON_BOOT (R441, R22, R426, R431): every image's signature holds and its security version is at least the fused counter, or the sequence stops with the
recovery mailbox. Step 3 brings up HBM under the key of the reserved regions (DEDUCED, log 61) and builds a remap table that names no partition: the units that
it may name are those that are enabled and not retired (`State.ownedUnits`). Step 4 trains the host link. -/
def execPowerOnBoot (images : List ImageCheck) (s : State) : Out :=
  if s.boot = .off then
    if images.length = bootImages ∧ (images.all fun i => i.ok && decide (s.fuse ≤ i.version)) = true then
      let mode := trainedLink s.free
      .next ({ s with boot := .ready, link := mode, linkRate := trainedRate mode (s.free + 1), linkWidth := trainedWidth false (s.free + 2), free := s.free + 3,
                      images := images.map ImageCheck.version, parts := [] }.drawKey reservedKey)
    else .next { s with boot := .stopped, linkWidth := trainedWidth true s.free, free := s.free + 1 }
  else .next s

/-- POWER_SAMPLE (R442): the average input power in watts, every 10 µs; 1,000 samples below 95 % of LIMIT release the alarm. -/
def execPowerSample (watts : Nat) (s : State) : Out :=
  if s.limit < watts then .next { s with alarm := true, calm := 0 }
  else if s.alarm ∧ watts * 100 < s.limit * 95 then
    .next (if 1000 ≤ s.calm + 1 then { s with alarm := false, calm := 0 } else { s with calm := s.calm + 1 })
  else .next { s with calm := 0 }

/-- What a power cycle or a reset of physical function 0 keeps: fuses, the retirement list, the host's memory and its link. -/
def State.restart (s : State) : State :=
  { State.reset with fuse := s.fuse, retiredUnits := s.retiredUnits, harvested := s.harvested, hostMem := s.hostMem, durable := s.durable, link := s.link, linkRate := s.linkRate, linkWidth := s.linkWidth,
                     free := s.free,
                     lost := [⟨none, s.epoch⟩], epoch := s.epoch + 1 }

/-- PHYSICAL_FUNCTION_0_RESET (R443, R441): the module restarts, and boots again. -/
def execPhysicalFunction0Reset (s : State) : Out := .next s.restart

/-- Written bytes that have not reached the persistent device: host address, bytes and enables of dirty L1 lines and of posted writes. -/
def State.onTheWay (s : State) : List (Nat × List Byte × List Bool) :=
  let line (l : L1Line) : Option (Nat × List Byte × List Bool) :=
    let be : BitVec 128 := dirtyBytes l.d l.be
    match translate s l.key.pid l.key.asid l.key.va with
    | .ok a true _ _ => some (a / 128 * 128, (List.range 128).map (byteAt l.data), (List.range 128).map be.getLsbD)
    | _ => none
  ((s.cores.flatMap fun c => c.2.l1).filter fun l => l.host && l.d != 0).filterMap line ++
    (s.hostSent ++ s.hostOut).map fun w => (w.addr, w.data, w.data.map fun _ => true)

/-- The values that a word of persistent memory may hold after power is lost (R81): its durable bytes, or those written since, which the device, the port,
an L1 or a posted write holds. -/
def State.survivors (s : State) (a : Nat) : List (List Byte) :=
  let word (f : Nat → Byte) : List Byte := (List.range 4).map fun k => f (a + k)
  let laid (w : Nat × List Byte × List Bool) : List Byte :=
    word fun x => if w.1 ≤ x ∧ w.2.2.getD (x - w.1) false then w.2.1.getD (x - w.1) 0 else BitVec.ofNat 8 (s.portNat x 1)
  word (fun x => (storeFind s.durable x).getD 0) :: word s.hostByte :: word (fun x => BitVec.ofNat 8 (s.portNat x 1)) ::
    (s.onTheWay.filter fun w => decide (w.1 < a + 4) && decide (a < w.1 + w.2.1.length)).map laid

/-- The words of persistent memory that hold something. -/
def State.persistentWords (s : State) : List Nat :=
  let l := (s.hostMem.map (·.1)) ++ (s.durable.map (·.1)) ++ (s.port.flatMap fun l => (List.range 64).map (l.line * 64 + ·)) ++
    s.onTheWay.flatMap fun w => (List.range w.2.1.length).map (w.1 + ·)
  ((sortedUnits (l.map (· / 4))).map (· * 4)).filter s.persistentAt

/-- POWER_LOSS (R80, R81): HBM is lost; each word of persistent memory that no completed PERSIST covers keeps its durable value or takes a written one. -/
def execPowerLoss (s : State) : Out :=
  let r := s.persistentWords.foldl (fun (r : State × State) a =>
    let l := s.survivors a
    let (k, x) := r.2.choose l.length
    (r.1.hostPutList a (l.getD k []), x)) (s, s)
  .next ({ r.1 with free := r.2.free, durable := r.1.hostMem } : State).restart

/-! ## Registers (R7) -/

/-- XRWAY_WRITE (R92). -/
def execXrwayWrite (pid : BitVec 5) (v : Dword) (s : State) : Out := .next (s.mapPart pid fun p => p.putXrway v)

/-- A counter is read and cleared. -/
def State.readClear (s : State) (pid : BitVec 5) (v : Partition → Dword) (clear : Partition → Partition) : State :=
  match s.part pid with
  | none => s
  | some p => { s with mgmtRead := v p }.mapPart pid clear

/-- XNULLACK_READ (R103). -/
def execXnullackRead (pid : BitVec 5) (s : State) : Out :=
  .next (s.readClear pid (fun p => BitVec.ofNat 64 p.xnullack) fun p => { p with xnullack := 0 })

/-- XRECOV_READ (R123). -/
def execXrecovRead (pid : BitVec 5) (s : State) : Out :=
  .next (s.readClear pid (fun p => BitVec.ofNat 64 p.xrecov) fun p => { p with xrecov := 0 })

/-- XREJECT_READ (R127). -/
def execXrejectRead (pid : BitVec 5) (s : State) : Out :=
  .next (s.readClear pid (fun p => BitVec.ofNat 64 p.xreject) fun p => { p with xreject := 0 })

/-- XHSTAT_READ (R425). -/
def execXhstatRead (pid : BitVec 5) (s : State) : Out :=
  .next (s.readClear pid Partition.xhstat fun p => { p with drop := 0, hfault := 0 })

/-- XERR_WRITE (R425): cause bits written as 1 clear; the error state stays. -/
def execXerrWrite (pid : BitVec 5) (v : Dword) (s : State) : Out :=
  .next (s.mapPart pid fun p => { p with cause := p.cause &&& ~~~(v.setWidth 5) })

/-- REGISTER_WRITE (R7). -/
def execRegisterWrite (r : RegName) (v : Dword) (s : State) : Out := .next (s.writeReg r v)

end Sys2Proof.Machine
end

