-- ==== Sys2Proof/Machine/Dispatch.lean ====
section
/-! DEFINITION. The meaning of every instruction and of every event: one arm for each constructor. -/
namespace Sys2Proof.Machine

/-- What an instruction, or an event of the hardware, does to the state. -/
def exec (i : Instr) (s : State) : Host.Outcome State Fault Refusal :=
  match i with
  | .nop h n => Sys2Proof.Machine.execNop h n s
  | .bra h o => Sys2Proof.Machine.execBra h o s
  | .brx h o => Sys2Proof.Machine.execBrx h o s
  | .brd h o => Sys2Proof.Machine.execBrd h o s
  | .join h => Sys2Proof.Machine.execJoin h s
  | .call h o => Sys2Proof.Machine.execCall h o s
  | .ret h o => Sys2Proof.Machine.execRet h o s
  | .exit h => Sys2Proof.Machine.execExit h s
  | .yld h o => Sys2Proof.Machine.execYld h o s
  | .trap h o => Sys2Proof.Machine.execTrap h o s
  | .sret h o => Sys2Proof.Machine.execSret h o s
  | .srd h o => Sys2Proof.Machine.execSrd h o s
  | .swr h o => Sys2Proof.Machine.execSwr h o s
  | .spawn h o => Sys2Proof.Machine.execSpawn h o s
  | .spawnCoh h o => Sys2Proof.Machine.execSpawnCoh h o s
  | .spawnE h o => Sys2Proof.Machine.execSpawnE h o s
  | .await h => Sys2Proof.Machine.execAwait h s
  | .awaitHandle h o => Sys2Proof.Machine.execAwaitHandle h o s
  | .cbar h => Sys2Proof.Machine.execCbar h s
  | .pub h => Sys2Proof.Machine.execPub h s
  | .pubSt h o => Sys2Proof.Machine.execPubSt h o s
  | .pubAdd h o => Sys2Proof.Machine.execPubAdd h o s
  | .awaitw h o => Sys2Proof.Machine.execAwaitw h o s
  | .xshuf h o => Sys2Proof.Machine.execXshuf h o s
  | .bind h o => Sys2Proof.Machine.execBind h o s
  | .unbind h o => Sys2Proof.Machine.execUnbind h o s
  | .settle h o => Sys2Proof.Machine.execSettle h o s
  | .qstaleCnt h o => Sys2Proof.Machine.execQstaleCnt h o s
  | .qstaleState h o => Sys2Proof.Machine.execQstaleState h o s
  | .qstaleCap h o => Sys2Proof.Machine.execQstaleCap h o s
  | .qstaleApp h o => Sys2Proof.Machine.execQstaleApp h o s
  | .sadd h o => Sys2Proof.Machine.execSadd h o s
  | .ssub h o => Sys2Proof.Machine.execSsub h o s
  | .smul h o => Sys2Proof.Machine.execSmul h o s
  | .smulh h o => Sys2Proof.Machine.execSmulh h o s
  | .sdiv h o => Sys2Proof.Machine.execSdiv h o s
  | .srem h o => Sys2Proof.Machine.execSrem h o s
  | .sand h o => Sys2Proof.Machine.execSand h o s
  | .sor h o => Sys2Proof.Machine.execSor h o s
  | .sxor h o => Sys2Proof.Machine.execSxor h o s
  | .sshl h o => Sys2Proof.Machine.execSshl h o s
  | .sshr h o => Sys2Proof.Machine.execSshr h o s
  | .ssar h o => Sys2Proof.Machine.execSsar h o s
  | .smin h o => Sys2Proof.Machine.execSmin h o s
  | .smax h o => Sys2Proof.Machine.execSmax h o s
  | .scmp h o => Sys2Proof.Machine.execScmp h o s
  | .ssel h o => Sys2Proof.Machine.execSsel h o s
  | .smov h o => Sys2Proof.Machine.execSmov h o s
  | .sli h o => Sys2Proof.Machine.execSli h o s
  | .sbfe h o => Sys2Proof.Machine.execSbfe h o s
  | .sbfi h o => Sys2Proof.Machine.execSbfi h o s
  | .spopc h o => Sys2Proof.Machine.execSpopc h o s
  | .sclz h o => Sys2Proof.Machine.execSclz h o s
  | .vadd h o => Sys2Proof.Machine.execVadd h o s
  | .vsub h o => Sys2Proof.Machine.execVsub h o s
  | .vmul h o => Sys2Proof.Machine.execVmul h o s
  | .vmulh h o => Sys2Proof.Machine.execVmulh h o s
  | .vmad h o => Sys2Proof.Machine.execVmad h o s
  | .vdiv h o => Sys2Proof.Machine.execVdiv h o s
  | .vrem h o => Sys2Proof.Machine.execVrem h o s
  | .vand h o => Sys2Proof.Machine.execVand h o s
  | .vor h o => Sys2Proof.Machine.execVor h o s
  | .vxor h o => Sys2Proof.Machine.execVxor h o s
  | .vshl h o => Sys2Proof.Machine.execVshl h o s
  | .vshr h o => Sys2Proof.Machine.execVshr h o s
  | .vsar h o => Sys2Proof.Machine.execVsar h o s
  | .vmin h o => Sys2Proof.Machine.execVmin h o s
  | .vmax h o => Sys2Proof.Machine.execVmax h o s
  | .vabs h o => Sys2Proof.Machine.execVabs h o s
  | .vneg h o => Sys2Proof.Machine.execVneg h o s
  | .vclamp h o => Sys2Proof.Machine.execVclamp h o s
  | .vpopc h o => Sys2Proof.Machine.execVpopc h o s
  | .vclz h o => Sys2Proof.Machine.execVclz h o s
  | .vbfe h o => Sys2Proof.Machine.execVbfe h o s
  | .vbfi h o => Sys2Proof.Machine.execVbfi h o s
  | .vbrev h o => Sys2Proof.Machine.execVbrev h o s
  | .vcmp h o => Sys2Proof.Machine.execVcmp h o s
  | .vsel h o => Sys2Proof.Machine.execVsel h o s
  | .vmov h o => Sys2Proof.Machine.execVmov h o s
  | .vli h o => Sys2Proof.Machine.execVli h o s
  | .vaddc h o => Sys2Proof.Machine.execVaddc h o s
  | .vidx h o => Sys2Proof.Machine.execVidx h o s
  | .fadd h o => Sys2Proof.Machine.execFadd h o s
  | .fsub h o => Sys2Proof.Machine.execFsub h o s
  | .fmul h o => Sys2Proof.Machine.execFmul h o s
  | .ffma h o => Sys2Proof.Machine.execFfma h o s
  | .fmin h o => Sys2Proof.Machine.execFmin h o s
  | .fmax h o => Sys2Proof.Machine.execFmax h o s
  | .fabs h o => Sys2Proof.Machine.execFabs h o s
  | .fneg h o => Sys2Proof.Machine.execFneg h o s
  | .fcmp h o => Sys2Proof.Machine.execFcmp h o s
  | .fclass h o => Sys2Proof.Machine.execFclass h o s
  | .fdiv h o => Sys2Proof.Machine.execFdiv h o s
  | .fsqrt h o => Sys2Proof.Machine.execFsqrt h o s
  | .frcp h o => Sys2Proof.Machine.execFrcp h o s
  | .frsq h o => Sys2Proof.Machine.execFrsq h o s
  | .fexp2 h o => Sys2Proof.Machine.execFexp2 h o s
  | .flog2 h o => Sys2Proof.Machine.execFlog2 h o s
  | .fsin h o => Sys2Proof.Machine.execFsin h o s
  | .fcos h o => Sys2Proof.Machine.execFcos h o s
  | .frnd h o => Sys2Proof.Machine.execFrnd h o s
  | .fscale h o => Sys2Proof.Machine.execFscale h o s
  | .fcvt h o => Sys2Proof.Machine.execFcvt h o s
  | .fcvtPack h o => Sys2Proof.Machine.execFcvtPack h o s
  | .fcvtUnpack h o => Sys2Proof.Machine.execFcvtUnpack h o s
  | .icvt h o => Sys2Proof.Machine.execIcvt h o s
  | .fdot2 h o => Sys2Proof.Machine.execFdot2 h o s
  | .vshfl h o => Sys2Proof.Machine.execVshfl h o s
  | .vbcast h o => Sys2Proof.Machine.execVbcast h o s
  | .vred h o => Sys2Proof.Machine.execVred h o s
  | .vscan h o => Sys2Proof.Machine.execVscan h o s
  | .vballot h o => Sys2Proof.Machine.execVballot h o s
  | .vtos h o => Sys2Proof.Machine.execVtos h o s
  | .mand h o => Sys2Proof.Machine.execMand h o s
  | .mor h o => Sys2Proof.Machine.execMor h o s
  | .mxor h o => Sys2Proof.Machine.execMxor h o s
  | .mnot h o => Sys2Proof.Machine.execMnot h o s
  | .mcnt h o => Sys2Proof.Machine.execMcnt h o s
  | .mfirst h o => Sys2Proof.Machine.execMfirst h o s
  | .msetRange h o => Sys2Proof.Machine.execMsetRange h o s
  | .msetActive h d => Sys2Proof.Machine.execMsetActive h d s
  | .msetWord h o => Sys2Proof.Machine.execMsetWord h o s
  | .mtest h o => Sys2Proof.Machine.execMtest h o s
  | .mtestWord h o => Sys2Proof.Machine.execMtestWord h o s
  | .mtestSum h o => Sys2Proof.Machine.execMtestSum h o s
  | .ld h o => Sys2Proof.Machine.execLd h o s
  | .st h o => Sys2Proof.Machine.execSt h o s
  | .ldk h o => Sys2Proof.Machine.execLdk h o s
  | .lds h o => Sys2Proof.Machine.execLds h o s
  | .sts h o => Sys2Proof.Machine.execSts h o s
  | .sld h o => Sys2Proof.Machine.execSld h o s
  | .sst h o => Sys2Proof.Machine.execSst h o s
  | .amo h o => Sys2Proof.Machine.execAmo h o s
  | .red h o => Sys2Proof.Machine.execRed h o s
  | .samo h o => Sys2Proof.Machine.execSamo h o s
  | .pref h o => Sys2Proof.Machine.execPref h o s
  | .persist h o => Sys2Proof.Machine.execPersist h o s
  | .copy h o => Sys2Proof.Machine.execCopy h o s
  | .copyw h o => Sys2Proof.Machine.execCopyw h o s
  | .copywAll h => Sys2Proof.Machine.execCopywAll h s
  | .chain h o => Sys2Proof.Machine.execChain h o s
  | .chainw h o => Sys2Proof.Machine.execChainw h o s
  | .chainwAll h => Sys2Proof.Machine.execChainwAll h s
  | .feset h o => Sys2Proof.Machine.execFeset h o s
  | .feq h o => Sys2Proof.Machine.execFeq h o s
  | .mma h o => Sys2Proof.Machine.execMma h o s
  | .mwait h o => Sys2Proof.Machine.execMwait h o s
  | .mwaitAll h => Sys2Proof.Machine.execMwaitAll h s
  | .mzero h o => Sys2Proof.Machine.execMzero h o s
  | .mlda h o => Sys2Proof.Machine.execMlda h o s
  | .msta h o => Sys2Proof.Machine.execMsta h o s
  | .drain h o => Sys2Proof.Machine.execDrain h o s
  | .mcbl h o => Sys2Proof.Machine.execMcbl h o s
  | .mstat h o => Sys2Proof.Machine.execMstat h o s
  | .mstatIds h o => Sys2Proof.Machine.execMstatIds h o s
  | .mstatClr h o => Sys2Proof.Machine.execMstatClr h o s
  | .tlbiVa h o => Sys2Proof.Machine.execTlbiVa h o s
  | .tlbiAsid h o => Sys2Proof.Machine.execTlbiAsid h o s
  | .tlbiAll h => Sys2Proof.Machine.execTlbiAll h s
  | .cinvVa h o => Sys2Proof.Machine.execCinvVa h o s
  | .cinvAsid h o => Sys2Proof.Machine.execCinvAsid h o s
  | .cinvAll h => Sys2Proof.Machine.execCinvAll h s
  | .replay h o => Sys2Proof.Machine.execReplay h o s
  | .replayDlv h o => Sys2Proof.Machine.execReplayDlv h o s
  | .kill h o => Sys2Proof.Machine.execKill h o s
  | .fqpop h o => Sys2Proof.Machine.execFqpop h o s
  | .pswr h o => Sys2Proof.Machine.execPswr h o s
  | .pswrX h o => Sys2Proof.Machine.execPswrX h o s
  | .pswrSpawn h o => Sys2Proof.Machine.execPswrSpawn h o s
  | .preempt h o => Sys2Proof.Machine.execPreempt h o s
  | .preemptHard h o => Sys2Proof.Machine.execPreemptHard h o s
  | .runArbitration sub => Sys2Proof.Machine.execRunArbitration sub s
  | .starvationPromotion team slot => Sys2Proof.Machine.execStarvationPromotion team slot s
  | .dequeTake sub => Sys2Proof.Machine.execDequeTake sub s
  | .continuationTakeBack sub team => Sys2Proof.Machine.execContinuationTakeBack sub team s
  | .cbarWake core cohort => Sys2Proof.Machine.execCbarWake core cohort s
  | .softPreemptionGrant team => Sys2Proof.Machine.execSoftPreemptionGrant team s
  | .graceExpiry team => Sys2Proof.Machine.execGraceExpiry team s
  | .residencyStarvationRequest core index => Sys2Proof.Machine.execResidencyStarvationRequest core index s
  | .hardPreemption team => Sys2Proof.Machine.execHardPreemption team s
  | .teamRestore sub team => Sys2Proof.Machine.execTeamRestore sub team s
  | .responseArrival index => Sys2Proof.Machine.execResponseArrival index s
  | .sbResultWrite team slot => Sys2Proof.Machine.execSbResultWrite team slot s
  | .faultEnqueue pid => Sys2Proof.Machine.execFaultEnqueue pid s
  | .mtuWalk pid asid va => Sys2Proof.Machine.execMtuWalk pid asid va s
  | .permissionMiss core asid va fetch => Sys2Proof.Machine.execPermissionMiss core asid va fetch s
  | .homeAgentRequest index uncorrectable => Sys2Proof.Machine.execHomeAgentRequest index uncorrectable s
  | .l2Fill bank index sector => Sys2Proof.Machine.execL2Fill bank index sector s
  | .l2LineEviction bank index => Sys2Proof.Machine.execL2LineEviction bank index s
  | .l1Replacement core set => Sys2Proof.Machine.execL1Replacement core set s
  | .rd index => Sys2Proof.Machine.execRd index s
  | .upg index => Sys2Proof.Machine.execUpg index s
  | .rdx index => Sys2Proof.Machine.execRdx index s
  | .wb index => Sys2Proof.Machine.execWb index s
  | .inv index => Sys2Proof.Machine.execInv index s
  | .invWb index => Sys2Proof.Machine.execInvWb index s
  | .fwd index => Sys2Proof.Machine.execFwd index s
  | .nullAck index => Sys2Proof.Machine.execNullAck index s
  | .probeFilterDrop index => Sys2Proof.Machine.execProbeFilterDrop index s
  | .upgGrant index => Sys2Proof.Machine.execUpgGrant index s
  | .homeAtomic index => Sys2Proof.Machine.execHomeAtomic index s
  | .seqOrderRelease index => Sys2Proof.Machine.execSeqOrderRelease index s
  | .rwayEpochEnd pid die => Sys2Proof.Machine.execRwayEpochEnd pid die s
  | .packetSuspect index => Sys2Proof.Machine.execPacketSuspect index s
  | .bunkerDelivery index => Sys2Proof.Machine.execBunkerDelivery index s
  | .bunkerSlotService stop => Sys2Proof.Machine.execBunkerSlotService stop s
  | .packetReject index => Sys2Proof.Machine.execPacketReject index s
  | .rallyPair index => Sys2Proof.Machine.execRallyPair index s
  | .rallyTimeout index => Sys2Proof.Machine.execRallyTimeout index s
  | .copyLineRequest core => Sys2Proof.Machine.execCopyLineRequest core s
  | .copyLand core index => Sys2Proof.Machine.execCopyLand core index s
  | .engineFault core chain => Sys2Proof.Machine.execEngineFault core chain s
  | .engineCompletion core chain index => Sys2Proof.Machine.execEngineCompletion core chain index s
  | .chainBlock core => Sys2Proof.Machine.execChainBlock core s
  | .mmaStart team id => Sys2Proof.Machine.execMmaStart team id s
  | .mmaRetire team id => Sys2Proof.Machine.execMmaRetire team id s
  | .tileOpExecute team => Sys2Proof.Machine.execTileOpExecute team s
  | .drainExecute team => Sys2Proof.Machine.execDrainExecute team s
  | .operandCapture pid asid va data be => Sys2Proof.Machine.execOperandCapture pid asid va data be s
  | .speInitialProduct slot => Sys2Proof.Machine.execSpeInitialProduct slot s
  | .speApplyEntry slot => Sys2Proof.Machine.execSpeApplyEntry slot s
  | .speApplyGroup slot count => Sys2Proof.Machine.execSpeApplyGroup slot count s
  | .bindingError slot => Sys2Proof.Machine.execBindingError slot s
  | .awaitwPoll team => Sys2Proof.Machine.execAwaitwPoll team s
  | .snpdata line => Sys2Proof.Machine.execSnpdata line s
  | .snpinv line addr data => Sys2Proof.Machine.execSnpinv line addr data s
  | .portLineEviction line => Sys2Proof.Machine.execPortLineEviction line s
  | .hostAtomic index => Sys2Proof.Machine.execHostAtomic index s
  | .hostApertureRead pid off len => Sys2Proof.Machine.execHostApertureRead pid off len s
  | .hostApertureWrite pid off data relaxed => Sys2Proof.Machine.execHostApertureWrite pid off data relaxed s
  | .backInvalidate pid line => Sys2Proof.Machine.execBackInvalidate pid line s
  | .partitionError pid cause => Sys2Proof.Machine.execPartitionError pid cause s
  | .perFunctionReset pid => Sys2Proof.Machine.execPerFunctionReset pid s
  | .partitionCreate p => Sys2Proof.Machine.execPartitionCreate p s
  | .bankMove bank dst => Sys2Proof.Machine.execBankMove bank dst s
  | .tdispStateChange pid st => Sys2Proof.Machine.execTdispStateChange pid st s
  | .notLegalInstruction code => Sys2Proof.Machine.execNotLegalInstruction code s
  | .routerForward index dir vc => Sys2Proof.Machine.execRouterForward index dir vc s
  | .requestAcknowledge core index => Sys2Proof.Machine.execRequestAcknowledge core index s
  | .peerLinkArrival port p => Sys2Proof.Machine.execPeerLinkArrival port p s
  | .hostLinkResponse line ans => Sys2Proof.Machine.execHostLinkResponse line ans s
  | .cbarPlacementPreemption cohort => Sys2Proof.Machine.execCbarPlacementPreemption cohort s
  | .yieldWatchdog => Sys2Proof.Machine.execYieldWatchdog s
  | .caddieArrival => Sys2Proof.Machine.execCaddieArrival s
  | .caddieReissue => Sys2Proof.Machine.execCaddieReissue s
  | .globalPersistentFlush => Sys2Proof.Machine.execGlobalPersistentFlush s
  | .fatalError => Sys2Proof.Machine.execFatalError s
  | .powerLoss => Sys2Proof.Machine.execPowerLoss s
  | .physicalFunction0Reset => Sys2Proof.Machine.execPhysicalFunction0Reset s
  | .spdmRequest pid index => Sys2Proof.Machine.execSpdmRequest pid index s
  | .powerOnBoot images => Sys2Proof.Machine.execPowerOnBoot images s
  | .powerSample watts => Sys2Proof.Machine.execPowerSample watts s
  | .readBack t => Sys2Proof.Machine.execReadBack t s
  | .xrwayWrite pid v => Sys2Proof.Machine.execXrwayWrite pid v s
  | .xnullackRead pid => Sys2Proof.Machine.execXnullackRead pid s
  | .xrecovRead pid => Sys2Proof.Machine.execXrecovRead pid s
  | .xrejectRead pid => Sys2Proof.Machine.execXrejectRead pid s
  | .xhstatRead pid => Sys2Proof.Machine.execXhstatRead pid s
  | .xerrWrite pid v => Sys2Proof.Machine.execXerrWrite pid v s
  | .registerWrite r v => Sys2Proof.Machine.execRegisterWrite r v s
  | .spdmSessionExpiry pid => Sys2Proof.Machine.execSpdmSessionExpiry pid s
  | .ideIntegrityFailure stream => Sys2Proof.Machine.execIdeIntegrityFailure stream s
  | .partitionChange p => Sys2Proof.Machine.execPartitionChange p s

end Sys2Proof.Machine
end

