-- ==== Sys2Proof/Machine/Turns.lean ====
section
/-! DEFINITION. Who moves next (DESIGN CHOICE, log 36): the head of the agenda; with an empty agenda the sub-core in hand issues, another sub-core takes its place, or a
unit with work does it, in turn. -/
namespace Sys2Proof.Machine

/-! ## Work that units have (DESIGN CHOICE, log 36) -/

/-- The event of a message at an endpoint. -/
def msgEvent (s : State) (i : Nat) (a : Arrived) : List Instr :=
  let mine (k : LineKey) : Bool := match a.stop with | .bank b => s.passes b k.pid | _ => true
  match a.pkt.msg with
  | .rd .. => [.rd i]
  | .upg .. => [.upg i]
  | .rdx .. => [.rdx i]
  | .wb .. => [.wb i]
  | .inv k _ _ => [if mine k then .inv i else .probeFilterDrop i]
  | .invWb k _ => [if mine k then .invWb i else .probeFilterDrop i]
  | .fwd k _ _ => [if mine k then .fwd i else .probeFilterDrop i]
  | .nullAck .. => [.nullAck i]
  | .data .. => [.upgGrant i]
  | .grant .. => [.upgGrant i]
  | _ => []

/-- A hop toward a packet's stop: 0 +x, 1 −x, 2 +y, 3 −y. -/
def Packet.toward (p : Packet) : BitVec 2 :=
  let d := p.dst.router
  if p.x < d.1 then 0 else if d.1 < p.x then 1 else if p.y < d.2 then 2 else 3

def State.fabricWork (s : State) : List Instr :=
  (s.inbox.zipIdx.flatMap fun x => msgEvent s x.2 x.1) ++ s.held.zipIdx.map (fun x => .seqOrderRelease x.2) ++
    (s.packets.zipIdx.flatMap fun x =>
      if x.1.x = x.1.dst.router.1 ∧ x.1.y = x.1.dst.router.2 ∧ s.accepts x.1 = false then [.packetReject x.2]
      else [.routerForward x.2 x.1.toward 0]) ++
    s.lane.zipIdx.map (fun x => .bunkerDelivery x.2) ++ s.bunker.map (fun a => .bunkerSlotService (stopNumber a.stop))

def State.memoryWork (s : State) : List Instr :=
  (List.range (s.loads.length + s.prefs.length)).map .responseArrival ++
    (s.cores.flatMap fun c => c.2.acks.zipIdx.map fun a => .requestAcknowledge c.1 a.2) ++
    s.atomics.zipIdx.map (fun x => .homeAtomic x.2) ++ (if s.haq = [] then [] else [.homeAgentRequest 0 false]) ++
    s.portReq.map (fun r => .hostLinkResponse r.1 (if r.2 then .owned else .shared)) ++
    (s.hostAtoms.zipIdx.filter fun a => !a.1.done).map (fun a => .hostAtomic a.2) ++ (if s.hostOut = [] ∧ s.hostSent = [] then [] else [.hostLinkResponse 0 .readDone]) ++
    s.hostCache.map (fun h => .backInvalidate h.1 h.2) ++ (if s.flushAsked then [.globalPersistentFlush] else [])

def teamWork (s : State) (t : Team) : List Instr :=
  let n := evOf t
  let engines : List Instr :=
    (if t.copies = [] then [] else [.copyLineRequest t.core, .engineFault t.core false] ++
      (s.copyFlying t.core).zipIdx.map (fun x => .copyLand t.core x.2) ++ t.copies.zipIdx.map (fun x => .engineCompletion t.core false x.2)) ++
    (if t.chains = [] then [] else [.chainBlock t.core, .engineFault t.core true, .engineCompletion t.core true 0, .engineCompletion t.core true 1])
  let matrix : List Instr :=
    (t.matq.flatMap fun e => match e.op with | .mma c => [.mmaStart n c.o.id, .mmaRetire n c.o.id] | .tile _ => []) ++
      (match t.nextTile with | some (_, .drain ..) => [.drainExecute n] | some _ => [.tileOpExecute n] | none => [])
  let paths : List (Bool × Path) := (t.path0.map fun p => (false, p)).toList ++ (t.path1.map fun p => (true, p)).toList
  let results : List Instr := (paths.filter fun p => p.2.sb.any fun e => match e.due with | some d => decide (d ≤ s.cycle) | none => false).map fun p => .sbResultWrite n p.1
  let wakes : List Instr := match t.cohort with
    | some c => if paths.any fun p => p.2.wait == some .woken then [.cbarWake t.core c] else []
    | none => []
  let leave : List Instr := match t.preempt with
    | some r => if r.hard then [.hardPreemption n] else [.softPreemptionGrant n, .graceExpiry n]
    | none => []
  let promote : List Instr := paths.map fun p => .starvationPromotion n p.1
  let polls : List Instr := if s.watches.any fun w => w.pid == t.pid && w.team == t.id && w.got.isNone then [.awaitwPoll n] else []
  engines ++ matrix ++ results ++ wakes ++ leave ++ promote ++ polls

/-- The physical sub-cores of a partition. -/
def Partition.subs (p : Partition) : List Nat := p.quads.flatMap fun q => (List.range 32).map (32 * q + ·)

def State.placeWork (s : State) : List Instr :=
  s.parts.flatMap fun p =>
    if (s.deqs p.pid).isEmpty then []
    else
      (match p.subs.find? fun sub => s.idleSub sub && (s.nextEntry p.pid sub).isSome with | some sub => [.dequeTake sub] | none => []) ++
        ((s.deqs p.pid).flatMap fun e => match e.kind with
          | .cont id .. => [.continuationTakeBack e.sub (p.pid.toNat * 2 ^ 32 + id % 2 ^ 32)]
          | .saved id => match p.subs.find? fun sub => s.idleSub sub with
            | some sub => [.teamRestore sub (p.pid.toNat * 2 ^ 32 + id % 2 ^ 32)]
            | none => []
          | .spawn spec .. => match spec.cohort with | some c => [.cbarPlacementPreemption c] | none => []) ++
        (s.cores.flatMap fun c => (c.2.deque ++ p.overflow).zipIdx.map fun e => .residencyStarvationRequest c.1 e.2)

def State.productWork (s : State) : List Instr :=
  s.binds.flatMap fun b =>
    if b.err then (if b.hold = [] then [] else [.bindingError b.slot])
    else (if b.il = .init then [.speInitialProduct b.slot] else []) ++
       (if b.entries = [] then [] else [if b.bat then .speApplyGroup b.slot 1 else .speApplyEntry b.slot]) ++
       (if s.speBroken b then [.bindingError b.slot] else [])

def State.rallyWork (s : State) : List Instr :=
  s.rally.zipIdx.flatMap fun x => [.rallyPair x.2] ++ (if x.1.deadline ≤ s.cycle then [.rallyTimeout x.2] else [])

/-- Every event for which some unit has work. -/
def State.chores (s : State) : List Instr :=
  s.memoryWork ++ s.fabricWork ++ (sortBy evOf (s.live.filter fun t => t.phase == .resident)).flatMap (teamWork s) ++ s.placeWork ++ s.productWork ++ s.rallyWork ++
    (s.parts.filter fun p => s.fqWait.any fun e => e.pid == p.pid).map fun p => .faultEnqueue p.pid

/-! ## Turns -/

/-- A cycle passes, and with it the event whose number is `k`, going round, if any unit has work. -/
def State.idle (s : State) (k : Nat) : Ready :=
  let l := s.chores
  let s' := { s with cycle := s.cycle + 1 }
  match l[k % l.length]? with
  | some (.routerForward i d _) => .event (.routerForward i d (BitVec.ofNat 2 (k / l.length))) s'
  | some e => .event e s'
  | none => .over (.next s')

/-- The sub-cores with a run, or with a ready path. -/
def State.busySubs (s : State) : List Nat :=
  dedupe (sortBy id (s.running.map (·.1) ++ (s.live.filter fun t => !(s.readyPaths t).isEmpty).map Team.subKey))

/-- The sub-core after `k` in a list, going round. -/
def nextOf (l : List Nat) (k : Nat) : Option Nat := (l.find? fun x => decide (k < x)).or l.head?

/-- The turn with an empty agenda: each fourth turn is an event's; a path that waits looks again in two of the others. -/
def State.defaultTurn (s : State) : Ready :=
  let later := { s with cycle := s.cycle + 1 }
  let move : Option Nat := nextOf s.busySubs s.sub
  let waiting : Bool := match storeFind s.running s.sub with
    | some r => match s.findTeam r.pid r.team with
      | some t => match t.path r.slot with | some p => p.wait.isSome | none => false
      | none => false
    | none => false
  if s.turn % 4 = 0 then s.idle (s.turn / 4)
  else if (storeFind s.running s.sub).isSome then
    if waiting then
      match s.turn % 4, move with
      | 2, some k => .event (.runArbitration k) { later with sub := k }
      | 2, none => s.idle s.turn
      | _, _ => later.issueOn s.sub 0
    else match s.issueOn s.sub 0 with
      | .held s => s.idle s.turn
      | r => r
  else match move with
    | some k => .event (.runArbitration k) { s with sub := k }
    | none => s.idle s.turn

/-- Events that act on a module that a fatal error has stopped (R443, R444). -/
def Instr.thaws (i : Instr) : Bool :=
  match i with
  | .readBack _ => true
  | .fatalError => true
  | .powerLoss => true
  | .physicalFunction0Reset => true
  | .xnullackRead _ => true
  | .xrecovRead _ => true
  | .xrejectRead _ => true
  | .xhstatRead _ => true
  | _ => false

/-- The next turn: the agenda's head, or the default. An agenda names events only; an instruction row in it is dropped. -/
def State.nextTurn (s : State) : Ready :=
  match s.agenda with
  | .event e :: rest =>
    let s := { s with agenda := rest }
    if (Instr.enc e).isSome || (s.fatal && !Instr.thaws e) then .over (.next s) else .event e s
  | .issue sub delay :: rest =>
    let s := { s with agenda := rest }
    if s.fatal then .over (.next s)
    else match s.issueOn sub delay with
      | .held s => .over (.next { s with cycle := s.cycle + 1 })
      | r => r
  | [] =>
    if s.fatal then (if s.dumping then .event .fatalError { s with cycle := s.cycle + 1 } else .over (.next { s with cycle := s.cycle + 1 }))
    else State.defaultTurn { s with turn := s.turn + 1 }

/-! ## The instruction that is fetched next -/

/-- The home of a line of an address space with one bank: bank 0. -/
def slicePart : Partition :=
  PartSpec.make { pid := 0, quads := [0], banks := [0], channels := [0], weight := 1, keyslot := 0, base0 := 1, last0 := 0, base1 := 1, last1 := 0,
                  hwBase := 1, hwLast := 0 }

/-- A path about to start a run at an address, with every lane of the team. -/
def freshPath (pc : Dword) (lanes : Nat) (cycle : Nat) : Path :=
  { pc := pc, mask := laneLimit lanes, budget := Config.budgetMax, sb := [], wait := none, runCount := 0, charged := false, lastEnd := cycle,
    readyAt := cycle, promo := 0, prev := none, redo := none, held := [], gate := 0, gaveUp := false, spoils := [] }

/-- The home line that holds a list of bytes from its start on, readable, writable and executable. -/
def codeLine (key : LineKey) (bs : List Byte) : L2Line :=
  { newLine key ⟨true, true, false, false⟩ 0 false with data := BitVec.ofNat 1024 (bytesNat bs), v := BitVec.allOnes 32 }

/-- A system team with room for every register, tile and window byte, which stands at the start of line `tag`. -/
def sliceTeam (pc : Dword) (core sub cycle : Nat) : Team :=
  { Team.blank with id := 1, lanes := 32, vregs := 256, ntiles := 8, window := 131072, phase := .resident, core := core, sub := sub, sys := true,
                    path0 := some (freshPath pc 32 cycle) }

/-- A resident team on the sub-core in hand has a run and stands before the bytes, in a partition that owns the sub-core's quad and one bank. -/
def State.withCode (s : State) (bs : List Byte) : State :=
  let key : LineKey := ⟨0, 0, 1⟩
  let core := s.sub / 8
  let die := core / 48
  let p : Partition := { slicePart with quads := [core / 4], banks := [die * 64], channels := [die * 128], nextTeam := 2 }
  let b := s.bank (die * 64)
  { (s.putBank (die * 64) { b with owner := some 0, lines := codeLine key bs :: b.lines, txns := [] }).putCore core
      { s.core core with ways := waysFor 131072 } with
    boot := .ready, fatal := false, agenda := [], parts := p :: s.parts.filter (fun q => q.pid != 0),
    team := sliceTeam 128 core (s.sub % 8) s.cycle, slot := false, teams := s.teams.filter fun t => t.pid != 0,
    running := storeSet s.running s.sub ⟨0, 1, false⟩ }

end Sys2Proof.Machine
end

