-- ==== Sys2Proof/Machine/Step.lean ====
section
/-! DEFINITION. One step of the module (DESIGN CHOICE, log 36): who moves next, an event or an instruction, and what it does; and the instruction that is fetched
next. -/
namespace Sys2Proof.Machine

/-- What a turn's choice comes to: an instruction executes and is noted, an event happens, or the turn is over already. -/
def Ready.go (r : Ready) : Host.Outcome State Fault Refusal :=
  match r with
  | .run p s => match exec p.i s with
    | .next s' => .next (s'.conclude p)
    | o => o
  | .event e s => exec e s
  | .over o => o
  | .held s => .next { s with cycle := s.cycle + 1 }

/-- A step ends with a look at which paths are ready (R394). -/
def noted (o : Host.Outcome State Fault Refusal) : Host.Outcome State Fault Refusal :=
  match o with
  | .next s => .next s.noteReady
  | o => o

/-- One step of the module. -/
def step (s : State) : Host.Outcome State Fault Refusal := noted (s.nextTurn).go

/-- The state with an instruction of the table's bits stored where the next step fetches it: a resident team of partition 0 has the run of the sub-core in
hand and stands before the instruction's bytes, which lie in its home bank (DESIGN CHOICE, log 37). -/
def State.withFetchWord (s : State) (nbits w : Nat) : State := s.withCode (tableBytes nbits w)

end Sys2Proof.Machine
end

