-- ==== Sys2Proof/Safety.lean ====
section
/-! DEFINITION. What claims call a safe run, and the terms in which claims speak of a next state: what registers hold, what an instruction leaves
alone, and how a path goes on. -/
namespace Sys2Proof.Machine

/-- A step from the state goes on: it ends in no fault and no refusal. -/
def State.goesOn (s : State) : Prop := ∃ t, step s = .next t

/-- Memory of the module and of the host is in its canonical form. -/
def State.memoryWf (s : State) : Prop := s.memWf = true ∧ storeWf 0 s.hostMem = true

/-! ## What registers hold -/

/-- What a uniform register holds (R32: s0 reads as 0). -/
def Team.uval (t : Team) (r : UReg) : Dword := if r = 0 then 0 else storeGet 0 t.s r.toNat
/-- What a lane register holds in a lane (R190). -/
def Team.vval (t : Team) (r : LaneReg) (l : Nat) : Word := storeGet 0 t.v (laneKey r l)
/-- What a lane register, or for a 64-bit type an even-odd pair, holds in a lane (R31, R218). -/
def Team.lval (t : Team) (ty : Ty) (r : LaneReg) (l : Nat) : Dword :=
  if ty.is64 then t.vval (r ||| 1) l ++ t.vval r l else (t.vval r l).setWidth 64
/-- What a mask register holds (R195). -/
def Team.mval (t : Team) (m : MReg) : LaneMask := storeGet 0 t.m m.toNat

/-! ## What an instruction leaves alone -/

/-- Every byte of HBM, and every byte that a home agent answers with, reads in `t` as in `s`. -/
def MemorySame (s t : State) : Prop := ∀ a, t.memByte a = s.memByte a ∧ t.viewByte a = s.viewByte a

/-- Outside the team in focus only the run of its sub-core and the note of retirement may differ: no cache, bank, other team, partition, engine, queue,
link or module register changes. -/
def Outside (s t : State) : Prop :=
  MemorySame s t ∧ t = { s with team := t.team, running := t.running, retired := t.retired }

/-- Of the team in focus only its paths and its uniform registers may differ. -/
def OnlyU (s t : State) : Prop := Outside s t ∧ t.team = { s.team with s := t.team.s, path0 := t.team.path0, path1 := t.team.path1 }
/-- Of the team in focus only its paths and its lane registers may differ. -/
def OnlyV (s t : State) : Prop := Outside s t ∧ t.team = { s.team with v := t.team.v, path0 := t.team.path0, path1 := t.team.path1 }
/-- Of the team in focus only its paths and its mask registers may differ. -/
def OnlyM (s t : State) : Prop := Outside s t ∧ t.team = { s.team with m := t.team.m, path0 := t.team.path0, path1 := t.team.path1 }
/-- Of the team in focus only its paths may differ. -/
def OnlyPaths (s t : State) : Prop := Outside s t ∧ t.team = { s.team with path0 := t.team.path0, path1 := t.team.path1 }

/-- Of the team in focus only its paths, its lane registers, its mask registers and TSTAT may differ, and the flags raised are noted beside. -/
def OnlyFloat (s t : State) : Prop :=
  MemorySame s t ∧ t = { s with team := t.team, running := t.running, retired := t.retired, raised := t.raised } ∧
    t.team = { s.team with v := t.team.v, m := t.team.m, tstat := t.team.tstat, path0 := t.team.path0, path1 := t.team.path1 }

/-- The run in progress on the team's sub-core is not the path's: it has ended. -/
def RunOver (s t : State) : Prop := storeFind t.running s.team.subKey ≠ some ⟨s.team.pid, s.team.id, s.slot⟩

/-- An instruction is done and its path stands at `pc` with the lanes and the budget it had; the partner path is untouched. -/
def StandsAt (s t : State) (pc : Dword) : Prop :=
  t.retired = true ∧ t.slot = s.slot ∧ t.path.pc = pc ∧ t.path.mask = s.path.mask ∧ t.path.budget = s.path.budget ∧ t.path.wait = none ∧
    t.team.path (!s.slot) = s.team.path (!s.slot)

/-- An instruction of `n` bytes with header `h` is done: the path stands behind it; END = 1 ends the run, END = 0 leaves the runs as they are (R42). -/
def Done (s t : State) (h : Hdr) (n : Nat) : Prop :=
  StandsAt s t (s.path.pc + BitVec.ofNat 64 n) ∧ if h.fin = true then RunOver s t else t.running = s.running

/-- A run-ending instruction is done and its path goes on at `pc` in a new run (R42, R343). -/
def WentTo (s t : State) (pc : Dword) : Prop := StandsAt s t pc ∧ t.path.runCount = 0 ∧ RunOver s t

/-- The instruction takes a trap with a code and a trap address (R338). -/
def Traps (i : Instr) (s : State) (code : Nat) (va : Dword) : Prop := exec i s = s.trap code va

/-! ## Paths -/

/-- Of the team in focus only its paths, its reconvergence stack and the TCTL writes that wait for a path's next run may differ. Outside it, a spilled entry
takes or gives back a frame (R332), which the core's frame store holds when it is taken; where that store is full another frame leaves it (R350). -/
def OnlyStack (s t : State) : Prop :=
  t.team = { s.team with stack := t.team.stack, spill := t.team.spill, chkFrom := t.team.chkFrom, path0 := t.team.path0, path1 := t.team.path1 } ∧
    (t.team.spill = s.team.spill → t.parts = s.parts ∧ t.cores = s.cores) ∧
    (t.team.spill.length ≤ s.team.spill.length ∨ (s.core s.team.core).frames.length < 512 →
      MemorySame s t ∧ (∀ c, t.core c = { s.core c with frames := (t.core c).frames }) ∧
        t = { s with team := t.team, slot := t.slot, running := t.running, retired := t.retired, parts := t.parts, cores := t.cores })

/-- The path of a slot stands ready at a pc with some lanes, at the start of a run. -/
def RunsAt (t : State) (slot : Bool) (pc : Dword) (mask : LaneMask) : Prop :=
  ∃ p, t.team.path slot = some p ∧ p.pc = pc ∧ p.mask = mask ∧ p.wait = none ∧ p.runCount = 0

/-- The budget and the scoreboard of a slot's path (R324). -/
def HasBudget (t : State) (slot : Bool) (budget : Nat) (sb : List SbEntry) : Prop := ∃ p, t.team.path slot = some p ∧ p.budget = budget ∧ p.sb = sb

/-- The path of a slot waits at the JOIN where it stands (R329). -/
def WaitsAtJoin (t : State) (slot : Bool) : Prop := ∃ p, t.team.path slot = some p ∧ p.wait = some .join

/-- The stack can take an entry: it has fewer than 16, or the pool has a free frame (R332). -/
def State.canPush (s : State) : Bool := decide (s.team.stack.length < 16) || (s.takeFrames s.team.pid 1).isSome

/-- `l'` is `l` without its most recent entry of a slot; `e` is that entry (R327). -/
def Popped (slot : Bool) (l l' : List StackEntry) (e : StackEntry) : Prop :=
  ∃ a b, l = a ++ e :: b ∧ l' = a ++ b ∧ e.slot = slot ∧ ∀ x ∈ a, x.slot ≠ slot

/-- A slot has no entry on the stack. -/
def NoEntry (slot : Bool) (l : List StackEntry) : Prop := ∀ x ∈ l, x.slot ≠ slot

/-! ## What an instruction writes -/

/-- Only register `d` is written, and only when the guard selects a lane; what it then holds satisfies `P`. s0 stays 0 (R32, R37). -/
def WroteU (s t : State) (acts : Bool) (d : UReg) (P : Dword → Prop) : Prop :=
  (∀ r, r ≠ d → t.team.uval r = s.team.uval r) ∧ (if acts = true ∧ d ≠ 0 then P (t.team.uval d) else t.team.uval d = s.team.uval d)

/-- Only the participating lanes of `d` are written, or of the pair that a 64-bit type names; what lane `l` then holds satisfies `P l` (R25, R31). -/
def WroteV (s t : State) (g : Guard) (ty : Ty) (d : LaneReg) (P : Nat → Dword → Prop) : Prop :=
  (∀ r l, l < 1024 → ¬(l ∈ s.lanes g ∧ (r = d ∨ (ty.is64 = true ∧ r = d ||| 1))) → t.team.vval r l = s.team.vval r l) ∧
    ∀ l ∈ s.lanes g, P l (t.team.lval ty d l)

/-- Only the participating lanes' bits of `d` are written; bit `l` then is `f l`. No bit at or above LANES is set (R195, R246). -/
def WroteBits (s t : State) (g : Guard) (d : MReg) (f : Nat → Bool) : Prop :=
  (∀ r, r ≠ d → t.team.mval r = s.team.mval r) ∧
    ∀ l, (t.team.mval d).getLsbD l =
      if s.team.lanes ≤ l then false else if l ∈ s.lanes g then f l else (s.team.mval d).getLsbD l

/-- Only mask register `d` is written, and only when the guard selects a lane; bit `l` below LANES then is `f l` (R37, R195). -/
def WroteM (s t : State) (acts : Bool) (d : MReg) (f : Nat → Bool) : Prop :=
  (∀ r, r ≠ d → t.team.mval r = s.team.mval r) ∧
    if acts = true then ∀ l, (t.team.mval d).getLsbD l = (decide (l < 1024) && decide (l < s.team.lanes) && f l) else t.team.mval d = s.team.mval d

/-! ## Exact results -/

/-- The least and the greatest number of an integer type (R231). -/
def Ty.least (t : Ty) : Int := if Ty.signed t then -(2 ^ (Ty.bits t - 1)) else 0
def Ty.greatest (t : Ty) : Int := if Ty.signed t then 2 ^ (Ty.bits t - 1) - 1 else 2 ^ Ty.bits t - 1

/-- `x` is what an operation with the exact result `r` writes in type `t`: the number of the type that is congruent to `r` modulo 2^w, or with `sat`
the number of the type closest to `r` (R9, R234). -/
def Fits (t : Ty) (sat : Bool) (r x : Int) : Prop :=
  Ty.least t ≤ x ∧ x ≤ Ty.greatest t ∧ if sat = true then x = max (Ty.least t) (min (Ty.greatest t) r) else x % 2 ^ Ty.bits t = r % 2 ^ Ty.bits t

/-- The pattern `v` of a uniform register stands for `x`, sign-extended or zero-extended to 64 bits (R233). -/
def Extends (v : Dword) (x : Int) : Prop := v = BitVec.ofInt 64 x

/-- Of the 64 bits of `v`, the low `n` are those of `f`, the others 0. -/
def BitsAre (n : Nat) (v : Dword) (f : Nat → Bool) : Prop := ∀ k, k < 64 → v.getLsbD k = (decide (k < n) && f k)

/-- A value as its register or pair holds it: 32 bits, or for a 64-bit type all 64 (R31, R218). -/
def regForm (ty : Ty) (x : Dword) : Dword := if ty.is64 then x else (x.setWidth 32).setWidth 64

/-- The relation that a condition of SCMP, VCMP and AWAITW names (R243). -/
def Cond.rel : Cond → Int → Int → Bool
  | .eq, x, y => x == y
  | .ne, x, y => x != y
  | .lt, x, y => decide (x < y)
  | .le, x, y => decide (x ≤ y)
  | .gt, x, y => decide (y < x)
  | .ge, x, y => decide (y ≤ x)

/-- Bit `k` of a shift of a `w`-bit pattern `a` by `n` (R239): left, right, and the bit-field extract of `len` bits from place `p`, extended. -/
def shlBit (w : Nat) (a : Dword) (n k : Nat) : Bool := decide (n < w) && decide (n ≤ k) && a.getLsbD (k - n)
def shrBit (w : Nat) (a : Dword) (n k : Nat) : Bool := decide (n + k < w) && a.getLsbD (n + k)
def bfeBit (w : Nat) (sgn : Bool) (a : Dword) (p len k : Nat) : Bool :=
  let at_ (j : Nat) : Bool := decide (p + j < w) && a.getLsbD (p + j)
  if len = 0 then false else if k < len then at_ k else sgn && at_ (len - 1)
/-- Bit `k` of a bit-field insert (R239). -/
def bfiBit (w : Nat) (a c : Dword) (p len k : Nat) : Bool := if p ≤ k ∧ k < min (p + len) w then a.getLsbD (k - p) else c.getLsbD k

/-- SAR of the number `a` by `n` (R239). -/
def sarInt (w : Nat) (a : Int) (n : Nat) : Int := if w ≤ n then (if a < 0 then -1 else 0) else a / 2 ^ n

/-- Quotient and remainder (R239, R240). -/
def quotient (t : Ty) (a b : Int) : Int := if b = 0 then (if Ty.signed t then -1 else 2 ^ Ty.bits t - 1) else a.tdiv b
def remainder (a b : Int) : Int := if b = 0 then a else a - b * a.tdiv b

/-- `n` is the number of 1 bits among the low `w` bits of `a`; the number of 0 bits above the highest of them (R239). -/
def onesOf (w : Nat) (a : Dword) : Nat := ((List.range w).filter fun k => a.getLsbD k).length
def IsClz (w : Nat) (a : Dword) (n : Nat) : Prop :=
  n ≤ w ∧ (∀ k, w - n ≤ k → k < w → a.getLsbD k = false) ∧ (n < w → a.getLsbD (w - 1 - n) = true)

/-! ## Floating-point results -/

/-- The real number that a finite pattern stands for (R214). -/
def FVal.real : FVal → Option Rat
  | .fin n m e => some ((if n then -1 else 1) * (m : Rat) * 2 ^ e)
  | _ => none
def realOf (f : FFmt) (p : Nat) : Option Rat := (fval f p).real

/-- The largest finite value of a format, and the smallest normal one (R214). -/
def FFmt.largest (f : FFmt) : Rat := (realOf f f.maxPat).getD 0
def FFmt.smallestNormal (f : FFmt) : Rat := 2 ^ f.emin

/-- The pattern `p` is a real number x rounded to the format in a mode (R220). The number is given by its cut: `lt q` says q < x and `gt q` says
x < q. -/
def Rounds (f : FFmt) (rm : RMode) (lt gt : Rat → Prop) (p : Nat) : Prop :=
  ∃ y, realOf f p = some y ∧
    match rm with
    | .rne => ∀ q z, realOf f q = some z →
        (z < y → ¬gt ((y + z) / 2)) ∧ (y < z → ¬lt ((y + z) / 2)) ∧ (z ≠ y → ¬lt ((y + z) / 2) → ¬gt ((y + z) / 2) → p % 2 = 0)
    | .rz => (lt 0 → 0 ≤ y ∧ ¬gt y ∧ ∀ q z, realOf f q = some z → ¬gt z → z ≤ y) ∧
        (gt 0 → y ≤ 0 ∧ ¬lt y ∧ ∀ q z, realOf f q = some z → ¬lt z → y ≤ z)
    | .ru => ¬lt y ∧ ∀ q z, realOf f q = some z → ¬lt z → y ≤ z
    | .rd => ¬gt y ∧ ∀ q z, realOf f q = some z → ¬gt z → z ≤ y

/-- `r` is the rounding of the real number x, which is within the format's range: the pattern is x rounded, no flag but UF and NX is raised, and NX is
raised exactly when the pattern's value is not x (R220, R225). -/
def RoundsTo (f : FFmt) (rm : RMode) (lt gt : Rat → Prop) (r : Nat × BitVec 5) : Prop :=
  Rounds f rm lt gt r.1 ∧ r.2.getLsbD 0 = false ∧ r.2.getLsbD 1 = false ∧ r.2.getLsbD 2 = false ∧
    ∀ y, realOf f r.1 = some y → (r.2.getLsbD 4 = true ↔ lt y ∨ gt y)

/-! ## Memory as a core's L1 holds it -/

/-- The byte of an address that an L1 holds: in an ordinary line (`k = none`) or in a K line of a launch tree (R86, R139, R158). -/
def State.l1Byte (s : State) (core : Nat) (pid : BitVec 5) (asid : BitVec 16) (k : Option Nat) (a : Nat) : Option Byte :=
  match (s.core core).findLine (keyOf pid asid a) k with
  | some l => if l.present.getLsbD (a % 128) then some (byteAt l.data (a % 128)) else none
  | none => none

/-- Every core holds what it held; only the order of use of the lines of an L1 may differ. -/
def CoresSame (s t : State) : Prop :=
  ∀ c, (∀ key k, (t.core c).findLine key k = (s.core c).findLine key k) ∧ t.core c = { s.core c with l1 := (t.core c).l1 }

/-- An access of `n` bytes is legal by R60 and R154. -/
def LegalAccess (a : Dword) (n : Nat) : Prop := a.toNat < 2 ^ 52 ∧ a.toNat % n = 0

/-- The team's core has a line of an address, ordinary or of a launch tree, whose bits allow what `ok` says (R74). -/
def State.hasLine (s : State) (k : Option Nat) (a : Nat) (ok : Perms → Bool) : Prop :=
  ∃ x, (s.core s.team.core).findLine (keyOf s.team.pid s.team.asidNow a) k = some x ∧ (x.perms.s = true → s.team.privileged = true) ∧ ok x.perms = true

/-- A load of `n` bytes hits such a line in the L1. -/
def State.loadHits (s : State) (k : Option Nat) (a : Dword) (n : Nat) : Prop :=
  LegalAccess a n ∧ s.hasLine k a.toNat (fun _ => true) ∧
    ∀ j, j < n → s.l1Byte s.team.core s.team.pid s.team.asidNow k (a.toNat + j) ≠ none

/-- A store of `n` bytes hits an ordinary line that allows writes, and its page belongs to no bound result (R74, R296). -/
def State.storeHits (s : State) (a : Dword) (n : Nat) : Prop :=
  LegalAccess a n ∧ s.hasLine none a.toNat (fun p => p.w) ∧ s.owned s.team.pid s.team.asidNow a.toNat = false

/-- The number `x` of `n` bytes consists of the bytes that the L1 holds from an address up, lowest first (R4). -/
def State.l1Number (s : State) (k : Option Nat) (a n x : Nat) : Prop :=
  x < 256 ^ n ∧ ∀ j, j < n → s.l1Byte s.team.core s.team.pid s.team.asidNow k (a + j) = some (BitVec.ofNat 8 (x / 256 ^ j))

/-- A loaded number as a lane gets it (R157): I8 and I16 by sign to 32 bits, the other types by zero. -/
def laneLoad (ty : Ty) (x : Nat) : Dword :=
  match ty with
  | .i8 => ((BitVec.ofNat 8 x).signExtend 32).setWidth 64
  | .i16 => ((BitVec.ofNat 16 x).signExtend 32).setWidth 64
  | _ => BitVec.ofNat 64 x

/-- A loaded number as a uniform register gets it (R160, R233): I8, I16 and I32 by sign, the other types by zero. -/
def uniformLoad (ty : Ty) (x : Nat) : Dword :=
  match ty with
  | .i8 => (BitVec.ofNat 8 x).signExtend 64
  | .i16 => (BitVec.ofNat 16 x).signExtend 64
  | .i32 => (BitVec.ofNat 32 x).signExtend 64
  | _ => BitVec.ofNat 64 x

/-- Outside the team in focus only its run, the note of retirement, the order of use in the L1s and the counter of numbered things may differ. -/
def OutsideLoad (s t : State) : Prop :=
  MemorySame s t ∧ CoresSame s t ∧
    t = { s with team := t.team, running := t.running, retired := t.retired, cores := t.cores, serial := t.serial }

/-- After a store, the L1 of the team's core holds for each byte what the highest storing lane gave it, and every other byte that any L1 holds is as it
was (R139, R151); `writers b` are the storing lanes of a byte in ascending order, `byte l b` what lane `l` gives it. -/
def StoredL1 (s t : State) (writers : Nat → List Nat) (byte : Nat → Nat → Byte) : Prop :=
  (∀ c pid asid k b, b < 2 ^ 52 →
    t.l1Byte c pid asid k b =
      if c = s.team.core ∧ pid = s.team.pid ∧ asid = s.team.asidNow ∧ k = none then
        (match (writers b).getLast? with | some l => some (byte l b) | none => s.l1Byte c pid asid k b)
      else s.l1Byte c pid asid k b) ∧
  (∀ b, b < 2 ^ 52 → writers b ≠ [] → ∃ x, (t.core s.team.core).findLine (keyOf s.team.pid s.team.asidNow b) none = some x ∧
    x.d.getLsbD (b % 128 / 4) = true ∧ x.be.getLsbD (b % 128) = true) ∧
  ∀ c, t.core c = { s.core c with l1 := (t.core c).l1 }

/-- The new value of a word under FMIN or FMAX of AMO, RED and SAMO (R163): −0 lies below +0, one NaN yields the other operand, two the canonical NaN. -/
def AtomicPick (t : Ty) (max : Bool) (m o new : Dword) : Prop :=
  let f := fmtOf t
  let v (p : Dword) : FVal := fval f (natOf t p)
  ((v m).isNan = true ∧ (v o).isNan = true → new.toNat = f.nan) ∧
    ((v m).isNan = true → (v o).isNan = false → new.toNat = natOf t o) ∧ ((v m).isNan = false → (v o).isNan = true → new.toNat = natOf t m) ∧
    ((v m).isNan = false → (v o).isNan = false → (new.toNat = natOf t m ∨ new.toNat = natOf t o) ∧
      (∀ n, v m = .inf n → new.toNat = if n = max then natOf t o else natOf t m) ∧ (∀ n, v o = .inf n → new.toNat = if n = max then natOf t m else natOf t o)) ∧
    ∀ x y, (v m).real = some x → (v o).real = some y → realOf f new.toNat = some (if max then (if x < y then y else x) else (if y < x then y else x)) ∧
      (x = 0 → y = 0 → (fval f new.toNat).neg = if max then (v m).neg && (v o).neg else (v m).neg || (v o).neg)

/-- The new value of a word under FADD of AMO, RED and SAMO (R163): the exact sum rounded once by RNE, subnormals kept. -/
def AtomicSum (t : Ty) (m o new : Dword) : Prop :=
  let f := fmtOf t
  let v (p : Dword) : FVal := fval f (natOf t p)
  ((v m).isNan = true ∨ (v o).isNan = true ∨ (∃ n, v m = .inf n ∧ v o = .inf !n) → new.toNat = f.nan) ∧
    ∀ x y, (v m).real = some x → (v o).real = some y → x + y ≠ 0 → (x + y).abs ≤ f.largest →
      Rounds f .rne (fun q => q < x + y) (fun q => x + y < q) new.toNat

/-- The new value of a word under an operation of AMO, RED and SAMO (R162, R163). -/
def AtomicValue (t : Ty) (op : Aop) (m o c new : Dword) : Prop :=
  match op with
  | .add => Fits t false (intOf t m + intOf t o) (intOf t new)
  | .and => new = m &&& o
  | .or => new = m ||| o
  | .xor => new = m ^^^ o
  | .min => intOf t new = min (intOf t m) (intOf t o)
  | .max => intOf t new = max (intOf t m) (intOf t o)
  | .swap => new = o
  | .cas => new = if m = c then o else m
  | .fadd => AtomicSum t m o new
  | .fmin => AtomicPick t false m o new
  | .fmax => AtomicPick t true m o new

/-- The partition has no binding, and no binding of another one in ERR has writes to release (R321). -/
def State.unbound (s : State) (pid : BitVec 5) : Prop := ∀ b ∈ s.binds, b.pid ≠ pid ∧ (b.err = true → b.hold = [])

/-- The word of `n` bytes at an address lies in a home line that the home bank has at hand for a write: valid, its bits allow the write, no die owns it or
may hold a copy, no party watches it, and the partition has no binding; and the team's core has no line of it. -/
def State.wordAtHome (s : State) (a n bank : Nat) (x : L2Line) : Prop :=
  ∃ p die, s.part s.team.pid = some p ∧ p.home s.team.asidNow a = some (die, bank) ∧
    (s.bank bank).busyOn (keyOf s.team.pid s.team.asidNow a) = false ∧ s.hostCache.contains (s.team.pid, a / 128) = false ∧
    (s.bank bank).find (keyOf s.team.pid s.team.asidNow a) false = some x ∧ x.key = keyOf s.team.pid s.team.asidNow a ∧ x.remote = false ∧
    x.perms.w = true ∧ x.perms.wt = false ∧ (x.perms.s = true → s.team.privileged = true) ∧ x.v = BitVec.allOnes 32 ∧ x.own = 0 ∧
    (s.bank bank).dirEntry x.key = none ∧
    (∀ w ∈ s.watches, w.pid ≠ s.team.pid ∨ w.asid ≠ s.team.asidNow) ∧ s.unbound s.team.pid ∧
    (∀ l ∈ (s.core s.team.core).l1, l.key ≠ x.key) ∧ s.writing s.team.core x.key = false ∧ s.bankFull s.who a = false ∧ a % 128 + n ≤ 128

/-- The home bank has the line of an address at hand for the device itself: valid, no die owns it or may hold a copy, no party watches its ASID. -/
def State.lineBare (s : State) (pid : BitVec 5) (asid : BitVec 16) (a bank : Nat) (x : L2Line) : Prop :=
  ∃ p die, s.part pid = some p ∧ p.home asid a = some (die, bank) ∧ (s.bank bank).busyOn (keyOf pid asid a) = false ∧
    (s.bank bank).find (keyOf pid asid a) false = some x ∧ x.key = keyOf pid asid a ∧ x.remote = false ∧ x.perms.wt = false ∧
    x.v = BitVec.allOnes 32 ∧ x.own = 0 ∧ (s.bank bank).dirEntry x.key = none ∧ ∀ w ∈ s.watches, w.pid ≠ pid ∨ w.asid ≠ asid

/-- Outside the parts that the entry into an error state touches nothing differs. -/
def ErrFrame (s t : State) : Prop :=
  t = { s with parts := t.parts, hostOut := t.hostOut, hostSent := t.hostSent, hostMem := t.hostMem, free := t.free, aer := t.aer }

/-- A partition has entered its error state for the cause of bit `k` of XERR (R427, R428): it has reported that, its posted writes that are not yet sent are dropped
and counted, and of those on the link each byte is performed at the host or not; no other partition differs. -/
def Erred (s t : State) (pid : BitVec 5) (k : Nat) : Prop :=
  (∀ d, d ≠ pid → t.part d = s.part d) ∧
  (∀ q, s.part pid = some q →
    t.part pid = some { q with err := true, cause := q.cause ||| BitVec.twoPow 5 k,
                               drop := min (q.drop + (s.hostOut.filter fun w => w.pid == pid).length) 0xFFFFFFFF } ∧
    t.aer = if q.err = true then s.aer else some pid :: s.aer) ∧
  t.hostOut = s.hostOut.filter (fun w => w.pid != pid) ∧ t.hostSent = s.hostSent.filter (fun w => w.pid != pid) ∧
  ∀ a, t.hostByte a = s.hostByte a ∨
    ∃ w ∈ s.hostSent, w.pid = pid ∧ w.addr ≤ a ∧ a < w.addr + w.data.length ∧ t.hostByte a = w.data.getD (a - w.addr) 0

/-- A packet of a partition has been rejected (R127): the partition counts it and enters its error state. -/
def Rejected (s t : State) (x : Partition) : Prop :=
  ∃ g : State, g = { s with parts := g.parts } ∧ g.part x.pid = some { x with xreject := min (x.xreject + 1) 0xFFFFFFFF } ∧
    (∀ d, d ≠ x.pid → g.part d = s.part d) ∧ Erred g t x.pid 1

/-! ## Standing products at hand -/

/-- An operand word of a binding lies in an owned page of a binding, which may be the same one (R296, R297). -/
def Treads (x y : Binding) : Prop := ∃ (opB : Bool) (w : Nat), w % 4 = 0 ∧ ((x.side opB).word w).isSome = true ∧ y.owns w = true

/-- Every byte of an extent lies in a line that its home bank has at hand for the device, for writes with `wr`. -/
def State.extentAtHand (s : State) (pid : BitVec 5) (asid : BitVec 16) (x : Extent) (wr : Bool) : Prop :=
  x.last ≤ 2 ^ 52 ∧ ∀ i a, i < x.rows → x.base + i * x.stride ≤ a → a < x.base + i * x.stride + x.width →
    ∃ bank l, s.lineBare pid asid a bank l ∧ (wr = true → l.perms.w = true)

/-- The fields of a binding as R297 and R298 allow them, with C and the log area apart. -/
def Binding.Laid (b : Binding) : Prop :=
  1 ≤ b.m ∧ 1 ≤ b.n ∧ 1 ≤ b.k ∧ b.cbase % 4 = 0 ∧ b.cstride % 4 = 0 ∧ 4 * b.n ≤ b.cstride ∧ b.lbase % 4096 = 0 ∧
    (∀ opB, (b.side opB).base % 4 = 0 ∧ (b.side opB).stride % 4 = 0 ∧ (b.side opB).cols * elemBytes (b.side opB).ty ≤ (b.side opB).stride ∧
      ((b.side opB).ty = .f32 ∨ (b.side opB).ty = .bf16 ∨ (b.side opB).ty = .f16 ∨ (b.side opB).ty = .i8)) ∧
    ¬Treads b b ∧ ∀ i j, i < b.m → j < b.n → b.cAddr i j + 4 ≤ b.lbase ∨ b.lbase + b.logBytes ≤ b.cAddr i j

/-- Nothing that the engine does for a binding waits or fails: its extents are laid out and at hand, and no write to an operand is held. -/
def State.productAtHand (s : State) (b : Binding) : Prop :=
  b.Laid ∧ s.extentAtHand b.pid b.asid b.extentC true ∧ s.extentAtHand b.pid b.asid b.extentLog true ∧
    (∀ opB, s.extentAtHand b.pid b.asid (b.side opB).extent false) ∧ b.lost = false ∧ ∀ x ∈ s.binds, x.hold = []

/-- The word of an element of C at home. -/
def State.cReads (s : State) (b : Binding) (i j : Nat) (c : Word) : Prop := ∃ u, homeWord s b.pid b.asid (b.cAddr i j) = .ok c u

/-- The element corrections that entries bring to the line of C that holds element (i, j): the row for A, the column for B (R304, R308). -/
def Binding.brings (b : Binding) (opB : Bool) (es : List LogEntry) (i j : Nat) : List (Nat × Nat × Nat × Nat) :=
  (es.flatMap b.corrections).filter fun x => if opB then x.2.1 == j else x.1 == i

/-- The terms of corrections to element (i, j): NEW and OLD, and the other operand's element as of the place before `later` (R307, R308). -/
def TermsAt (b : Binding) (later : List LogEntry) (s : State) (opB : Bool) (i j : Nat) (xs : List (Nat × Nat × Nat × Nat)) (ts : List Term) : Prop :=
  ts.length = xs.length ∧ ∀ (k : Nat) (x : Nat × Nat × Nat × Nat) (t : Term), xs[k]? = some x → ts[k]? = some t → t.old = x.2.2.1 ∧ t.new = x.2.2.2 ∧
    ∃ u, speElem b later (!opB) s (if opB then i else x.2.1) (if opB then x.1 else j) = .ok t.other u

/-- A term has a NaN or an infinity (R310). -/
def Binding.specialTerm (b : Binding) (opB : Bool) (t : Term) : Prop :=
  FVal.special (b.val opB t.new) = true ∨ FVal.special (b.val opB t.old) = true ∨ FVal.special (b.val (!opB) t.other) = true

/-! ## Waiting, invalidating, queueing -/

/-- The path in focus waits at its instruction, which keeps its place; the partner path is untouched (R45). -/
def WaitsWith (s t : State) (w : Wait) : Prop :=
  OnlyPaths s t ∧ t.slot = s.slot ∧ t.path.wait = some w ∧ t.path.pc = s.path.pc ∧ t.path.mask = s.path.mask ∧ t.path.budget = s.path.budget ∧
    t.path.redo = s.path.redo ∧ t.team.path (!s.slot) = s.team.path (!s.slot)

/-- A guard that selects no lane gives the instruction no effect (R37). -/
def Idle (i : Instr) (h : Hdr) (n : Nat) (s : State) : Prop := s.acts h.guard = false → ∃ t, exec i s = .next t ∧ Done s t h n ∧ OnlyPaths s t

/-- The team's core has dropped its clean words of the team's ASID, except in K lines of its launch tree (R146); nothing else of any core differs. -/
def SelfInvalidated (s t : State) : Prop :=
  (∀ c, c ≠ s.team.core → t.core c = s.core c) ∧ t.core s.team.core = { s.core s.team.core with l1 := (t.core s.team.core).l1 } ∧
    ∀ l, l ∈ (t.core s.team.core).l1 ↔ ∃ x ∈ (s.core s.team.core).l1,
      if x.key.pid = s.team.pid ∧ x.key.asid = s.team.asidNow ∧ x.k ≠ some s.team.tree then x.d ≠ 0 ∧ l = { x with v := x.v &&& x.d } else l = x

/-- Outside the team in focus only its run, the note of retirement and L1 lines may differ. -/
def OutsideL1 (s t : State) : Prop :=
  MemorySame s t ∧ t = { s with team := t.team, running := t.running, retired := t.retired, cores := t.cores }

/-- Outside the team in focus only its run, the note of retirement and the counter of numbered things may differ. -/
def OutsideSerial (s t : State) : Prop :=
  MemorySame s t ∧ t = { s with team := t.team, running := t.running, retired := t.retired, serial := t.serial }

/-- Of the team in focus only its paths differ. -/
def TeamPaths (s t : State) : Prop := t.team = { s.team with path0 := t.team.path0, path1 := t.team.path1 }

/-- Nothing that an edge waits for is outstanding (R178, R283, R81). -/
def State.quiet (s : State) : Prop := s.team.copies = [] ∧ s.team.chains = [] ∧ s.team.matq = [] ∧ s.persisting = false

/-- The team's core holds nothing dirty of the team's ASID, and no write of it is held or unacknowledged: a flush has nothing to do (R145). -/
def State.flushed (s : State) : Prop :=
  (∀ l ∈ (s.core s.team.core).l1, l.key.pid = s.team.pid → l.key.asid = s.team.asidNow → l.d = 0) ∧
    s.holds s.team.pid s.team.asidNow s.team.core = false ∧ s.writingAny s.team.core s.team.pid s.team.asidNow = false

/-- An entry has joined the matrix queue in its order of issue; the commands that `touches` names are marked as touched (R278, R281). -/
def Queued (s t : State) (e : MatEntry) (touches : Nat → MmaCmd → Bool) : Prop :=
  e.order = s.serial ∧ t.serial = s.serial + 1 ∧ ∃ q, t.team.matq = q ++ [e] ∧
    q = s.team.matq.map fun e => match e.op with
      | .mma c => if touches e.order c = true then { e with op := .mma { c with touched := true } } else e
      | .tile _ => e

/-- The lines of an invalidation's reach: an ASID or all, and a range of addresses (R413). -/
def Covers (asid : Option (BitVec 16)) (lo hi : Nat) (a : BitVec 16) (lo' hi' : Nat) : Prop := (asid = none ∨ asid = some a) ∧ lo < hi' ∧ lo' < hi

/-! ## Events -/

/-- A core's L1 has given up the ways that its windows and one of `bytes` more take (R135, R137). -/
def State.hasSplit (s : State) (core bytes : Nat) : Prop := (s.core core).ways ≤ waysFor (s.windowSum core + bytes)

/-- A team has become resident on a sub-core again: its uniform registers, masks and stack are as they were, and its paths stand where they stood,
at the start of new runs, with no wait but for a trap still to be taken or a write already made (R134, R361, R374, R407, R414). -/
def TookPlace (x y : Team) (sub : Nat) : Prop :=
  y.id = x.id ∧ y.pid = x.pid ∧ y.phase = .resident ∧ y.core = sub / 8 ∧ y.sub = sub % 8 ∧ y.s = x.s ∧ y.m = x.m ∧ y.stack = x.stack ∧
    ∀ slot, (∀ p, x.path slot = some p → ∃ q, y.path slot = some q ∧ q.pc = p.pc ∧ q.mask = p.mask ∧ q.budget = p.budget ∧
      q.wait = p.wait.filter Wait.lasts ∧ q.runCount = 0) ∧ (x.path slot = none → y.path slot = none)

/-- A team has left its sub-core (R346, R406): it is saved, holds no lane register, tile or window byte, has no load or run of its own, its paths stand where they
stood and hold no reserved frame, and it waits for a place unless it is parked. -/
def Saved (t : State) (x : Team) (hard : Bool) : Prop :=
  (∃ y, t.findTeam x.pid x.id = some y ∧ y = { x with phase := .saved, preempt := none, v := [], tiles := [], win := [], empty := [], gen := y.gen, wafers := y.wafers,
                                                          path0 := y.path0, path1 := y.path1 } ∧
    (∀ slot, match x.path slot with
      | none => y.path slot = none
      | some p => ∃ q, y.path slot = some q ∧ q = { p with wait := q.wait, held := [] } ∧ (p.wait ≠ some .watch → q.wait = p.wait)) ∧
    y.gen = if hard then x.gen + 1 else x.gen) ∧
    (∀ l ∈ t.loads, l.pid ≠ x.pid ∨ l.team ≠ x.id) ∧ (∀ r ∈ t.running, r.2.pid ≠ x.pid ∨ r.2.team ≠ x.id) ∧
    (x.park = none → ∃ p e, t.part x.pid = some p ∧ e ∈ p.overflow ∧ e.kind = .saved x.id)

/-- Two teams have exchanged the registers that their rally entries name (R132): what each held of them before stands in the other's, position by position, in the
lanes of both; both paths stand behind their XSHUFs at the start of a run, and the entries are gone. -/
def Exchanged (s t : State) (r x : Rally) (a b : Team) : Prop :=
  let took (mine other : Rally) (old partner new : Team) : Prop :=
    (∀ (k : Nat) d u l, mine.regs[k]? = some d → other.regs[k]? = some u → l < 1024 → mine.lanes.getLsbD l = true → other.lanes.getLsbD l = true →
      new.vval d l = partner.vval u l) ∧
    (∀ d l, l < 1024 → (d ∉ mine.regs ∨ mine.lanes.getLsbD l = false ∨ other.lanes.getLsbD l = false) → new.vval d l = old.vval d l) ∧
    new = { old with v := new.v, path0 := new.path0, path1 := new.path1 } ∧
    (∀ p, old.path mine.slot = some p → ∃ q, new.path mine.slot = some q ∧ q.pc = p.pc + 16 ∧ q.mask = p.mask ∧ q.budget = p.budget ∧ q.wait = none ∧
      q.runCount = 0) ∧ new.path (!mine.slot) = old.path (!mine.slot)
  ∃ c d, t.findTeam r.pid r.team = some c ∧ t.findTeam x.pid x.team = some d ∧ took r x a b c ∧ took x r b a d ∧
    t.rally = (s.rally.erase r).erase x

/-- A home line of the space that its home bank has at hand for reads and writes: valid, writable, owned by no die, with no copy, and watched and bound by
nobody. -/
def State.lineAtHome (s : State) (pid : BitVec 5) (asid : BitVec 16) (sys : Bool) (a bank : Nat) (x : L2Line) : Prop :=
  ∃ p die, s.part pid = some p ∧ p.home asid a = some (die, bank) ∧ (s.bank bank).busyOn (keyOf pid asid a) = false ∧
    s.hostCache.contains (pid, a / 128) = false ∧ (s.bank bank).find (keyOf pid asid a) false = some x ∧ x.key = keyOf pid asid a ∧ x.remote = false ∧
    x.perms.w = true ∧ x.perms.wt = false ∧ (x.perms.s = true → sys = true) ∧ x.v = BitVec.allOnes 32 ∧ x.own = 0 ∧ (s.bank bank).dirEntry x.key = none ∧
    (∀ w ∈ s.watches, w.pid ≠ pid ∨ w.asid ≠ asid) ∧ s.unbound pid

/-- The pattern of element (r, c) of a matrix operand of `b`-bit elements: its bits are those of the window from the operand's base on, or of lane `r`'s
registers from the operand's first one on; lanes at or above LANES hold zeros (R271, R272). -/
def Team.mmaPat (x : Team) (o : MmaOperand) (b r c : Nat) : Nat :=
  bitsNat b fun k => match o with
    | .win off => (storeGet 0 x.win (off + ((64 * r + c) * b + k) / 8)).getLsbD (((64 * r + c) * b + k) % 8)
    | .lane v => decide (r < x.lanes) && (x.vval (v + BitVec.ofNat 8 ((c * b + k) / 32)) r).getLsbD ((c * b + k) % 32)

/-- Element (m, n) of a tile. -/
def Team.tileWord (x : Team) (d : Tile) (m n : Nat) : Word := storeGet 0 x.tiles (tileKey d m n)

/-- Of all teams only one may differ; the others are found as they were. -/
def OnlyTeam (s t : State) (x y : Team) : Prop :=
  t.findTeam x.pid x.id = some y ∧ ∀ pid id, ¬(pid = x.pid ∧ id = x.id) → t.findTeam pid id = s.findTeam pid id


/-! ## How an instruction completes -/

/-- A uniform form completes: it is done, one uniform register is written (R37, R237). -/
def UniformResult (i : Instr) (h : Hdr) (n : Nat) (d : UReg) (s : State) (P : Dword → Prop) : Prop :=
  ∃ t, exec i s = .next t ∧ Done s t h n ∧ OnlyU s t ∧ WroteU s t (s.acts h.guard) d P

/-- A vector form completes: it is done, the participating lanes of one register are written (R25). -/
def VectorResult (i : Instr) (h : Hdr) (n : Nat) (ty : Ty) (d : LaneReg) (s : State) (P : Nat → Dword → Prop) : Prop :=
  ∃ t, exec i s = .next t ∧ Done s t h n ∧ OnlyV s t ∧ WroteV s t h.guard ty d P

/-- A vector form with a mask destination completes (R246). -/
def BitsResult (i : Instr) (h : Hdr) (n : Nat) (d : MReg) (s : State) (f : Nat → Bool) : Prop :=
  ∃ t, exec i s = .next t ∧ Done s t h n ∧ OnlyM s t ∧ WroteBits s t h.guard d f

/-- A mask form with a mask destination completes (R212). -/
def MaskResult (i : Instr) (h : Hdr) (n : Nat) (d : MReg) (s : State) (f : Nat → Bool) : Prop :=
  ∃ t, exec i s = .next t ∧ Done s t h n ∧ OnlyM s t ∧ WroteM s t (s.acts h.guard) d f

/-- A float form with a lane destination completes (R225): each participating lane gets the value and raises the flags that `f` gives it. -/
def FloatResult (i : Instr) (h : Hdr) (n : Nat) (ty : Ty) (d : LaneReg) (s : State) (f : Nat → Dword × BitVec 5) : Prop :=
  ∃ t, exec i s = .next t ∧ Done s t h n ∧ OnlyFloat s t ∧ t.team.m = s.team.m ∧ WroteV s t h.guard ty d (fun l v => v = regForm ty (f l).1) ∧
    ∀ k, t.team.tstat.getLsbD k = (s.team.tstat.getLsbD k || (s.lanes h.guard).any fun l => (f l).2.getLsbD k)

end Sys2Proof.Machine
end

