-- ==== Sys2Proof/Certificates/Slice0/Obligations.lean ====
section
/-! DEFINITION. The statements for the provers. `Stated.X` is a part of the statement that names it. -/
open Sys2Proof Sys2Proof.Machine

/-! ## Uniform forms -/

/-- R239, R240 in the uniform family: SADD, SSUB, SMUL, SMULH, SDIV, SREM, SMIN and SMAX write the exact result, wrapped or saturated (R234) and extended
to 64 bits (R233); nothing else changes. -/
def Stated.UniformArithmetic : Prop :=
  ∀ (h : Hdr) (o : U2) (s : State),
    let a := intOf o.ty (s.readU o.a)
    let b := intOf o.ty (s.usrc o.ty o.b)
    let does (i : Instr) (r : Int) : Prop :=
      i.wf = true → UniformResult i h o.b.bytes o.d s fun v => ∃ x, Extends v x ∧ Fits o.ty o.sat r x
    does (.sadd h o) (a + b) ∧ does (.ssub h o) (a - b) ∧ does (.smul h o) (a * b) ∧ does (.smulh h o) (a * b / 2 ^ Ty.bits o.ty) ∧
      does (.sdiv h o) (quotient o.ty a b) ∧ does (.srem h o) (remainder a b) ∧ does (.smin h o) (min a b) ∧ does (.smax h o) (max a b)

/-- R239 in the uniform family, bit by bit: SAND, SOR, SXOR, SSHL, SSHR, SSAR, SBFE, SBFI, SPOPC and SCLZ. A shift count is 32 unsigned bits, and one of
w or more shifts everything out. -/
def Stated.UniformBits : Prop :=
  (∀ (h : Hdr) (o : U2) (s : State),
    let w := Ty.bits o.ty
    let a := s.readU o.a
    let b := s.usrc o.ty o.b
    let n := (s.uctl o.b).toNat
    let does (i : Instr) (P : Dword → Prop) : Prop := i.wf = true → UniformResult i h o.b.bytes o.d s P
    does (.sand h o) (fun v => BitsAre w v fun k => a.getLsbD k && b.getLsbD k) ∧
    does (.sor h o) (fun v => BitsAre w v fun k => a.getLsbD k || b.getLsbD k) ∧
    does (.sxor h o) (fun v => BitsAre w v fun k => a.getLsbD k != b.getLsbD k) ∧
    does (.sshl h o) (fun v => BitsAre w v (shlBit w a n)) ∧
    does (.sshr h o) (fun v => BitsAre w v (shrBit w a n)) ∧
    does (.ssar h o) (fun v => Extends v (sarInt w (intOf o.ty a) n)) ∧
    does (.sbfe h o) (fun v => BitsAre 64 v (bfeBit w (Ty.signed o.ty) a (n % 256) (min (n / 256 % 256) w)))) ∧
  (∀ (h : Hdr) (o : U3) (s : State), (Instr.sbfi h o).wf = true →
    let w := Ty.bits o.ty
    let n := (s.uctl o.b).toNat
    UniformResult (.sbfi h o) h o.b.bytes o.d s
      fun v => BitsAre w v (bfiBit w (s.readU o.a) (s.readU o.c) (n % 256) (min (n / 256 % 256) w))) ∧
  (∀ (h : Hdr) (o : U1) (s : State), (Instr.spopc h o).wf = true →
    let w := Ty.bits o.ty
    UniformResult (.spopc h o) h 8 o.d s (fun v => v = BitVec.ofNat 64 (onesOf w (s.readU o.a))) ∧
    UniformResult (.sclz h o) h 8 o.d s (fun v => ∃ n, v = BitVec.ofNat 64 n ∧ IsClz w (s.readU o.a) n))

/-- R242, R243: SCMP writes 1 or 0, SSEL chooses between 64-bit values, SMOV copies one, SLI writes its immediate. -/
def Stated.UniformMoves : Prop :=
  (∀ (h : Hdr) (o : UCmp) (s : State), (Instr.scmp h o).wf = true →
    UniformResult (.scmp h o) h o.b.bytes o.d s
      fun v => v = if Cond.rel o.cc (intOf o.ty (s.readU o.a)) (intOf o.ty (s.usrc o.ty o.b)) then 1 else 0) ∧
  (∀ (h : Hdr) (o : USel) (s : State),
    UniformResult (.ssel h o) h o.b.bytes o.d s
      fun v => v = if s.readU o.c ≠ 0 then s.readU o.a else match o.b with | .reg r => s.readU r | .imm i => i.signExtend 64) ∧
  (∀ (h : Hdr) (o : UDA) (s : State), UniformResult (.smov h o) h 8 o.d s fun v => v = s.readU o.a) ∧
  (∀ (h : Hdr) (o : ULi) (s : State),
    UniformResult (.sli h o) h o.v.bytes o.d s fun v => v = match o.v with | .short i => i.signExtend 64 | .long x => x)

/-! ## Vector integer forms -/

/-- R239, R240, R245 in the vector family: VADD, VSUB, VMUL, VMULH, VDIV, VREM, VMIN, VMAX, VMAD, VCLAMP, VABS and VNEG write the exact result, wrapped or
saturated, in each participating lane; every other lane, register, flag and byte keeps its value. -/
def Stated.VectorArithmetic : Prop :=
  (∀ (h : Hdr) (o : V2) (s : State),
    let a l := intOf o.ty (s.readLane o.ty o.a l)
    let b l := intOf o.ty (s.vsrc o.ty o.b l)
    let does (i : Instr) (r : Nat → Int) : Prop :=
      i.wf = true → VectorResult i h o.b.bytes o.ty o.d s fun l v => Fits o.ty o.sat (r l) (intOf o.ty v)
    does (.vadd h o) (fun l => a l + b l) ∧ does (.vsub h o) (fun l => a l - b l) ∧ does (.vmul h o) (fun l => a l * b l) ∧
      does (.vmulh h o) (fun l => a l * b l / 2 ^ Ty.bits o.ty) ∧ does (.vdiv h o) (fun l => quotient o.ty (a l) (b l)) ∧
      does (.vrem h o) (fun l => remainder (a l) (b l)) ∧ does (.vmin h o) (fun l => min (a l) (b l)) ∧ does (.vmax h o) (fun l => max (a l) (b l))) ∧
  (∀ (h : Hdr) (o : V3) (s : State),
    let a l := intOf o.ty (s.readLane o.ty o.a l)
    let b l := intOf o.ty (s.vsrc o.ty o.b l)
    let c l := intOf o.ty (s.readLane o.ty o.c l)
    let does (i : Instr) (r : Nat → Int) : Prop :=
      i.wf = true → VectorResult i h o.b.bytes o.ty o.d s fun l v => Fits o.ty o.sat (r l) (intOf o.ty v)
    does (.vmad h o) (fun l => a l * b l + c l) ∧ does (.vclamp h o) (fun l => min (max (a l) (b l)) (c l))) ∧
  (∀ (h : Hdr) (o : V1) (s : State),
    let a l := intOf o.ty (s.readLane o.ty o.a l)
    let does (i : Instr) (r : Nat → Int) : Prop := i.wf = true → VectorResult i h 8 o.ty o.d s fun l v => Fits o.ty o.sat (r l) (intOf o.ty v)
    does (.vabs h o) (fun l => max (a l) (-(a l))) ∧ does (.vneg h o) (fun l => -(a l)))

/-- Integer arithmetic of both families: exact results, wrapped or saturated, and the division rules. -/
def Obligations.IntegerArithmetic : Prop := Stated.UniformArithmetic ∧ Stated.VectorArithmetic

/-- R239, R245 in the vector family, bit by bit: VAND, VOR, VXOR, VSHL, VSHR, VSAR, VBFE, VBFI, VPOPC, VCLZ and VBREV. A control operand is 32 bits, and a
count fills one 32-bit register, whatever the type (R232). -/
def Stated.VectorBits : Prop :=
  (∀ (h : Hdr) (o : V2) (s : State),
    let w := Ty.bits o.ty
    let a := s.readLane o.ty o.a
    let b := s.vsrc o.ty o.b
    let n l := (s.vctl o.b l).toNat
    let does (i : Instr) (P : Nat → Dword → Prop) : Prop := i.wf = true → VectorResult i h o.b.bytes o.ty o.d s P
    does (.vand h o) (fun l v => BitsAre w v fun k => (a l).getLsbD k && (b l).getLsbD k) ∧
    does (.vor h o) (fun l v => BitsAre w v fun k => (a l).getLsbD k || (b l).getLsbD k) ∧
    does (.vxor h o) (fun l v => BitsAre w v fun k => (a l).getLsbD k != (b l).getLsbD k) ∧
    does (.vshl h o) (fun l v => BitsAre w v (shlBit w (a l) (n l))) ∧
    does (.vshr h o) (fun l v => BitsAre w v (shrBit w (a l) (n l))) ∧
    does (.vsar h o) (fun l v => intOf o.ty v = sarInt w (intOf o.ty (a l)) (n l)) ∧
    does (.vbfe h o) (fun l v => BitsAre w v (bfeBit w (Ty.signed o.ty) (a l) (n l % 256) (min (n l / 256 % 256) w)))) ∧
  (∀ (h : Hdr) (o : V3) (s : State), (Instr.vbfi h o).wf = true →
    let w := Ty.bits o.ty
    let n l := (s.vctl o.b l).toNat
    VectorResult (.vbfi h o) h o.b.bytes o.ty o.d s
      fun l v => BitsAre w v (bfiBit w (s.readLane o.ty o.a l) (s.readLane o.ty o.c l) (n l % 256) (min (n l / 256 % 256) w))) ∧
  (∀ (h : Hdr) (o : V1) (s : State), o.ty.isB = true → pairOk o.ty o.a = true →
    let w := Ty.bits o.ty
    let a := s.readLane o.ty o.a
    VectorResult (.vpopc h o) h 8 .b32 o.d s (fun l v => v = BitVec.ofNat 64 (onesOf w (a l))) ∧
    VectorResult (.vclz h o) h 8 .b32 o.d s (fun l v => ∃ n, v = BitVec.ofNat 64 n ∧ IsClz w (a l) n) ∧
    (pairOk o.ty o.d = true →
      VectorResult (.vbrev h o) h 8 o.ty o.d s fun l v => BitsAre w v fun q => (a l).getLsbD (w - 1 - q)))

/-- Bit, shift and field forms of both families, bit by bit. -/
def Obligations.IntegerBits : Prop := Stated.UniformBits ∧ Stated.VectorBits

/-- R245, R246: VSEL, VMOV, VLI and VIDX write lanes; VCMP writes the mask bits of its participating lanes only; VADDC takes its carry-in from the mask as
it stood and writes the sum and the carry. -/
def Stated.VectorMoves : Prop :=
  (∀ (h : Hdr) (o : VSelO) (s : State), (Instr.vsel h o).wf = true →
    VectorResult (.vsel h o) h o.b.bytes o.ty o.d s
      fun l v => v = regForm o.ty (if (s.readM o.c).getLsbD l then s.readLane o.ty o.a l else s.vsrc o.ty o.b l)) ∧
  (∀ (h : Hdr) (o : VMovO) (s : State), (Instr.vmov h o).wf = true →
    VectorResult (.vmov h o) h 8 o.ty o.d s
      fun l v => v = match o.a with | .lane r => s.readLane o.ty r l | .unif r => regForm o.ty (s.readUIn r (l / 32))) ∧
  (∀ (h : Hdr) (o : VLiO) (s : State), (Instr.vli h o).wf = true →
    VectorResult (.vli h o) h o.v.bytes o.ty o.d s
      fun _ v => v = match o.v with | .short i => (if o.ty.is64 then i.signExtend 64 else i.setWidth 64) | .long x => x) ∧
  (∀ (h : Hdr) (o : VIdx) (s : State),
    VectorResult (.vidx h o) h (offBytes o.off) .n32 o.d s
      fun l v => v = (BitVec.ofNat 32 l + (match o.off with | none => 0 | some i => i)).setWidth 64) ∧
  (∀ (h : Hdr) (o : VCmp) (s : State), (Instr.vcmp h o).wf = true →
    BitsResult (.vcmp h o) h o.b.bytes o.d s
      fun l => Cond.rel o.cc (intOf o.ty (s.readLane o.ty o.a l)) (intOf o.ty (s.vsrc o.ty o.b l))) ∧
  (∀ (h : Hdr) (o : VAddc) (s : State), (Instr.vaddc h o).wf = true →
    let w := Ty.bits o.ty
    let ci l : Int := if (s.readM o.c).getLsbD l then 1 else 0
    let a l := intOf o.ty (s.readLane o.ty o.a l)
    let b l := intOf o.ty (s.vsrc o.ty o.b l)
    let t l := if o.sub then a l - b l - ci l else a l + b l + ci l
    ∃ u, exec (.vaddc h o) s = .next u ∧ Done s u h o.b.bytes ∧
      Outside s u ∧ u.team = { s.team with v := u.team.v, m := u.team.m, path0 := u.team.path0, path1 := u.team.path1 } ∧
      WroteV s u h.guard o.ty o.d (fun l v => intOf o.ty v = t l % 2 ^ w) ∧
      WroteBits s u h.guard o.c fun l => if o.sub then decide (t l < 0) else decide (2 ^ w ≤ t l))

/-- Moves, selections, immediates and compares of both families. -/
def Obligations.IntegerMoves : Prop := Stated.UniformMoves ∧ Stated.VectorMoves

/-! ## Float forms -/

/-- R251, R256, R258, R230: FADD, FSUB, FMUL, FDIV, FFMA, FSQRT, FRND, FSCALE and FDOT2 write each participating lane, each element of a packed value by
itself, and OR the lanes' flags into TSTAT; nothing else changes. What the element functions give is stated by FloatRounding and FloatSpecial. -/
def Obligations.FloatArithmetic : Prop :=
  (∀ (h : Hdr) (o : F2) (s : State),
    let f := fmtOf o.ty
    let a k l := elem o.ty k (s.readLane o.ty o.a l)
    let b k l := elem o.ty k (s.fsrc o.ty o.b l)
    let does (i : Instr) (r : Nat → Nat → Nat × BitVec 5) : Prop :=
      i.wf = true → FloatResult i h o.b.bytes o.ty o.d s fun l => perElem o.ty fun k => r k l
    does (.fadd h o) (fun k l => fpAdd f o.rm o.ftz false (a k l) (b k l)) ∧ does (.fsub h o) (fun k l => fpAdd f o.rm o.ftz true (a k l) (b k l)) ∧
      does (.fmul h o) (fun k l => fpMul f o.rm o.ftz (a k l) (b k l)) ∧ does (.fdiv h o) (fun k l => fpDiv f o.rm o.ftz (a k l) (b k l)) ∧
      does (.fscale h o) (fun k l => fpScale f o.rm o.ftz (a k l) (s.vctl o.b l).toInt)) ∧
  (∀ (h : Hdr) (o : F3) (s : State), (Instr.ffma h o).wf = true →
    FloatResult (.ffma h o) h o.b.bytes o.ty o.d s fun l => perElem o.ty fun k =>
      fpFma (fmtOf o.ty) o.rm o.ftz (elem o.ty k (s.readLane o.ty o.a l)) (elem o.ty k (s.fsrc o.ty o.b l)) (elem o.ty k (s.readLane o.ty o.c l))) ∧
  (∀ (h : Hdr) (o : F3) (s : State), (Instr.fdot2 h o).wf = true →
    let a k l := elem o.ty k (s.readLane o.ty o.a l)
    let b k l := elem o.ty k (s.fsrc o.ty o.b l)
    FloatResult (.fdot2 h o) h o.b.bytes .f32 o.d s fun l =>
      let r := fpDot2 (fmtOf o.ty) o.rm o.ftz (a 0 l) (a 1 l) (b 0 l) (b 1 l) (s.readV o.c l).toNat
      (BitVec.ofNat 64 r.1, r.2)) ∧
  (∀ (h : Hdr) (o : F1) (s : State),
    let a k l := elem o.ty k (s.readLane o.ty o.a l)
    let does (i : Instr) (r : Nat → Nat → Nat × BitVec 5) : Prop :=
      i.wf = true → FloatResult i h 8 o.ty o.d s fun l => perElem o.ty fun k => r k l
    does (.fsqrt h o) (fun k l => fpSqrt (fmtOf o.ty) o.rm o.ftz (a k l)) ∧ does (.frnd h o) (fun k l => fpRnd (fmtOf o.ty) o.rm o.ftz (a k l)))

/-- R220 to R225, R230, R256: a sum, a difference, a product, a fused product and sum, a quotient, a square root, a product with 2^n and a sum of two products
and an F32 value are the exact real number of finite values rounded once, in each of the four modes, wherever that number is no greater in magnitude than the
largest finite value; and NX is raised exactly when the result is not exact. FRND gives an integer, exactly and without a flag, and a zero keeps the sign.
Operands are flushed under FTZ; a result that FTZ would flush is outside the statement. -/
def Stated.FloatRounding : Prop :=
  ∀ (t : Ty) (rm : RMode) (ftz : Bool) (a b c : Nat) (x y z : Rat), t.isVFloat = true →
    let f := fmtOf t
    realOf f (flushIn f ftz a) = some x → realOf f (flushIn f ftz b) = some y → realOf f (flushIn f ftz c) = some z →
    let inRange (r : Rat) : Prop := r ≠ 0 ∧ r.abs ≤ f.largest ∧ (ftz = true → f.smallestNormal ≤ r.abs)
    let rounds (r : Rat) (p : Nat × BitVec 5) : Prop := inRange r → RoundsTo f rm (fun q => q < r) (fun q => r < q) p
    rounds (x + y) (fpAdd f rm ftz false a b) ∧ rounds (x - y) (fpAdd f rm ftz true a b) ∧ rounds (x * y) (fpMul f rm ftz a b) ∧
      rounds (x * y + z) (fpFma f rm ftz a b c) ∧ (y ≠ 0 → rounds (x / y) (fpDiv f rm ftz a b)) ∧
      (0 < x → RoundsTo f rm (fun q => q < 0 ∨ q * q < x) (fun q => 0 < q ∧ x < q * q) (fpSqrt f rm ftz a)) ∧
      (∀ n : Int, rounds (x * 2 ^ n) (fpScale f rm ftz a n)) ∧
      (x ≠ 0 → (fpRnd f rm ftz a).2 = 0 ∧ ∃ q : Int, realOf f (fpRnd f rm ftz a).1 = some (q : Rat) ∧
        (q = 0 → (fpRnd f rm ftz a).1 = f.signBit (decide (x < 0))) ∧
        match rm with
        | .rz => (if 0 ≤ x then x.floor else x.ceil) = q
        | .ru => x.ceil = q
        | .rd => x.floor = q
        | .rne => (x - q).abs ≤ 1 / 2 ∧ ((x - q).abs = 1 / 2 → q % 2 = 0)) ∧
      ∀ (a1 b1 c1 : Nat) (x1 y1 z1 : Rat),
        let g := fmtOf .f32
        let r := x * y + x1 * y1 + z1
        realOf f (flushIn f ftz a1) = some x1 → realOf f (flushIn f ftz b1) = some y1 → realOf g (flushIn g ftz c1) = some z1 →
          r ≠ 0 → r.abs ≤ g.largest → (ftz = true → g.smallestNormal ≤ r.abs) →
            RoundsTo g rm (fun q => q < r) (fun q => r < q) (fpDot2 f rm ftz a a1 b b1 c1)

/-- R251, R257, R258, R230, R256: a NaN operand or an invalid operation gives the canonical NaN, with NV when the operation is invalid or an operand signals;
a quotient of a finite non-zero number by zero is an infinity with DZ; infinities pass through sums, products and quotients; FSCALE and FRND keep
infinities and zeros. -/
def Stated.FloatSpecial : Prop :=
  ∀ (t : Ty) (rm : RMode) (ftz : Bool) (a b c : Nat), t.isVFloat = true →
    let f := fmtOf t
    let x := fval f (flushIn f ftz a)
    let y := fval f (flushIn f ftz b)
    let z := fval f (flushIn f ftz c)
    let nan (nv : Bool) : Nat × BitVec 5 := (f.nan, if nv then flagNV else 0)
    let inf (neg : Bool) : Nat := f.signBit neg + f.infPat
    (x.isNan ∨ y.isNan → fpAdd f rm ftz false a b = nan (x.isSnan || y.isSnan) ∧ fpAdd f rm ftz true a b = nan (x.isSnan || y.isSnan) ∧
      fpMul f rm ftz a b = nan (x.isSnan || y.isSnan) ∧ fpDiv f rm ftz a b = nan (x.isSnan || y.isSnan) ∧
      fpFma f rm ftz a b c = nan (x.isSnan || y.isSnan || z.isSnan)) ∧
    (mulInvalid x y = true → fpMul f rm ftz a b = nan true ∧ fpFma f rm ftz a b c = nan true) ∧
    (∀ n m, x = .inf n → y = .inf m →
      fpAdd f rm ftz false a b = (if n = m then (inf n, 0) else nan true) ∧ fpAdd f rm ftz true a b = (if n = m then nan true else (inf n, 0)) ∧
      fpMul f rm ftz a b = (inf (n != m), 0) ∧ fpDiv f rm ftz a b = nan true) ∧
    (∀ n k m e, x = .inf n → y = .fin k m e →
      fpAdd f rm ftz false a b = (inf n, 0) ∧ fpAdd f rm ftz true a b = (inf n, 0) ∧ fpDiv f rm ftz a b = (inf (n != k), 0) ∧
      (m ≠ 0 → fpMul f rm ftz a b = (inf (n != k), 0))) ∧
    (x.isZero = true → y.isZero = true → fpDiv f rm ftz a b = nan true) ∧
    (∀ n m e, x = .fin n m e → m ≠ 0 → y.isZero = true → fpDiv f rm ftz a b = (inf (n != y.neg), flagDZ)) ∧
    (∀ n m e, x = .fin n m e → y.isInf = true → fpDiv f rm ftz a b = (f.signBit (n != y.neg), 0)) ∧
    (x.isNan = true → fpSqrt f rm ftz a = nan x.isSnan) ∧ (x = .inf true → fpSqrt f rm ftz a = nan true) ∧
    (∀ m e, x = .fin true m e → fpSqrt f rm ftz a = if m = 0 then (f.signBit true, 0) else nan true) ∧
    (∀ n : Int, (x.isNan = true → fpScale f rm ftz a n = nan x.isSnan) ∧
      (x.isInf = true ∨ x.isZero = true → fpScale f rm ftz a n = (flushIn f ftz a, 0))) ∧
    (x.isNan = true → fpRnd f rm ftz a = nan x.isSnan) ∧ (x.isInf = true ∨ x.isZero = true → fpRnd f rm ftz a = (flushIn f ftz a, 0)) ∧
    ∀ (a1 b1 c1 : Nat),
      let g := fmtOf .f32
      let x1 := fval f (flushIn f ftz a1)
      let y1 := fval f (flushIn f ftz b1)
      let w := fval g (flushIn g ftz c1)
      let r := fpDot2 f rm ftz a a1 b b1 c1
      let invalid : Bool := mulInvalid x y || mulInvalid x1 y1
      let nans : Bool := x.isNan || x1.isNan || y.isNan || y1.isNan || w.isNan
      let signals : Bool := x.isSnan || x1.isSnan || y.isSnan || y1.isSnan || w.isSnan
      (nans = true ∨ invalid = true → r.1 = g.nan) ∧ (signals = true ∨ invalid = true → r.2 = flagNV)

/-- Float results are rounded once, and special values follow the rules. -/
def Obligations.FloatRounding : Prop := Stated.FloatRounding ∧ Stated.FloatSpecial

/-- R253, R254, R255: FMIN, FMAX, FABS and FNEG never round; FABS and FNEG clear and reverse the sign of every value that is no NaN; FCMP sets the mask bits
of its participating lanes from the order of the values, with −0 equal to +0 and a NaN unordered; FCLASS writes one class bit for each element and
raises no flag. -/
def Stated.FloatCompare : Prop :=
  (∀ (h : Hdr) (o : F2) (s : State),
    let f := fmtOf o.ty
    let a k l := flushIn f o.ftz (elem o.ty k (s.readLane o.ty o.a l))
    let b k l := flushIn f o.ftz (elem o.ty k (s.fsrc o.ty o.b l))
    let pick (max : Bool) (k l : Nat) : Nat × BitVec 5 := fpMinMax f false max (a k l) (b k l)
    ((Instr.fmin h o).wf = true → FloatResult (.fmin h o) h o.b.bytes o.ty o.d s fun l => perElem o.ty fun k => pick false k l) ∧
    ((Instr.fmax h o).wf = true → FloatResult (.fmax h o) h o.b.bytes o.ty o.d s fun l => perElem o.ty fun k => pick true k l) ∧
    ∀ (max : Bool) (k l : Nat) (x y : Rat), realOf f (a k l) = some x → realOf f (b k l) = some y →
      (pick max k l).2 = 0 ∧ ((pick max k l).1 = a k l ∨ (pick max k l).1 = b k l) ∧
        realOf f (pick max k l).1 = some (if max then (if x < y then y else x) else (if y < x then y else x))) ∧
  (∀ (h : Hdr) (o : F1) (s : State), (Instr.fabs h o).wf = true →
    let f := fmtOf o.ty
    let top := 2 ^ (f.ew + f.mw)
    let a k l := flushIn f o.ftz (elem o.ty k (s.readLane o.ty o.a l))
    let sign (q : Nat → Nat) (k l : Nat) : Nat × BitVec 5 :=
      if (fval f (a k l)).isNan then (f.nan, if (fval f (a k l)).isSnan then flagNV else 0) else (q (a k l), 0)
    FloatResult (.fabs h o) h 8 o.ty o.d s (fun l => perElem o.ty fun k => sign (fun x => x % top) k l) ∧
    FloatResult (.fneg h o) h 8 o.ty o.d s (fun l => perElem o.ty fun k => sign (fun x => if x < top then x + top else x - top) k l)) ∧
  (∀ (h : Hdr) (o : FClassO) (s : State), (Instr.fclass h o).wf = true →
    FloatResult (.fclass h o) h 8 .b32 o.d s fun l =>
      ((perElem o.ty fun k => (2 ^ (match fval (fmtOf o.ty) (elem o.ty k (s.readLane o.ty o.a l)) with
        | .nan q => if q then 8 else 9
        | .inf n => if n then 0 else 7
        | .fin n m _ =>
          if m = 0 then (if n then 3 else 4) else if m < 2 ^ (fmtOf o.ty).mw then (if n then 2 else 5) else (if n then 1 else 6)), 0)).1, 0)) ∧
  (∀ (h : Hdr) (o : FCmpO) (s : State), (Instr.fcmp h o).wf = true →
    let f := fmtOf o.ty
    let x l := fval f (natOf o.ty (s.readLane o.ty o.a l))
    let y l := fval f (natOf o.ty (s.fsrc o.ty o.b l))
    let c l := fpCmp f o.cc (natOf o.ty (s.readLane o.ty o.a l)) (natOf o.ty (s.fsrc o.ty o.b l))
    (∃ t, exec (.fcmp h o) s = .next t ∧ Done s t h o.b.bytes ∧ OnlyFloat s t ∧ t.team.v = s.team.v ∧ WroteBits s t h.guard o.d (fun l => (c l).1) ∧
      ∀ k, t.team.tstat.getLsbD k = (s.team.tstat.getLsbD k || (s.lanes h.guard).any fun l => (c l).2.getLsbD k)) ∧
    ∀ l, ((x l).isNan = true ∨ (y l).isNan = true → (c l).1 = (o.cc == .ne || o.cc == .un)) ∧
      ∀ p q, (x l).real = some p → (y l).real = some q → (c l).2 = 0 ∧
        (c l).1 = match o.cc with
          | .eq => decide (p = q) | .ne => decide (p ≠ q) | .lt => decide (p < q) | .le => decide (p ≤ q) | .gt => decide (q < p) | .ge => decide (q ≤ p)
          | .un => false | .ord => true)

/-- R260, R261: FRCP, FRSQ, FEXP2, FLOG2, FSIN and FCOS write each participating lane and raise their flags; the reciprocal and the reciprocal root are one of
the two values that bracket the exact result, for every type; the special values are those of R260. -/
def Stated.FloatApproximations : Prop :=
  (∀ (h : Hdr) (o : F1) (s : State),
    let a k l := elem o.ty k (s.readLane o.ty o.a l)
    let does (i : Instr) (fn : Approx) : Prop :=
      i.wf = true → FloatResult i h 8 o.ty o.d s fun l => perElem o.ty fun k => fpApprox fn o.ty o.ftz (a k l)
    does (.frcp h o) .rcp ∧ does (.frsq h o) .rsq ∧ does (.fexp2 h o) .exp2 ∧ does (.flog2 h o) .log2 ∧ does (.fsin h o) .sin ∧ does (.fcos h o) .cos) ∧
  ∀ (t : Ty) (ftz : Bool) (a : Nat), t.isVFloat = true → t ≠ .f64 →
    let f := fmtOf t
    let v := fval f (flushIn f ftz a)
    let one : Nat := f.bias * 2 ^ f.mw
    (∀ x, v.real = some x → x ≠ 0 → x⁻¹.abs ≤ f.largest → (ftz = true → f.smallestNormal ≤ x⁻¹.abs) →
      (fpApprox .rcp t ftz a).2.getLsbD 0 = false ∧
      ∃ y, realOf f (fpApprox .rcp t ftz a).1 = some y ∧ ∀ q z, realOf f q = some z → ¬(y < z ∧ z < x⁻¹) ∧ ¬(x⁻¹ < z ∧ z < y)) ∧
    (∀ x, v.real = some x → 0 < x →
      ∃ y, realOf f (fpApprox .rsq t ftz a).1 = some y ∧ 0 ≤ y ∧
        ∀ q z, realOf f q = some z → 0 < z → ¬(y < z ∧ z * z * x < 1) ∧ ¬(1 < z * z * x ∧ z < y)) ∧
    (v.isZero = true →
      fpApprox .rcp t ftz a = (f.signBit v.neg + f.infPat, flagDZ) ∧ fpApprox .rsq t ftz a = (f.signBit v.neg + f.infPat, flagDZ) ∧
      fpApprox .exp2 t ftz a = (one, 0) ∧ fpApprox .log2 t ftz a = (f.signBit true + f.infPat, flagDZ) ∧
      fpApprox .sin t ftz a = (f.signBit v.neg, 0) ∧ fpApprox .cos t ftz a = (one, 0)) ∧
    (v = .inf false → fpApprox .rcp t ftz a = (0, 0) ∧ fpApprox .rsq t ftz a = (0, 0) ∧ fpApprox .exp2 t ftz a = (f.infPat, 0) ∧
      fpApprox .log2 t ftz a = (f.infPat, 0) ∧ fpApprox .sin t ftz a = (f.nan, flagNV) ∧ fpApprox .cos t ftz a = (f.nan, flagNV)) ∧
    (v = .inf true → fpApprox .rcp t ftz a = (f.signBit true, 0) ∧ fpApprox .rsq t ftz a = (f.nan, flagNV) ∧ fpApprox .exp2 t ftz a = (0, 0) ∧
      fpApprox .log2 t ftz a = (f.nan, flagNV) ∧ fpApprox .sin t ftz a = (f.nan, flagNV) ∧ fpApprox .cos t ftz a = (f.nan, flagNV)) ∧
    (∀ fn, v.isNan = true → fpApprox fn t ftz a = (f.nan, if v.isSnan then flagNV else 0)) ∧
    (∀ m e, v = .fin true m e → m ≠ 0 → fpApprox .rsq t ftz a = (f.nan, flagNV) ∧ fpApprox .log2 t ftz a = (f.nan, flagNV))

/-- FMIN, FMAX, FABS, FNEG, FCMP, FCLASS and the approximated functions. Which of the two bracketing values an approximated form gives is a free value
(DESIGN CHOICE, log 3). -/
def Obligations.FloatCompare : Prop := Stated.FloatCompare ∧ Stated.FloatApproximations

/-- R227, R228: FCVT, its pack and unpack forms and ICVT write each participating lane and raise their flags. A finite value within the destination's range
is rounded once; a float becomes an integer by rounding in the mode and saturating, a NaN becomes 0; an integer becomes an integer by saturation
or by its low bits. -/
def Obligations.Conversions : Prop :=
  (∀ (h : Hdr) (o : CvtO) (s : State), (Instr.fcvt h o).wf = true →
    let c (x : Nat) : Nat × BitVec 5 := fpConvert (fmtOf o.dt) (fmtOf o.st) o.rm o.sat x
    FloatResult (.fcvt h o) h 8 o.dt o.d s (fun l =>
      let r := c (natOf o.st (s.readLane o.st o.a l))
      (BitVec.ofNat 64 r.1, r.2)) ∧
    ∀ a x, realOf (fmtOf o.st) a = some x → x ≠ 0 → x.abs ≤ (fmtOf o.dt).largest →
      RoundsTo (fmtOf o.dt) o.rm (fun q => q < x) (fun q => x < q) (c a)) ∧
  (∀ (h : Hdr) (o : PackO) (s : State), (Instr.fcvtPack h o).wf = true →
    FloatResult (.fcvtPack h o) h 8 o.dt o.d s fun l => perElem o.dt fun k =>
      fpConvert (fmtOf o.dt) (fmtOf .f32) o.rm o.sat (if k = 0 then (s.readV o.a l).toNat else (s.readV o.b l).toNat)) ∧
  (∀ (h : Hdr) (o : UnpackO) (s : State), (Instr.fcvtUnpack h o).wf = true →
    let e l := elem o.st (if o.k then 1 else 0) (s.readLane o.st o.a l)
    let c (x : Nat) : Nat × BitVec 5 := fpConvert (fmtOf .f32) (fmtOf o.st) .rne false x
    FloatResult (.fcvtUnpack h o) h 8 .f32 o.d s (fun l => (BitVec.ofNat 64 (c (e l)).1, (c (e l)).2)) ∧
    ∀ l x, realOf (fmtOf o.st) (e l) = some x → realOf (fmtOf .f32) (c (e l)).1 = some x ∧ (c (e l)).2 = 0) ∧
  (∀ (h : Hdr) (o : CvtO) (s : State), (Instr.icvt h o).wf = true →
    let v l := s.readLane o.st o.a l
    FloatResult (.icvt h o) h 8 o.dt o.d s (fun l => icvt o (v l)) ∧
    ∀ l,
      (o.dt.isInt = true → o.st.isInt = true → (icvt o (v l)).2 = 0 ∧ Fits o.dt o.sat (intOf o.st (v l)) (intOf o.dt (icvt o (v l)).1)) ∧
      (o.dt.isInt = true → o.st.isFloat = true → (fval (fmtOf o.st) (natOf o.st (v l))).isNan = true →
        (icvt o (v l)).1 = 0 ∧ (icvt o (v l)).2 = flagNV) ∧
      (∀ x, o.dt.isInt = true → o.st.isFloat = true → realOf (fmtOf o.st) (natOf o.st (v l)) = some x →
        ∃ q : Int, (match o.rm with
            | .rz => (if 0 ≤ x then x.floor else x.ceil) = q
            | .ru => x.ceil = q
            | .rd => x.floor = q
            | .rne => (x - q).abs ≤ 1 / 2 ∧ ((x - q).abs = 1 / 2 → q % 2 = 0)) ∧
          intOf o.dt (icvt o (v l)).1 = max (Ty.least o.dt) (min (Ty.greatest o.dt) q) ∧
          (icvt o (v l)).2 = if Ty.least o.dt ≤ q ∧ q ≤ Ty.greatest o.dt then (if x = q then 0 else flagNX) else flagNV) ∧
      (o.dt.isFloat = true → o.st.isInt = true → intOf o.st (v l) ≠ 0 → ((intOf o.st (v l) : Int) : Rat).abs ≤ (fmtOf o.dt).largest →
        ∃ p : Nat, (icvt o (v l)).1 = BitVec.ofNat 64 p ∧
          RoundsTo (fmtOf o.dt) o.rm (fun q => q < (intOf o.st (v l) : Int)) (fun q => ((intOf o.st (v l) : Int) : Rat) < q) (p, (icvt o (v l)).2)))

/-! ## Lane exchange and masks -/

/-- R198, R204, R205, R206, R207: VSHFL, VBCAST and VTOS take a value from a source lane, an active lane below LANES, guarded or not; VSHFL falls back on its
own lane, the other two then have no effect. VBALLOT writes the whole mask, also when its guard selects no lane. -/
def Stated.LaneExchange : Prop :=
  ∀ (s : State),
    let source (j : Int) : Prop := 0 ≤ j ∧ j < s.team.lanes ∧ s.path.mask.getLsbD j.toNat = true
    (∀ (h : Hdr) (o : ShflO), (Instr.vshfl h o).wf = true →
      let lane (l : Nat) : Int :=
        let b := (s.vctl o.b l).toNat
        match o.mode with | .idx => b | .up => l - b | .down => l + b | .bfly => (l ^^^ b : Nat)
      VectorResult (.vshfl h o) h o.b.bytes o.ty o.d s fun l v =>
        (source (lane l) → v = s.readLane o.ty o.a (lane l).toNat) ∧ (¬source (lane l) → v = s.readLane o.ty o.a l)) ∧
    (∀ (h : Hdr) (o : BcastO), (Instr.vbcast h o).wf = true →
      let j (l : Nat) := (s.uctlIn o.b (l / 32)).toNat
      VectorResult (.vbcast h o) h o.b.bytes o.ty o.d s fun l v =>
        (source (j l) → v = s.readLane o.ty o.a (j l)) ∧ (¬source (j l) → v = s.team.lval o.ty o.d l)) ∧
    (∀ (h : Hdr) (o : VtosO), (Instr.vtos h o).wf = true →
      let j := (s.uctl o.b).toNat
      UniformResult (.vtos h o) h o.b.bytes o.d s fun v =>
        (source j → Extends v (intOf o.ty (s.readLane o.ty o.a j))) ∧ (¬source j → v = s.team.uval o.d)) ∧
    (∀ (h : Hdr) (o : BallotO), (Instr.vballot h o).wf = true →
      ∃ t, exec (.vballot h o) s = .next t ∧ Done s t h 8 ∧ OnlyM s t ∧
        WroteM s t true o.d fun l => decide (l ∈ s.lanes h.guard) && s.readV o.a l != 0)

/-- R208, R209, R210: VRED combines the participating lanes, and writes the identity when there is none; an integer reduction raises no flag, a float sum
is exact and rounded once. VSCAN gives lane l the combination of the participating lanes up to l, or below it. -/
def Stated.Reductions : Prop :=
  (∀ (h : Hdr) (o : RedO) (s : State), (Instr.vred h o).wf = true →
    let ls := s.lanes h.guard
    let a l : Dword := (s.readV o.a l).setWidth 64
    let n l := intOf o.ty (a l)
    let x l := fval (fmtOf .f32) (s.readV o.a l).toNat
    ∃ t g more, exec (.vred h o) s = .next t ∧ Done s t h 8 ∧ MemorySame s t ∧
      t = { s with team := t.team, running := t.running, retired := t.retired, raised := s.raised ++ more } ∧
      (∀ x ∈ more, x.1 ∈ ls ∧ x.2 ≠ 0) ∧ (∀ k, g.getLsbD k = more.any fun x => x.2.getLsbD k) ∧
      t.team = { s.team with s := t.team.s, tstat := s.team.tstat ||| g, path0 := t.team.path0, path1 := t.team.path1 } ∧
      (o.op ≠ .fadd → o.op ≠ .fmin → o.op ≠ .fmax → g = 0) ∧
      WroteU s t true o.d fun v =>
        match o.op with
        | .add => ∃ r, Extends v r ∧ Fits o.ty false ((ls.map n).foldl (· + ·) 0) r
        | .min => ∃ r, Extends v r ∧ (∀ l ∈ ls, r ≤ n l) ∧ (r = Ty.greatest o.ty ∨ ∃ l ∈ ls, r = n l)
        | .max => ∃ r, Extends v r ∧ (∀ l ∈ ls, n l ≤ r) ∧ (r = Ty.least o.ty ∨ ∃ l ∈ ls, r = n l)
        | .and => BitsAre 32 v fun k => ls.all fun l => (a l).getLsbD k
        | .or => BitsAre 32 v fun k => ls.any fun l => (a l).getLsbD k
        | .xor => BitsAre 32 v fun k => (ls.filter fun l => (a l).getLsbD k).length % 2 == 1
        | .fadd => (ls = [] → v = 0 ∧ g = 0) ∧
            ((∃ l ∈ ls, (x l).isNan = true) ∨ ((∃ l ∈ ls, x l = .inf true) ∧ ∃ l ∈ ls, x l = .inf false) → v = 0x7FC00000) ∧
            (∀ z : Nat → Rat, (∀ l ∈ ls, (x l).real = some (z l)) →
              let r := (ls.map z).foldl (· + ·) 0
              r ≠ 0 → r.abs ≤ (fmtOf .f32).largest →
                RoundsTo (fmtOf .f32) .rne (fun q => q < r) (fun q => r < q) (v.toNat, g))
        | .fmin => (ls = [] → v = 0x7F800000) ∧
            (∀ z : Nat → Rat, (∀ l ∈ ls, (x l).real = some (z l)) → ls ≠ [] →
              g = 0 ∧ (∃ l ∈ ls, v = a l) ∧ ∃ y, realOf (fmtOf .f32) v.toNat = some y ∧ ∀ l ∈ ls, y ≤ z l)
        | .fmax => (ls = [] → v = 0xFF800000) ∧
            (∀ z : Nat → Rat, (∀ l ∈ ls, (x l).real = some (z l)) → ls ≠ [] →
              g = 0 ∧ (∃ l ∈ ls, v = a l) ∧ ∃ y, realOf (fmtOf .f32) v.toNat = some y ∧ ∀ l ∈ ls, z l ≤ y)) ∧
  (∀ (h : Hdr) (o : ScanO) (s : State), (Instr.vscan h o).wf = true →
    let before l := (s.lanes h.guard).filter fun k => decide (k < l) || (!o.exc && k == l)
    let a l : Dword := (s.readV o.a l).setWidth 64
    VectorResult (.vscan h o) h 8 .b32 o.d s fun l v => v = regForm .b32 (((before l).map a).foldl (redStep o.op o.ty) (redIdentity o.op o.ty)))

/-- Lane exchange, ballots, reductions and scans. -/
def Obligations.LaneExchange : Prop := Stated.LaneExchange ∧ Stated.Reductions

/-- R213, R37, R195: MAND, MOR, MXOR, MNOT and MSET write one mask, no bit at or above LANES; MCNT, MFIRST and MTEST write one uniform register. That
MSET.range takes bits 31:0 of both registers is the model's choice (DESIGN CHOICE, log 76). -/
def Obligations.MaskForms : Prop :=
  ∀ (h : Hdr) (s : State),
    let bit (m : MReg) (l : Nat) : Bool := (s.readM m).getLsbD l
    let mine (m : MReg) : List Nat := (List.range s.team.lanes).filter (bit m)
    (∀ (o : M2), (Instr.mand h o).wf = true →
      MaskResult (.mand h o) h 8 o.d s (fun l => bit o.a l && bit o.b l) ∧ MaskResult (.mor h o) h 8 o.d s (fun l => bit o.a l || bit o.b l) ∧
      MaskResult (.mxor h o) h 8 o.d s (fun l => bit o.a l != bit o.b l)) ∧
    (∀ (o : M1), (Instr.mnot h o).wf = true → MaskResult (.mnot h o) h 8 o.d s fun l => !bit o.a l) ∧
    (∀ (o : MSetO), (Instr.msetRange h o).wf = true →
      let k := (s.readU o.a).toNat % 2 ^ 32
      let n := (s.uctl o.b).toNat
      MaskResult (.msetRange h o) h o.b.bytes o.d s (fun l => decide (k ≤ l) && decide (l < k + n)) ∧
      MaskResult (.msetWord h o) h o.b.bytes o.d s (fun l => if l / 32 = n then (s.readU o.a).getLsbD (l % 32) else (s.team.mval o.d).getLsbD l)) ∧
    (∀ (d : MReg), (Instr.msetActive h d).wf = true → MaskResult (.msetActive h d) h 8 d s fun l => s.path.mask.getLsbD l) ∧
    (∀ (o : MToU), (Instr.mcnt h o).wf = true →
      UniformResult (.mcnt h o) h 8 o.d s (fun v => v = BitVec.ofNat 64 (mine o.a).length) ∧
      UniformResult (.mtestSum h o) h 8 o.d s (fun v => BitsAre 32 v fun w => (mine o.a).any fun l => l / 32 == w)) ∧
    (∀ (o : MFirstO), (Instr.mfirst h o).wf = true →
      UniformResult (.mfirst h o) h 8 o.d s fun v =>
        (mine o.a = [] → v = BitVec.allOnes 64) ∧
          (mine o.a ≠ [] → ∃ l ∈ mine o.a, v = BitVec.ofNat 64 l ∧ ∀ k ∈ mine o.a, if o.last then k ≤ l else l ≤ k)) ∧
    (∀ (o : MTestO), (Instr.mtest h o).wf = true →
      let k := (s.uctl o.b).toNat
      UniformResult (.mtest h o) h o.b.bytes o.d s (fun v => v = if bit o.a k then 1 else 0) ∧
      UniformResult (.mtestWord h o) h o.b.bytes o.d s (fun v => BitsAre 32 v fun b => bit o.a (32 * k + b)))

/-! ## Control -/

/-- R342, R343: BRA, BRX, CALL and RET go to their target in a new run, CALL with the address behind it in its destination; one whose guard selects no
lane goes on behind itself; a target that is not 4-byte aligned traps with code 0x04 and the target as TRAPVA. -/
def Stated.Transfers : Prop :=
  ∀ (h : Hdr) (s : State),
    let goes (i : Instr) (n : Nat) (target : Dword) : Prop :=
      (s.acts h.guard = true → target.toNat % 4 = 0 → ∃ t, exec i s = .next t ∧ WentTo s t target ∧ OnlyPaths s t) ∧
      (s.acts h.guard = true → target.toNat % 4 ≠ 0 → Traps i s 0x04 target) ∧
      (s.acts h.guard = false → ∃ t, exec i s = .next t ∧ WentTo s t (s.path.pc + BitVec.ofNat 64 n) ∧ OnlyPaths s t)
    (∀ o, goes (.bra h o) 12 (s.path.pc + o.off.signExtend 64)) ∧
    (∀ o, goes (.brx h o) (offBytes o.off) (s.readU o.a + offset o.off)) ∧
    (∀ o, goes (.ret h o) 8 (s.readU o.a)) ∧
    (∀ o : CallO,
      let target := s.path.pc + o.off.signExtend 64
      (s.acts h.guard = true → target.toNat % 4 = 0 →
        ∃ t, exec (.call h o) s = .next t ∧ WentTo s t target ∧ OnlyU s t ∧ WroteU s t true o.d fun v => v = s.path.pc + 12) ∧
      (s.acts h.guard = true → target.toNat % 4 ≠ 0 → Traps (.call h o) s 0x04 target) ∧
      (s.acts h.guard = false → ∃ t, exec (.call h o) s = .next t ∧ WentTo s t (s.path.pc + 12) ∧ OnlyPaths s t))

/-- R26, R328, R332: a BRD that selects all or none of the active lanes divides nothing. One that divides gives the taken lanes to a free slot, which
gets a copy of the scoreboard and the budget; with both slots busy it pushes the lanes not taken. A push without room traps with code 0x0E. -/
def Stated.Divergence : Prop :=
  ∀ (h : Hdr) (o : RelO) (s : State),
    let i := Instr.brd h o
    let taken := s.active &&& s.guardMask h.guard
    let rest := s.active &&& ~~~taken
    let target := s.path.pc + o.off.signExtend 64
    let after := s.path.pc + 12
    (taken = 0 → ∃ t, exec i s = .next t ∧ WentTo s t after ∧ OnlyPaths s t) ∧
    (taken ≠ 0 → target.toNat % 4 ≠ 0 → Traps i s 0x04 target) ∧
    (taken ≠ 0 → target.toNat % 4 = 0 → rest = 0 → ∃ t, exec i s = .next t ∧ WentTo s t target ∧ OnlyPaths s t) ∧
    (taken ≠ 0 → target.toNat % 4 = 0 → rest ≠ 0 → s.canPush = false → Traps i s 0x0E 0) ∧
    (taken ≠ 0 → target.toNat % 4 = 0 → rest ≠ 0 → s.canPush = true →
      ∃ t, exec i s = .next t ∧ OnlyStack s t ∧ RunOver s t ∧ t.retired = true ∧ t.slot = s.slot ∧
        HasBudget t s.slot s.path.budget s.path.sb ∧
        match s.team.path (!s.slot) with
        | none => t.team.stack = ⟨.split, s.slot, 0, 0⟩ :: s.team.stack ∧ RunsAt t s.slot after rest ∧ RunsAt t (!s.slot) target taken ∧
            HasBudget t (!s.slot) s.path.budget s.path.sb
        | some q => t.team.stack = ⟨.pending, s.slot, after, rest⟩ :: s.team.stack ∧ RunsAt t s.slot target taken ∧ t.team.path (!s.slot) = some q)

/-- R327, R329, R330: what a JOIN does with the most recent entry of its slot, and how two paths that wait at JOINs merge: into the slot that has the
SPLIT, behind the JOIN of the path that arrived first. A path that cannot go on waits at the JOIN. -/
def Stated.Joins : Prop :=
  ∀ (h : Hdr) (s : State) (p : Path), s.team.path s.slot = some p →
    let i := Instr.join h
    let out (P : State → Prop) : Prop := ∃ t, exec i s = .next t ∧ OnlyStack s t ∧ RunOver s t ∧ t.retired = true ∧ P t
    let same (t : State) : Prop := t.slot = s.slot ∧ t.team.path (!s.slot) = s.team.path (!s.slot)
    let split (slot : Bool) : Prop := ∃ e, s.team.top slot = some e ∧ e.kind = .split
    (¬WaitsAtJoin s (!s.slot) → ∀ e, s.team.top s.slot = some e →
      match e.kind with
      | .pending => out fun t => same t ∧ RunsAt t s.slot e.pc e.mask ∧ HasBudget t s.slot p.budget p.sb ∧ t.team.spill = s.team.spill ∧
          ∃ a b, s.team.stack = a ++ e :: b ∧ t.team.stack = a ++ ⟨.joined, s.slot, p.pc, p.mask⟩ :: b ∧ NoEntry s.slot a
      | .joined => out fun t => same t ∧ RunsAt t s.slot (p.pc + 8) (p.mask ||| e.mask) ∧ HasBudget t s.slot p.budget p.sb ∧
          Popped s.slot s.team.stack t.team.stack e
      | .split =>
        (s.team.path (!s.slot) = none → out fun t => same t ∧ RunsAt t s.slot (p.pc + 8) p.mask ∧ HasBudget t s.slot p.budget p.sb ∧
          Popped s.slot s.team.stack t.team.stack e) ∧
        (s.team.path (!s.slot) ≠ none → out fun t => same t ∧ WaitsAtJoin t s.slot ∧ t.path.pc = p.pc ∧ t.path.mask = p.mask ∧
          t.team.stack = s.team.stack)) ∧
    (s.team.top s.slot = none → s.team.path (!s.slot) = none →
      out fun t => same t ∧ RunsAt t s.slot (p.pc + 8) p.mask ∧ HasBudget t s.slot p.budget p.sb ∧ t.team.stack = s.team.stack) ∧
    (s.team.top s.slot = none → s.team.path (!s.slot) ≠ none → ¬WaitsAtJoin s (!s.slot) →
      out fun t => same t ∧ WaitsAtJoin t s.slot ∧ t.path.pc = p.pc ∧ t.path.mask = p.mask ∧ t.team.stack = s.team.stack) ∧
    (∀ q, s.team.path (!s.slot) = some q → q.wait = some .join →
      (split s.slot ∧ s.team.top (!s.slot) = none ∨ s.team.top s.slot = none ∧ split (!s.slot)) →
      out fun t =>
        (t.slot = s.slot ↔ split s.slot) ∧ t.team.path (!t.slot) = none ∧ RunsAt t t.slot (q.pc + 8) (p.mask ||| q.mask) ∧
        (∃ e, Popped t.slot s.team.stack t.team.stack e) ∧
        ∃ m, t.team.path t.slot = some m ∧ m.budget = min p.budget q.budget ∧ (∀ x, x ∈ m.sb ↔ x ∈ p.sb ∨ x ∈ q.sb) ∧
          ∀ x ∈ s.team.pend, x.ready ≤ m.gate)

/-- Divergence and reconvergence: BRD and JOIN. -/
def Obligations.Divergence : Prop := Stated.Divergence ∧ Stated.Joins

/-- R331, R344: EXIT removes the selected lanes; the path goes on with those that remain; a path that loses its last lane takes up the lanes of its most
recent entry, or frees its slot and leaves its SPLIT entries to its partner, and a partner that waits at a JOIN goes on. -/
def Stated.Exits : Prop :=
  ∀ (h : Hdr) (s : State),
    let i := Instr.exit h
    let gone := s.active &&& s.guardMask h.guard
    let rest := s.active &&& ~~~gone
    (gone = 0 → ∃ t, exec i s = .next t ∧ WentTo s t (s.path.pc + 8) ∧ OnlyPaths s t) ∧
    (gone ≠ 0 → rest ≠ 0 → ∃ t, exec i s = .next t ∧ OnlyPaths s t ∧ RunOver s t ∧ t.slot = s.slot ∧ RunsAt t s.slot (s.path.pc + 8) rest ∧
      HasBudget t s.slot s.path.budget s.path.sb ∧ t.team.path (!s.slot) = s.team.path (!s.slot)) ∧
    (gone ≠ 0 → rest = 0 → s.team.solo = none → ∀ p q, s.team.path s.slot = some p → s.team.path (!s.slot) = some q →
      let out (P : State → Prop) : Prop := ∃ t, exec i s = .next t ∧ OnlyStack s t ∧ RunOver s t ∧ t.retired = true ∧ P t
      (q.wait ≠ some .join → q.wait ≠ some .barrier →
        match s.team.top s.slot with
        | none => out fun t => t.team.path s.slot = none ∧ t.team.path (!s.slot) = some q ∧ t.team.stack = s.team.stack
        | some e =>
          match e.kind with
          | .pending => out fun t => RunsAt t s.slot e.pc e.mask ∧ t.team.path (!s.slot) = some q ∧ Popped s.slot s.team.stack t.team.stack e
          | .joined => out fun t => RunsAt t s.slot (e.pc + 8) e.mask ∧ t.team.path (!s.slot) = some q ∧ Popped s.slot s.team.stack t.team.stack e
          | .split => out fun t => t.team.path s.slot = none ∧ t.team.path (!s.slot) = some q ∧
              ∃ l, Popped s.slot s.team.stack l e ∧ t.team.stack = l.map fun x => { x with slot := !s.slot }) ∧
      (q.wait = some .join → s.team.stack = [] →
        out fun t => t.team.path s.slot = none ∧ RunsAt t (!s.slot) (q.pc + 8) q.mask ∧ t.team.stack = []))

/-- R326, R344: the EXIT of the last lane of a team outside solo mode ends the team, whatever SPLIT entries are left, once its copies, chains, matrix commands and
PERSISTs are done and its flush has been made; it is then no team of the partition. A team with children that have not ended is over, but stays until they have (R365). -/
def Stated.TeamEnd : Prop :=
  ∀ (h : Hdr) (s u : State), s.active ≠ 0 → s.active &&& s.guardMask h.guard = s.active →
    s.team.solo = none → s.team.path (!s.slot) = none → (∀ e ∈ s.team.stack, e.kind = .split) → s.team.copies = [] → s.team.chains = [] → s.team.matq = [] → s.persisting = false →
    s.flushTeam = .ok () u → u.team = s.team →
    ∃ t, exec (.exit h) s = .next t ∧
      if ∀ k ∈ s.team.kids, k.size ≤ k.ended then t.findTeam s.team.pid s.team.id = none
      else t.team.path0 = none ∧ t.team.path1 = none ∧ t.team.id = s.team.id ∧ t.team.ending ≠ none ∧ t.team.kids = s.team.kids

/-- EXIT and the end of a team. That SPLIT entries, which hold no lanes, do not keep a team from ending is the model's reading (DEDUCED, log 89). -/
def Obligations.Exits : Prop := Stated.Exits ∧ Stated.TeamEnd

/-- R341, R346, R349: NOP changes nothing but the place of its path; YLD sets the budget, declares the live registers and ends the run, and with a soft
request pending waits to be saved. -/
def Stated.NopAndYield : Prop :=
  (∀ (h : Hdr) (n : NopLen) (s : State), ∃ t, exec (.nop h n) s = .next t ∧ Done s t h (match n with | .l64 => 8 | .l96 => 12 | .l128 => 16) ∧ OnlyPaths s t) ∧
  (∀ (h : Hdr) (o : YldO) (s : State), ∃ t, exec (.yld h o) s = .next t ∧ Outside s t ∧ RunOver s t ∧ t.retired = true ∧ t.slot = s.slot ∧
    t.team = { s.team with path0 := t.team.path0, path1 := t.team.path1, live := min o.live.toNat s.team.vregs } ∧
    t.team.path (!s.slot) = s.team.path (!s.slot) ∧ t.path.pc = s.path.pc + 12 ∧ t.path.mask = s.path.mask ∧ t.path.budget = o.dl.toNat ∧
    t.path.runCount = 0 ∧
    t.path.wait = match s.team.preempt with | some r => if r.hard = true then none else some .yielded | none => none)

/-- Branches, calls and returns, NOP and YLD. -/
def Obligations.Transfers : Prop := Stated.Transfers ∧ Stated.NopAndYield

/-- R338, R347: TRAP traps with code 0x08 and its immediate; and what a trap leaves: TRAPCODE, TRAPPC and TRAPVA, the same in s1 to s3, the address of
the save area in s4, the other uniform registers as they were, and one lane of the path at the trap entry with a budget of 65,535; no lane register,
mask register, tile or byte of the window changes, and the partner path stays. It waits for the team's outstanding loads and for writes of its core under ASID 0
that are on their way; the entry is stated where the lines of the save area can be had. The statement does not say what the save area holds. -/
def Stated.TrapEntry : Prop :=
  (∀ (h : Hdr) (o : TrapO) (s : State),
    (s.acts h.guard = true → Traps (.trap h o) s 0x08 (o.n.setWidth 64)) ∧
    (s.acts h.guard = false → ∃ t, exec (.trap h o) s = .next t ∧ WentTo s t (s.path.pc + 12) ∧ OnlyPaths s t)) ∧
  (∀ (h : Hdr) (o : TrapO) (s : State), s.acts h.guard = true → s.team.solo = none → s.trapEntry ≠ 0 →
    (s.loading = true ∨ s.writingAny s.team.core s.team.pid 0 = true) →
    ∃ t, exec (.trap h o) s = .next t ∧ WaitsWith s t (.trapping 0x08 (o.n.setWidth 64))) ∧
  (∀ (h : Hdr) (o : TrapO) (s w : State) (p : Partition), s.acts h.guard = true → s.part s.team.pid = some p → s.team.solo = none →
    field p.xtrapent 51 2 ≠ 0 → s.loading = false → s.writingAny s.team.core s.team.pid 0 = false → s.trapSave p 0x08 (o.n.setWidth 64) = .ok () w →
    ∃ t l q, exec (.trap h o) s = .next t ∧
      t.team.trapcode = 0x08 ∧ t.team.trappc = s.path.pc ∧ t.team.trapva = o.n.setWidth 64 ∧
      t.team.uval 1 = 0x08 ∧ t.team.uval 2 = s.path.pc ∧ t.team.uval 3 = o.n.setWidth 64 ∧ t.team.uval 4 = BitVec.ofNat 64 (s.team.saveAddr p) ∧
      (∀ r : UReg, r.toNat = 0 ∨ 5 ≤ r.toNat → t.team.uval r = s.team.uval r) ∧
      l < s.team.lanes ∧ s.path.mask.getLsbD l = true ∧ t.slot = s.slot ∧ t.team.solo = some ⟨s.slot, l, s.path.mask⟩ ∧
      t.team.path s.slot = some q ∧ q.pc = BitVec.ofNat 64 (field p.xtrapent 51 2 * 4) ∧ q.mask = BitVec.twoPow 1024 l ∧ q.budget = 65535 ∧
      q.wait = none ∧ t.team.path (!s.slot) = s.team.path (!s.slot) ∧ RunOver s t ∧
      t.team.v = s.team.v ∧ t.team.m = s.team.m ∧ t.team.tiles = s.team.tiles ∧ t.team.win = s.team.win ∧ t.team.stack = s.team.stack ∧
      t.team.tstat = s.team.tstat)

/-- R348: SRET outside solo mode traps with code 0x02; to a target that is not 4-byte aligned with code 0x04. Else the uniform registers, the masks and the
stack are those that the save area holds, with the handler's own stores to it, which reach home, TRAPCODE, TRAPPC and TRAPVA stay, and the trapped path goes on
at the target with a budget of 65,535. -/
def Stated.TrapReturn : Prop :=
  ∀ (h : Hdr) (o : UA) (s : State),
    let target := s.readU o.a
    (s.team.solo = none → Traps (.sret h o) s 0x02 0) ∧
    (∀ solo, s.team.solo = some solo → target.toNat % 4 ≠ 0 → Traps (.sret h o) s 0x04 0) ∧
    (∀ solo p bs u w a, s.team.solo = some solo → target.toNat % 4 = 0 → s.part s.team.pid = some p → s.writingAny s.team.core s.team.pid 0 = false →
      readArea s s.team.pid 0 (s.team.saveAddr p) 0x1D80 = .ok bs u → solo.slot = s.slot →
      let area := u.overlay s.team.core s.team.pid (s.team.saveAddr p) bs
      trapAreaOf area s.team p = some a → u.settleArea s.team.core s.team.pid (s.team.saveAddr p) area = .ok () w →
      ∃ t q, exec (.sret h o) s = .next t ∧ t.team.solo = none ∧ t.team.s = a.s ∧ t.team.m = a.m ∧ t.team.stack = a.stack ++ s.team.stack.drop 16 ∧
        t.team.path s.slot = some q ∧ q.pc = target ∧ q.mask = (if s.slot then a.act1 else a.act0) ∧ q.budget = 65535 ∧ q.wait = none ∧ q.runCount = 0 ∧
        t.team.path (!s.slot) = s.team.path (!s.slot) ∧
        t.team.trapcode = s.team.trapcode ∧ t.team.trappc = s.team.trappc ∧ t.team.trapva = s.team.trapva ∧ t.team.v = s.team.v ∧
        t.team.tstat = s.team.tstat)

/-- Trap entry and the return from it. Which lane goes on is a free value (DESIGN CHOICE, log 2); how save-area lines that cannot be had read is the
model's choice (DESIGN CHOICE, log 27); that a trap and an SRET wait for writes under ASID 0 is its reading (DEDUCED, log 90). -/
def Obligations.Traps : Prop := Stated.TrapEntry ∧ Stated.TrapReturn

/-- R200 to R202, R265, R349: what SRD yields for each special register, and what SWR changes: CHKSB of TCTL, the bits of TSTAT that are written as 1,
and nothing else. While the result of an earlier form is not yet readable, either value of its flags may be yielded, and they may end set after an
SWR; a flag that a pass raises in the SWR's cycle or after it ends set. Which value a flag that is not yet readable yields is a free value (DESIGN
CHOICE, log 2); what the neighbour registers read on a core of the block of another tree is the choice of the model (DESIGN CHOICE, log 21). -/
def Obligations.SpecialRegisters : Prop :=
  (∀ (h : Hdr) (o : SrdO) (s : State) (p : Partition), s.part s.team.pid = some p →
    let t := s.team
    let n := o.num.toNat
    let near (k : Nat) : Dword := if t.mesh = true then 0 else p.neighbour t.core k
    let value (v : Dword) : Prop :=
      if n = 0x01 then v.toNat = t.id % 2 ^ 32 else if n = 0x02 then v = BitVec.ofNat 64 t.lanes else if n = 0x03 then v = BitVec.ofNat 64 ((t.lanes + 31) / 32)
      else if n = 0x04 then v = BitVec.ofNat 64 t.sub else if n = 0x05 then v = BitVec.ofNat 64 (p.denseCore t.core)
      else if n = 0x06 then v = BitVec.ofNat 64 (p.denseQuad t.core) else if n = 0x07 then v = BitVec.ofNat 64 (p.denseDie t.core)
      else if n = 0x08 then v.toNat = t.pid.toNat else if n = 0x09 then v.toNat = t.asid.toNat else if n = 0x0A then t.copied = none → v = BitVec.ofNat 64 t.frame
      else if n = 0x0B then v = BitVec.ofNat 64 t.cohidx else if n = 0x0C then v = BitVec.ofNat 64 t.cohsize
      else if n = 0x0D then (t.root = true → v = 0xFFFFFFFF) ∧ ∀ x, t.root = false → t.parent = some x → v.toNat = x % 2 ^ 32
      else if n = 0x0E then v = BitVec.ofNat 64 s.cycle else if n = 0x0F then v = (if t.chksb = true then 1 else 0)
      else if n = 0x10 then ∀ k, (v.getLsbD k = true → t.sure.getLsbD k = true ∨ ∃ f ∈ t.flagPend, f.flags.getLsbD k = true) ∧
        ((t.sure.getLsbD k = true ∨ ∃ f ∈ t.flagPend, f.ready ≤ s.cycle ∧ f.flags.getLsbD k = true) → v.getLsbD k = true)
      else if n = 0x11 then v = BitVec.ofNat 64 s.path.budget
      else if n = 0x12 then v.toNat = t.cmdq + t.topq * 2 ^ 12 + (if t.nan then 2 ^ 17 else 0) + (if t.ovf then 2 ^ 18 else 0) + (if t.narrow then 2 ^ 19 else 0)
      else if n = 0x13 then v = near 0 else if n = 0x14 then v = near 1 else if n = 0x15 then v = near 2 else if n = 0x16 then v = near 3 else if n = 0x17 then v = t.trapcode else if n = 0x18 then v = t.trappc
      else if n = 0x19 then v = t.trapva else if n = 0x1A then v.toNat = t.gen.toNat else v = 0
    t.cmdq < 2 ^ 12 → t.topq < 2 ^ 5 →
    ∃ u, exec (.srd h o) s = .next u ∧ Done s u h 8 ∧ MemorySame s u ∧
      u = { s with team := u.team, running := u.running, retired := u.retired, free := u.free } ∧
      u.team = { s.team with s := u.team.s, path0 := u.team.path0, path1 := u.team.path1, sure := u.team.sure, flagPend := u.team.flagPend } ∧
      (s.acts h.guard = false ∨ n ≠ 0x10 → u.team.sure = t.sure ∧ u.team.flagPend = t.flagPend) ∧ WroteU s u (s.acts h.guard) o.d value) ∧
  (∀ (h : Hdr) (o : SwrO) (s : State),
    let v := match o.b with | .reg r => s.readU r | .imm i => i.setWidth 64
    ∃ u, exec (.swr h o) s = .next u ∧ Done s u h o.b.bytes ∧ MemorySame s u ∧
      u = { s with team := u.team, running := u.running, retired := u.retired, free := u.free } ∧
      u.team = { s.team with tstat := u.team.tstat, sure := u.team.sure, flagPend := u.team.flagPend, chksb := u.team.chksb, chkFrom := u.team.chkFrom, path0 := u.team.path0, path1 := u.team.path1 } ∧
      u.team.chksb = (if s.acts h.guard = true ∧ o.num.toNat = 0x0F then v.getLsbD 0 else s.team.chksb) ∧
      if s.acts h.guard = true ∧ o.num.toNat = 0x10 then
        ∀ k, k < 5 →
          (v.getLsbD k = false → (u.team.tstat.getLsbD k = true ↔ s.team.sure.getLsbD k = true ∨ ∃ f ∈ s.team.flagPend, f.flags.getLsbD k = true)) ∧
          (v.getLsbD k = true → (u.team.tstat.getLsbD k = true → ∃ f ∈ s.team.flagPend, s.cycle < f.ready ∧ f.flags.getLsbD k = true) ∧
            ((∃ f ∈ s.team.flagPend, s.cycle < f.ready ∧ s.cycle ≤ f.start ∧ f.flags.getLsbD k = true) → u.team.tstat.getLsbD k = true))
      else u.team.tstat = s.team.tstat ∧ u.team.sure = s.team.sure ∧ u.team.flagPend = s.team.flagPend)

/-! ## Memory -/

/-- R60, R154: before any access, a lane memory instruction traps at the lowest lane that fails the first failing check: bits 63:52 with code 0x0B, a
misaligned address with 0x0A, and in the staging forms an access past the window with 0x0A; TRAPVA is that lane's address. A form with no participating
lane has no effect. -/
def Stated.AddressChecks : Prop :=
  ∀ (h : Hdr) (s : State),
    let first (a : Nat → Dword) (bad : Dword → Prop) (l : Nat) : Prop := l ∈ s.lanes h.guard ∧ bad (a l) ∧ ∀ k ∈ s.lanes h.guard, k < l → ¬bad (a k)
    let memory (i : Instr) (a : Nat → Dword) (n : Nat) : Prop :=
      (∀ l, first a (fun x => 2 ^ 52 ≤ x.toNat) l → Traps i s 0x0B (a l)) ∧
      ((∀ l ∈ s.lanes h.guard, (a l).toNat < 2 ^ 52) → ∀ l, first a (fun x => x.toNat % n ≠ 0) l → Traps i s 0x0A (a l))
    let staging (i : Instr) (a : Nat → Dword) (n : Nat) : Prop :=
      (∀ l, first a (fun x => x.toNat % n ≠ 0) l → Traps i s 0x0A (a l)) ∧
      ((∀ l ∈ s.lanes h.guard, (a l).toNat % n = 0) → ∀ l, first a (fun x => s.team.window < x.toNat + n) l → Traps i s 0x0A (a l))
    (∀ o, memory (.ld h o) (s.ea o.mem) (accessBytes o.ty)) ∧ (∀ o, memory (.ldk h o) (s.ea o.mem) (accessBytes o.ty)) ∧
    (∀ o, memory (.st h o) (s.ea o.mem) (accessBytes o.ty)) ∧
    (∀ o, memory (.amo h o) (s.eaOf o.base o.idx (some o.off)) (accessBytes o.ty)) ∧
    (∀ o, memory (.red h o) (s.eaOf o.base o.idx (some o.off)) (accessBytes o.ty)) ∧
    (∀ o, staging (.lds h o) (s.ea o.mem) (accessBytes o.ty)) ∧ (∀ o, staging (.sts h o) (s.ea o.mem) (accessBytes o.ty)) ∧
    (∀ (i : Instr) (a : Dword) (n : Nat), s.acts h.guard = true →
      ((∃ o, i = .sld h o ∧ a = s.readU o.a + offset o.off ∧ n = accessBytes o.ty) ∨ (∃ o, i = .sst h o ∧ a = s.readU o.a + offset o.off ∧ n = accessBytes o.ty) ∨
        ∃ o, i = .samo h o ∧ a = s.readU o.a + offset (some o.off) ∧ n = accessBytes o.ty) →
      (2 ^ 52 ≤ a.toNat → Traps i s 0x0B a) ∧ (a.toNat < 2 ^ 52 → a.toNat % n ≠ 0 → Traps i s 0x0A a)) ∧
    (s.lanes h.guard = [] →
      let nothing (i : Instr) (n : Nat) : Prop := ∃ t, exec i s = .next t ∧ Done s t h n ∧ OutsideSerial s t ∧ TeamPaths s t
      (∀ o, nothing (.ld h o) (offBytes o.mem.off)) ∧ (∀ o, nothing (.ldk h o) (offBytes o.mem.off)) ∧ (∀ o, nothing (.st h o) (offBytes o.mem.off)) ∧
      (∀ o, nothing (.amo h o) 16) ∧ (∀ o, nothing (.red h o) 16) ∧ (∀ o, nothing (.lds h o) (offBytes o.mem.off)) ∧
      (∀ o, nothing (.sts h o) (offBytes o.mem.off)) ∧ ∀ o, nothing (.pref h o) (offBytes o.mem.off))

/-- R157, R158, R160: an LD, LDK or SLD that hits in the L1 writes the bytes that the line holds, extended by its type; LDK takes a K line of its launch
tree before an ordinary line. No memory, no line and no other register changes. -/
def Stated.LoadHits : Prop :=
  ∀ (h : Hdr) (s : State),
    let lanes (i : Instr) (k : Option Nat) (ty : Ty) (d : LaneReg) (m : MemOp) : Prop :=
      i.wf = true → (∀ l ∈ s.lanes h.guard, s.loadHits k (s.ea m l) (accessBytes ty)) →
      ∃ t, exec i s = .next t ∧ Done s t h (offBytes m.off) ∧ OutsideLoad s t ∧
        t.team = { s.team with v := t.team.v, path0 := t.team.path0, path1 := t.team.path1 } ∧
        WroteV s t h.guard ty d fun l v => ∃ x, s.l1Number k (s.ea m l).toNat (accessBytes ty) x ∧ v = laneLoad ty x
    (∀ o, lanes (.ld h o) none o.ty o.d o.mem) ∧ (∀ o, lanes (.ldk h o) (some s.team.tree) o.ty o.d o.mem) ∧
    (∀ o : LdkO, (∀ l ∈ s.lanes h.guard,
        (s.core s.team.core).findLine (keyOf s.team.pid s.team.asidNow (s.ea o.mem l).toNat) (some s.team.tree) = none) →
      lanes (.ldk h o) none o.ty o.d o.mem) ∧
    (∀ o : SldO, (Instr.sld h o).wf = true →
      let a := s.readU o.a + offset o.off
      (s.acts h.guard = true → s.loadHits none a (accessBytes o.ty)) →
      ∃ t, exec (.sld h o) s = .next t ∧ Done s t h (offBytes o.off) ∧ OutsideLoad s t ∧
        t.team = { s.team with s := t.team.s, path0 := t.team.path0, path1 := t.team.path1 } ∧
        WroteU s t (s.acts h.guard) o.d fun v => ∃ x, s.l1Number none a.toNat (accessBytes o.ty) x ∧ v = uniformLoad o.ty x)

/-- R50, R126, R160: an SLD of a line that the L1 does not have, where the line can be had at once, keeps its register under the scoreboard until its
response arrives (s0 needs none), and the response carries the number at the address. -/
def Stated.LoadMiss : Prop :=
  ∀ (h : Hdr) (o : SldO) (s u v : State) (sup : Supply),
    let a := s.readU o.a + offset o.off
    let key := keyOf s.team.pid s.team.asidNow a.toNat
    (Instr.sld h o).wf = true → s.acts h.guard = true → LegalAccess a (accessBytes o.ty) → (s.core s.team.core).findLine key none = none →
    s.loadWaits s.who key = false → supplyRead s s.who a.toNat .read = .ok sup u →
    l1Room s.team.core s.team.id (l1Set key) (u.core s.team.core).ways 64 u = .ok () v → v.team = s.team → v.slot = s.slot → v.running = s.running →
    ∃ t r, exec (.sld h o) s = .next t ∧ Done s t h (offBytes o.off) ∧
      t.team = { s.team with path0 := t.team.path0, path1 := t.team.path1 } ∧ t.loads = v.loads ++ [r] ∧
      r.pid = s.team.pid ∧ r.team = s.team.id ∧ r.gen = s.team.gen ∧ r.slot = s.slot ∧ r.wafer.kind = 3 ∧ r.wafer.line = a.toNat / 128 ∧
      (∃ x, r.vals = [(0, uniformLoad o.ty x)] ∧ x < 256 ^ accessBytes o.ty ∧
        ∀ j, j < accessBytes o.ty → BitVec.ofNat 8 (x / 256 ^ j) = byteAt sup.data (a.toNat % 128 + j)) ∧
      (o.d ≠ 0 → ∃ e ∈ t.path.sb, e.id = r.sb ∧ e.reg = .s o.d ∧ e.due = none) ∧
      ∃ l, (t.core s.team.core).findLine key none = some l ∧ l.data = sup.data ∧ l.v = BitVec.allOnes 32

/-- Loads that hit the L1, and one that misses. That the bytes of a miss are taken when the load issues is the model's choice (DESIGN CHOICE, log 29). -/
def Obligations.Loads : Prop := Stated.LoadHits ∧ Stated.LoadMiss

/-- R139, R151, R157, R160: an ST (without NA) or SST that hits lines which allow writes puts its bytes there, the highest lane's where lanes meet, and
marks them dirty; every other byte of every L1, HBM, and every register keep their values. Outstanding loads are as they were, but that the store has
passed them (R156). -/
def Stated.StoreHits : Prop :=
  ∀ (h : Hdr) (s : State),
    let out (t : State) : Prop :=
      MemorySame s t ∧ t = { s with team := t.team, running := t.running, retired := t.retired, cores := t.cores, loads := t.loads } ∧
        (t.loads.map fun r => { r with passed := true }) = (s.loads.map fun r => { r with passed := true }) ∧
        t.team = { s.team with path0 := t.team.path0, path1 := t.team.path1 }
    (∀ o : StO, (Instr.st h o).wf = true → o.na = false →
      let n := accessBytes o.ty
      (∀ l ∈ s.lanes h.guard, s.storeHits (s.ea o.mem l) n) →
      ∃ t, exec (.st h o) s = .next t ∧ Done s t h (offBytes o.mem.off) ∧ out t ∧
        StoredL1 s t (fun b => (s.lanes h.guard).filter fun l => decide ((s.ea o.mem l).toNat ≤ b ∧ b < (s.ea o.mem l).toNat + n))
          (fun l b => BitVec.ofNat 8 ((s.readLane o.ty o.b l).toNat / 256 ^ (b - (s.ea o.mem l).toNat)))) ∧
    (∀ o : SstO, (Instr.sst h o).wf = true →
      let n := accessBytes o.ty
      let a := (s.readU o.a + offset o.off).toNat
      (s.acts h.guard = true → s.storeHits (s.readU o.a + offset o.off) n) →
      ∃ t, exec (.sst h o) s = .next t ∧ Done s t h (offBytes o.off) ∧ out t ∧
        StoredL1 s t (fun b => if s.acts h.guard = true ∧ a ≤ b ∧ b < a + n then [0] else [])
          (fun _ b => BitVec.ofNat 8 ((s.readU o.b).toNat / 256 ^ (b - a))))

/-- R155: an LD, LDK, ST, AMO or RED all of whose accesses complete is done; an LD, LDK or AMO changes lane registers of the team and nothing else
of it, an ST or RED no register; every access counts, whatever it needs: an L1 miss, a write past the L1 (NA), an operation at home. -/
def Stated.AccessesComplete : Prop :=
  ∀ (h : Hdr) (s : State),
    let legal (a : Nat → Dword) (n : Nat) : Prop := ∀ l ∈ s.lanes h.guard, LegalAccess (a l) n
    let list (a : Nat → Dword) : List (Nat × Dword) := (s.lanes h.guard).map fun l => (l, a l)
    let lanesOnly (i : Instr) (n : Nat) : Prop := ∃ t, exec i s = .next t ∧ Done s t h n ∧
      t.team = { s.team with v := t.team.v, path0 := t.team.path0, path1 := t.team.path1 }
    let nothing (i : Instr) (n : Nat) : Prop := ∃ t, exec i s = .next t ∧ Done s t h n ∧
      t.team = { s.team with path0 := t.team.path0, path1 := t.team.path1 }
    (∀ o, legal (s.ea o.mem) (accessBytes o.ty) → (loadTally s o.ty o.na none o.d (list (s.ea o.mem))).clean = true →
      lanesOnly (.ld h o) (offBytes o.mem.off)) ∧
    (∀ o, legal (s.ea o.mem) (accessBytes o.ty) → (loadTally s o.ty false (some s.team.tree) o.d (list (s.ea o.mem))).clean = true →
      lanesOnly (.ldk h o) (offBytes o.mem.off)) ∧
    (∀ o, legal (s.ea o.mem) (accessBytes o.ty) → (storeTally s o.ty o.na o.b (list (s.ea o.mem))).clean = true →
      nothing (.st h o) (offBytes o.mem.off)) ∧
    (∀ o, legal (s.eaOf o.base o.idx (some o.off)) (accessBytes o.ty) →
      (atomicTally s o.ty o.aop (some o.d) o.b o.cmp (list (s.eaOf o.base o.idx (some o.off)))).clean = true → lanesOnly (.amo h o) 16) ∧
    (∀ o, legal (s.eaOf o.base o.idx (some o.off)) (accessBytes o.ty) →
      (atomicTally s o.ty o.aop none o.b 0 (list (s.eaOf o.base o.idx (some o.off)))).clean = true → nothing (.red h o) 16)

/-- Stores that hit the L1, and the completion of every lane memory form. -/
def Obligations.Stores : Prop := Stated.StoreHits ∧ Stated.AccessesComplete

/-- R106, R162, R164, R233: a SAMO, or an AMO or RED of one lane, on a word at hand in its home bank puts the new value there and returns the old one,
extended by the type; the other bytes of the line keep their values. A sum of floats is rounded once by RNE, their lesser and greater are exact
(R163). That the recall of remote copies is part of the access, and the lane order of a floating-point RED, are the model's choice (DEDUCED, log 13;
DESIGN CHOICE, log 30). -/
def Obligations.AtomicsAtHome : Prop :=
  ∀ (h : Hdr) (s : State) (bank : Nat) (x : L2Line),
    let put (t : State) (ty : Ty) (op : Aop) (a : Nat) (o c m new : Dword) : Prop :=
      let n := accessBytes ty
      AtomicValue ty op m o c new ∧ (∀ j, j < n → BitVec.ofNat 8 (m.toNat / 256 ^ j) = byteAt x.data (a % 128 + j)) ∧ m.toNat < 256 ^ n ∧
        ∃ y, (t.bank bank).find x.key false = some y ∧ y.v = x.v ∧
          (∀ j, j < 128 → byteAt y.data j =
            if a % 128 ≤ j ∧ j < a % 128 + n then BitVec.ofNat 8 (new.toNat / 256 ^ (j - a % 128)) else byteAt x.data j) ∧
          ∀ j, j < n → y.d.getLsbD ((a % 128 + j) / 4) = true ∧ y.be.getLsbD (a % 128 + j) = true
    (∀ o : SamoO, (Instr.samo h o).wf = true → s.acts h.guard = true →
      let a := s.readU o.a + offset (some o.off)
      LegalAccess a (accessBytes o.ty) → s.wordAtHome a.toNat (accessBytes o.ty) bank x →
      ∃ t m new, exec (.samo h o) s = .next t ∧ Done s t h 16 ∧
        t.team = { s.team with s := t.team.s, path0 := t.team.path0, path1 := t.team.path1 } ∧
        put t o.ty o.aop a.toNat (s.readUTy o.ty o.b) (s.readUTy o.ty o.cmp) m new ∧
        WroteU s t true o.d fun v => v = uniformLoad o.ty m.toNat) ∧
    (∀ o : SamoO, s.acts h.guard = false → ∃ t, exec (.samo h o) s = .next t ∧ Done s t h 16 ∧ OnlyPaths s t) ∧
    (∀ (o : AmoO) (l : Nat), (Instr.amo h o).wf = true → s.lanes h.guard = [l] →
      let a := s.eaOf o.base o.idx (some o.off) l
      LegalAccess a (accessBytes o.ty) → s.wordAtHome a.toNat (accessBytes o.ty) bank x →
      ∃ t m new, exec (.amo h o) s = .next t ∧ Done s t h 16 ∧
        t.team = { s.team with v := t.team.v, path0 := t.team.path0, path1 := t.team.path1 } ∧
        put t o.ty o.aop a.toNat (s.readLane o.ty o.b l) (s.readLane o.ty o.cmp l) m new ∧
        WroteV s t h.guard o.ty o.d fun _ v => v = m) ∧
    (∀ (o : RedMemO) (l : Nat), (Instr.red h o).wf = true → s.lanes h.guard = [l] →
      let a := s.eaOf o.base o.idx (some o.off) l
      LegalAccess a (accessBytes o.ty) → s.wordAtHome a.toNat (accessBytes o.ty) bank x →
      ∃ t m new, exec (.red h o) s = .next t ∧ Done s t h 16 ∧ t.team = { s.team with path0 := t.team.path0, path1 := t.team.path1 } ∧
        put t o.ty o.aop a.toNat (s.readLane o.ty o.b l) 0 m new)

/-- R142, R144, R159: LDS reads the staging window where every granule it reads is full, and waits where one is empty; STS writes the window, the
highest lane's byte where lanes meet, and sets F of the granules it writes. -/
def Stated.StagingWindow : Prop :=
  ∀ (h : Hdr) (s : State),
    let legal (a : Nat → Dword) (n : Nat) : Prop := ∀ l ∈ s.lanes h.guard, (a l).toNat % n = 0 ∧ (a l).toNat + n ≤ s.team.window
    (∀ o : LdkO, (Instr.lds h o).wf = true →
      let n := accessBytes o.ty
      let a := s.ea o.mem
      legal a n →
      ((∀ l ∈ s.lanes h.guard, ∀ j, j < n → s.team.full (((a l).toNat + j) / 128) = true) →
        VectorResult (.lds h o) h (offBytes o.mem.off) o.ty o.d s fun l v =>
          ∃ x, x < 256 ^ n ∧ (∀ j, j < n → storeGet 0 s.team.win ((a l).toNat + j) = BitVec.ofNat 8 (x / 256 ^ j)) ∧ v = laneLoad o.ty x) ∧
      ((∃ l ∈ s.lanes h.guard, ∃ j, j < n ∧ s.team.full (((a l).toNat + j) / 128) = false) →
        ∃ t, exec (.lds h o) s = .next t ∧ OnlyPaths s t ∧ t.running = s.running ∧ t.path.wait = some .granule ∧ t.path.pc = s.path.pc ∧
          t.path.mask = s.path.mask ∧ t.team.path (!s.slot) = s.team.path (!s.slot))) ∧
    (∀ o : StsO, (Instr.sts h o).wf = true →
      let n := accessBytes o.ty
      let a := s.ea o.mem
      legal a n →
      let writers (b : Nat) : List Nat := (s.lanes h.guard).filter fun l => decide ((a l).toNat ≤ b ∧ b < (a l).toNat + n)
      ∃ t, exec (.sts h o) s = .next t ∧ Done s t h (offBytes o.mem.off) ∧ Outside s t ∧
        t.team = { s.team with win := t.team.win, empty := t.team.empty, path0 := t.team.path0, path1 := t.team.path1 } ∧
        (∀ b, storeGet 0 t.team.win b =
          match (writers b).getLast? with
          | some l => BitVec.ofNat 8 ((s.readLane o.ty o.b l).toNat / 256 ^ (b - (a l).toNat))
          | none => storeGet 0 s.team.win b) ∧
        ∀ g, t.team.full g = (s.team.full g || decide (∃ l ∈ s.lanes h.guard, (a l).toNat / 128 = g)))

/-- R165: PREF is done whatever its addresses; it changes no register, and a lane whose whole line the L1 holds changes nothing. -/
def Stated.Prefetch : Prop :=
  ∀ (h : Hdr) (o : PrefO) (s : State),
    ∃ t, exec (.pref h o) s = .next t ∧ Done s t h (offBytes o.mem.off) ∧ (∀ a, t.memByte a = s.memByte a) ∧
      t.team = { s.team with path0 := t.team.path0, path1 := t.team.path1 } ∧
      (o.l2 = false → (∀ l ∈ s.lanes h.guard, 2 ^ 52 ≤ (s.ea o.mem l).toNat ∨
          s.hasLine none (s.ea o.mem l).toNat (fun _ => true) ∧
            ∀ j, j < 128 → s.l1Byte s.team.core s.team.pid s.team.asidNow none ((s.ea o.mem l).toNat / 128 * 128 + j) ≠ none) → MemorySame s t ∧ CoresSame s t)

/-- The address checks of the memory forms, and PREF, which makes none. -/
def Obligations.AddressChecks : Prop := Stated.AddressChecks ∧ Stated.Prefetch

/-- R166, R81: PERSIST of no bytes, or whose guard selects no lane, does nothing; a length above 0x4000_0000 traps with code 0x0A and the length, a range
past bit 51 with code 0x0B and its start; any other is done at once, without a wait, and stays outstanding until it is acknowledged; where the L1 holds
nothing dirty of its range, nothing else changes. -/
def Stated.Persisting : Prop :=
  ∀ (h : Hdr) (o : PersistO) (s : State),
    let i := Instr.persist h o
    let a := (s.readU o.a + offset o.off).toNat
    let n := (s.readU o.b).toNat
    let lines := s.dirtyIn s.team.core s.team.pid s.team.asidNow a (a + n)
    (s.acts h.guard = false ∨ n = 0 → ∃ t, exec i s = .next t ∧ Done s t h (offBytes o.off) ∧ OnlyPaths s t) ∧
    (s.acts h.guard = true → 0x40000000 < n → Traps i s 0x0A (s.readU o.b)) ∧
    (s.acts h.guard = true → 0 < n → n ≤ 0x40000000 → 2 ^ 52 < a + n → Traps i s 0x0B (BitVec.ofNat 64 a)) ∧
    (s.acts h.guard = true → 0 < n → n ≤ 0x40000000 → a + n ≤ 2 ^ 52 → flushLines s.team.core s.team.id lines s ≠ .unbacked →
      ∃ t, exec i s = .next t ∧ Done s t h (offBytes o.off) ∧ t.persisting = true ∧ (∀ a, t.memByte a = s.memByte a) ∧
        t.team = { s.team with path0 := t.team.path0, path1 := t.team.path1 } ∧
        (lines = [] → MemorySame s t ∧ (∀ c, t.core c = { s.core c with acks := (t.core c).acks }) ∧
          t = { s with team := t.team, running := t.running, retired := t.retired, serial := t.serial, cores := t.cores }))

/-- R83: a global persistent flush, with nothing of persistent memory left to write in an L1 or a posted write, takes the bytes of every modified port
line of persistent memory to host memory and makes them durable, and is then acknowledged; it changes nothing else. -/
def Stated.Flush : Prop :=
  ∀ s : State, (∀ c ∈ s.cores, ∀ l ∈ c.2.l1, l.host = false ∨ l.d = 0) → s.hostOut = [] → s.hostSent = [] → (s.port.map (·.line)).Nodup →
    let goes (k : Nat) (l : PortLine) : Prop := s.portLine k = some l ∧ l.st = .m ∧ s.persistentAt (k * 64) = true
    ∃ t, exec .globalPersistentFlush s = .next t ∧ t = { s with port := t.port, hostMem := t.hostMem, durable := t.durable, flushAsked := false, flushAcks := s.flushAcks + 1 } ∧
      (∀ k l, goes k l → t.portLine k = some { l with st := .e } ∧
        ∀ a, a / 64 = k → t.hostByte a = BitVec.ofNat 8 (l.data.toNat / 256 ^ (a % 64)) ∧ storeGet 0 t.durable a = t.hostByte a) ∧
      ∀ k, (¬∃ l, goes k l) → t.portLine k = s.portLine k ∧
        ∀ a, a / 64 = k → t.hostByte a = s.hostByte a ∧ storeGet 0 t.durable a = storeGet 0 s.durable a

/-- PERSIST and the global persistent flush. -/
def Obligations.Persisting : Prop := Stated.Persisting ∧ Stated.Flush

/-! ## Engines -/

/-- R167, R170 to R173: a COPY whose operands are legal joins the team's copies with its operands, and clears F of the window granules that it will write;
an empty one does nothing; with no slot free it waits. From memory, the core holds nothing dirty here; a flush that has to write waits or writes. -/
def Stated.CopyIssue : Prop :=
  ∀ (h : Hdr) (o : CopyO) (s : State),
    let ext := s.readU o.b
    let stride : Dword := match o.c with | some c => s.readU c | none => 0
    let rows : Nat := if o.c.isSome then ext.toNat / 2 ^ 32 else 1
    let len : Nat := ext.toNat % 2 ^ 32
    let ss := (stride.extractLsb' 0 32).toInt
    let ds := (stride.extractLsb' 32 32).toInt
    let sized : Prop := if o.c.isSome then len ≤ 65536 ∧ rows ≤ 65536 ∧ len * rows ≤ 0x40000000 else ext.toNat ≤ 0x40000000
    let within (a : Dword) (st : Int) (top : Nat) : Prop := ∀ r : Nat, r < rows → 0 ≤ (a.toNat : Int) + (r : Int) * st ∧ (a.toNat : Int) + (r : Int) * st + (len : Int) ≤ (top : Int)
    let legal : Prop := (s.readU o.a).toNat % 4 = 0 ∧ (s.readU o.d).toNat % 4 = 0 ∧ len % 4 = 0 ∧ ss % 4 = 0 ∧ ds % 4 = 0 ∧ sized ∧
      (0 < len → within (s.readU o.a) ss (if o.ss then s.team.window else 2 ^ 52) ∧ within (s.readU o.d) ds (if o.ds then s.team.window else 2 ^ 52))
    let room : Prop := s.team.copies.length < Config.copiesPerTeam ∧ s.copiesOn s.team.core < Config.copiesPerCore
    Idle (.copy h o) h 12 s ∧
    (s.acts h.guard = true → legal → len = 0 ∨ rows = 0 → ∃ t, exec (.copy h o) s = .next t ∧ Done s t h 12 ∧ OnlyPaths s t) ∧
    (s.acts h.guard = true → legal → len ≠ 0 → rows ≠ 0 → ¬room → ∃ t, exec (.copy h o) s = .next t ∧ WaitsWith s t .issue) ∧
    (s.acts h.guard = true → legal → len ≠ 0 → rows ≠ 0 → room → (o.ss = true ∨ s.flushed) →
      ∃ t c, exec (.copy h o) s = .next t ∧ Done s t h 12 ∧ OutsideSerial s t ∧
        t.team = { s.team with copies := s.team.copies ++ [c], empty := t.team.empty, path0 := t.team.path0, path1 := t.team.path1 } ∧
        c.id = s.serial ∧ t.serial = s.serial + 1 ∧ c.tag = o.tag ∧ c.ss = o.ss ∧ c.ds = o.ds ∧ c.src = s.readU o.a ∧ c.dst = s.readU o.d ∧
        c.len = len ∧ c.rows = rows ∧ c.stride = stride ∧ c.twoD = o.c.isSome ∧ c.asid = s.team.asid ∧ c.off = 0 ∧ c.flying = [] ∧ c.stop = none ∧
        ∀ g : Nat, g < s.team.window / 128 → (t.team.full g = true ↔ s.team.full g = true ∧ ¬(o.ds = true ∧ ∃ r : Nat, r < rows ∧
          ((s.readU o.d).toNat : Int) + (r : Int) * ds < ((g + 1) * 128 : Nat) ∧ ((g * 128 : Nat) : Int) < (s.readU o.d).toNat + (r : Int) * ds + (len : Int))))

/-- R170 to R172: the checks of COPY in their order, in both forms and in every direction: an extent of memory past bit 51 or below 0, an address, length or stride
that is no multiple of 4, a size above the limits, an extent past the window; TRAPVA holds the value that failed, and in the last case the lowest
offset past the window. -/
def Stated.CopyChecks : Prop :=
  ∀ (h : Hdr) (o : CopyO) (s : State), s.acts h.guard = true →
    let a := s.readU o.a
    let d := s.readU o.d
    let ext := s.readU o.b
    let stride : Dword := match o.c with | some c => s.readU c | none => 0
    let rows : Nat := if o.c.isSome then ext.toNat / 2 ^ 32 else 1
    let len : Nat := ext.toNat % 2 ^ 32
    let ss := (stride.extractLsb' 0 32).toInt
    let ds := (stride.extractLsb' 32 32).toInt
    let sized : Prop := if o.c.isSome then len ≤ 65536 ∧ rows ≤ 65536 ∧ len * rows ≤ 0x40000000 else ext.toNat ≤ 0x40000000
    let row (x : Dword) (st : Int) (r : Nat) : Int := x.toNat + (r : Int) * st
    let beyond (x : Dword) (st : Int) (top : Nat) : Prop := 0 < len ∧ ∃ r : Nat, r < rows ∧ (row x st r < 0 ∨ (top : Int) < row x st r + (len : Int))
    let traps (code : Nat) (va : Dword) : Prop := Traps (.copy h o) s code va
    let far1 : Prop := o.ss = false ∧ beyond a ss (2 ^ 52)
    let far2 : Prop := o.ds = false ∧ beyond d ds (2 ^ 52)
    let past (win : Bool) (x : Dword) (st : Int) : Prop := win = true ∧ beyond x st s.team.window
    let lowest (x : Dword) (st : Int) : Prop := ∃ va : Dword, traps 0x0A va ∧
      ((∀ r : Nat, r < rows → 0 ≤ row x st r ∧ row x st r < 2 ^ 64) →
        s.team.window ≤ va.toNat ∧ (∃ r : Nat, r < rows ∧ row x st r ≤ va.toNat ∧ (va.toNat : Int) < row x st r + (len : Int)) ∧
        ∀ (r : Nat) (y : Int), r < rows → row x st r ≤ y → y < row x st r + (len : Int) → (s.team.window : Int) ≤ y → (va.toNat : Int) ≤ y)
    (far1 → traps 0x0B a) ∧ (¬far1 → far2 → traps 0x0B d) ∧
    (¬far1 → ¬far2 → (a.toNat % 4 ≠ 0 → traps 0x0A a) ∧ (a.toNat % 4 = 0 → d.toNat % 4 ≠ 0 → traps 0x0A d) ∧
      (a.toNat % 4 = 0 → d.toNat % 4 = 0 → len % 4 ≠ 0 → traps 0x0A (BitVec.ofNat 64 len)) ∧
      (a.toNat % 4 = 0 → d.toNat % 4 = 0 → len % 4 = 0 →
        (ss % 4 ≠ 0 → traps 0x0A (BitVec.ofInt 64 ss)) ∧ (ss % 4 = 0 → ds % 4 ≠ 0 → traps 0x0A (BitVec.ofInt 64 ds)) ∧
        (ss % 4 = 0 → ds % 4 = 0 → (¬sized → traps 0x0A ext) ∧
          (sized → (past o.ss a ss → lowest a ss) ∧ (¬past o.ss a ss → past o.ds d ds → lowest d ds)))))

/-- COPY joins the queue, or traps by its checks. TRAPVA of a misaligned stride is the model's choice (DESIGN CHOICE, log 73); that a COPY of no bytes
is checked too is its reading (DEDUCED, log 56). -/
def Obligations.CopyIssue : Prop := Stated.CopyIssue ∧ Stated.CopyChecks

/-- R146, R175, R176: COPYW and CHAINW wait until the operations that they name and that were issued before have completed, and no others; then the team
self-invalidates. An operation that met a bound result makes the wait trap with code 0x0C, else a misplaced one with 0x11, with the lowest address of the
cause, and the operations that the wait names and that met the cause are over; where only translation faults keep operations, the team parks at the wait. -/
def Stated.EngineWaits : Prop :=
  ∀ (h : Hdr) (s : State), s.acts h.guard = true →
    let waits (i : Instr) (names : BitVec 6 → Bool) (copies : Bool) : Prop :=
      let before (id : Nat) : Bool := match s.path.wait with | some (.ops l) => l.contains id | _ => true
      let cs := s.team.copies.filter fun c => copies && names c.tag && before c.id
      let hs := s.team.chains.filter fun c => !copies && names c.tag && before c.id
      let ids := match s.path.wait with | some (.ops l) => l | _ => cs.map (·.id) ++ hs.map (·.id)
      let stops := cs.filterMap (·.stop) ++ hs.filterMap (·.stop)
      (cs = [] → hs = [] → ∃ t, exec i s = .next t ∧ Done s t h 8 ∧ OutsideL1 s t ∧ TeamPaths s t ∧ SelfInvalidated s t) ∧
      (cs ≠ [] ∨ hs ≠ [] → stops = [] → ∃ t, exec i s = .next t ∧ WaitsWith s t (.ops ids) ∧ (h.fin = true → RunOver s t)) ∧
      (∀ va, (EngineStop.bound, va) ∈ stops → (∀ x, (EngineStop.bound, x) ∈ stops → va ≤ x) →
        exec i s = ({ s with team := s.team.dropStopped .bound (cs.map (·.id) ++ hs.map (·.id)) } : State).trap 0x0C (BitVec.ofNat 64 va)) ∧
      (∀ va, (∀ x, (EngineStop.bound, x) ∉ stops) → (EngineStop.misplaced, va) ∈ stops → (∀ x, (EngineStop.misplaced, x) ∈ stops → va ≤ x) →
        exec i s = ({ s with team := s.team.dropStopped .misplaced (cs.map (·.id) ++ hs.map (·.id)) } : State).trap 0x11 (BitVec.ofNat 64 va)) ∧
      (stops ≠ [] → (∀ x ∈ stops, x.1 = .fault) → s.team.privileged = false →
        ∃ t k, exec i s = .next t ∧ RunOver s t ∧ t.team = { s.team with park := some k, path0 := t.team.path0, path1 := t.team.path1 } ∧
          t.slot = s.slot ∧ t.path.pc = s.path.pc ∧ t.path.mask = s.path.mask ∧ t.path.budget = s.path.budget ∧ t.path.wait = s.path.wait ∧
          t.team.path (!s.slot) = s.team.path (!s.slot) ∧ k.slot = s.slot ∧ k.engine = true ∧
          ∀ va, (∃ f ∈ k.faults, f.va = va) ↔ (EngineStop.fault, va) ∈ stops)
    (∀ o, waits (.copyw h o) (fun g => g == o.tag) true) ∧ waits (.copywAll h) (fun _ => true) true ∧
    (∀ o, waits (.chainw h o) (fun g => g == o.tag) false) ∧ waits (.chainwAll h) (fun _ => true) false

/-- R180, R181: FESET sets or clears F in every granule of its range; FEQ reads the F bits of at most 64 granules into a register; a range past the
window, or of too many granules, traps with code 0x0A. -/
def Stated.FullEmpty : Prop :=
  (∀ (h : Hdr) (o : FesetO) (s : State),
    let a := (s.readU o.a + offset o.off).toNat
    let n := (s.readU o.b).toNat
    (s.acts h.guard = false ∨ n = 0 → ∃ t, exec (.feset h o) s = .next t ∧ Done s t h (offBytes o.off) ∧ OnlyPaths s t) ∧
    (s.acts h.guard = true → 0 < n → s.team.window < a + n → Traps (.feset h o) s 0x0A 0) ∧
    (s.acts h.guard = true → 0 < n → a + n ≤ s.team.window →
      ∃ t, exec (.feset h o) s = .next t ∧ Done s t h (offBytes o.off) ∧ Outside s t ∧
        t.team = { s.team with empty := t.team.empty, path0 := t.team.path0, path1 := t.team.path1 } ∧
        ∀ g, t.team.full g = if a / 128 ≤ g ∧ g ≤ (a + n - 1) / 128 then o.full else s.team.full g)) ∧
  (∀ (h : Hdr) (o : FeqO) (s : State),
    let a := (s.readU o.a + offset o.off).toNat
    let n := (s.readU o.b).toNat
    let count := if n = 0 then 0 else (a + n - 1) / 128 + 1 - a / 128
    (s.acts h.guard = false ∨ n = 0 ∨ a + n ≤ s.team.window ∧ count ≤ 64 →
      UniformResult (.feq h o) h (offBytes o.off) o.d s fun v => ∀ k, k < 64 → v.getLsbD k = (decide (k < count) && s.team.full (a / 128 + k))) ∧
    (s.acts h.guard = true → 0 < n → s.team.window < a + n ∨ 64 < count → Traps (.feq h o) s 0x0A 0))

/-- The staging window and its full/empty bits: LDS, STS, FESET and FEQ. -/
def Obligations.StagingWindow : Prop := Stated.StagingWindow ∧ Stated.FullEmpty

/-- R183, R185, R186: a CHAIN reads its 128-byte descriptor after a flush and joins the team's chains with a copy of it; N = 0 does nothing; a descriptor address
that is not 128-byte aligned, an odd destination and an N above 0x4000_0000 trap with code 0x0A, an illegal descriptor with 0x01; while no slot is free it
waits. -/
def Stated.ChainIssue : Prop :=
  ∀ (h : Hdr) (o : ChainO) (s u v : State) (bs : List Byte),
    let a := s.readU o.a
    let n := s.readU o.b
    Idle (.chain h o) h 12 s ∧
    (s.acts h.guard = true → 2 ^ 52 < a.toNat + 128 → Traps (.chain h o) s 0x0B a) ∧
    (s.acts h.guard = true → a.toNat + 128 ≤ 2 ^ 52 → s.flushTeam = .ok () u → u.team = s.team →
      engineReadRange u s.who a.toNat 128 = .ok bs v → v.team = s.team → v.slot = s.slot → v.running = s.running →
      (∀ x ∈ (chainDesc bs).bases.take ((chainDesc bs).nsrc + 1), x % 4 = 0 ∧ x + (n.toNat * (chainDesc bs).w + 7) / 8 ≤ 2 ^ 52) →
      (chainDesc bs).dst + 2 * n.toNat ≤ 2 ^ 52 →
      (a.toNat % 128 ≠ 0 → exec (.chain h o) s = v.trap 0x0A a) ∧
      (a.toNat % 128 = 0 → (chainDesc bs).dst % 2 ≠ 0 → exec (.chain h o) s = v.trap 0x0A (BitVec.ofNat 64 (chainDesc bs).dst)) ∧
      (a.toNat % 128 = 0 → (chainDesc bs).dst % 2 = 0 → 0x40000000 < n.toNat → exec (.chain h o) s = v.trap 0x0A n) ∧
      (a.toNat % 128 = 0 → (chainDesc bs).dst % 2 = 0 → n.toNat ≤ 0x40000000 → chainLegal bs = false → exec (.chain h o) s = v.trap 0x01 a) ∧
      (a.toNat % 128 = 0 → (chainDesc bs).dst % 2 = 0 → n.toNat ≤ 0x40000000 → chainLegal bs = true →
        (n = 0 → ∃ t, exec (.chain h o) s = .next t ∧ Done s t h 12 ∧ TeamPaths s t) ∧
        (n ≠ 0 → Config.chainsPerTeam ≤ v.team.chains.length ∨ Config.chainsPerCore ≤ v.chainsOn s.team.core →
          exec (.chain h o) s = .next (v.waitHere false .issue)) ∧
        (n ≠ 0 → v.team.chains.length < Config.chainsPerTeam → v.chainsOn s.team.core < Config.chainsPerCore →
          ∃ t c, exec (.chain h o) s = .next t ∧ Done s t h 12 ∧
            t.team = { s.team with chains := s.team.chains ++ [c], path0 := t.team.path0, path1 := t.team.path1 } ∧
            c.id = v.serial ∧ c.tag = o.tag ∧ c.asid = s.team.asid ∧ c.desc = bs ∧ c.dst = (chainDesc bs).dst ∧ c.n = n.toNat ∧ c.next = 0 ∧
            c.stop = none)))

/-- CHAIN joins the queue; COPYW and CHAINW wait. The order of several causes at one wait, that an operation whose wait has trapped is over, and that
CHAIN with N = 0 is checked too, are the model's (DESIGN CHOICE, log 74; DEDUCED, log 28 and log 56). -/
def Obligations.ChainIssue : Prop := Stated.EngineWaits ∧ Stated.ChainIssue

/-! ## Matrix -/

/-- R272 to R278, R281: an MMA whose operands are legal joins the matrix queue with its operands, formats and predecessors as they are at issue, sets its
tile's scale tag, and touches the earlier commands of its tile that it does not follow; it waits while 64 MMAs or one with its ID are unretired. -/
def Stated.MmaIssue : Prop :=
  ∀ (h : Hdr) (o : MmaO) (s : State), (Instr.mma h o).wf = true →
    let len := if o.j.isSome then 16 else 12
    let freg : UReg := match o.j with | some j => j.freg | none => 0
    let fmt : Dword := if freg = 0 then 0 else s.readU freg
    let base (x : MmaSrc) : Nat := match x with | .win r off => (s.readU r + BitVec.ofNat 64 (128 * off.toNat)).toNat | .lane _ => 0
    let legalAt (x : MmaSrc) (f : Ty) : Prop := match x with
      | .win .. => base x % 128 = 0 ∧ base x + 512 * mmaBits f ≤ s.team.window
      | .lane r => r.toNat + 2 * mmaBits f ≤ s.team.vregs
    let operand (x : MmaSrc) : MmaOperand := match x with | .win .. => .win (base x) | .lane r => .lane r
    Idle (.mma h o) h len s ∧
    ∀ af bf, s.acts h.guard = true →
      (if freg = 0 then af = o.ty ∧ bf = o.ty
       else Ty.ofCode (fmt.extractLsb' 0 5) = some af ∧ Ty.ofCode (fmt.extractLsb' 5 5) = some bf ∧ fmt.toNat / 2 ^ 40 = 0) →
      mmaLegal af = true → mmaLegal bf = true → legalAt o.a af → legalAt o.b bf →
      (fmt.getLsbD 14 = true → (fmt.toNat / 2 ^ 16 % 4096) * 256 + 256 ≤ s.team.window) →
      (fmt.getLsbD 15 = true → (fmt.toNat / 2 ^ 28 % 4096) * 256 + 256 ≤ s.team.window) →
      (64 ≤ s.team.cmdq ∨ (s.team.mmaWith o.id).isSome = true → ∃ t, exec (.mma h o) s = .next t ∧ WaitsWith s t .issue) ∧
      (s.team.cmdq < 64 → s.team.mmaWith o.id = none →
        ∃ t c after, exec (.mma h o) s = .next t ∧ Done s t h len ∧ OutsideSerial s t ∧
          t.team = { s.team with matq := t.team.matq, tags := t.team.tags, path0 := t.team.path0, path1 := t.team.path1 } ∧
          (∀ n, n ∈ after ↔ ∃ j k x, o.j = some j ∧ (j.p1 = some k ∨ j.p2 = some k) ∧ s.team.mmaWith k = some (n, x)) ∧
          (c.touched = true ↔ ∃ e ∈ s.team.matq, ∃ x, e.op = .mma x ∧ x.o.d = o.d ∧ e.order ∉ predPath s.team.matq s.team.matq.length after) ∧
          c.after = after ∧ c.o = o ∧ c.af = af ∧ c.bf = bf ∧ c.a = operand o.a ∧ c.b = operand o.b ∧ c.started = false ∧
          c.aslot.toNat = fmt.toNat / 2 ^ 10 % 4 ∧ c.bslot.toNat = fmt.toNat / 2 ^ 12 % 4 ∧
          Queued s t ⟨s.serial, .mma h o, s.mmaReg o.a, s.mmaReg o.b, .mma c⟩ (fun n x => x.o.d == o.d && !((predPath s.team.matq s.team.matq.length after).contains n)) ∧
          (∀ d : Tile, storeGet ScaleTag.none t.team.tags d.toNat =
            if d = o.d then
              ⟨if fmt.getLsbD 14 then some (BitVec.ofNat 12 (fmt.toNat / 2 ^ 16)) else none, if fmt.getLsbD 15 then some (BitVec.ofNat 12 (fmt.toNat / 2 ^ 28)) else none⟩
            else storeGet ScaleTag.none s.team.tags d.toNat))

/-- R276: a window operand of an MMA without a format word that is misaligned or passes the window traps with code 0x0D and its base; a register
operand past the declared registers traps with code 0x03. -/
def Stated.MmaChecks : Prop :=
  ∀ (h : Hdr) (o : MmaO) (s : State), s.acts h.guard = true → o.j = none →
    let base (x : MmaSrc) : Dword := match x with | .win r off => s.readU r + BitVec.ofNat 64 (128 * off.toNat) | .lane _ => 0
    let bad (x : MmaSrc) : Prop := match x with
      | .win .. => (base x).toNat % 128 ≠ 0 ∨ s.team.window < (base x).toNat + 512 * mmaBits o.ty
      | .lane _ => False
    let high (x : MmaSrc) : Prop := match x with | .win .. => False | .lane r => s.team.vregs < r.toNat + 2 * mmaBits o.ty
    (bad o.a → Traps (.mma h o) s 0x0D (base o.a)) ∧
    (¬bad o.a → bad o.b → Traps (.mma h o) s 0x0D (base o.b)) ∧
    (¬bad o.a → ¬bad o.b → high o.a ∨ high o.b → Traps (.mma h o) s 0x03 0)

/-- MMA joins the matrix queue, or traps by its checks. That operand A is checked before operand B is the model's choice (DESIGN CHOICE, log 85). -/
def Obligations.MmaIssue : Prop := Stated.MmaIssue ∧ Stated.MmaChecks

/-- R274, R278, R281, R286 to R288, R290: MZERO, MLDA, MSTA, MCBL and DRAIN join the matrix queue in their order of issue and touch the commands of their
tile or codebook slot; MZERO and MLDA clear the tile's scale tag, MSTA and DRAIN the F bits of what they will write; all wait while 16 tile operations
are queued, and DRAIN while its descriptor's granule is empty. A misaligned window address, or one past the window, traps with code 0x0D. -/
def Stated.TileOperations : Prop :=
  ∀ (h : Hdr) (s : State),
    let issues (i : Instr) (n : Nat) (sa : Dword) (op : TileOp) (touches : MmaCmd → Bool) (P : State → Prop) : Prop :=
      (16 ≤ s.team.topq → ∃ t, exec i s = .next t ∧ WaitsWith s t .issue) ∧
      (s.team.topq < 16 → ∃ t, exec i s = .next t ∧ Done s t h n ∧ OutsideSerial s t ∧
        t.team = { s.team with matq := t.team.matq, tags := t.team.tags, empty := t.team.empty, path0 := t.team.path0, path1 := t.team.path1 } ∧
        Queued s t ⟨s.serial, i, sa, 0, .tile op⟩ (fun _ c => touches c) ∧ P t)
    let untagged (d : Tile) (t : State) : Prop := t.team.empty = s.team.empty ∧
      ∀ x : Tile, storeGet ScaleTag.none t.team.tags x.toNat = if x = d then ⟨none, none⟩ else storeGet ScaleTag.none s.team.tags x.toNat
    let window (a : Dword) (align n : Nat) : Prop := a.toNat % align = 0 ∧ a.toNat + n ≤ s.team.window
    (∀ o, Idle (.mzero h o) h 8 s ∧ (s.acts h.guard = true → issues (.mzero h o) 8 0 (.zero o.d) (fun c => c.o.d == o.d) (untagged o.d))) ∧
    (∀ o : TileMemO, let a := s.readU o.a + offset o.off
      Idle (.mlda h o) h (offBytes o.off) s ∧ (s.acts h.guard = true →
        (¬window a 128 16384 → Traps (.mlda h o) s 0x0D 0) ∧
        (window a 128 16384 → issues (.mlda h o) (offBytes o.off) (s.readU o.a) (.load o.t a.toNat) (fun c => c.o.d == o.t) (untagged o.t)))) ∧
    (∀ o : TileMemO, let a := s.readU o.a + offset o.off
      Idle (.msta h o) h (offBytes o.off) s ∧ (s.acts h.guard = true →
        (¬window a 128 16384 → Traps (.msta h o) s 0x0D 0) ∧
        (window a 128 16384 → issues (.msta h o) (offBytes o.off) (s.readU o.a) (.store o.t a.toNat) (fun c => c.o.d == o.t) fun t =>
          t.team.tags = s.team.tags ∧ ∀ g, t.team.full g = (s.team.full g && !decide (a.toNat / 128 ≤ g ∧ g < a.toNat / 128 + 128))))) ∧
    (∀ o : McblO, let a := s.readU o.a + offset o.off
      Idle (.mcbl h o) h (offBytes o.off) s ∧ (s.acts h.guard = true →
        (¬window a 32 32 → Traps (.mcbl h o) s 0x0D 0) ∧
        (window a 32 32 → issues (.mcbl h o) (offBytes o.off) (s.readU o.a) (.codebook o.slot a.toNat)
          (fun c => c.af == .cb4 && c.aslot == o.slot || c.bf == .cb4 && c.bslot == o.slot) fun t => t.team.tags = s.team.tags ∧ t.team.empty = s.team.empty))) ∧
    (∀ o : DrainO, let a := s.readU o.a + offset o.off
      let bs := s.team.winBytes a.toNat 64
      let d := drainDesc bs
      Idle (.drain h o) h (offBytes o.off) s ∧ (s.acts h.guard = true →
        (¬window a 64 64 → Traps (.drain h o) s 0x0D a) ∧
        (window a 64 64 → s.team.full (a.toNat / 128) = false → ∃ t, exec (.drain h o) s = .next t ∧ WaitsWith s t .issue) ∧
        (window a 64 64 → s.team.full (a.toNat / 128) = true → drainLegal bs o.ty s.team.window = false → Traps (.drain h o) s 0x0D a) ∧
        (window a 64 64 → s.team.full (a.toNat / 128) = true → drainLegal bs o.ty s.team.window = true →
          issues (.drain h o) (offBytes o.off) (s.readU o.a) (.drain o bs (storeGet ScaleTag.none s.team.tags o.d.toNat)) (fun c => c.o.d == o.d) fun t =>
            t.team.tags = s.team.tags ∧
            ∀ g, (t.team.full g = true ↔ s.team.full g = true ∧ ¬∃ m, m < 64 ∧ (d.dst + m * d.dstride) / 128 ≤ g ∧
              g ≤ (d.dst + m * d.dstride + 64 * drainSize o.ty - 1) / 128))))

/-- R285, R292, R293: MWAIT waits for the MMA that it names, or for everything in the queue when it issued; MSTAT reads the status word, the bitmap of unretired IDs, or
the status word with its sticky bits cleared after the read. -/
def Stated.MatrixStatus : Prop :=
  ∀ (h : Hdr) (s : State),
    let waits (i : Instr) (names : MatEntry → Bool) : Prop :=
      let ids := match s.path.wait with | some (.ops l) => l | _ => (s.team.matq.filter names).map (·.order)
      Idle i h 8 s ∧
      (s.acts h.guard = true → (∀ e ∈ s.team.matq, e.order ∉ ids) → ∃ t, exec i s = .next t ∧ Done s t h 8 ∧ OnlyPaths s t) ∧
      (s.acts h.guard = true → (∃ e ∈ s.team.matq, e.order ∈ ids) →
        ∃ t, exec i s = .next t ∧ WaitsWith s t (.ops ids) ∧ (h.fin = true → RunOver s t))
    let t := s.team
    let word (v : Dword) : Prop :=
      v.toNat = t.cmdq + t.topq * 2 ^ 12 + (if t.nan then 2 ^ 17 else 0) + (if t.ovf then 2 ^ 18 else 0) + (if t.narrow then 2 ^ 19 else 0)
    (∀ o : TagO, waits (.mwait h o) fun e => match e.op with | .mma c => c.o.id == o.tag | .tile _ => false) ∧ waits (.mwaitAll h) (fun _ => true) ∧
    (t.cmdq < 2 ^ 12 → t.topq < 2 ^ 5 → ∀ o : UD,
      UniformResult (.mstat h o) h 8 o.d s word ∧
      UniformResult (.mstatIds h o) h 8 o.d s
        (fun v => ∀ k : BitVec 6, v.getLsbD k.toNat = true ↔ ∃ e ∈ t.matq, ∃ c, e.op = .mma c ∧ c.o.id = k) ∧
      ∃ u, exec (.mstatClr h o) s = .next u ∧ Done s u h 8 ∧ Outside s u ∧ WroteU s u (s.acts h.guard) o.d word ∧
        u.team = { s.team with s := u.team.s, nan := u.team.nan, ovf := u.team.ovf, narrow := u.team.narrow, path0 := u.team.path0, path1 := u.team.path1 } ∧
        if s.acts h.guard = true then u.team.nan = false ∧ u.team.ovf = false ∧ u.team.narrow = false
        else u.team.nan = t.nan ∧ u.team.ovf = t.ovf ∧ u.team.narrow = t.narrow)

/-- Tile operations join the queue; MWAIT and MSTAT. -/
def Obligations.TileOperations : Prop := Stated.TileOperations ∧ Stated.MatrixStatus

/-! ## Teams and synchronization -/

/-- What a SPAWN of one child or of a cohort of `coh` leaves, with the frames `f :: fs` reserved in a partition that reads `p` (R352, R355, R356, R362): the record of the
children in the spawner, its frame, the deque entry, the handle. -/
def Spawned (s t : State) (h : Hdr) (o : SpawnO) (n : Nat) (p : Partition) (f : Nat) (fs : List Nat) (coh : Option Nat) : Prop :=
  let size := coh.getD 1
  let entry := s.path.pc + o.off.signExtend 64
  let counts := s.countsAt s.team.pid s.team.asid entry.toNat (s.team.vregs, s.team.ntiles)
  let args : List Dword := if o.args = 0 then List.replicate 8 0 else (List.range 8).map fun i => s.readU (o.args + BitVec.ofNat 7 i)
  ∃ (k : Kid) (e : DeqEnt) (spec : TeamSpec) (fr : Frame) (q : Partition),
    Done s t h 16 ∧ (∀ a, t.memByte a = s.memByte a) ∧ ((s.core s.team.core).frames.length < 512 → MemorySame s t) ∧
    t.team = { s.team with s := t.team.s, kids := s.team.kids ++ [k], path0 := t.team.path0, path1 := t.team.path1 } ∧
    WroteU s t true o.d (fun v => v = handleOf f k.tag) ∧
    k.frame = f ∧ k.tag.toNat = (storeGet 0 p.frameTag f + 1) % 65536 ∧ k.first = p.nextTeam ∧ k.size = size ∧ k.ended = 0 ∧ k.bad = [] ∧
    k.frames = (if coh.isSome then fs.take size else []) ∧
    (t.core s.team.core).deque.getLast? = some e ∧ e.pid = s.team.pid ∧ e.aff = o.aff ∧ e.sub = s.team.subKey ∧ e.since = s.cycle ∧
    e.kind = .spawn spec 0 p.nextTeam (if coh.isSome then fs.take size else [f]) [] ∧
    spec.entry = entry ∧ spec.lanes = n ∧ spec.args = args ∧ spec.vregs = counts.1 ∧ spec.tiles = counts.2.1 ∧ spec.window = counts.2.2 ∧
    spec.asid = s.team.asid ∧ spec.cls = s.team.cls ∧ spec.sys = s.team.sys ∧ spec.tree = s.team.tree ∧ spec.root = false ∧ spec.chksb = s.team.chksb ∧
    spec.size = size ∧ spec.parent = some (s.team.id, s.team.frame) ∧ (spec.cohort = none ↔ coh = none) ∧
    t.part s.team.pid = some q ∧ q.nextTeam = p.nextTeam + size ∧ (f, fr) ∈ q.frames ∧ fr.args = args ∧ fr.entry = entry ∧ fr.parent = s.team.frame ∧
    fr.lanes = n ∧ fr.aff = o.aff ∧ fr.size = size ∧ fr.handle = (if coh.isSome then handleOf f k.tag else 0)

/-- R350, R352 to R356, R362: SPAWN checks its lane count, its cohort size and its entry, reserves its frames, and with nothing to wait for or to flush pushes one
deque entry for its children, fills their record and returns the handle. SPAWN.E does the same where its continuation's frames are not to be had. The
statement takes a team without a spawn-attribute word. -/
def Stated.Spawning : Prop :=
  ∀ (h : Hdr) (o : SpawnO) (s : State), s.team.attr = none → s.acts h.guard = true →
    let n := match o.lanes with | .imm n => n.toNat | .reg b => (s.readU b).toNat % 2 ^ 32
    let entry := s.path.pc + o.off.signExtend 64
    let counts := s.countsAt s.team.pid s.team.asid entry.toNat (s.team.vregs, s.team.ntiles)
    let lanesOk : Prop := 1 ≤ n ∧ n ≤ 1024 ∧ counts.1 * 128 * ((n + 31) / 32) ≤ Config.laneRegBytes
    let checks (i : Instr) (size : Nat) (need : List Nat) : Prop :=
      (¬lanesOk → Traps i s 0x03 0) ∧ (lanesOk → size = 0 ∨ 1024 < size → Traps i s 0x03 0) ∧
      (lanesOk → 1 ≤ size → size ≤ 1024 → entry.toNat % 4 ≠ 0 → Traps i s 0x04 0) ∧
      (lanesOk → 1 ≤ size → size ≤ 1024 → entry.toNat % 4 = 0 → s.path.held = [] → (∀ p, s.part s.team.pid = some p → ∀ k ∈ need, p.freeFrames k = none) →
        Traps i s 0x0E 0)
    let bears (i : Instr) (coh : Option Nat) (need : List Nat) (plain : State → Prop) : Prop :=
      lanesOk → 1 ≤ coh.getD 1 → coh.getD 1 ≤ 1024 → entry.toNat % 4 = 0 → s.quiet → s.flushed →
      ∀ (u : State) (p : Partition) (f : Nat) (fs : List Nat), s.reserve need = some u → plain u → u.part s.team.pid = some p → (∃ x ∈ p.frames, x.1 = f) → u.path.held = f :: fs → f ∉ (match coh with | some n => fs.drop n | none => fs) →
        ∃ t, exec i s = .next t ∧ Spawned s t h o n p f fs coh
    checks (.spawn h o) 1 [1] ∧ bears (.spawn h o) none [1] (fun _ => True) ∧
    (∀ a : UReg, let size := (s.readU a).toNat
      checks (.spawnCoh h ⟨o, a⟩) size [size + 1] ∧ bears (.spawnCoh h ⟨o, a⟩) (some size) [size + 1] (fun _ => True)) ∧
    (∀ live : BitVec 9,
      let more := 1 + contFrames (min live.toNat s.team.vregs) s.team.lanes
      checks (.spawnE h ⟨o, live⟩) 1 [more, 1] ∧
      bears (.spawnE h ⟨o, live⟩) none (if s.path.held.length = 1 then [1] else [more, 1])
        (fun u => u.path.held.length ≠ more ∨ s.team.path (!s.slot) ≠ none ∨ s.team.stack ≠ [] ∨ s.team.ntiles ≠ 0 ∨ s.team.window ≠ 0))

/-- R359, R360: a SPAWN.E of a team of one path without stack, tiles and window, whose child fits in its place, makes the team a continuation that keeps
its live lane registers, and starts the child on its sub-core. The statement takes a child without staging window, on a core whose split stands. -/
def Stated.EagerSpawn : Prop :=
  ∀ (h : Hdr) (o : SpawnEO) (s u : State) (p : Partition) (f : Nat) (fs : List Nat), s.team.attr = none → s.acts h.guard = true →
    let entry := s.path.pc + o.base.off.signExtend 64
    let n := match o.base.lanes with | .imm n => n.toNat | .reg b => (s.readU b).toNat % 2 ^ 32
    let counts := s.countsAt s.team.pid s.team.asid entry.toNat (s.team.vregs, s.team.ntiles)
    let live := min o.live.toNat s.team.vregs
    let more := 1 + contFrames live s.team.lanes
    s.spawnCheck (s.spawnPlan o.base) 1 = none → s.quiet → s.flushed → (∀ r ∈ s.loads, r.team ≠ s.team.id) →
    s.reserve (if s.path.held.length = 1 then [1] else [more, 1]) = some u → u.path.held = f :: fs → fs.length + 1 = more →
    u.part s.team.pid = some p → u.eagerHere (u.spawnPlan o.base) = true → counts.2.2 = 0 → s.team.phase = .resident →
    (u.core s.team.core).ways ≤ waysFor (u.windowSum s.team.core) →
    ∃ t c k, exec (.spawnE h o) s = .next t ∧ t.retired = true ∧ t.team.id = s.team.id ∧ t.team.phase = .continuation ∧ t.team.contLive = live ∧ t.team.live = s.team.live ∧
      t.path.pc = s.path.pc + 16 ∧ RunOver s t ∧ t.team.kids = s.team.kids ++ [k] ∧ k.frame = f ∧ k.first = p.nextTeam ∧ k.size = 1 ∧
      WroteU s t true o.base.d (fun v => v = handleOf f k.tag) ∧
      (∀ r l, l < 1024 → t.team.vval r l = if r.toNat < live then s.team.vval r l else 0) ∧
      t.teams = s.teams ++ [c] ∧ c.id = p.nextTeam ∧ c.pid = s.team.pid ∧ c.phase = .resident ∧ c.core = s.team.core ∧ c.sub = s.team.sub ∧
      c.lanes = n ∧ c.vregs = counts.1 ∧ c.frame = f ∧ c.asid = s.team.asid ∧ c.parent = some s.team.id ∧ c.path1 = none ∧
      (∃ q, c.path0 = some q ∧ q.pc = entry ∧ q.mask = laneLimit n ∧ q.budget = 65535) ∧
      (∀ i, i < 8 → c.uval (BitVec.ofNat 7 (i + 1)) = if o.base.args = 0 then 0 else s.readU (o.base.args + BitVec.ofNat 7 i)) ∧
      (∀ r : UReg, 9 ≤ r.toNat → c.uval r = 0) ∧
      ∃ e, (t.core s.team.core).deque.getLast? = some e ∧ e.kind = .cont s.team.id fs p.nextTeam

/-- SPAWN in its three variants. Which free frame and which number a child gets, and the counts of a child whose code lies in no object, are the
model's choice (DESIGN CHOICE, log 16, log 17 and log 72). -/
def Obligations.Spawning : Prop := Stated.Spawning ∧ Stated.EagerSpawn

/-- R146, R363, R364: AWAIT waits for the children of its set; then it consumes them and the team self-invalidates, and where a child of the set ended
abnormally it traps with code 0x10, with the status and the TEAMID of the one that ended first. -/
def Stated.Awaiting : Prop :=
  ∀ (h : Hdr) (s : State), s.acts h.guard = true → s.quiet → (∀ l x, s.path.wait ≠ some (.awaiting l x)) →
    let lim := s.waitLimit
    let awaits (i : Instr) (handle : Option Dword) (named : Kid → Bool) : Prop :=
      let set := s.team.kids.filter named
      let bad := set.flatMap (·.bad)
      let after (t : State) : Prop := (∀ k, k ∈ t.team.kids ↔ k ∈ s.team.kids ∧ k ∉ set) ∧ SelfInvalidated s t ∧ MemorySame s t
      ((∃ k ∈ set, k.ended < k.size) → ∃ t, exec i s = .next t ∧ WaitsWith s t (.awaiting lim handle) ∧ RunOver s t) ∧
      ((∀ k ∈ set, k.size ≤ k.ended) → bad = [] →
        ∃ t, exec i s = .next t ∧ Done s t h 8 ∧ after t ∧
          t.team = { s.team with kids := t.team.kids, path0 := t.team.path0, path1 := t.team.path1 }) ∧
      ((∀ k ∈ set, k.size ≤ k.ended) → ∀ e, e ∈ bad → (∀ x ∈ bad, e.cycle < x.cycle ∨ e.cycle = x.cycle ∧ (e.team < x.team ∨ e = x)) →
        ∃ u, exec i s = u.trap 0x10 (BitVec.ofNat 64 (e.status.toNat + 2 ^ 32 * (e.team % 2 ^ 32))) ∧ after u)
    awaits (.await h) none (fun k => decide (k.seq < lim)) ∧
    (∀ o : UA, (∀ k ∈ s.team.kids, ∀ l ∈ s.team.kids, handleOf k.frame k.tag = handleOf l.frame l.tag → k = l) →
      awaits (.awaitHandle h o) (some (s.readU o.a)) (fun k => handleOf k.frame k.tag == s.readU o.a))

/-- R366: a CBAR of a team in no cohort is done at once, after the flush and the self-invalidation; in a cohort whose barrier is not full the path waits,
and the team has arrived when its other path waits there too or there is none; the one that fills the barrier flips the phase; a path that the
flip has freed goes on. -/
def Stated.Barrier : Prop :=
  ∀ (h : Hdr) (s : State), s.acts h.guard = true →
    let i := Instr.cbar h
    (s.slot ∈ s.team.cbar → ∃ t, exec i s = .next t ∧ Done s t h 8 ∧ SelfInvalidated s t ∧
      t.team = { s.team with cbar := s.team.cbar.filter (· != s.slot), path0 := t.team.path0, path1 := t.team.path1 }) ∧
    (s.slot ∉ s.team.cbar → s.quiet → s.flushed →
      (s.team.cohort = none → ∃ t, exec i s = .next t ∧ Done s t h 8 ∧ SelfInvalidated s t ∧ TeamPaths s t) ∧
      (∀ c x, s.team.cohort = some c → s.cohorts.find? (fun y => y.id == c) = some x →
        let arrived := s.team.cohidx :: x.arrived
        ((∃ q, s.team.path (!s.slot) = some q ∧ q.wait ≠ some .barrier) → ∃ t, exec i s = .next t ∧ WaitsWith s t .barrier ∧ RunOver s t) ∧
        ((∀ q, s.team.path (!s.slot) = some q → q.wait = some .barrier) → s.team.cohidx ∉ x.arrived →
          (∃ j, j < x.size ∧ j ∉ arrived ∧ j ∉ x.ended) →
          ∃ t, exec i s = .next t ∧ t.path.wait = some .barrier ∧ t.path.pc = s.path.pc ∧ RunOver s t ∧
            t.cohorts.find? (fun y => y.id == c) = some { x with arrived := arrived }) ∧
        ((∀ q, s.team.path (!s.slot) = some q → q.wait = some .barrier) → s.team.cohidx ∉ x.arrived → x.pid = s.team.pid →
          (∀ j, j < x.size → j ∈ arrived ∨ j ∈ x.ended) →
          ∃ t, exec i s = .next t ∧ t.path.wait = none ∧ t.path.pc = s.path.pc ∧ s.slot ∈ t.team.cbar ∧
            t.cohorts.find? (fun y => y.id == c) = some { x with arrived := [], phase := !x.phase })))

/-- AWAIT and CBAR. -/
def Obligations.Awaiting : Prop := Stated.Awaiting ∧ Stated.Barrier

/-- R368, R369: PUB is done once nothing is outstanding and its flush has been made; PUB.st and PUB.add perform their write on a word at hand in its home
bank; a misaligned word, or an address past bit 51, traps before anything else. PUB writes no register. A write that a binding holds keeps it waiting. -/
def Stated.Publishing : Prop :=
  (∀ (h : Hdr) (s u : State), s.acts h.guard = true → s.quiet → s.flushTeam = .ok () u → u.team = s.team → u.slot = s.slot → u.running = s.running →
    ∃ t, exec (.pub h) s = .next t ∧ Done s t h 8 ∧ TeamPaths s t ∧ (∀ a, t.viewByte a = u.viewByte a) ∧ t.cores = u.cores ∧ t.banks = u.banks) ∧
  (∀ (h : Hdr) (o : SstO) (s : State) (bank : Nat) (x : L2Line), s.acts h.guard = true →
    let a := s.readU o.a + offset o.off
    let n := accessBytes o.ty
    let begun : Prop := (∃ k b m, s.path.wait = some (.held k b m)) ∨ ∃ l, s.path.wait = some (.begun l)
    let writes (i : Instr) (P : Dword → Dword → Prop) : Prop :=
      (∀ k b m, s.path.wait = some (.held k b m) →
        (s.stillHeld k b m = true → ∃ t, exec i s = .next t ∧ WaitsWith s t (.held k b m)) ∧
        (s.stillHeld k b m = false → ∃ t, exec i s = .next t ∧ Done s t h (offBytes o.off) ∧ OnlyPaths s t)) ∧
      (¬begun → ¬(∃ l, s.path.wait = some (.upTo l) ∨ s.path.wait = some (.edge l)) →
      (2 ^ 52 ≤ a.toNat → Traps i s 0x0B a) ∧ (a.toNat < 2 ^ 52 → a.toNat % n ≠ 0 → Traps i s 0x0A a)) ∧
      (i.wf = true → ¬begun → LegalAccess a n → s.quiet → s.flushed → s.wordAtHome a.toNat n bank x →
        ∃ t m new y, exec i s = .next t ∧ Done s t h (offBytes o.off) ∧ TeamPaths s t ∧ P m new ∧ m.toNat < 256 ^ n ∧
          (∀ j, j < n → BitVec.ofNat 8 (m.toNat / 256 ^ j) = byteAt x.data (a.toNat % 128 + j)) ∧
          (t.bank bank).find x.key false = some y ∧
          ∀ j, j < 128 → byteAt y.data j =
            if a.toNat % 128 ≤ j ∧ j < a.toNat % 128 + n then BitVec.ofNat 8 (new.toNat / 256 ^ (j - a.toNat % 128)) else byteAt x.data j)
    writes (.pubSt h o) (fun _ new => new = s.readU o.b) ∧
    writes (.pubAdd h o) (fun m new => Fits o.ty false (intOf o.ty m + intOf o.ty (s.readUTy o.ty o.b)) (intOf o.ty new)))

/-- R146, R370, R371: an AWAITW whose word at home meets its condition writes it to its register and the team self-invalidates; else it registers a watch
and waits; a watch that a write has met is accepted with the value of that write. -/
def Stated.WordWaits : Prop :=
  ∀ (h : Hdr) (o : AwaitwO) (s : State), (Instr.awaitw h o).wf = true → s.acts h.guard = true →
    let i := Instr.awaitw h o
    let a := s.readU o.a + awOff o.cmp
    let n := accessBytes o.ty
    let accepts (m : Dword) : Prop := ∃ t, exec i s = .next t ∧ Done s t h (awLen o.cmp) ∧ SelfInvalidated s t ∧
      t.team = { s.team with s := t.team.s, path0 := t.team.path0, path1 := t.team.path1 } ∧ WroteU s t true o.d fun v => v = uniformLoad o.ty m.toNat
    (s.path.wait ≠ some .watch →
      (¬(∃ l, s.path.wait = some (.upTo l) ∨ s.path.wait = some (.edge l)) → (2 ^ 52 ≤ a.toNat → Traps i s 0x0B a) ∧ (a.toNat < 2 ^ 52 → a.toNat % n ≠ 0 → Traps i s 0x0A a)) ∧
      ∀ (bank : Nat) (x : L2Line) (m : Dword), LegalAccess a n → s.quiet → s.wordAtHome a.toNat n bank x → m.toNat < 256 ^ n →
        (∀ j, j < n → BitVec.ofNat 8 (m.toNat / 256 ^ j) = byteAt x.data (a.toNat % 128 + j)) →
        (Cond.rel o.cc (intOf o.ty m) (intOf o.ty (s.awValue o.ty o.cmp)) = true → accepts m) ∧
        (Cond.rel o.cc (intOf o.ty m) (intOf o.ty (s.awValue o.ty o.cmp)) = false →
          ∃ t w, exec i s = .next t ∧ t.path.wait = some .watch ∧ t.path.pc = s.path.pc ∧ RunOver s t ∧ TeamPaths s t ∧ t.watches = s.watches ++ [w] ∧
            w.pid = s.team.pid ∧ w.team = s.team.id ∧ w.slot = s.slot ∧ w.asid = s.team.asidNow ∧ w.va = a.toNat ∧ w.ty = o.ty ∧ w.cc = o.cc ∧ w.cmp = s.awValue o.ty o.cmp ∧ w.got = none)) ∧
    (s.path.wait = some .watch → ∀ w, s.myWatch = some w →
      (∀ m, w.got = some m → m.toNat < 256 ^ n → accepts m) ∧ (w.got = none → ∃ t, exec i s = .next t ∧ WaitsWith s t .watch))

/-- PUB and AWAITW. -/
def Obligations.Publishing : Prop := Stated.Publishing ∧ Stated.WordWaits

/-- R129 to R134: an XSHUF posts its entry to the rally table of its bank and waits; a timeout field of 0 stands for 64 units of 256 cycles; it waits on until
the table pairs it; one whose partner was ended before its values arrived writes any value to its registers and traps with code 0x09. -/
def Stated.RallyPosts : Prop :=
  ∀ (h : Hdr) (o : XshufO) (s : State) (p : Partition), s.acts h.guard = true → s.part s.team.pid = some p →
    let i := Instr.xshuf h o
    let w := (s.readU o.a).toNat
    let tmo := w / 2 ^ 48
    (s.path.wait = some .rally → ∃ t, exec i s = .next t ∧ WaitsWith s t .rally ∧ RunOver s t) ∧
    (s.path.wait = some .broken → ∃ u : State, exec i s = u.trap 0x09 0 ∧ u = { s with team := { s.team with v := u.team.v }, free := u.free } ∧
      ∀ r l, l < 1024 → ¬(l ∈ s.lanes h.guard ∧ r ∈ o.regs) → u.team.vval r l = s.team.vval r l) ∧
    (s.path.wait = none → ∃ t e, exec i s = .next t ∧ t.path.wait = some .rally ∧ t.path.pc = s.path.pc ∧ RunOver s t ∧ TeamPaths s t ∧
      t = { s with team := t.team, running := t.running, rally := s.rally ++ [e] } ∧ e.bank = p.rallyBank (BitVec.ofNat 32 w) ∧ e.pid = s.team.pid ∧
      e.team = s.team.id ∧ e.slot = s.slot ∧ e.id.toNat = w % 2 ^ 32 ∧ e.regs = o.regs ∧ e.lanes = s.selected h.guard ∧
      e.deadline = s.cycle + 256 * (if tmo = 0 then 64 else tmo) ∧ e.paired = none)

/-! ## Standing products -/

/-- R295, R301: a BIND of a legal descriptor, with its extents apart from those that live and walked without fault, allocates a free slot, advances its tag, and
returns the handle of a binding in INIT; without a free slot it traps with code 0x0F, with an illegal descriptor with 0x01, misaligned with 0x0A. -/
def Stated.Binds : Prop :=
  ∀ (h : Hdr) (o : UDA) (s u v : State) (bs : List Byte), s.acts h.guard = true →
    let a := s.readU o.a
    let i := Instr.bind h o
    s.flushTeam = .ok () u → u.team = s.team →
    (2 ^ 52 < a.toNat + 128 → exec i s = u.trap 0x0B a) ∧
    (a.toNat + 128 ≤ 2 ^ 52 → engineReadRange u s.who a.toNat 128 = .ok bs v → v.team = s.team → v.slot = s.slot → v.running = s.running →
      (a.toNat % 128 ≠ 0 → exec i s = v.trap 0x0A 0) ∧
      (a.toNat % 128 = 0 → bindingOf bs s.team.pid s.team.asid = none → exec i s = v.trap 0x01 a) ∧
      ∀ b, a.toNat % 128 = 0 → bindingOf bs s.team.pid s.team.asid = some b →
        (∀ x ∈ b.extents, x.1.last ≤ 2 ^ 52) → bindOutside v b = false → bindApart b (v.bindsOf b.pid b.asid) = true →
        (v.freeBinding b.pid = none → exec i s = v.trap 0x0F 0) ∧
        ∀ slot w, v.freeBinding b.pid = some slot → bindFifth b (v.bindsOf b.pid b.asid) = false →
          bindWalk b s.team.privileged b.walkPages v = (.ok () w, 0) → w.binds = v.binds → (∀ x ∈ v.binds, x.err = true → x.hold = []) →
          let tag := (storeGet 0 v.bindTag slot + 1) % 65536
          let c : Binding := { b with slot := slot, tag := BitVec.ofNat 16 tag }
          let made : State := { w with binds := v.binds ++ [c], bindTag := storePut 0 w.bindTag slot tag }
          ∀ z, w.bindTag = v.bindTag → deviceWriteAll made c.pid c.asid c.lbase (padTo 256 c.header ++ zeros (c.rb + c.cb)) = .ok () z → z.binds = v.binds ++ [c] →
            z.team = s.team → z.slot = s.slot → z.running = s.running →
            ∃ t, exec i s = .next t ∧ Done s t h 8 ∧ t = { z with team := t.team, running := t.running, retired := true } ∧
              t.team = { s.team with s := t.team.s, path0 := t.team.path0, path1 := t.team.path1 } ∧
              c.pid = s.team.pid ∧ c.asid = s.team.asid ∧ c.il = .init ∧ c.err = false ∧ c.entries = [] ∧ c.hold = [] ∧ c.capseq = 0 ∧ c.appseq = 0 ∧
              t.binding slot = some c ∧ WroteU s t true o.d fun x => x.toNat = slot + 65536 * tag)

/-- R294, R297, R298, R301: where BIND stops on a legal descriptor that it has read, in the order of its checks: an extent reaches above address bit 51 (code
0x0B); an extent has a page in host memory, A and B share a word, or an operand word of the new or of a live binding of the ASID lies in an owned page of one of
them (code 0x01); the partition has 1,024 bindings or the module 8,192, or a word would join a fifth binding (code 0x0F). -/
def Stated.BindStops : Prop :=
  ∀ (h : Hdr) (o : UDA) (s u v : State) (bs : List Byte) (b : Binding), s.acts h.guard = true →
    let a := s.readU o.a
    let i := Instr.bind h o
    let live := v.bindsOf b.pid b.asid
    s.flushTeam = .ok () u → u.team = s.team → a.toNat + 128 ≤ 2 ^ 52 → engineReadRange u s.who a.toNat 128 = .ok bs v → v.team = s.team → v.slot = s.slot →
    v.running = s.running → a.toNat % 128 = 0 → bindingOf bs s.team.pid s.team.asid = some b →
    ((∃ x ∈ b.extents, 2 ^ 52 < x.1.last) → exec i s = v.trap 0x0B 0) ∧
    ((∀ x ∈ b.extents, x.1.last ≤ 2 ^ 52) →
      ((∃ x ∈ b.extents, ∃ p ∈ x.1.pages, ∃ addr perms w, translate v b.pid b.asid (p * 4096) = .ok addr true perms w) → exec i s = v.trap 0x01 a) ∧
      ((∃ w, w % 4 = 0 ∧ ((b.side false).word w).isSome = true ∧ ((b.side true).word w).isSome = true) → exec i s = v.trap 0x01 a) ∧
      ((Treads b b ∨ ∃ y ∈ live, Treads b y ∨ Treads y b) → exec i s = v.trap 0x01 a) ∧
      (bindOutside v b = false → bindApart b live = true →
        1024 ≤ (v.binds.filter fun x => x.pid == s.team.pid).length ∨ 8192 ≤ v.binds.length ∨
          (∃ (opB : Bool) (w : Nat), w % 4 = 0 ∧ ((b.side opB).word w).isSome = true ∧
            4 ≤ (live.filter fun y => ((y.side false).word w).isSome || ((y.side true).word w).isSome).length) →
        exec i s = v.trap 0x0F 0))

/-- BIND makes a binding, or traps. Which free slot a binding gets is the model's choice (DESIGN CHOICE, log 18). -/
def Obligations.Binds : Prop := Stated.Binds ∧ Stated.BindStops

/-- R319, R320: UNBIND of a live handle ends its binding and performs its held writes in order, each on its bytes at home; it waits while one's line cannot be had at
once. QSTALE reads a snapshot of a binding; on a handle that is not live UNBIND and SETTLE do nothing and
QSTALE writes 0. -/
def Stated.BindingUse : Prop :=
  ∀ (h : Hdr) (s : State),
    let live (x : Dword) (b : Binding) : Prop := s.liveBinding x = some b
    (∀ o : UA, Idle (.unbind h o) h 8 s ∧ Idle (.settle h o) h 8 s ∧
      (s.acts h.guard = true → s.liveBinding (s.readU o.a) = none → ∃ t, exec (.unbind h o) s = .next t ∧ Done s t h 8 ∧ OnlyPaths s t) ∧
      (s.acts h.guard = true → s.liveBinding (match s.path.wait with | some (.settle x _ _) => x | _ => s.readU o.a) = none →
        ∃ t, exec (.settle h o) s = .next t ∧ Done s t h 8 ∧ OnlyPaths s t) ∧
      (∀ b, s.acts h.guard = true → live (s.readU o.a) b → b.hold = [] →
        ∃ t, exec (.unbind h o) s = .next t ∧ Done s t h 8 ∧ TeamPaths s t ∧ MemorySame s t ∧
          ∀ x, x ∈ t.binds ↔ x ∈ s.binds ∧ x.slot ≠ b.slot) ∧
      (∀ b, s.acts h.guard = true → live (s.readU o.a) b →
        let freed : State := { s with binds := s.binds.filter fun x => x.slot != b.slot }
        ((∀ u, releaseHeld b freed ≠ .ok () u) → ∃ t, exec (.unbind h o) s = .next t ∧ WaitsWith s t .retry) ∧
        ∀ u, releaseHeld b freed = .ok () u → u.team = s.team → u.slot = s.slot → u.running = s.running →
          ∃ t, exec (.unbind h o) s = .next t ∧ Done s t h 8 ∧ TeamPaths s t ∧ t = { u with team := t.team, running := t.running, retired := true })) ∧
    (∀ (b : Binding) (w : HeldWrite) (bank : Nat) (x : L2Line), b.hold = [w] → w.va % 4 = 0 → (∀ y ∈ s.binds, ∀ z ∈ y.hold, z.id ≠ w.id) →
      s.lineBare b.pid b.asid w.va bank x →
      ∃ u y, releaseHeld b s = .ok () u ∧ u.team = s.team ∧ u.binds = s.binds ∧ (u.bank bank).find x.key false = some y ∧
        ∀ j, j < 128 → byteAt y.data j =
          if w.va % 128 ≤ j ∧ j < w.va % 128 + 4 ∧ w.be.getLsbD (j - w.va % 128) = true then BitVec.ofNat 8 (w.data.toNat / 256 ^ (j - w.va % 128)) else byteAt x.data j) ∧
    (∀ o : UDA,
      let reads (i : Instr) (f : Binding → Nat) : Prop :=
        UniformResult i h 8 o.d s fun v => (s.liveBinding (s.readU o.a) = none → v = 0) ∧ ∀ b, live (s.readU o.a) b → v = BitVec.ofNat 64 (f b)
      reads (.qstaleCnt h o) (fun b => b.pending + 2 ^ 32 * b.coarse) ∧
      reads (.qstaleState h o) (fun b => 2 ^ 63 + (if b.err = true then 2 ^ 36 else 0) + (if b.hold = [] then 0 else 2 ^ 35) +
        2 ^ 32 * (match b.il with | .idle => 0 | .apend => 1 | .bpend => 2 | .init => 3) + b.maxCnt % 2 ^ 32) ∧
      reads (.qstaleCap h o) (·.capseq) ∧ reads (.qstaleApp h o) (·.appseq))

/-- R146, R316, R318, R321: a SETTLE with nothing outstanding waits until the engine has left INIT and applied everything captured so far, or the binding is in
ERR; then the marked lines are recomputed, and the team self-invalidates. While a line that this needs is in a directory transaction it waits on. -/
def Stated.Settling : Prop :=
  ∀ (h : Hdr) (o : UA) (s : State) (b : Binding) (handle : Dword) (lim q : Nat), s.acts h.guard = true →
    s.liveBinding handle = some b → s.binding b.slot = some b →
    (s.path.wait = some (.settle handle lim (some q)) ∨
      (∀ x l r, s.path.wait ≠ some (.settle x l r)) ∧ handle = s.readU o.a ∧ lim = s.waitLimit ∧ q = b.capseq ∧ s.team.copies = [] ∧ s.team.chains = [] ∧
        s.team.matq = [] ∧ s.flushed) →
    let i := Instr.settle h o
    let reached : Prop := b.err = true ∨ b.il ≠ .init ∧ q ≤ b.appseq
    let waits : Prop := ∃ t, exec i s = .next t ∧ WaitsWith s t (.settle handle lim (some q)) ∧ RunOver s t
    (¬reached → waits) ∧ (reached → (∀ u, speSettle b.slot s ≠ .ok () u) → waits) ∧
    ∀ u, reached → speSettle b.slot s = .ok () u → u.team = s.team → u.slot = s.slot → u.running = s.running →
      ∃ t, exec i s = .next t ∧ Done s t h 8 ∧ TeamPaths s t ∧ SelfInvalidated u t ∧
        t = { u with team := t.team, running := t.running, retired := true, cores := t.cores }

/-- UNBIND, QSTALE and SETTLE. -/
def Obligations.BindingUse : Prop := Stated.BindingUse ∧ Stated.Settling

/-! ## Privileged forms -/

/-- R404, R412, R413: TLBI drops the TLB entries and the cached table entries of its cover, with `.asid` and `.all` the cached ASID entries too, and closes
the windows that it covers; nothing else changes. A range past bit 51 traps with code 0x0B; a foreign ASID and a length of 0 have no effect. -/
def Stated.TranslationInvalidate : Prop :=
  ∀ (h : Hdr) (s : State) (p : Partition), s.acts h.guard = true → s.part s.team.pid = some p →
    let drops (i : Instr) (asid : Option (BitVec 16)) (lo hi : Nat) (whole : Bool) : Prop :=
      ∃ t, exec i s = .next t ∧ Done s t h 8 ∧ MemorySame s t ∧ TeamPaths s t ∧
        t = { s with team := t.team, running := t.running, retired := t.retired, tlb := t.tlb, walks := t.walks, shoots := t.shoots } ∧
        (∀ e, e ∈ t.tlb ↔ e ∈ s.tlb ∧ ¬(e.pid = s.team.pid ∧ Covers asid lo hi e.asid e.base (e.base + e.size))) ∧
        (∀ e, e ∈ t.walks ↔ e ∈ s.walks ∧ ¬(e.pid = s.team.pid ∧ Covers asid lo hi e.asid e.lo e.hi ∧ (whole = true ∨ e.hi - e.lo < 2 ^ 52))) ∧
        ∀ w, w ∈ t.shoots ↔ w ∈ s.shoots ∧ ¬(w.pid = s.team.pid ∧ (asid = none ∨ asid = w.asid) ∧ lo ≤ w.lo ∧ w.hi ≤ hi)
    let nothing (i : Instr) : Prop := ∃ t, exec i s = .next t ∧ Done s t h 8 ∧ OnlyPaths s t
    (∀ o : RangeO,
      let a := (s.readU o.a).toNat
      let n := (s.readU o.b).toNat
      let asid := (s.readU o.c).setWidth 16
      (n = 0 → nothing (.tlbiVa h o)) ∧ (0 < n → 2 ^ 52 < a + n → Traps (.tlbiVa h o) s 0x0B 0) ∧
      (0 < n → a + n ≤ 2 ^ 52 → p.ownsAsid asid = false → nothing (.tlbiVa h o)) ∧
      (0 < n → a + n ≤ 2 ^ 52 → p.ownsAsid asid = true → drops (.tlbiVa h o) (some asid) (a / 4096 * 4096) ((a + n + 4095) / 4096 * 4096) false)) ∧
    (∀ o : UC, let asid := (s.readU o.c).setWidth 16
      (p.ownsAsid asid = false → nothing (.tlbiAsid h o)) ∧ (p.ownsAsid asid = true → drops (.tlbiAsid h o) (some asid) 0 (2 ^ 52) true)) ∧
    drops (.tlbiAll h) none 0 (2 ^ 52) true

/-- R402, R404, R412, R413: after a CINV no L1 of the partition's cores and no bank of the partition holds a line of its cover; its window is open until the
TLBI. It waits while a write of the range is held or a directory transaction is open. The completion takes L1s without dirty words of the range, and no write to
it under way. -/
def Stated.CacheInvalidate : Prop :=
  ∀ (h : Hdr) (s : State) (p : Partition), s.acts h.guard = true → s.part s.team.pid = some p →
    let cores := p.quads.flatMap fun q => (List.range 4).map (4 * q + ·)
    let covered (asid : Option (BitVec 16)) (lo hi : Nat) (k : LineKey) : Prop := k.pid = s.team.pid ∧ Covers asid lo hi k.asid k.va (k.va + 128)
    let clears (i : Instr) (asid : Option (BitVec 16)) (lo hi : Nat) (whole : Bool) : Prop :=
      let held : Prop := (∃ b ∈ s.binds, b.pid = s.team.pid ∧ ∃ w ∈ b.hold, Covers asid lo hi b.asid w.va (w.va + 4)) ∨
        ∃ b ∈ p.banks, ∃ t ∈ (s.bank b).txns, covered asid lo hi t.key
      (held → ∃ t, exec i s = .next t ∧ t.path.wait = some .retry ∧ t.path.pc = s.path.pc ∧ TeamPaths s t) ∧
      (¬held → (∀ c ∈ cores, (∀ l ∈ (s.core c).l1, covered asid lo hi l.key → l.d = 0) ∧ ∀ a ∈ (s.core c).acks, a.kind.writes = true → ¬covered asid lo hi a.key) →
        (∀ q ∈ s.msgs, (∀ k d w x be l, q.msg = .wb k d w x be l → ¬covered asid lo hi k) ∧ ∀ k x be r, q.msg = .write k x be r → ¬covered asid lo hi k) →
        ∃ t, exec i s = .next t ∧ Done s t h 8 ∧ TeamPaths s t ∧ (∀ a, t.memByte a = s.memByte a) ∧
          (∀ c ∈ cores, ∀ l, l ∈ (t.core c).l1 ↔ l ∈ (s.core c).l1 ∧ ¬covered asid lo hi l.key) ∧
          (∀ b ∈ p.banks, ∀ l ∈ (t.bank b).lines, ¬covered asid lo hi l.key) ∧ ⟨s.team.pid, asid, lo, hi, whole⟩ ∈ t.shoots)
    let nothing (i : Instr) : Prop := ∃ t, exec i s = .next t ∧ Done s t h 8 ∧ OnlyPaths s t
    (∀ o : RangeO,
      let a := (s.readU o.a).toNat
      let n := (s.readU o.b).toNat
      let asid := (s.readU o.c).setWidth 16
      (n = 0 → nothing (.cinvVa h o)) ∧ (0 < n → 2 ^ 52 < a + n → Traps (.cinvVa h o) s 0x0B 0) ∧
      (0 < n → a + n ≤ 2 ^ 52 → p.ownsAsid asid = false → nothing (.cinvVa h o)) ∧
      (0 < n → a + n ≤ 2 ^ 52 → p.ownsAsid asid = true → clears (.cinvVa h o) (some asid) (a / 4096 * 4096) ((a + n + 4095) / 4096 * 4096) false)) ∧
    (∀ o : UC, let asid := (s.readU o.c).setWidth 16
      (p.ownsAsid asid = false → nothing (.cinvAsid h o)) ∧ (p.ownsAsid asid = true → clears (.cinvAsid h o) (some asid) 0 (2 ^ 52) true)) ∧
    clears (.cinvAll h) none 0 (2 ^ 52) true

/-- TLBI and CINV drop what their ranges cover. -/
def Obligations.Invalidation : Prop := Stated.TranslationInvalidate ∧ Stated.CacheInvalidate

/-- R397, R414: REPLAY returns the number of the partition's teams that are parked on a fault of its pages; each of them goes on at its parked instruction
for the lanes that are unfinished, a saved one once it is placed from the overflow list, and every suspended engine operation of it resumes. With `.dlv` the instruction takes a trap with code 0x0B and the address
of a fault instead. -/
def Stated.Replaying : Prop :=
  ∀ (h : Hdr) (o : ReplayO) (s : State), s.acts h.guard = true → s.team.park = none → s.part s.team.pid ≠ none →
    let a := (s.readU o.a).toNat
    let n := if o.c = 0 ∨ s.readU o.c = 0 then 1 else (s.readU o.c).toNat
    let asid := (s.readU o.b).setWidth 16
    let here (f : FaultAt) : Bool := f.asid == asid && decide (a / 4096 * 4096 ≤ f.va) && decide (f.va < (a + n + 4095) / 4096 * 4096)
    let named (t : Team) : Bool := t.pid == s.team.pid && match t.park with | some k => k.faults.any here | none => false
    let replays (i : Instr) (P : Team → Park → State → Team → Prop) : Prop :=
      ∃ t, exec i s = .next t ∧ Done s t h 8 ∧ MemorySame s t ∧ WroteU s t true o.d (fun v => v = BitVec.ofNat 64 (s.live.filter named).length) ∧
        ∀ x k, s.findTeam s.team.pid x.id = some x → x.pid = s.team.pid → x.park = some k → named x = true →
          (∀ y ∈ s.live, named y = true → y.id = x.id → y = x) → ∃ y, t.findTeam s.team.pid x.id = some y ∧ y.park = none ∧ P x k t y
    let listed (x : Team) (t : State) : Prop := x.phase = .saved → ∃ q e, t.part s.team.pid = some q ∧ e ∈ q.overflow ∧ e.kind = .saved x.id
    replays (.replay h o) (fun x k t y => listed x t ∧ (∀ c ∈ y.copies, ∀ va, c.stop ≠ some (.fault, va)) ∧ (∀ c ∈ y.chains, ∀ va, c.stop ≠ some (.fault, va)) ∧ ∀ q, x.path k.slot = some q → ∃ r, y.path k.slot = some r ∧ r.pc = q.pc ∧ r.mask = q.mask ∧
      r.wait = none ∧ r.runCount = (if q.charged then 1 else 0) ∧ r.redo = if k.engine then q.redo else some k.unfinished) ∧
    replays (.replayDlv h o) (fun x k t y => listed x t ∧ ∃ f ∈ k.faults, here f = true ∧ ∀ q, x.path k.slot = some q → ∃ r, y.path k.slot = some r ∧
      r.pc = q.pc ∧ r.mask = q.mask ∧ r.wait = some (.trapping 0x0B (BitVec.ofNat 64 f.va)))

/-- R415: a KILL that names no other team of the partition, or one of another generation, writes 0 and does nothing; one that names another team, resident or saved,
with children or without, ends it and them and writes 1, and they are then gone; one that names a saved team without children, outside a cohort and a rally, does so
at once, and tells its parent; while one that it ends has not stopped, or its flush is not done, it waits. -/
def Stated.Killing : Prop :=
  ∀ (h : Hdr) (o : KillO) (s : State), s.acts h.guard = true →
    let w := (s.readU o.a).toNat
    let id := w % 2 ^ 32
    let right (gen : BitVec 16) : Prop := w < 2 ^ 63 ∨ w / 2 ^ 32 % 2 ^ 16 = gen.toNat
    let nothing : Prop := UniformResult (.kill h o) h 8 o.d s fun v => v = 0
    (s.teamNamed s.team.pid id = none → s.queuedNamed s.team.pid id = none → nothing) ∧
    (∀ t, s.teamNamed s.team.pid id = some t → t.id = s.team.id ∨ ¬right t.gen → nothing) ∧
    (∀ x, s.teamNamed s.team.pid id = some x → x.id ≠ s.team.id → right x.gen →
      (∃ y ∈ s.live, y.pid = s.team.pid ∧ y.id = x.id ∧ (s.unacked y = true)) →
      ∃ t, exec (.kill h o) s = .next t ∧ t.path.wait = some .retry ∧ t.path.pc = s.path.pc) ∧
    (∀ x, s.teamNamed s.team.pid id = some x → x.id ≠ s.team.id → right x.gen →
      ((∃ u, s.killFamily s.team.pid x.id ((s.readU o.b).setWidth 32) = .busy u ∧ u.slot = s.slot ∧ u.path = s.path) →
        ∃ t, exec (.kill h o) s = .next t ∧ t.path.wait = some .retry ∧ t.path.pc = s.path.pc) ∧
      ∀ u, s.killFamily s.team.pid x.id ((s.readU o.b).setWidth 32) = .ok () u → u.team.phase ≠ .ended →
        ∃ t, exec (.kill h o) s = .next t ∧ Done u t h 8 ∧ WroteU u t true o.d (fun v => v = 1) ∧
          t = { u with team := t.team, running := t.running, retired := true } ∧
          t.team = { u.team with s := t.team.s, path0 := t.team.path0, path1 := t.team.path1 } ∧ t.findTeam s.team.pid x.id = none ∧
          ∀ y ∈ s.live, y.pid = s.team.pid → y.parent = some x.id → t.findTeam s.team.pid y.id = none) ∧
    (∀ x, s.teamNamed s.team.pid id = some x → x.id ≠ s.team.id → right x.gen → x.phase = .saved → (∀ r ∈ s.running, r.2.pid = s.team.pid → r.2.team ≠ x.id) → x.cohort = none → s.stopped true x = true →
      (∀ y ∈ s.live, y.pid = x.pid → y.id = x.id → y = x) →
      (∀ y ∈ s.live, y.parent ≠ some x.id) → (∀ r ∈ s.rally, r.team ≠ x.id) → s.findTeam s.team.pid x.id = some x → s.team.ending = none →
      s.team.phase ≠ .ended → s.team.pid = x.pid → (∀ y ∈ s.teams, y.ending = none) →
      ∃ t, exec (.kill h o) s = .next t ∧ Done s t h 8 ∧ WroteU s t true o.d (fun v => v = 1) ∧ t.findTeam s.team.pid x.id = none ∧
        (x.parent = some s.team.id → t.team.kids = s.team.kids.map fun k =>
          if k.first ≤ x.id ∧ x.id < k.first + k.size then
            { k with ended := k.ended + 1, bad := k.bad ++ [⟨s.cycle, x.id, (s.readU o.b).setWidth 32⟩] } else k))

/-- R401, R416: FQPOP takes the partition's oldest queued fault from the queue and writes its 256 bits to four registers, the lowest first; with none queued it
writes zeros. The waiting faults that the freed entry leaves room for enter the queue in the same step. -/
def Stated.FaultPop : Prop :=
  ∀ (h : Hdr) (o : UD) (s : State), s.acts h.guard = true → 1 ≤ o.d.toNat → o.d.toNat ≤ 124 →
    ∃ t, exec (.fqpop h o) s = .next t ∧ Done s t h 8 ∧ MemorySame s t ∧
      t = { s with team := t.team, running := t.running, retired := t.retired, fq := t.fq, fqWait := t.fqWait, atomics := t.atomics } ∧
      t.team = { s.team with s := t.team.s, path0 := t.team.path0, path1 := t.team.path1 } ∧
      let w (i : Nat) : Dword := t.team.uval (o.d + BitVec.ofNat 7 i)
      (∀ r : UReg, r.toNat < o.d.toNat ∨ o.d.toNat + 4 ≤ r.toNat → t.team.uval r = s.team.uval r) ∧
      match s.fq.find? fun e => e.pid == s.team.pid with
      | none => t.fq = s.fq ∧ t.fqWait = s.fqWait ∧ t.atomics = s.atomics ∧ ∀ i, i < 4 → w i = 0
      | some e =>
        (∃ u, exec (.faultEnqueue s.team.pid) { s with fq := s.fq.erase e } = .next u ∧ t.fq = u.fq ∧ t.fqWait = u.fqWait ∧ t.atomics = u.atomics) ∧
        ((∀ x ∈ s.fqWait, x.pid ≠ s.team.pid) → t.fq = s.fq.erase e) ∧ (e.va < 2 ^ 64 → e.ulanes < 2 ^ 11 → e.merge < 2 ^ 15 → e.core < 2 ^ 16 → e.team < 2 ^ 32 →
          w 0 = e.pc ∧ (w 1).toNat = e.va ∧
          (w 2).extractLsb' 0 4 = e.cause ∧ ((w 2).extractLsb' 4 4).toNat = e.kind.code ∧ (w 2).extractLsb' 8 5 = e.pid ∧ (w 2).extractLsb' 13 3 = 0 ∧
          (w 2).extractLsb' 16 16 = e.asid ∧ ((w 2).extractLsb' 32 32).toNat = e.team ∧
          ((w 3).extractLsb' 0 16).toNat = e.core ∧ (w 3).extractLsb' 16 16 = e.gen ∧ (w 3).extractLsb' 32 5 = 0 ∧ ((w 3).extractLsb' 37 11).toNat = e.ulanes ∧
          ((w 3).extractLsb' 48 15).toNat = e.merge ∧ (w 3).getLsbD 63 = true)

/-- R393, R417: PSWR writes TRAPCODE, TRAPPC and TRAPVA whole, and any other register as SWR does; PSWR.x writes the registers of the function register
block that it may write, in their RW fields, and traps with code 0x01 at an offset that is not a multiple of 8; PSWR.spawn sets the spawn-attribute word. -/
def Stated.PrivilegedWrites : Prop :=
  ∀ (h : Hdr) (s : State), s.acts h.guard = true →
    (∀ o : PswrO,
      let v := s.readU o.b
      let n := o.num.toNat
      ∃ t, exec (.pswr h o) s = .next t ∧ Done s t h 8 ∧ MemorySame s t ∧
        t = { s with team := t.team, running := t.running, retired := t.retired, free := t.free } ∧
        t.team = { s.team with trapcode := t.team.trapcode, trappc := t.team.trappc, trapva := t.team.trapva, chksb := t.team.chksb, chkFrom := t.team.chkFrom, tstat := t.team.tstat,
                               sure := t.team.sure, flagPend := t.team.flagPend,
                               path0 := t.team.path0, path1 := t.team.path1 } ∧
        t.team.trapcode = (if n = 0x17 then v else s.team.trapcode) ∧ t.team.trappc = (if n = 0x18 then v else s.team.trappc) ∧
        t.team.trapva = (if n = 0x19 then v else s.team.trapva) ∧ t.team.chksb = (if n = 0x0F then v.getLsbD 0 else s.team.chksb) ∧
        (n ≠ 0x10 → t.team.tstat = s.team.tstat) ∧ (n = 0x10 → s.team.flagPend = [] → t.team.tstat = s.team.sure &&& ~~~(v.setWidth 5))) ∧
    (∀ (o : PswrXO) (p : Partition), s.part s.team.pid = some p →
      let v := s.readU o.b
      let n := o.off.toNat
      let bits (hi lo : Nat) : Dword := BitVec.ofNat 64 (v.toNat / 2 ^ lo % 2 ^ (hi + 1 - lo) * 2 ^ lo)
      (n % 8 ≠ 0 → Traps (.pswrX h o) s 0x01 0) ∧
      (n % 8 = 0 → ∃ t q, exec (.pswrX h o) s = .next t ∧ Done s t h 12 ∧ MemorySame s t ∧ TeamPaths s t ∧ t.part s.team.pid = some q ∧
        q = { p with xasid := q.xasid, ceil := q.ceil, floor := q.floor, share := q.share, xsched := q.xsched, xfqdb := q.xfqdb, xtrapent := q.xtrapent,
                     xlaunch := q.xlaunch } ∧
        q.xasid = (if n = 0x1000 then bits 51 12 else p.xasid) ∧ q.xsched = (if n = 0x1040 then bits 23 16 ||| bits 7 0 else p.xsched) ∧
        q.xfqdb = (if n = 0x1050 then bits 51 3 else p.xfqdb) ∧ q.xtrapent = (if n = 0x1058 then bits 51 2 else p.xtrapent) ∧
        q.xlaunch = (if n = 0x1070 then bits 51 12 else p.xlaunch) ∧
        if n = 0x1008 ∧ v.toNat % 16 ≤ v.toNat / 256 % 16 ∧ v.toNat / 256 % 16 ≤ 8 then
          q.ceil = v.toNat / 256 % 16 ∧ q.floor = v.toNat % 16 ∧ q.share = p.share.map fun x => max (v.toNat % 16) (min (v.toNat / 256 % 16) x)
        else q.ceil = p.ceil ∧ q.floor = p.floor ∧ q.share = p.share)) ∧
    (∀ o : UA, ∃ t, exec (.pswrSpawn h o) s = .next t ∧ Done s t h 8 ∧ Outside s t ∧
      t.team = { s.team with attr := some (s.readU o.a), path0 := t.team.path0, path1 := t.team.path1 })

/-- R388, R405, R406, R418: PREEMPT registers a soft request with a resident team of the partition, PREEMPT.hard a hard one, and both write 1; a request joins one that is
pending, and hard prevails; with GRACE 0 every request is hard. A team not found, a queued child among these, one saved, waiting as a continuation or issuing itself gets none, and the result is 0. -/
def Stated.Preempting : Prop :=
  ∀ (h : Hdr) (o : UDA) (s : State), s.acts h.guard = true →
    let w := (s.readU o.a).toNat
    let id := w % 2 ^ 32
    let right (gen : BitVec 16) : Prop := w < 2 ^ 63 ∨ w / 2 ^ 32 % 2 ^ 16 = gen.toNat
    let requests (i : Instr) (hard : Bool) : Prop :=
      (s.teamNamed s.team.pid id = none → UniformResult i h 8 o.d s fun v => v = 0) ∧
      (∀ x, s.teamNamed s.team.pid id = some x → x.id = s.team.id ∨ ¬right x.gen ∨ x.phase ≠ .resident → UniformResult i h 8 o.d s fun v => v = 0) ∧
      (∀ x, s.teamNamed s.team.pid id = some x → x.id ≠ s.team.id → right x.gen → x.phase = .resident → s.findTeam s.team.pid x.id = some x →
        ∃ t y, exec i s = .next t ∧ Done s t h 8 ∧ MemorySame s t ∧ WroteU s t true o.d (fun v => v = 1) ∧ t.findTeam s.team.pid x.id = some y ∧
          t = { s with team := t.team, teams := t.teams, running := t.running, retired := t.retired } ∧ y = { x with preempt := y.preempt } ∧
          (y.preempt.map (·.hard)) = some (hard || (match x.preempt with | some r => r.hard | none => false) ||
            (match s.part s.team.pid with | some p => decide (p.xsched.toNat / 2 ^ 16 % 256 = 0) | none => false)) ∧
          (∀ r, x.preempt = some r → y.preempt.map (·.at_) = some r.at_) ∧ (x.preempt = none → y.preempt.map (·.at_) = some s.cycle))
    requests (.preempt h o) false ∧ requests (.preemptHard h o) true

/-- KILL and PREEMPT. That a killed team and its descendants halt together and end together, and that PREEMPT does not find a queued child, are the
model's reading (DEDUCED, log 41 and log 91). -/
def Obligations.Killing : Prop := Stated.Killing ∧ Stated.Preempting

/-- R37: a form of the task graph, of a binding, of the engines or a privileged form whose guard selects no lane does nothing but go on. -/
def Stated.IdleForms : Prop :=
  ∀ (h : Hdr) (s : State),
    (∀ o, Idle (.spawn h o) h 16 s) ∧ (∀ o, Idle (.spawnCoh h o) h 16 s) ∧ (∀ o, Idle (.spawnE h o) h 16 s) ∧
    Idle (.await h) h 8 s ∧ (∀ o, Idle (.awaitHandle h o) h 8 s) ∧ Idle (.cbar h) h 8 s ∧ Idle (.pub h) h 8 s ∧
    (∀ o, Idle (.pubSt h o) h (offBytes o.off) s ∧ Idle (.pubAdd h o) h (offBytes o.off) s) ∧ (∀ o, Idle (.awaitw h o) h (awLen o.cmp) s) ∧
    (∀ o, Idle (.xshuf h o) h 16 s) ∧ (∀ o, Idle (.bind h o) h 8 s) ∧
    (∀ o, Idle (.tlbiVa h o) h 8 s ∧ Idle (.cinvVa h o) h 8 s) ∧ (∀ o, Idle (.tlbiAsid h o) h 8 s ∧ Idle (.cinvAsid h o) h 8 s) ∧
    Idle (.tlbiAll h) h 8 s ∧ Idle (.cinvAll h) h 8 s ∧ (∀ o, Idle (.replay h o) h 8 s ∧ Idle (.replayDlv h o) h 8 s) ∧ (∀ o, Idle (.kill h o) h 8 s) ∧
    (∀ o, Idle (.fqpop h o) h 8 s) ∧ (∀ o, Idle (.pswr h o) h 8 s) ∧ (∀ o, Idle (.pswrX h o) h 12 s) ∧ (∀ o, Idle (.pswrSpawn h o) h 8 s) ∧
    (∀ o, Idle (.preempt h o) h 8 s ∧ Idle (.preemptHard h o) h 8 s)

/-- PSWR, and forms whose guard selects no lane. -/
def Obligations.PrivilegedWrites : Prop := Stated.PrivilegedWrites ∧ Stated.IdleForms

/-! ## Scheduling -/

/-- R334, R357, R361, R394, R407: a sub-core without a run chooses, among the paths that may go on, one of the lowest class whose last run ended
longest ago; a path that has been ready for the starvation time drops one class; a sub-core with nothing to run takes the next entry: a queued child
starts at its entry with its arguments, a continuation or a saved team becomes resident again where it stood. Which of several equal candidates is
chosen is a free value (DESIGN CHOICE, log 2); from when a path counts as waiting is the model's reading (DEDUCED, log 51). -/
def Obligations.Scheduling : Prop :=
  (∀ (sub : Nat) (s : State),
    (storeFind s.running sub ≠ none → exec (.runArbitration sub) s = .next s) ∧
    (storeFind s.running sub = none → s.choices sub ≠ [] →
      ∃ t c, exec (.runArbitration sub) s = .next t ∧ t = { s with running := t.running, free := t.free } ∧
        (∀ k, storeFind t.running k = if k = sub then some ⟨c.pid, c.team, c.slot⟩ else storeFind s.running k) ∧ c ∈ s.candidates sub ∧
        ∀ x ∈ s.candidates sub, c.cls < x.cls ∨ c.cls = x.cls ∧ c.last ≤ x.last)) ∧
  (∀ (team : Nat) (slot : Bool) (s : State) (x : Team) (p : Path) (q : Partition), s.evTeam team = some x → x.path slot = some p → s.part x.pid = some q →
    q.xsched.toNat % 256 ≠ 0 → s.ready x slot p = true → storeFind s.running x.subKey ≠ some ⟨x.pid, x.id, slot⟩ →
    1 < effective x.cls p.promo → p.readyAt + 256 * (q.xsched.toNat % 256) ≤ s.cycle →
    exec (.starvationPromotion team slot) s = .next (s.mapTeam x.pid x.id fun t => t.setPath slot (some { p with promo := p.promo + 1, readyAt := s.cycle })) ∧
      effective x.cls (p.promo + 1) = effective x.cls p.promo - 1) ∧
  (∀ (sub : Nat) (s : State) (p : Partition) (e : DeqEnt) (spec : TeamSpec) (next first : Nat) (frames : List Nat),
    s.partOfCore (sub / 8) = some p → s.idleSub sub = true → s.issuing p.pid = true → s.nextEntry p.pid sub = some e →
    e.kind = .spawn spec next first frames [] → next < spec.size → s.hasSplit (sub / 8) spec.window →
    (s.part spec.pid).bind Partition.freeSlot ≠ none →
    ∃ t c, exec (.dequeTake sub) s = .next t ∧ t.team = s.team ∧ t.teams = s.teams ++ [c] ∧ c.id = first + next ∧ c.pid = spec.pid ∧ c.asid = spec.asid ∧
      c.phase = .resident ∧ c.core = sub / 8 ∧ c.sub = sub % 8 ∧ c.lanes = spec.lanes ∧ c.vregs = spec.vregs ∧ c.ntiles = spec.tiles ∧
      c.window = spec.window ∧ c.frame = frames.getD next 0 ∧ c.cohidx = next ∧ c.cohsize = spec.size ∧ c.cohort = spec.cohort ∧ c.sys = spec.sys ∧
      c.cls = spec.cls ∧ c.path1 = none ∧ c.stack = [] ∧ (∃ q, c.path0 = some q ∧ q.pc = spec.entry ∧ q.mask = laneLimit spec.lanes ∧ q.budget = 65535 ∧ q.wait = none) ∧
      (∀ i, i < 8 → c.uval (BitVec.ofNat 7 (i + 1)) = spec.args.getD i 0) ∧ (∀ r : UReg, 9 ≤ r.toNat → c.uval r = 0) ∧
      (∀ m, c.mval m = 0) ∧ (∀ b, c.full b = true)) ∧
  (∀ (sub team : Nat) (s : State) (e : DeqEnt) (id child : Nat) (frames : List Nat) (x : Team), e ∈ s.deqs (evPid team) → e.sub = sub →
    e.kind = .cont id frames child → id % 2 ^ 32 = evId team → s.findTeam (evPid team) child = none →
    (∀ y ∈ s.deqs (evPid team), ∀ i f c, y.kind = .cont i f c → i % 2 ^ 32 = evId team → y = e) → s.entryFits sub e = true →
    s.issuing (evPid team) = true → e.pid = evPid team → s.findTeam (evPid team) id = some x → s.hasSplit (sub / 8) x.window → x.vregs ≤ 256 → x.lanes ≤ 1024 →
    ∃ t y, exec (.continuationTakeBack sub team) s = .next t ∧ t.findTeam (evPid team) id = some y ∧ TookPlace x y sub ∧ y.frame = x.frame ∧ y.kids = x.kids ∧
      y.live = x.live ∧ (∀ r l, r.toNat < x.contLive → l < 1024 → y.vval r l = x.vval r l) ∧ e ∉ t.deqs (evPid team)) ∧
  (∀ (sub team : Nat) (s : State) (p q : Partition) (e : DeqEnt) (id : Nat) (x y : Team) (bs : List Byte) (v : State),
    s.partOfCore (sub / 8) = some q → q.pid = evPid team → s.idleSub sub = true → s.issuing (evPid team) = true → s.nextEntry (evPid team) sub = some e →
    e.pid = evPid team → e.kind = .saved id → id % 2 ^ 32 = evId team → s.findTeam (evPid team) id = some x → (s.dropEntry e).part (evPid team) = some p →
    (s.dropEntry e).hasSplit (sub / 8) x.window → readArea (s.dropEntry e) (evPid team) 0 (x.saveAddr p) x.areaBytes = .ok bs v →
    teamOf bs x p v.serial = some (y, []) → v.team = s.team → v.teams = s.teams →
    ∃ t z, exec (.teamRestore sub team) s = .next t ∧ t.findTeam (evPid team) id = some z ∧ TookPlace y z sub ∧ z.tstat = y.tstat ∧ z.tiles = y.tiles ∧ z.win = y.win)

/-- R366, R367, R388, R405, R406: the wake message frees the paths of its cohort on its core; a queued sibling without a place, and a class-0 team
that has waited for the starvation time, have a team asked to leave; a soft request becomes hard when its grace is over and no point has been reached
since it registered; a team that is asked to leave is saved, once its area can be written, softly at a point of R405 with nothing outstanding, or
whole, with its GEN advanced, once its halt is complete. The statement does not say what the area holds. That a soft save waits for outstanding loads
is the model's reading (DEDUCED, log 40). -/
def Obligations.Preemption : Prop :=
  (∀ (core cohort : Nat) (s : State), ∃ t f, exec (.cbarWake core cohort) s = .next t ∧ t = { s with team := f s.team, teams := s.teams.map f } ∧
    ∀ x : Team, f x = { x with path0 := (f x).path0, path1 := (f x).path1 } ∧
      if x.core = core ∧ x.phase = .resident ∧ x.cohort = some cohort then
        ∀ slot, (f x).path slot = (x.path slot).map fun p => if p.wait = some .woken then { p with wait := none, readyAt := s.cycle } else p
      else f x = x) ∧
  (∀ (cohort : Nat) (s : State) (c : Cohort) (e : DeqEnt) (spec : TeamSpec) (next first : Nat) (fs cs : List Nat) (x : Team),
    let waits (y : Team) : Prop := (y = s.team ∨ y ∈ s.teams) ∧ y.pid = c.pid ∧ y.cohort = some cohort ∧ y.phase = .resident ∧ y.preempt = none ∧
      ∃ slot p, y.path slot = some p ∧ p.wait = some .barrier
    s.cohorts.find? (fun y => y.id == cohort) = some c → e ∈ s.deqs c.pid → e.kind = .spawn spec next first fs cs → spec.cohort = some cohort →
    s.placeable e = false → waits x →
    ∃ t y, exec (.cbarPlacementPreemption cohort) s = .next t ∧ waits y ∧
      t = ({ s with free := t.free } : State).mapTeam y.pid y.id fun z => { z with preempt := (z.request (s.hardNow y.pid) s.cycle).preempt }) ∧
  (∀ (core index : Nat) (s : State) (p : Partition) (e : DeqEnt) (lanes vregs tiles window quad k : Nat) (x : Team),
    let leaves (y : Team) : Prop := y ∈ s.residents y.core ∧ e.allows y.subKey = true ∧ s.fits y.core y.sub (some y.id) lanes vregs tiles window = true ∧
      ∀ z ∈ s.residents y.core, z.sub = y.sub → z.cls ≤ y.cls
    s.partOfCore core = some p → ((s.core core).deque ++ p.overflow)[index]? = some e → s.entryNeeds e = some (0, lanes, vregs, tiles, window) →
    p.xsched.toNat % 256 ≠ 0 → e.since + 256 * (p.xsched.toNat % 256) ≤ s.cycle → s.placeable e = false → quad ∈ p.quads → k < 32 →
    x.core = (32 * quad + k) / 8 → x.sub = k % 8 → leaves x → (∀ z ∈ s.residents x.core, z.sub = x.sub → z = x ∨ z.cls < x.cls) →
    ∃ t y, exec (.residencyStarvationRequest core index) s = .next t ∧ leaves y ∧
      t = ({ s with free := t.free } : State).mapTeam y.pid y.id fun z => { z with preempt := (z.request (s.hardNow y.pid) s.cycle).preempt }) ∧
  (∀ (team : Nat) (s : State) (x : Team) (r : PreReq) (p : Partition), s.evTeam team = some x → x.preempt = some r → r.hard = false → s.part x.pid = some p →
    (r.granted = true ∨ s.atPoint x = true → exec (.graceExpiry team) s = .next s) ∧
    (r.granted = false → s.atPoint x = false → r.at_ + 256 * (p.xsched.toNat / 2 ^ 16 % 256) ≤ s.cycle → exec (.graceExpiry team) s = .next (s.mapTeam x.pid x.id fun t => { t with preempt := some { r with hard := true } })) ∧
    (s.cycle < r.at_ + 256 * (p.xsched.toNat / 2 ^ 16 % 256) → exec (.graceExpiry team) s = .next s)) ∧
  (∀ (team : Nat) (s u t : State) (x : Team) (r : PreReq), s.evTeam team = some x → s.findTeam x.pid x.id = some x → x.preempt = some r → x.phase = .resident → x.ending = none →
    flushOf s x = .ok () u → u.team = s.team → u.teams = s.teams → u.part x.pid ≠ none →
    (r.hard = false → r.granted = true ∨ s.atPoint x = true → s.atBoundary x = true → s.outside x = true → x.copies = [] → x.chains = [] → x.matq = [] →
      s.unacked x = false → (∀ l ∈ s.loads, l.pid ≠ x.pid ∨ l.team ≠ x.id ∨ l.gen ≠ x.gen) → x.wafers = [] → u.saveTeam x false = .ok () t →
      exec (.softPreemptionGrant team) s = .next t ∧ Saved t x false) ∧
    (r.hard = true → s.halted x = true → u.saveTeam x true = .ok () t → exec (.hardPreemption team) s = .next t ∧ Saved t x true))

/-! ## What reaches a team -/

/-- R50, R81, R126, R211, R371, R408: a response writes its lanes, or its uniform register, and clears its scoreboard entries with the last access of
its load; one for a team that is gone, or of another generation, is dropped; a due result clears its entries in both paths; an acknowledgement
arrives, for a write once it has been performed at home and no binding holds it, and a flush's words are then clean; a watched word of host memory is
read again. That a result of variable latency stands in its register from the issue on, and that its entries clear once its last pass has issued, are
the model's reading (DEDUCED, log 50). -/
def Obligations.Responses : Prop :=
  (∀ (index : Nat) (s : State) (r : LoadRec), s.loads[index]? = some r →
    let rest := s.loads.eraseIdx index
    (s.findTeam r.pid r.team = none → exec (.responseArrival index) s = .next { s with loads := rest, free := s.free + 1 }) ∧
    ∀ x, s.findTeam r.pid r.team = some x →
      (x.gen ≠ r.gen ∨ x.core ≠ r.core ∨ x.phase ≠ .resident → exec (.responseArrival index) s = .next { s with loads := rest, free := s.free + 1 }) ∧
      (x.gen = r.gen → x.core = r.core → x.phase = .resident → r.any = [] → (∀ v ∈ r.vals, v.1 < 1024) → (r.vals.map (·.1)).Nodup →
        (r.wafer.ty.is64 = true → r.wafer.dreg.getLsbD 0 = false) →
        ∃ t y, exec (.responseArrival index) s = .next t ∧ t = { s with team := t.team, teams := t.teams, loads := rest, free := s.free + 1 } ∧
          t.findTeam r.pid r.team = some y ∧ y = { x with v := y.v, s := y.s, path0 := y.path0, path1 := y.path1 } ∧
          (r.wafer.kind = 3 → y.v = x.v ∧ ∀ d : UReg, d.setWidth 8 ≠ r.wafer.dreg → y.uval d = x.uval d) ∧
          (r.wafer.kind = 3 → ∀ n v d, r.vals = [(n, v)] → (d : UReg) ≠ 0 → d.setWidth 8 = r.wafer.dreg → y.uval d = v) ∧
          (r.wafer.kind ≠ 3 → y.s = x.s ∧ (∀ v ∈ r.vals, y.lval r.wafer.ty r.wafer.dreg v.1 = regForm r.wafer.ty v.2) ∧
            ∀ d l, l < 1024 → ¬((d = r.wafer.dreg ∨ (r.wafer.ty.is64 = true ∧ d = r.wafer.dreg ||| 1)) ∧ ∃ v ∈ r.vals, v.1 = l) → y.vval d l = x.vval d l) ∧
          ∀ slot, (y.path slot) = (x.path slot).map fun p =>
            if rest.any fun z => z.pid == r.pid && z.team == r.team && z.sb == r.sb then p else { p with sb := p.sb.filter fun e => e.id != r.sb })) ∧
  (∀ (team : Nat) (slot : Bool) (s : State) (x : Team) (p : Path) (e : SbEntry), s.evTeam team = some x → s.findTeam x.pid x.id = some x →
    x.path slot = some p → p.sb.find? (fun e => e.due.isSome) = some e → e.last < s.cycle →
    ∃ t y, exec (.sbResultWrite team slot) s = .next t ∧ t = { s with team := t.team, teams := t.teams } ∧ t.findTeam x.pid x.id = some y ∧
      y = { x with sure := y.sure, flagPend := y.flagPend, path0 := y.path0, path1 := y.path1 } ∧
      ∀ k, y.path k = (x.path k).map fun p => { p with sb := p.sb.filter fun z => z.id != e.id }) ∧
  (∀ (core index : Nat) (s u : State) (a : Ack), (s.core core).acks[index]? = some a →
    (if a.kind = .persist then persistStep s core a else s.performWrite a.id) = .ok () u →
    let waits : Prop := u.underWay a.id = true ∨ a.kind ≠ .persist ∧ u.heldLine core a.key = true
    (waits → exec (.requestAcknowledge core index) s = .next u) ∧
    (¬waits → ∃ t, exec (.requestAcknowledge core index) s = .next t ∧ t = { u with cores := t.cores } ∧ (∀ k, k ≠ core → t.core k = u.core k) ∧
      t.core core = { u.core core with acks := (u.core core).acks.eraseIdx index, l1 := (t.core core).l1 } ∧
      (a.kind ≠ .flush → (t.core core).l1 = (u.core core).l1) ∧
      (a.kind = .flush → ∀ l, l ∈ (t.core core).l1 ↔ ∃ x ∈ (u.core core).l1, if x.key = a.key then
        l = { x with d := x.d &&& ~~~x.out, be := l.be, out := 0 } ∧ (x.v ≠ 0 ∨ x.d &&& ~~~x.out ≠ 0) ∧
          ∀ j, j < 128 → l.be.getLsbD j = (x.be.getLsbD j && l.d.getLsbD (j / 4)) else l = x))) ∧
  (∀ (s : State) (id : Nat), (∀ x ∈ s.inbox, ∀ key data be r, x.pkt.msg = .write key data be r → r.id ≠ id) → s.performWrite id = .ok () s) ∧
  (∀ (team : Nat) (s : State) (x : Team) (p : Partition) (w : Watch) (a : Nat), s.evTeam team = some x → s.part x.pid = some p → p.err = false →
    s.watches.filter (fun y => y.pid == x.pid && y.team == x.id && y.got.isNone) = [w] → s.watchHost w = some a → s.portLine (a / 64) = none →
    (s.portCaches p = true → (∀ r ∈ s.portReq, r.1 ≠ a / 64) →
      exec (.awaitwPoll team) s = .next { s with portReq := s.portReq ++ [(a / 64, false)] }) ∧
    (s.portCaches p = false → (∀ h ∈ s.hostOut, h.pid ≠ x.pid) → s.hostSent = [] → a % (if w.ty.is64 then 8 else 4) = 0 →
      ∃ t v, exec (.awaitwPoll team) s = .next t ∧ t = { s with watches := t.watches } ∧ t.watches.length = s.watches.length ∧
        (∀ k, k < (if w.ty.is64 then 8 else 4) → s.hostByte (a + k) = BitVec.ofNat 8 (v / 256 ^ k)) ∧ v < 2 ^ 64 ∧
        ∀ i : Nat, s.watches[i]? = some w → t.watches[i]? = some (if condHolds w.ty w.cc (BitVec.ofNat 64 v) w.cmp = true then { w with got := some (BitVec.ofNat 64 v) } else w)))

/-- R398, R400, R419: the waiting faults of a partition enter the queue oldest first, all those of the oldest fault's instruction in one step; each enters when the
partition is below its limit and has an entry reserved or shared, and the doorbell addition of 1 is then on its way; without room it waits. -/
def Stated.FaultQueue : Prop :=
  ∀ (pid : BitVec 5) (s : State) (p : Partition), s.part pid = some p →
    let oldest (u : State) : Option FaultEntry := u.fqWait.find? fun e => e.pid == pid
    let held (u : State) (q : Partition) : Nat := (u.fq.filter fun e => e.pid == q.pid).length
    let resv (q : Partition) : Nat := q.xfq.toNat % 2 ^ 11
    let room (u : State) : Prop := held u p < p.xfq.toNat / 2 ^ 16 % 2 ^ 11 ∧
      (held u p < resv p ∨ (s.parts.map fun q => held u q - resv q).foldl (· + ·) 0 + (s.parts.map resv).foldl (· + ·) 0 < Config.faultEntries)
    let enters (u v : State) : Prop :=
      (¬(room u) → v = u) ∧ (oldest u = none → v = u) ∧
      ∀ e, room u → oldest u = some e → v = { u with
        fq := u.fq ++ [e], fqWait := u.fqWait.erase e,
        atomics := if p.xfqdb = 0 then u.atomics else u.atomics ++ [⟨pid, 0, p.xfqdb.toNat / 2 ^ 3 % 2 ^ 49 * 8, .n64, .add, 1⟩] }
    (oldest s = none → exec (.faultEnqueue pid) s = .next s) ∧
    ∀ e, oldest s = some e →
      let n := (s.fqWait.filter fun x => decide (x.pid = e.pid ∧ x.team = e.team ∧ x.gen = e.gen ∧ x.pc = e.pc)).length
      ∃ run : Nat → State, run 0 = s ∧ exec (.faultEnqueue pid) s = .next (run n) ∧ ∀ k, k < n → enters (run k) (run (k + 1))

/-- The fault queue, FQPOP and REPLAY. When a waiting fault is admitted, and TRAPVA of a delivered fault, are the model's reading (DEDUCED, log 42 and
log 43). -/
def Obligations.Replaying : Prop := Stated.Replaying ∧ Stated.FaultPop ∧ Stated.FaultQueue

/-- R53 to R55, R337, R412: the decode traps in their order, each with its code; the word at the pc of a path takes the trap that its check gives, with TRAPVA its own
address for code 0x04; a legal word that is no YLD, on a path without budget, ends the team, once it is halted and flushed. -/
def Obligations.DecodeTraps : Prop :=
  (∀ (s : State) (bs : List Byte),
    let length := lowWordLength (bytesWord bs)
    let tooLong : Prop := s.path.runCount = Config.runLength ∧ s.path.charged = false
    (bs.length < length → s.checkCode bs = .trap 0x04) ∧
    (length ≤ bs.length → tooLong → s.checkCode bs = .trap 0x07) ∧
    (∀ m, length ≤ bs.length → ¬tooLong → decode bs = .reject m → s.checkCode bs = .trap 0x01) ∧
    (∀ i, length ≤ bs.length → ¬tooLong → decode bs = .instr i → s.team.solo = none →
      (0xE0 ≤ Instr.opcode i → Instr.opcode i ≤ 0xE6 → s.team.sys = false → s.checkCode bs = .trap 0x02) ∧
      (¬(0xE0 ≤ Instr.opcode i ∧ Instr.opcode i ≤ 0xE6) ∨ s.team.sys = true → Instr.withinCounts i s.team.vregs s.team.ntiles = false →
        s.checkCode bs = .trap 0x03) ∧
      (¬(0xE0 ≤ Instr.opcode i ∧ Instr.opcode i ≤ 0xE6) ∨ s.team.sys = true → Instr.withinCounts i s.team.vregs s.team.ntiles = true →
        s.checkCode bs = .legal i))) ∧
  (∀ (s u : State) (bs : List Byte) (code : Nat), s.fetch = .code bs u → u.checkCode bs = .trap code → code < 256 →
    exec (.notLegalInstruction (BitVec.ofNat 8 code)) s = u.trap code (if code = 0x04 then u.path.pc else 0)) ∧
  (∀ (s u v : State) (bs : List Byte) (i : Instr), s.path.budget = 0 → s.path.charged = false → s.fetch = .code bs u → u.checkCode bs = .legal i →
    (∀ h o, i ≠ .yld h o) → exec .yieldWatchdog s = u.trap 0x06 0 ∧
    let h := u.halt u.team.pid [u.team.id]
    (u.team.phase = .resident → h.stopped true h.team = true → flushOf h h.team = .ok () v → v.team = h.team → v.teams = h.teams →
      (∀ y ∈ u.teams, y.pid = u.team.pid → y.id ≠ u.team.id ∧ y.parent ≠ some u.team.id) → u.team.parent ≠ some u.team.id →
      ∃ t, exec .yieldWatchdog s = .next t ∧ t.findTeam u.team.pid u.team.id = none))

/-- R132, R133: an entry of a rally table, the first 16 posted to its bank, pairs with the oldest unpaired one there of its partition and ID from another team; the exchange, at once or with a later event, gives each team
the other's old registers, position by position, in the lanes of both, and lets both paths go on, where no matrix command reads those registers; an unpaired
entry whose time is over is withdrawn, and its XSHUF traps with code 0x09, once the team's loads are answered and its save area can be written, with no write of its core under ASID 0 on its way. -/
def Stated.Rallies : Prop :=
  ∀ (index : Nat) (s : State) (r : Rally), s.rally[index]? = some r →
    let free (e : Rally) (a : Team) : Prop := (∀ d ∈ e.regs, a.reads d = false) ∧ ∀ q, a.path e.slot = some q → q.spoils = []
    (∀ x n, r.paired = some n → s.rally.find? (fun y => y.paired == some n && y.team != r.team) = some x → r.regs.Nodup → x.regs.Nodup → x.pid = r.pid →
      ∀ a b, s.findTeam r.pid r.team = some a → s.findTeam x.pid x.team = some b → free r a → free x b →
      ∃ t, exec (.rallyPair index) s = .next t ∧ Exchanged s t r x a b) ∧
    (let table := (s.rally.filter fun y => y.bank == r.bank).take 16
     let fits (x : Rally) : Prop := x.pid = r.pid ∧ x.id = r.id ∧ x.paired = none ∧ x.team ≠ r.team
     r.paired = none → r ∈ table →
      ((∀ x ∈ table, ¬fits x) → exec (.rallyPair index) s = .next s) ∧
      (∀ (k : Nat) (x : Rally), table[k]? = some x → fits x → (∀ j, j < k → ∀ y, table[j]? = some y → ¬fits y) → r.regs.Nodup → x.regs.Nodup →
        ∀ a b, s.findTeam r.pid r.team = some a → s.findTeam x.pid x.team = some b → free r a → free x b →
        ∃ t, exec (.rallyPair index) s = .next t ∧ (Exchanged s t r x a b ∨
          t = { s with free := t.free, serial := s.serial + 1, rally := s.rally.map fun y => if y = r ∨ y = x then { y with paired := some s.serial } else y }))) ∧
    (r.paired = none → s.cycle < r.deadline → exec (.rallyTimeout index) s = .next s) ∧
    (r.paired = none → r.deadline ≤ s.cycle → ∀ x q p u, s.findTeam r.pid r.team = some x → x.path r.slot = some q → s.part r.pid = some p →
      x.solo = none → field p.xtrapent 51 2 ≠ 0 → s.writingAny x.core r.pid 0 = false → (∀ l ∈ s.loads, l.pid ≠ r.pid ∨ l.team ≠ r.team ∨ l.gen ≠ x.gen) →
      (({ s with rally := s.rally.erase r } : State).focusOn r.pid r.team r.slot).trapSave p 0x09 0 = .ok () u →
      ∃ t y k, exec (.rallyTimeout index) s = .next t ∧ t.rally = s.rally.erase r ∧ t.findTeam r.pid r.team = some y ∧ y.trapcode = 0x09 ∧
        y.trappc = q.pc ∧ y.trapva = 0 ∧ y.v = x.v ∧ y.path r.slot = some k ∧ k.pc = BitVec.ofNat 64 (field p.xtrapent 51 2 * 4) ∧ k.wait = none)

/-- XSHUF: rally posts, exchanges and timeouts. That an exchange is two steps is the model's choice (DESIGN CHOICE, log 53). -/
def Obligations.Rallies : Prop := Stated.RallyPosts ∧ Stated.Rallies

/-! ## Translation, memory and the die caches -/

/-- R56 to R59, R71, R74: a walk that ends well leaves a TLB entry that serves the address; a permission miss upgrades the bits of the home line and
of the core's line; a home agent merges the bytes of a write-back into memory, behind earlier ones for its 256-byte block; a block that it cannot
correct is poisoned, and the owner of its channel enters its error state; block b of a frame lives on channel b mod n of its set; a frame without
storage stops the access. Which MTU serves a bank, the size of a TLB entry, the cause of an entry with V = 0 and a reserved bit set, and that nothing
cached under an earlier ASID entry serves, are the model's (DESIGN CHOICE, log 10 and log 62; DEDUCED, log 11 and log 63); that nothing mends a
poisoned block, and that the error of a frame without a channel set reaches no partition, are its choice (DESIGN CHOICE, log 61). -/
def Obligations.Translations : Prop :=
  (∀ (pid : BitVec 5) (asid : BitVec 16) (va : Nat) (s u : State) (a : Nat) (host : Bool) (perms : Perms), translate s pid asid va = .ok a host perms u →
    ∃ t, exec (.mtuWalk pid asid va) s = .next t ∧ t = { s with tlb := t.tlb, walks := t.walks } ∧
      (s.shooting pid asid va = false → ∃ e ∈ t.tlb, e.pid = pid ∧ e.asid = asid ∧ e.base ≤ va ∧ va < e.base + e.size ∧ e.addr + (va - e.base) = a ∧
        e.host = host ∧ e.perms = perms) ∧
      (s.shooting pid asid va = true → t = s)) ∧
  (∀ (pid : BitVec 5) (asid : BitVec 16) (va : Nat) (s : State),
    let stops : Prop := ∃ t, exec (.mtuWalk pid asid va) s = .next t ∧ ErrFrame s t ∧ (s.poison = [] → t = s)
    (∀ c, translate s pid asid va = .fault c → stops) ∧ (translate s pid asid va = .misplaced → stops) ∧
    (translate s pid asid va = .unbacked → exec (.mtuWalk pid asid va) s = .fault .unbackedFrame)) ∧
  (∀ (core : Nat) (asid : BitVec 16) (va : Nat) (fetch : Bool) (s u : State) (p : Partition) (die home a : Nat) (l : L2Line) (host : Bool) (perms : Perms),
    let key := keyOf p.pid asid va
    let has (q : Perms) : Bool := if fetch then q.x else q.w
    s.partOfCore core = some p → s.part p.pid = some p → p.home asid va = some (die, home) → va < 2 ^ 52 → (s.bank home).busyOn key = false →
    (fetch = false → s.hostCache.contains (p.pid, va / 128) = false) → (s.bank home).find key false = some l → has l.perms = false →
    translate s p.pid asid va = .ok a host perms u → has perms = true →
    ∃ t, exec (.permissionMiss core asid va fetch) s = .next t ∧
      (t.bank home).find key false = some { l with perms := { l.perms with w := l.perms.w || perms.w, x := l.perms.x || perms.x } } ∧
      (∀ x, (s.core core).findLine key none = some x →
        ∃ y, (t.core core).findLine key none = some y ∧ has y.perms = true ∧ y = { x with perms := y.perms }) ∧
      (∀ b, t.memByte b = s.memByte b) ∧ t = { s with tlb := t.tlb, walks := t.walks, banks := t.banks, cores := t.cores }) ∧
  (∀ (index : Nat) (bad : Bool) (s : State),
    let struck (t : State) (block : Nat) (chan : Option Nat) : Prop :=
      (∀ b, b ∈ t.poison ↔ b ∈ s.poison ∨ bad = true ∧ b = block) ∧
      (bad = false ∨ chan.bind s.channelOwner = none →
        t.parts = s.parts ∧ t.hostOut = s.hostOut ∧ t.hostSent = s.hostSent ∧ t.hostMem = s.hostMem ∧ t.aer = s.aer ∧ t.free = s.free) ∧
      ∀ p, bad = true → chan.bind s.channelOwner = some p → Erred s t p.pid 0
    (∀ w, s.haq[index]? = some w → (∃ x ∈ s.haq.take index, x.spa / 256 = w.spa / 256) → exec (.homeAgentRequest index bad) s = .next s) ∧
    (∀ w, s.haq[index]? = some w → (∀ x ∈ s.haq.take index, x.spa / 256 ≠ w.spa / 256) →
      ∃ t, exec (.homeAgentRequest index bad) s = .next t ∧
        ErrFrame { s with haq := s.haq.eraseIdx index, mem := t.mem, poison := t.poison } t ∧ struck t (w.spa / 256) w.chan ∧
        ∀ a, t.memByte a = if w.spa ≤ a ∧ a < w.spa + w.data.length ∧ w.be.getD (a - w.spa) false = true then w.data.getD (a - w.spa) 0 else s.memByte a) ∧
    (s.haq.length ≤ index → ∃ t, exec (.homeAgentRequest index bad) s = .next t ∧ ErrFrame { s with poison := t.poison } t ∧
      struck t (index - s.haq.length) (s.channelOf ((index - s.haq.length) * 256)))) ∧
  ∀ (s : State) (frame b k : Nat), b < 8192 → k < 256 →
    let set := storeGet [] s.chanSets frame
    s.channelOf (frame * 2097152 + b * 256 + k) = set[b % set.length]?

/-- R86, R87, R93, R106, R140, R400: a fill takes the bytes that no write has given from memory; a line that leaves a bank, or an L1, sends only its
dirty words on, with their enables; a remote one stays while a message of its die about it is under way; an atomic on its way is performed in its home
bank, or at the host port, or dropped where it cannot be; at the end of an epoch the share of remote ways moves one step toward the sampling group
with clearly fewer misses. That dirty words whose home can no longer take them are lost, that a poisoned block stays poisoned, when write requests for
one line wait, when an epoch ends, and when a remote line stays, are the model's (DESIGN CHOICE, log 24 and log 61; DEDUCED, log 66, log 78 and log
81). -/
def Obligations.CacheEvents : Prop :=
  (∀ (bank index : Nat) (sector : BitVec 2) (s : State) (l : L2Line), (s.bank bank).lines[index]? = some l → l.remote = false →
    s.poison.contains ((l.pa + 32 * sector.toNat) / 256) = false →
    ∃ t y, exec (.l2Fill bank index sector) s = .next t ∧ t = { s with banks := t.banks } ∧ (t.bank bank).lines[index]? = some y ∧
      y = { l with data := y.data, v := y.v } ∧ (∀ k, k < 32 → y.v.getLsbD k = (l.v.getLsbD k || decide (k / 8 = sector.toNat))) ∧
      ∀ j, j < 128 → byteAt y.data j =
        if j / 32 = sector.toNat ∧ l.v.getLsbD (j / 4) = false ∧ ¬(l.d.getLsbD (j / 4) = true ∧ l.be.getLsbD j = true) then s.viewByte (l.pa + j) else byteAt l.data j) ∧
  (∀ (bank index : Nat) (s : State) (l : L2Line), (s.bank bank).lines[index]? = some l →
    (l.remote = false → (s.bank bank).busyOn l.key = false → l.own = 0 → (s.bank bank).dirEntry l.key = none →
      ∃ t, exec (.l2LineEviction bank index) s = .next t ∧ t = { s with banks := t.banks, haq := t.haq } ∧ (t.bank bank).find l.key false = none ∧
        (∀ b, t.memByte b = s.memByte b) ∧
        ∀ a, t.viewByte a = if l.pa ≤ a ∧ a < l.pa + 128 ∧ l.d.getLsbD ((a - l.pa) / 4) = true ∧ l.be.getLsbD (a - l.pa) = true then byteAt l.data (a - l.pa)
          else s.viewByte a) ∧
    (l.remote = true → ∀ p die home, s.part l.key.pid = some p → p.home l.key.asid l.key.va = some (die, home) →
      (s.inFlight l.key (denseOf p.dies (bank / 64)) home bank = true → exec (.l2LineEviction bank index) s = .next s) ∧
      (s.inFlight l.key (denseOf p.dies (bank / 64)) home bank = false → ∃ t, exec (.l2LineEviction bank index) s = .next t ∧ t = { s with banks := t.banks, packets := t.packets } ∧ (t.bank bank).find l.key true = none ∧
        (l.d = 0 → t.packets = s.packets) ∧
        (l.d ≠ 0 → ∃ k be, t.packets = s.packets ++ [k] ∧ k.dst = .bank home ∧ k.msg = .wb l.key (denseOf p.dies (bank / 64)) l.d l.data be true ∧
          ∀ j, j < 128 → be.getLsbD j = (l.be.getLsbD j && l.d.getLsbD (j / 4)))))) ∧
  (∀ (core : Nat) (set : BitVec 7) (s : State) (l : L1Line), ((s.core core).l1.filter fun x => l1Set x.key == set.toNat).getLast? = some l →
    (l.d = 0 → ∃ t, exec (.l1Replacement core set) s = .next t ∧ t = { s with cores := t.cores } ∧ (∀ k, k ≠ core → t.core k = s.core k) ∧
      t.core core = { s.core core with l1 := (s.core core).l1.filter fun x => !(x.key == l.key && x.k == l.k) }) ∧
    (∀ u, l.d ≠ 0 → pushWords s (l.owner core 0) l.key.va l.perms l.host l.data (dirtyBytes l.d l.be) .writeback = .ok () u →
      (∃ id, (u.core core).acks = (s.core core).acks ++ [⟨l.key.pid, 0, .writeback, keyOf l.key.pid l.key.asid l.key.va, 1, id⟩]) ∧
      ∃ t, exec (.l1Replacement core set) s = .next t ∧ t = { u with cores := t.cores } ∧ (∀ k, k ≠ core → t.core k = u.core k) ∧
        t.core core = { u.core core with l1 := (u.core core).l1.filter fun x => !(x.key == l.key && x.k == l.k) })) ∧
  (∀ (index : Nat) (s : State) (a : AtomicRec), s.atomics[index]? = some a →
    let gone : State := { s with atomics := s.atomics.eraseIdx index }
    (∀ m u, homeAtomicOp gone a.pid a.asid a.va a.ty a.aop a.o 0 true none = .ok m u → exec (.homeAtomic index) s = .next u) ∧
    (∀ c, homeAtomicOp gone a.pid a.asid a.va a.ty a.aop a.o 0 true none = .no (.fault c) → exec (.homeAtomic index) s = .next gone) ∧
    (homeAtomicOp gone a.pid a.asid a.va a.ty a.aop a.o 0 true none = .no .misplaced → exec (.homeAtomic index) s = .next gone) ∧
    (∀ u, homeAtomicOp gone a.pid a.asid a.va a.ty a.aop a.o 0 true none = .no (.busy u) → exec (.homeAtomic index) s = .next s) ∧
    (∀ addr p u, homeAtomicOp gone a.pid a.asid a.va a.ty a.aop a.o 0 true none = .no (.host addr p u) →
      exec (.homeAtomic index) s = .next { u with hostAtoms := u.hostAtoms ++ [⟨a.pid, 0, false, 0, addr, a.ty, a.aop, a.o, 0, none, false⟩] })) ∧
  (∀ (pid : BitVec 5) (die : BitVec 2) (s : State) (p : Partition), s.part pid = some p →
    let banks := p.banksOn (p.dies.getD die.toNat 4)
    let hi := (banks.map fun b => (s.bank b).hiMiss).foldl (· + ·) 0
    let lo := (banks.map fun b => (s.bank b).loMiss).foldl (· + ·) 0
    let old : Int := (p.share.getD die.toNat 0 : Nat)
    (s.cycle / 65536 ≤ storeGet 0 p.epochs die.toNat → exec (.rwayEpochEnd pid die) s = .next s) ∧
    (storeGet 0 p.epochs die.toNat < s.cycle / 65536 →
    ∃ t q, exec (.rwayEpochEnd pid die) s = .next t ∧ t = { s with banks := t.banks, parts := t.parts } ∧ t.part pid = some q ∧
      q = { p with share := q.share, epochs := q.epochs } ∧ storeGet 0 q.epochs die.toNat = s.cycle / 65536 ∧
      (∀ b ∈ banks, t.bank b = { s.bank b with hiMiss := 0, loMiss := 0 }) ∧ (∀ b, b ∉ banks → t.bank b = s.bank b) ∧
      (∀ d, d ≠ die.toNat → q.share[d]? = p.share[d]?) ∧
      (die.toNat < p.share.length → p.floor ≤ p.ceil →
        ((q.share.getD die.toNat 0 : Nat) : Int) = max (p.floor : Int) (min (p.ceil : Int)
          (if hi < lo ∧ max hi lo < 16 * (lo - hi) then old + 1 else if lo < hi ∧ max hi lo < 16 * (hi - lo) then old - 1 else old)))))

/-! ## The directory -/

/-- R96, R98, R99, R104: a request at home of a line without a transaction, whose words are valid and owned by no other die, is answered at once: RD
with the words, UPG with the grant, RDX with the words and ownership, with INV to every other pointer for the latter two; the requester's pointer
becomes valid, and the transaction stays open until its answers are in. A request of a line in a transaction, or behind an earlier request for the
line, waits; of UPGs that arrive in one cycle one is served, and the others become RDXs. The index of a directory set, that a transaction stays open
until its answer has landed, and when an UPG becomes an RDX, are the model's (DESIGN CHOICE, log 9; DEDUCED, log 14 and log 66). -/
def Obligations.DirectoryRequests : Prop :=
  ∀ (index h : Nat) (s : State) (k : Packet) (key : LineKey) (die d : Nat) (words : BitVec 32) (p : Partition) (l : L2Line) (at_ : Nat),
    s.inbox[index]? = some ⟨.bank h, k, at_⟩ → s.part key.pid = some p → p.home key.asid key.va = some (d, h) → die < 4 →
    (s.bank h).find key false = some l → l.key = key → key.tag < 2 ^ 45 → (∀ j, j < 32 → words.getLsbD j = true → l.v.getLsbD j = true ∧ (l.owner j = none ∨ l.owner j = some die)) →
    (s.bank h).dirEntry key ≠ none ∨ ((s.bank h).dir.filter fun e => e.set == dirSet key).length < 16 →
    let copy := s.keepBank key die
    let others := (s.bank h).others key die
    (∀ e, (s.bank h).dirEntry key = some e → ∀ q ∈ e.ptrs, q.1 = die → q.2 = copy) →
    let first : Prop := ∀ x ∈ s.inbox.take index, x.stop = .bank h → x.pkt.msg.asks key = false
    let mayWrite : Prop := l.perms.w = true ∧ s.hostCache.contains (key.pid, key.va / 128) = false
    let rival (x : Arrived) : Prop := x ∈ s.inbox.eraseIdx index ∧ x.stop = .bank h ∧ x.at_ = at_ ∧ ∃ e w, x.pkt.msg = .upg key e w
    let served (e : Instr) (kind : TxnKind) (m : Msg) : Prop :=
      ((s.bank h).busyOn key = true ∨ ¬first → exec e s = .next s) ∧
      ((s.bank h).busyOn key = false → first → (kind ≠ .rd → mayWrite) →
        ∃ t y x q new, exec e s = .next t ∧ t = { s with inbox := s.inbox.eraseIdx index, packets := t.packets, banks := t.banks } ∧
          t.packets = s.packets ++ new ++ [q] ∧ q.dst = .bank copy ∧ q.msg = m ∧
          new.map (fun z => (z.dst, z.msg)) = (if kind = .rd then [] else others.map fun o => (.bank (s.copyBank h key o), .inv key o words)) ∧
          (t.bank h).find key false = some y ∧ y = { l with own := y.own, odie := y.odie } ∧
          (∀ j, j < 32 → y.owner j = if kind ≠ .rd ∧ words.getLsbD j = true then some die else l.owner j) ∧
          (t.bank h).dirEntry key = some x ∧ (die, copy) ∈ x.ptrs ∧ (∀ o ∈ others, o ∈ x.ptrs.map (·.1)) ∧
          (t.bank h).txn key = some ⟨key, kind, die, words, [], if kind = .rd then [] else others, [], true, false⟩)
    (k.msg = .rd key die words → served (.rd index) .rd (.data key words l.data l.perms l.pa false)) ∧
    (k.msg = .upg key die words → s.cycle ≤ at_ → exec (.upg index) s = .next s) ∧
    (k.msg = .upg key die words → at_ < s.cycle → (∀ x, ¬rival x) →
      served (.upg index) (if s.holdsClean key die words = true then .upg else .rdx)
        (if s.holdsClean key die words = true then .grant key words else .data key words l.data l.perms l.pa true)) ∧
    (∀ x e w, k.msg = .upg key die words → at_ < s.cycle → (s.bank h).busyOn key = false → first → mayWrite → rival x → x.pkt.msg = .upg key e w →
      ∃ t, exec (.upg index) s = .next t ∧ ({ x with pkt := { x.pkt with msg := .rdx key e w } } : Arrived) ∈ t.inbox) ∧
    (k.msg = .rdx key die words → served (.rdx index) .rdx (.data key words l.data l.perms l.pa true))

/-- R97 to R99, R101 to R103, R105: a WB is merged at home byte by byte, or held while a forward to its die is outstanding, and clears the pointer of
a die that it leaves where the entry covers no other line; a bank answers an INV by dropping the words, an INV-WB by sending its owned words and
dropping the line, a forward by sending them and keeping them clean; without a copy, or for another partition's line, it answers with a null
acknowledge, which the home counts; a grant lets the waiting write be performed in the copy. That a word that comes home is clean there, and that a
transaction stays open until its answer has landed, are the model's reading (DEDUCED, log 14 and log 15); the PID of a null acknowledge is its choice
(DESIGN CHOICE, log 67). -/
def Obligations.DirectoryAnswers : Prop :=
  ∀ (index b : Nat) (s : State) (k : Packet) (key : LineKey) (die : Nat) (words : BitVec 32), ∀ at_, s.inbox[index]? = some ⟨.bank b, k, at_⟩ →
    let rest := s.inbox.eraseIdx index
    (∀ data be leaves l, k.msg = .wb key die words data be leaves →
      (∀ x, (s.bank b).txn key = some x → die ∈ x.fwd → exec (.wb index) s = .next s) ∧
      ((s.bank b).busyOn key = false → (s.bank b).find key false = some l → l.key = key → l.perms.wt = false →
        ∃ t y, exec (.wb index) s = .next t ∧ t = { s with inbox := rest, banks := t.banks } ∧ (t.bank b).find key false = some y ∧
          (∀ j, j < 128 → byteAt y.data j = if be.getLsbD j then byteAt data j else byteAt l.data j) ∧ y.d = l.d ||| words ∧ y.own = l.own &&& ~~~words ∧
          (leaves = true → (∀ x ∈ (s.bank b).covered key, x.key = key) → ∀ e, (t.bank b).dirEntry key = some e → ∀ q ∈ e.ptrs, q.1 ≠ die) ∧
          (leaves = false ∨ (∃ x ∈ (s.bank b).covered key, x.key ≠ key) → (t.bank b).dir = (s.bank b).dir))) ∧
    (∀ d home, s.homeOf key = some (d, home) →
      let answers (e : Instr) (msg : Msg) (t : State) : Prop :=
        exec e s = .next t ∧ t = { s with inbox := rest, banks := t.banks, packets := t.packets } ∧
          ∃ q, t.packets = s.packets ++ [q] ∧ q.dst = .bank home ∧ q.msg = msg
      let probes (e : Instr) (listed : BitVec 32) (msg : L2Line → Msg) (after : L2Line → Option L2Line) : Prop :=
        ((s.bank b).owner = some key.pid → (s.bank b).find key true = none → ∃ t, answers e (.nullAck key die listed) t ∧ t.banks = s.banks) ∧
        ((s.bank b).owner = some key.pid → ∀ c, (s.bank b).find key true = some c → c.key = key → c.remote = true →
          ∃ t, answers e (msg c) t ∧ (t.bank b).find key true = after c) ∧
        ((s.bank b).owner ≠ some key.pid → exec e s = .next s ∧ ∃ t, answers (.probeFilterDrop index) (.nullAck key die 0) t ∧ t.banks = s.banks)
      (k.msg = .inv key die words → probes (.inv index) 0 (fun _ => .ack key die) fun c =>
        if c.v &&& ~~~words = 0 ∧ c.d &&& ~~~words = 0 then none else some { c with v := c.v &&& ~~~words, d := c.d &&& ~~~words }) ∧
      (k.msg = .invWb key die → probes (.invWb index) (s.wbWords key die) (fun c => .ackData key die c.d c.data (c.ownBytes c.d)) fun _ => none) ∧
      (k.msg = .fwd key die words → probes (.fwd index) (s.wbWords key die)
        (fun c => .ackData key die (c.d &&& words) c.data (c.ownBytes (c.d &&& words)))
        fun c => some { c with d := c.d &&& ~~~words, be := dirtyBytes (c.d &&& ~~~words) c.be })) ∧
    (∀ p, k.msg = .nullAck key die words → s.part key.pid = some p →
      ((s.bank b).busyOn key = false → ∃ t, exec (.nullAck index) s = .next t ∧
        t = { s with inbox := rest, parts := t.parts, banks := t.banks } ∧ t.part key.pid = some { p with xnullack := min (p.xnullack + 1) 0xFFFFFFFF } ∧
        ∀ c, t.bank c = s.bank c) ∧
      (∀ x, (s.bank b).txn key = some x → die ∈ x.fwd → words ≠ 0 → ∃ t, exec (.nullAck index) s = .next t ∧
        t.part key.pid = some { p with xnullack := min (p.xnullack + 1) 0xFFFFFFFF } ∧
        (t.bank b).txn key = some { x with need := x.need ++ [(die, words)], fwd := x.fwd.filter (· != die), inv := x.inv.filter (· != die) })) ∧
    (∀ r c, k.msg = .grant key words → s.atHomeOnly key (bytesToWords r.be) = false → (s.bank b).pend.filter (fun x => x.key == key) = [r] → (s.bank b).find key true = some c → c.key = key → c.remote = true →
      ∃ t y, exec (.upgGrant index) s = .next t ∧ t = { s with inbox := rest, banks := t.banks } ∧ (t.bank b).find key true = some y ∧
        (∀ j, j < 128 → byteAt y.data j = if r.be.getLsbD j then byteAt r.data j else byteAt c.data j) ∧ y.d = c.d ||| bytesToWords r.be ∧
        (∀ j, j < 128 → r.be.getLsbD j = true → y.be.getLsbD j = true) ∧ ∀ x ∈ (t.bank b).pend, x.key ≠ key)

/-! ## The fabric -/

/-- R104, R110, R111, R115, R117, R120, R124, R127, R424: a packet at the head of its VC goes one hop to a VC with room, counting the hops that do not bring it nearer, of which it takes at
most 8; at its stop it is accepted, or dropped, counted, and its sender's partition put in its error state; blocked for longer than T_sus it is suspect; a
request of a team carries the next number toward its bank, and is held until the earlier ones have come; of UPGs for a line in one cycle the lower die's stands first; a stop has two bunker slots and serves them first; a shared stop serves partitions by weighted round
robin; a peer's packet enters as a new one where the port accepts its partition. -/
def Stated.Packets : Prop :=
  (∀ (index : Nat) (s : State) (p : Packet), s.packets[index]? = some p →
    let d := p.dst.router
    let gone : State := { s with packets := s.packets.eraseIdx index }
    let first : Prop := ∀ q ∈ s.packets.take index, ¬(q.x = p.x ∧ q.y = p.y ∧ q.port = p.port ∧ q.vc = p.vc)
    let far (x y : Nat) : Nat := ((x : Int) - d.1).natAbs + ((y : Int) - d.2).natAbs
    (¬first → ∀ dir vc, exec (.routerForward index dir vc) s = .next s) ∧
    (first → (p.x, p.y) ≠ d → ∀ (dir vc : BitVec 2) (x y : Nat), x < 16 → y < 16 →
      (dir = 0 ∧ x = p.x + 1 ∧ y = p.y ∨ dir = 1 ∧ x + 1 = p.x ∧ y = p.y ∨ dir = 2 ∧ x = p.x ∧ y = p.y + 1 ∨ dir = 3 ∧ x = p.x ∧ y + 1 = p.y) →
      let port := if dir = 0 then 1 else if dir = 1 then 0 else if dir = 2 then 3 else 2
      let away : Prop := far p.x p.y ≤ far x y
      let full : Prop := 8 < ((s.packets.filter fun q => q.x == x && q.y == y && q.port == port && q.vc == vc.toNat).map (·.flits)).foldl (· + ·) 0 + p.flits
      (away ∧ 8 ≤ p.mis ∨ full → exec (.routerForward index dir vc) s = .next s) ∧
      (¬(away ∧ 8 ≤ p.mis ∨ full) → exec (.routerForward index dir vc) s = .next { gone with
        packets := s.packets.eraseIdx index ++
          [{ p with x := x, y := y, port := port, vc := vc.toNat, mis := if away then p.mis + 1 else p.mis, blocked := s.cycle, suspect := false }] })) ∧
    (first → (p.x, p.y) = d → ∀ dir vc,
      ((∃ a ∈ s.bunker, a.stop = p.dst) ∨ s.accepts p = false ∨ s.fairAt p = false → exec (.routerForward index dir vc) s = .next s) ∧
      ((∀ a ∈ s.bunker, a.stop ≠ p.dst) → s.accepts p = true → s.fairAt p = true →
        exec (.routerForward index dir vc) s = .next ((gone.servedAt p).take p))) ∧
    (p.dst.weighs = false → s.fairAt p = true ∧ gone.servedAt p = gone) ∧
    (p.dst.weighs = true → s.fairAt p = s.mayServe (stopNumber p.dst) p.pid.toNat (s.waitersAt p.dst) ∧
      gone.servedAt p = gone.serve (stopNumber p.dst) p.pid.toNat) ∧
    (first → (p.x, p.y) = d → s.accepts p = false → p.pid.toNat < 32 → ∀ x, s.part (p.pid.setWidth 5) = some x → x.pid = p.pid.setWidth 5 →
      ∃ t, exec (.packetReject index) s = .next t ∧ ErrFrame gone t ∧ Rejected gone t x) ∧
    (first → p.blocked + s.tsus < s.cycle → exec (.packetSuspect index) s = .next { s with packets := s.packets.set index { p with suspect := true } }) ∧
    (s.cycle ≤ p.blocked + s.tsus → exec (.packetSuspect index) s = .next s)) ∧
  (∀ (s : State) (p : Packet), (∀ n, p.seq = some n → n = storeGet 0 s.seqNext (seqKey p) →
      s.take p = { s.arrive p with seqNext := storePut 0 s.seqNext (seqKey p) ((n + 1) % 65536) }) ∧
    (∀ n, p.seq = some n → n ≠ storeGet 0 s.seqNext (seqKey p) → s.take p = { s with held := s.held ++ [⟨p.dst, p, s.cycle⟩] }) ∧
    (p.seq = none → p.msg.probe = true → s.take p = s.arrive p) ∧
    ((∀ key d w, p.msg ≠ .upg key d w) → s.arrive p = { s with inbox := s.inbox ++ [⟨p.dst, p, s.cycle⟩] }) ∧
    ∀ key d w, p.msg = .upg key d w → ∃ l r, s.inbox = l ++ r ∧ s.arrive p = { s with inbox := l ++ ⟨p.dst, p, s.cycle⟩ :: r } ∧
      let later (x : Arrived) : Prop := x.stop = p.dst ∧ x.at_ = s.cycle ∧ ∃ e v, x.pkt.msg = .upg key e v ∧ d < e
      (∀ x ∈ l, ¬later x) ∧ ∀ x, r.head? = some x → later x) ∧
  (∀ (s : State) (w : Who) (home : Nat) (m : WriteReq → Msg) (id : Nat), w.team ≠ 0 →
    ∃ q, s.sendWrite w home m id = { s with packets := s.packets ++ [q], seqSent := storePut 0 s.seqSent (seqKey q) ((storeGet 0 s.seqSent (seqKey q) + 1) % 65536) } ∧
      q.dst = .bank home ∧ q.pid = w.pid.setWidth 6 ∧ q.team = w.team ∧ q.seq = some (storeGet 0 s.seqSent (seqKey q))) ∧
  (∀ (index : Nat) (s : State) (a : Arrived), s.held[index]? = some a →
    (a.pkt.seq = some (storeGet 0 s.seqNext (seqKey a.pkt)) → ∃ t, exec (.seqOrderRelease index) s = .next t ∧
      t = { s with held := s.held.eraseIdx index, inbox := s.inbox ++ [{ a with at_ := s.cycle }], seqNext := t.seqNext } ∧
      storeGet 0 t.seqNext (seqKey a.pkt) = (storeGet 0 s.seqNext (seqKey a.pkt) + 1) % 65536 ∧
      ∀ k, k ≠ seqKey a.pkt → storeGet 0 t.seqNext k = storeGet 0 s.seqNext k) ∧
    (a.pkt.seq ≠ some (storeGet 0 s.seqNext (seqKey a.pkt)) → exec (.seqOrderRelease index) s = .next s)) ∧
  (∀ (index : Nat) (s : State) (p : Packet), s.lane[index]? = some p →
    ((s.bunker.filter fun a => a.stop == p.dst).length < 2 →
      exec (.bunkerDelivery index) s = .next { s with lane := s.lane.eraseIdx index, bunker := s.bunker ++ [⟨p.dst, p, s.cycle⟩] }) ∧
    (2 ≤ (s.bunker.filter fun a => a.stop == p.dst).length → exec (.bunkerDelivery index) s = .next s)) ∧
  (∀ (stop : Nat) (s : State) (a : Arrived), s.bunker.find? (fun x => x.stop == stopOf stop) = some a →
    let gone : State := { s with bunker := s.bunker.erase a }
    (gone.accepts a.pkt = true → exec (.bunkerSlotService stop) s = .next (gone.take a.pkt)) ∧
    (gone.accepts a.pkt = false → 32 ≤ a.pkt.pid.toNat → exec (.bunkerSlotService stop) s = .next gone)) ∧
  (∀ (queue pid : Nat) (waiting : List Nat) (s : State), (∀ z ∈ waiting, z < 64) → pid < 64 →
    let had (u : State) (z : Nat) : Nat := storeGet 0 u.served (servedKey queue z)
    (s.mayServe queue pid waiting = true ↔ had s pid < s.weightOf pid ∨ ∀ z ∈ waiting, s.weightOf z ≤ had s z) ∧
    ∃ t, s.serve queue pid = t ∧ t = { s with served := t.served } ∧
      (had s pid < s.weightOf pid → ∀ z, z < 64 → had t z = if z = pid then had s z + 1 else had s z) ∧
      (s.weightOf pid ≤ had s pid → ∀ z, z < 64 → had t z = if z = pid then 1 else 0)) ∧
  ∀ (port : BitVec 3) (x : PeerPacket) (s : State),
    (∀ y, x.pid.toNat < 32 → s.part (x.pid.setWidth 5) = some y → y.pid = x.pid.setWidth 5 →
      (y.enabled = true → ∃ t p, exec (.peerLinkArrival port x) s = .next t ∧ t = { s with packets := s.packets ++ [p] } ∧ p.pid = x.pid ∧
        p.dst = stopOf x.dst ∧ p.src = .peer port.toNat ∧ p.mis = 0 ∧ p.suspect = false ∧ p.seq = none ∧ p.flits = min 5 (max 1 x.flits)) ∧
      (y.enabled = false → ∃ t, exec (.peerLinkArrival port x) s = .next t ∧ ErrFrame s t ∧ Rejected s t y)) ∧
    (32 ≤ x.pid.toNat → exec (.peerLinkArrival port x) s = .next s)

/-- R118, R119, R122, R123: the caddie's places form a cycle of neighbours through all 256 routers; it goes to the next one once no rescued packet is in the lane, and that router ejects
the suspect packet that has been blocked longest, then of the lowest port, then of the lowest VC, into the lane, and counts it; a caddie that has not been seen at
(0, 0) for 2²⁰ cycles is issued anew, and a second time before it has been seen there is a fatal error (R443). -/
def Stated.Caddie : Prop :=
  (∀ k, k < 256 → let a := caddieAt k; let b := caddieAt ((k + 1) % 256)
    a.1 < 16 ∧ a.2 < 16 ∧ (a.1 = b.1 ∧ (a.2 + 1 = b.2 ∨ b.2 + 1 = a.2) ∨ a.2 = b.2 ∧ (a.1 + 1 = b.1 ∨ b.1 + 1 = a.1))) ∧
  (∀ x y, x < 16 → y < 16 → ∃ k, k < 256 ∧ caddieAt k = (x, y)) ∧
  (∀ (s : State),
    let k := (s.caddie + 1) % 256
    let there : State := { s with
      caddie := k, caddieHeld := none, caddieSeen := if k = 0 then s.cycle else s.caddieSeen, reissued := s.reissued && k != 0 }
    let waiting (p : Packet) : Prop := p ∈ s.packets ∧ p.suspect = true ∧ (p.x, p.y) = caddieAt k
    (s.lane ≠ [] → (s.caddieHeld ≠ none ∨ ∃ p, waiting p) → exec .caddieArrival s = .next s) ∧
    (s.lane = [] ∨ s.caddieHeld = none → (∀ p, ¬waiting p) → exec .caddieArrival s = .next there) ∧
    (s.lane = [] → (∃ p, waiting p) → ∃ t p, exec .caddieArrival s = .next t ∧ waiting p ∧
      (∀ q, waiting q → p.blocked < q.blocked ∨ p.blocked = q.blocked ∧ (p.port < q.port ∨ p.port = q.port ∧ p.vc ≤ q.vc)) ∧
      t = { there with packets := s.packets.erase p, lane := [{ p with suspect := false }], caddieHeld := some k, rescues := (s.rescues + 1) % 2 ^ 32,
                       parts := t.parts } ∧
      (32 ≤ p.pid.toNat → t.parts = s.parts) ∧
      ∀ x, p.pid.toNat < 32 → s.part (p.pid.setWidth 5) = some x →
        t.part (p.pid.setWidth 5) = some { x with xrecov := min (x.xrecov + 1) 0xFFFFFFFF })) ∧
  ∀ (s : State),
    let again : State := { s with caddie := 0, caddieHeld := none, caddieSeen := s.cycle, reissues := (s.reissues + 1) % 65536, reissued := true }
    (s.caddieSeen + 2 ^ 20 ≤ s.cycle → s.reissued = false → exec .caddieReissue s = .next again) ∧
    (s.caddieSeen + 2 ^ 20 ≤ s.cycle → s.reissued = true →
      exec .caddieReissue s = .next { again with fatal := true, dump := 2 ^ 62, dumped := none, running := [], aer := none :: s.aer }) ∧
    (s.cycle < s.caddieSeen + 2 ^ 20 → exec .caddieReissue s = .next s)

/-- Packets of the fabric, and the caddie. Where stops lie in the mesh, that a caddie issued anew waits for the lane, what a packet's length and VC
are, and that FABREC wraps, are the model's (DESIGN CHOICE, log 21, log 65 and log 68; DEDUCED, log 52). -/
def Obligations.Packets : Prop := Stated.Packets ∧ Stated.Caddie

/-! ## Engines -/

/-- R142, R167 to R169, R174, R176: the copy whose turn it is, round-robin by number, makes its next request, which crosses no 128-byte line on either side, with its source bytes as they
are, where its landing meets no fault; a landing request puts its bytes in the window, where a granule with no byte of the copy left to land becomes full, or in the home line; an
operation of a user team whose access faults is suspended and its fault offered to the queue; one with nothing left to land completes. -/
def Obligations.Copies : Prop :=
  (∀ (core : Nat) (s u : State) (x : Team) (c : CopyOp) (bs : List Byte), s.copyTurn core = some (x, c) → s.findTeam x.pid x.id = some x →
    let r := c.nextReq
    let work := s.copyWork core
    let served := (s.core core).copyRR
    let mapped (y : Team) (f : CopyOp → CopyOp) : Prop := y = { x with copies := x.copies.map fun k => if k.id = c.id then f k else k }
    ((x, c) ∈ work ∧ ∀ k ∈ work, if served < c.id then served < k.2.id → c.id ≤ k.2.id else k.2.id ≤ served ∧ c.id ≤ k.2.id) ∧
    (c.off < c.len → 0 < r.len ∧ r.src % 128 + r.len ≤ 128 ∧ r.dst % 128 + r.len ≤ 128 ∧ c.off + r.len ≤ c.len ∧
      (r.len = 128 - r.src % 128 ∨ r.len = 128 - r.dst % 128 ∨ c.off + r.len = c.len)) ∧
    (s.copySource x c r = .ok bs u → u.team = s.team → u.teams = s.teams → (match u.landCopy x c r bs with | .ok _ _ => True | .busy _ => True | _ => False) →
      ∃ t y, exec (.copyLineRequest core) s = .next t ∧ t = { u with team := t.team, teams := t.teams, cores := t.cores } ∧
        t.core core = { u.core core with copyRR := c.id } ∧ (∀ k, k ≠ core → t.core k = u.core k) ∧
        t.findTeam x.pid x.id = some y ∧ mapped y fun k => { k with flying := k.flying ++ [(r, bs)] }.advance r.len) ∧
    (c.ss = true → s.copySource x c r = .ok ((List.range r.len).map fun j => storeGet 0 x.win (r.src + j)) s) ∧
    (∀ bank l, c.ss = false → 0 < r.len → r.src % 128 + r.len ≤ 128 → s.lineAtHome x.pid c.asid x.sys r.src bank l →
      ∃ v, s.copySource x c r = .ok ((List.range r.len).map fun j => byteAt l.data (r.src % 128 + j)) v ∧ v = { s with banks := v.banks } ∧
        (v.bank bank).find l.key false = some l) ∧
    (∀ cause, s.copyFlying core = [] → c.ss = false → engineRead s (x.engineWho c.asid) r.src r.len = .fault cause → s.part x.pid ≠ none → x.sys = false →
      x.solo = none → s.poison = [] → (∀ e ∈ s.fq ++ s.fqWait, e.pid ≠ x.pid ∨ e.asid ≠ c.asid ∨ e.va / 4096 ≠ r.src / 4096 ∨ e.kind ≠ .engineRead) →
      ∃ t y e, exec (.engineFault core false) s = .next t ∧ t = { s with team := t.team, teams := t.teams, free := t.free, fqWait := s.fqWait ++ [e] } ∧
        t.findTeam x.pid x.id = some y ∧ mapped y (fun k => { k with stop := some (.fault, r.src) }) ∧ e.pid = x.pid ∧ e.asid = c.asid ∧ e.va = r.src ∧
        e.kind = .engineRead ∧ e.cause = cause ∧ e.team = x.id ∧ e.merge = 0)) ∧
  (∀ (c : CopyOp) (n : Nat), (c.off + n < c.len → c.advance n = { c with off := c.off + n }) ∧
    (c.len ≤ c.off + n → c.advance n = { c with
      off := 0, rows := c.rows - 1, src := c.src + ((if c.twoD then c.stride else 0).extractLsb' 0 32).signExtend 64,
      dst := c.dst + ((if c.twoD then c.stride else 0).extractLsb' 32 32).signExtend 64 })) ∧
  (∀ (core index : Nat) (s : State) (x : Team) (c : CopyOp) (r : CopyReq) (bs : List Byte), (s.copyFlying core)[index]? = some (x, c, r, bs) →
    s.findTeam x.pid x.id = some x → x.copies.find? (fun k => k.id == c.id) = some c →
    let landed : CopyOp := { c with flying := c.flying.erase (r, bs) }
    let copies := x.copies.map fun k => if k.id = c.id then { k with flying := k.flying.erase (r, bs) } else k
    let inside (g : Nat) (a n : Nat) : Prop := a < (g + 1) * 128 ∧ g * 128 < a + n
    (c.ds = true → ∃ t y, exec (.copyLand core index) s = .next t ∧ t = { s with team := t.team, teams := t.teams } ∧ t.findTeam x.pid x.id = some y ∧
      y = { x with copies := copies, win := y.win, empty := y.empty } ∧
      (∀ a, storeGet 0 y.win a = if r.dst ≤ a ∧ a < r.dst + bs.length then bs.getD (a - r.dst) 0 else storeGet 0 x.win a) ∧
      (∀ g, (y.full g = true ↔ x.full g = true ∨ 0 < r.len ∧ inside g r.dst r.len ∧ landed.granuleDone g = true) ∧
        (c.rows = 0 → (landed.granuleDone g = true ↔ ∀ f ∈ landed.flying, ¬inside g f.1.dst f.1.len)))) ∧
    (∀ bank l, c.ds = false → r.dst % 128 + bs.length ≤ 128 → bs ≠ [] → s.lineAtHome x.pid c.asid x.sys (r.dst / 128 * 128) bank l →
      ∃ t y z, exec (.copyLand core index) s = .next t ∧ t = { s with team := t.team, teams := t.teams, banks := t.banks } ∧
        t.findTeam x.pid x.id = some y ∧ y = { x with copies := copies } ∧ (t.bank bank).find l.key false = some z ∧
        (∀ j, j < 128 → byteAt z.data j = if r.dst % 128 ≤ j ∧ j < r.dst % 128 + bs.length then bs.getD (j - r.dst % 128) 0 else byteAt l.data j) ∧
        ∀ j, r.dst % 128 ≤ j → j < r.dst % 128 + bs.length → z.d.getLsbD (j / 4) = true ∧ z.be.getLsbD j = true)) ∧
  (∀ (core index : Nat) (s : State) (x : Team) (c : CopyOp), ((s.residents core).flatMap fun t => t.copies.map fun c => (t, c))[index]? = some (x, c) →
    s.findTeam x.pid x.id = some x →
    (c.rows ≠ 0 ∨ c.flying ≠ [] → exec (.engineCompletion core false index) s = .next s) ∧
    (c.rows = 0 → c.flying = [] → (∀ b ∈ s.binds, b.hold = []) →
      ∃ t, exec (.engineCompletion core false index) s = .next t ∧ t = { s with team := t.team, teams := t.teams } ∧
        t.findTeam x.pid x.id = some { x with copies := x.copies.filter fun k => k.id != c.id }))

/-- R176, R183, R187 to R189: the chain whose turn it is works on one block: the elements from its next one on, up to 65,536/W, read bit by bit from
every stream before anything is written, their results written in order; each step computes as its SOP says, MUL rounded to the nearest integer, and
the result is the number's rounding to BF16 or F16 or a codebook entry; a chain with all elements written completes, the chains of a team in order.
What SAR shifts in with SG = 0 is the model's choice (DESIGN CHOICE, log 75). -/
def Obligations.Chains : Prop :=
  (∀ (core : Nat) (s u v : State) (x : Team) (c : ChainOp) (cols : List (List Nat)), s.chainTurn core = some (x, c) →
    let d := chainDesc c.desc
    let n := min (65536 / d.w) (c.n - c.next)
    let outs := (List.range n).map fun i => d.element (cols.map fun col => col.getD i 0)
    x.chains.head? = some c ∧
    (∀ k ∈ s.chainWork core, if (s.core core).chainRR < evOf x then (s.core core).chainRR < evOf k.1 → evOf x ≤ evOf k.1
      else evOf k.1 ≤ (s.core core).chainRR ∧ evOf x ≤ evOf k.1) ∧
    (chainSources (x.engineWho c.asid) d c.next n (d.bases.take (d.nsrc + 1)) s = .ok cols u →
      (chainWrites (x.engineWho c.asid) x.id c.id c.dst outs c.next u = .go v →
        ∃ t, exec (.chainBlock core) s = .next t ∧ t = { v with cores := t.cores } ∧ (∀ k, k ≠ core → t.core k = v.core k) ∧
          t.core core = { v.core core with chainRR := evOf x }) ∧
      (∀ va cause w, chainWrites (x.engineWho c.asid) x.id c.id c.dst outs c.next u = .stop .fault va cause w v → v.findTeam x.pid x.id ≠ none → x.sys = false →
        x.solo = none → v.poison = [] → (∀ e ∈ v.fq ++ v.fqWait, e.pid ≠ x.pid ∨ e.asid ≠ c.asid ∨ e.va / 4096 ≠ va / 4096 ∨ e.kind ≠ .engineWrite) → w = true →
        ∃ t e, exec (.engineFault core true) s = .next t ∧ t = { v with team := t.team, teams := t.teams, free := t.free, fqWait := v.fqWait ++ [e] } ∧
          e.kind = .engineWrite ∧ e.va = va ∧ e.cause = cause ∧ e.team = x.id ∧
          ∀ y, v.findTeam x.pid x.id = some y →
            t.findTeam x.pid x.id = some { y with chains := y.chains.map fun k => if k.id = c.id then { k with stop := some (.fault, va) } else k }))) ∧
  (∀ (w : Who) (d : ChainDesc) (lo n base : Nat) (rest : List Nat) (s u v : State) (bs : List Byte) (cols : List (List Nat)),
    let first := lo * d.w / 8
    engineReadRange s w (base + first) (((lo + n) * d.w + 7) / 8 - first) = .ok bs u → chainSources w d lo n rest u = .ok cols v →
    ∃ col : List Nat, chainSources w d lo n (base :: rest) s = .ok (col :: cols) v ∧ col.length = n ∧ ∀ i, i < n → col.getD i 0 < 2 ^ d.w ∧
      ∀ k, k < d.w → let at_ := lo * d.w % 8 + i * d.w + k
        (col.getD i 0).testBit k = (bs.getD (at_ / 8) 0).getLsbD (at_ % 8)) ∧
  (∀ (w : Who) (va n bank : Nat) (l : L2Line) (s : State), 0 < n → va % 128 + n ≤ 128 → s.lineAtHome w.pid w.asid w.sys va bank l →
    ∃ v, engineReadRange s w va n = .ok ((List.range n).map fun j => byteAt l.data (va % 128 + j)) v) ∧
  (∀ (w : Who) (va n : Nat) (bs rest : List Byte) (s u v : State), 128 < va % 128 + n → engineReadRange s w va (128 - va % 128) = .ok bs u →
    engineReadRange u w (va + (128 - va % 128)) (n - (128 - va % 128)) = .ok rest v → engineReadRange s w va n = .ok (bs ++ rest) v) ∧
  (∀ (w : Who) (team id dst i y : Nat) (ys : List Nat) (s u : State), engineWrite s w (dst + 2 * i) (natBytes 2 y) = .ok () u →
    chainWrites w team id dst (y :: ys) i s = chainWrites w team id dst ys (i + 1) (u.mapChain w.pid team id fun c => { c with next := i + 1 })) ∧
  (∀ (core index : Nat) (s : State) (x : Team) (c : ChainOp), ((s.residents core).flatMap fun t => t.chains.map fun c => (t, c))[index]? = some (x, c) →
    s.findTeam x.pid x.id = some x →
    (c.next < c.n → exec (.engineCompletion core true index) s = .next s) ∧
    (c.n ≤ c.next → (∀ b ∈ s.binds, b.hold = []) →
      ∃ t, exec (.engineCompletion core true index) s = .next t ∧ t = { s with team := t.team, teams := t.teams } ∧
        t.findTeam x.pid x.id = some { x with chains := x.chains.filter fun k => k.id != c.id })) ∧
  (∀ (d : ChainDesc) (src temps : List Nat) (word : Nat), 1 ≤ d.w → d.w ≤ 16 → d.frac < d.w → temps.length = 4 → (∀ n ∈ src ++ temps, n < 2 ^ d.w) → src.length = 4 →
    let code (k : Nat) : Nat := word / 2 ^ k % 16
    let pat (k : Nat) : Nat := if k < 4 then src.getD k 0 else if k < 8 then temps.getD (k - 4) 0 else d.consts.getD (k - 8) 0 % 2 ^ d.w
    let signed (n : Nat) : Int := if 2 ^ (d.w - 1) ≤ n then (n : Int) - 2 ^ d.w else n
    let num (n : Nat) : Int := if d.sg then signed n else n
    let X := pat (code 8)
    let Y := pat (code 12)
    let Z := pat (code 16)
    let n := Y % 16
    let dt := word / 16 % 4
    let lo : Int := if d.sg then -2 ^ (d.w - 1) else 0
    let hi : Int := if d.sg then 2 ^ (d.w - 1) - 1 else 2 ^ d.w - 1
    let r := (d.apply src temps word).getD dt 0
    let fits (v : Int) : Prop := if d.sat then num r = max lo (min hi v) else num r % 2 ^ d.w = v % 2 ^ d.w
    r < 2 ^ d.w ∧ (∀ k, k ≠ dt → (d.apply src temps word)[k]? = temps[k]?) ∧
    (code 0 = 0 → fits (num X + num Y)) ∧ (code 0 = 1 → fits (num X - num Y)) ∧
    (code 0 = 2 → ∃ q : Int, fits q ∧ 2 * ((num X * num Y - q * 2 ^ d.frac).natAbs : Int) ≤ 2 ^ d.frac ∧
      (2 * ((num X * num Y - q * 2 ^ d.frac).natAbs : Int) = 2 ^ d.frac → q % 2 = 0)) ∧
    (code 0 = 3 → num r = min (num X) (num Y)) ∧ (code 0 = 4 → num r = max (num X) (num Y)) ∧
    (∀ k, k < d.w → (code 0 = 5 → r.testBit k = (X.testBit k && Y.testBit k)) ∧ (code 0 = 6 → r.testBit k = (X.testBit k || Y.testBit k)) ∧
      (code 0 = 7 → r.testBit k = (X.testBit k ^^ Y.testBit k)) ∧ (code 0 = 8 → r.testBit k = (decide (n ≤ k) && X.testBit (k - n))) ∧
      (code 0 = 9 → r.testBit k = X.testBit (k + n))) ∧
    (code 0 = 10 → d.sg = true → signed r = signed X / 2 ^ n) ∧ (code 0 = 11 → num r = min (max (num X) (num Y)) (num Z)) ∧
    (code 0 = 12 → r = if num Y < num X then Z else temps.getD dt 0) ∧ (code 0 = 13 → fits ((num X).natAbs : Int))) ∧
  ∀ (d : ChainDesc) (src : List Nat), 1 ≤ d.w → d.w ≤ 16 → d.frac < d.w → (∀ n ∈ src, n < 2 ^ d.w) →
    let temps := (d.steps.take d.nstep).foldl (d.apply src) [0, 0, 0, 0]
    let r := if d.nstep = 0 then src.getD 0 0 else temps.getD 0 0
    let num : Int := if d.sg = true ∧ 2 ^ (d.w - 1) ≤ r then (r : Int) - 2 ^ d.w else r
    let v : Rat := (num : Rat) / 2 ^ d.frac
    (num = 0 → d.out < 2 → d.element src = 0) ∧ (2 ≤ d.out → d.element src = d.book.getD (r % 16) 0) ∧
    (num ≠ 0 → d.out = 0 → Rounds (fmtOf .bf16) .rne (fun q => q < v) (fun q => v < q) (d.element src)) ∧
    (num ≠ 0 → d.out = 1 → v.abs ≤ 65504 → Rounds (fmtOf .f16) .rne (fun q => q < v) (fun q => v < q) (d.element src)) ∧
    (d.out = 1 → 65520 ≤ v.abs → d.element src = (if d.osat then 0x7BFF else 0x7C00) + if num < 0 then 0x8000 else 0)

/-! ## Matrix arrays -/

/-- R266 to R270, R277, R279, R281, R284: an MMA starts when its predecessors and the earlier tile operations are done, its granules full, its
registers readable, the array free and its team's turn come, round-robin by team, and not before; its result is then, element by element, the tile (or
0 with OVR) plus the exact sum of 64 products, modulo 2³² for integers, rounded once for floats; it takes its time, twice that under the power alarm,
and then writes its tile, or any values if it was touched, and retires. That a command retires no earlier than its computation ends is the model's
reading (DEDUCED, log 44), and that it reads its window when it starts its choice (DESIGN CHOICE, log 85). -/
def Obligations.Arrays : Prop :=
  ∀ (team : Nat) (id : BitVec 6) (s : State) (x : Team) (order : Nat) (c : MmaCmd), s.evTeam team = some x → s.findTeam x.pid x.id = some x →
    (∀ z ∈ s.residents x.core, z.pid = x.pid → z.id = x.id → z = x) →
    x.mmaWith id = some (order, c) → mmaLegal c.af = true → mmaLegal c.bf = true →
    let reads (r : RegRef) : Prop := ∃ v ∈ c.regs, r = .v v
    let turn : Prop := (s.mmaTurn x.core x.sub).map evOf = some (evOf x)
    let last := storeGet 0 s.mmaRR (x.core * 8 + x.sub)
    let may (z : Team) : Prop := z ∈ s.residents x.core ∧ z.sub = x.sub ∧ s.enginesRun z = true ∧ (s.focusOn z.pid z.id s.slot).anyReady = true
    let ready : Prop := c.started = false ∧ x.wafers = [] ∧ (∀ o ∈ c.after, ∀ e ∈ x.matq, e.order ≠ o) ∧ (∀ e ∈ x.matq, e.isMma = false → order ≤ e.order) ∧
      (∀ g ∈ c.granules, x.full g = true) ∧ (∀ p ∈ x.pend, reads p.reg → p.ready ≤ s.cycle) ∧
      (∀ slot p, x.path slot = some p → ∀ e ∈ p.sb, reads e.reg → ∃ d, e.due = some d ∧ d ≤ s.cycle) ∧
      ∀ z ∈ s.residents x.core, z.sub = x.sub → ∀ e ∈ z.matq, ∀ k, e.op = .mma k → k.started = true → k.ends ≤ s.cycle
    let still (e : Instr) : Prop := ∃ t, exec e s = .next t ∧ t = { s with team := t.team, teams := t.teams } ∧ OnlyTeam s t x x
    let wide : Nat := if mmaBits c.af = 16 ∨ mmaBits c.bf = 16 then 64 else if mmaBits c.af = 8 ∨ mmaBits c.bf = 8 then 32 else 16
    let a (m k : Nat) : Nat := x.mmaPat c.a (mmaBits c.af) m k
    let b (k n : Nat) : Nat := x.mmaPat c.b (mmaBits c.bf) k n
    let acc (m n : Nat) : Word := if c.o.ovr then 0 else x.tileWord c.o.d m n
    let ints : Prop := (c.af = .i8 ∨ c.af = .i4) ∧ (c.bf = .i8 ∨ c.bf = .i4)
    (turn → ∀ z, may z → if last < evOf x then last < evOf z → evOf x ≤ evOf z else evOf z ≤ last ∧ evOf x ≤ evOf z) ∧
    (may x → (∀ z, may z → evOf z = evOf x) → turn) ∧
    (x.phase ≠ .resident ∨ ¬turn → exec (.mmaStart team id) s = .next s) ∧
    (x.phase = .resident → turn → ¬ready → still (.mmaStart team id)) ∧
    (x.phase = .resident → turn → ready →
      ∃ t y k, exec (.mmaStart team id) s = .next t ∧ t = { s with team := t.team, teams := t.teams, mmaRR := t.mmaRR } ∧ OnlyTeam s t x y ∧
        (∀ j, storeGet 0 t.mmaRR j = if j = x.core * 8 + x.sub then evOf x else storeGet 0 s.mmaRR j) ∧
        y = { x with narrow := x.narrow || s.alarm, matq := x.matq.map fun e => if e.order = order then { e with op := .mma k } else e } ∧
        k = { c with started := true, narrow := s.alarm, ends := s.cycle + (if s.alarm then 2 * wide else wide), result := k.result, nan := k.nan, ovf := k.ovf } ∧
        k.result.length = 4096 ∧
        ∀ m n, m < 64 → n < 64 →
          (ints → k.nan = false ∧ k.ovf = false ∧ k.result[64 * m + n]? = some (BitVec.ofInt 32 ((acc m n).toInt +
            ((List.range 64).map fun j => intOf c.af (BitVec.ofNat 64 (a m j)) * intOf c.bf (BitVec.ofNat 64 (b j n))).sum))) ∧
          (¬ints → ∀ (p q : Nat → Rat) (r : Rat), (∀ j, j < 64 → (elemVal c.af x.codebook c.aslot.toNat (a m j)).real = some (p j)) →
            (∀ j, j < 64 → (elemVal c.bf x.codebook c.bslot.toNat (b j n)).real = some (q j)) → realOf (fmtOf .f32) (acc m n).toNat = some r →
            let sum := r + ((List.range 64).map fun j => p j * q j).sum
            sum ≠ 0 → sum.abs ≤ (fmtOf .f32).largest →
            ∃ w, k.result[64 * m + n]? = some w ∧ Rounds (fmtOf .f32) .rne (fun z => z < sum) (fun z => sum < z) w.toNat)) ∧
    (c.started = false ∨ s.cycle < c.ends → still (.mmaRetire team id)) ∧
    (c.started = true → c.ends ≤ s.cycle →
      ∃ t y, exec (.mmaRetire team id) s = .next t ∧ t = { s with team := t.team, teams := t.teams, free := t.free } ∧ OnlyTeam s t x y ∧
        y = { x with tiles := y.tiles, nan := x.nan || c.nan, ovf := x.ovf || c.ovf, matq := x.matq.filter fun e => e.order != order } ∧
        (∀ d m n, d ≠ c.o.d → m < 64 → n < 64 → y.tileWord d m n = x.tileWord d m n) ∧
        (c.touched = false → t.free = s.free ∧ ∀ m n, m < 64 → n < 64 → y.tileWord c.o.d m n = c.result.getD (64 * m + n) 0))

/-- R280, R281, R287, R290, R291: the tile operation in its queue place executes once its granules are full: MZERO zeroes its tile, MLDA loads it, MSTA stores it and
makes its granules full, MCBL loads a codebook slot, DRAIN writes each element scaled, added to the residual, dropped by the coordinate hash and converted,
and makes the output granules full; a tile that an unretired MMA issued before names gives any values. Nothing else changes. -/
def Obligations.Tiles : Prop :=
  (∀ (team : Nat) (s : State) (x : Team) (order : Nat) (op : TileOp), s.evTeam team = some x → s.findTeam x.pid x.id = some x →
    x.phase = .resident → s.enginesRun x = true → x.nextTile = some (order, op) →
    let does (e : Instr) (P : State → Team → Prop) : Prop :=
      ∃ t y, exec e s = .next t ∧ t = { s with team := t.team, teams := t.teams, free := t.free } ∧ OnlyTeam s t x y ∧
        y = { x with matq := x.matq.filter (fun e => e.order != order), tiles := y.tiles, win := y.win, empty := y.empty, codebook := y.codebook,
                     nan := y.nan, ovf := y.ovf } ∧ P t y
    let still (e : Instr) : Prop := ∃ t, exec e s = .next t ∧ t = { s with team := t.team, teams := t.teams } ∧ OnlyTeam s t x x
    let fullAt (a n : Nat) : Prop := ∀ g, a / 128 ≤ g → g < (a + n + 127) / 128 → x.full g = true
    let touched (d : Tile) : Prop := ∃ e ∈ x.matq, ∃ c, e.op = .mma c ∧ c.o.d = d ∧ e.order < order
    let others (y : Team) (d : Tile) : Prop := ∀ k m n, k ≠ d → m < 64 → n < 64 → y.tileWord k m n = x.tileWord k m n
    (∀ d, op = .zero d → does (.tileOpExecute team) fun _ y => y = { x with matq := y.matq, tiles := y.tiles } ∧ others y d ∧
      ∀ m n, m < 64 → n < 64 → y.tileWord d m n = 0) ∧
    (∀ d off, op = .load d off → (¬fullAt off 16384 → still (.tileOpExecute team)) ∧
      (fullAt off 16384 → does (.tileOpExecute team) fun _ y => y = { x with matq := y.matq, tiles := y.tiles } ∧ others y d ∧
        ∀ m n j, m < 64 → n < 64 → j < 4 → BitVec.ofNat 8 ((y.tileWord d m n).toNat / 256 ^ j) = storeGet 0 x.win (off + 256 * m + 4 * n + j))) ∧
    (∀ d off, op = .store d off → does (.tileOpExecute team) fun t y => y = { x with matq := y.matq, win := y.win, empty := y.empty } ∧
      (∀ a, a < off ∨ off + 16384 ≤ a → storeGet 0 y.win a = storeGet 0 x.win a) ∧
      (∀ g, y.full g = true ↔ x.full g = true ∨ off / 128 ≤ g ∧ g < (off + 16384 + 127) / 128) ∧
      (¬touched d → t.free = s.free ∧ ∀ m n j, m < 64 → n < 64 → j < 4 →
        storeGet 0 y.win (off + 256 * m + 4 * n + j) = BitVec.ofNat 8 ((x.tileWord d m n).toNat / 256 ^ j))) ∧
    (∀ k off, op = .codebook k off → (¬fullAt off 32 → still (.tileOpExecute team)) ∧
      (fullAt off 32 → does (.tileOpExecute team) fun _ y => y = { x with matq := y.matq, codebook := y.codebook } ∧
        ∀ (j : BitVec 2) i, i < 16 → storeGet 0 y.codebook (16 * j.toNat + i) =
          if j = k then storeGet 0 x.win (off + 2 * i + 1) ++ storeGet 0 x.win (off + 2 * i) else storeGet 0 x.codebook (16 * j.toNat + i))) ∧
    (∀ o bs tag, op = .drain o bs tag → still (.tileOpExecute team) ∧
      let d := drainDesc bs
      let size := drainSize o.ty
      let row (base stride width g : Nat) : Prop := ∃ m, m < 64 ∧ (base + m * stride) / 128 ≤ g ∧ g ≤ (base + m * stride + width - 1) / 128
      let scaled (k : Option (BitVec 12)) (g : Nat) : Prop := ∃ o, k = some o ∧ (g = 2 * o.toNat ∨ g = 2 * o.toNat + 1)
      let ready : Prop := ∀ g, d.rfmt ≠ 0 ∧ row d.res d.rstride (64 * d.resSize) g ∨ scaled tag.a g ∨ scaled tag.b g → x.full g = true
      let num (a n : Nat) : Nat := ((List.range n).map fun i => (storeGet 0 x.win (a + i)).toNat * 256 ^ i).sum
      let scale (k : Option (BitVec 12)) (i : Nat) : Nat := match k with | some o => num (256 * o.toNat + 4 * i) 4 | none => 0x3F800000
      let out (m n : Nat) : Nat × Bool × Bool := drainElem o d (x.tileWord o.d m n) (scale tag.a m) (scale tag.b n)
        (if d.rfmt = 0 then 0 else num (d.res + m * d.rstride + n * d.resSize) d.resSize) m n
      let inRow (m a : Nat) : Prop := d.dst + m * d.dstride ≤ a ∧ a < d.dst + m * d.dstride + 64 * size
      (¬ready → still (.drainExecute team)) ∧
      (ready → drainLegal bs o.ty x.window = true → does (.drainExecute team) fun t y => y = { x with matq := y.matq, win := y.win, empty := y.empty, nan := y.nan, ovf := y.ovf } ∧
        (∀ a, (∀ m, m < 64 → ¬inRow m a) → storeGet 0 y.win a = storeGet 0 x.win a) ∧
        (∀ g, y.full g = true ↔ x.full g = true ∨ row d.dst d.dstride (64 * size) g) ∧
        (¬touched o.d → t.free = s.free ∧
          (∀ m n j, m < 64 → n < 64 → j < size →
            storeGet 0 y.win (d.dst + m * d.dstride + n * size + j) = BitVec.ofNat 8 ((out m n).1 / 256 ^ j)) ∧
          (y.nan = true ↔ x.nan = true ∨ ∃ m n, m < 64 ∧ n < 64 ∧ (out m n).2.1 = true) ∧
          (y.ovf = true ↔ x.ovf = true ∨ ∃ m n, m < 64 ∧ n < 64 ∧ (out m n).2.2 = true))))) ∧
  (∀ (o : DrainO) (d : DrainDesc) (acc : Word) (sa sb res m n : Nat),
    let f := fmtOf .f32
    let rf : Ty := if d.rfmt = 2 then .bf16 else if d.rfmt = 3 then .f16 else .f32
    let t1 := if o.int then (sumRound f .rne false [intVal acc.toInt, fval f sa] (mulInvalid (intVal acc.toInt) (fval f sa)) [mulVal (intVal acc.toInt) (fval f sa)]).1
      else (fpMul f .rne false acc.toNat sa).1
    let t2 := (fpMul f .rne false t1 sb).1
    let t3 := if d.rfmt = 0 then t2 else if rf = .f32 then (fpAdd f .rne false false t2 res).1
      else (fpAdd f .rne false false t2 (fpConvert f (fmtOf rf) .rne false res).1).1
    let dropped : Prop := (ch32 d.seedLo d.seedHi (BitVec.ofNat 32 (d.row0 + m)) (BitVec.ofNat 32 (d.col0 + n))).toNat < d.p
    let t4 := if d.doen = false then t3 else (fpMul f .rne false t3 d.keep).1
    (d.doen = true → dropped → (drainElem o d acc sa sb res m n).1 = 0) ∧
    (d.doen = false ∨ ¬dropped →
      (o.ty = .f32 → (drainElem o d acc sa sb res m n).1 = t4) ∧
      (o.ty = .i8 ∨ o.ty = .i32 → ((drainElem o d acc sa sb res m n).1 : Int) = (floatToInt o.ty f o.rm t4).1 % 2 ^ Ty.bits o.ty) ∧
      (o.ty = .bf16 ∨ o.ty = .f16 ∨ o.ty = .e4m3 ∨ o.ty = .e5m2 → (drainElem o d acc sa sb res m n).1 = (fpConvert (fmtOf o.ty) f o.rm o.sat t4).1))) ∧
  ∀ (lo hi row col : Word), ∃ a b : Nat → Word, a 0 = lo ^^^ row ∧ b 0 = hi ^^^ col ∧
    (∀ k, k < 4 → b (k + 1) = (b k).rotateLeft 7 ^^^ (a k + b k) ∧ a (k + 1) = (a k + b k).rotateLeft 16) ∧
    ch32 lo hi row col = a 4 ^^^ (b 4 * 0x2C1B3C6D)

/-! ## Standing products -/

/-- R303, R304, R306, R314, R321: a write to a word of one binding, whose line and log area are at hand, is passed where no element in the extent changes, and else captured
as the next entry, captured as a mark, or held, as the interlock says; home then has it, or while it is held the old word; it waits behind a held write to the
word. A binding whose extents cannot be had enters ERR and IDLE for good. -/
def Stated.Capture : Prop :=
  (∀ (pid : BitVec 5) (asid : BitVec 16) (va : Nat) (data : Word) (be : BitVec 4) (s : State) (bank : Nat) (l : L2Line) (m : Member) (b : Binding) (old : Word),
    let w := va % 2 ^ 52 / 4 * 4
    let e := Instr.operandCapture pid asid va data be
    be ≠ 0 → s.members pid asid w = [m] → s.binding m.slot = some b → (∀ x ∈ s.binds, ∀ y ∈ s.binds, x.slot = y.slot → x = y) →
    s.lineBare pid asid w bank l → l.perms.w = true → s.hostCache.contains (pid, w / 128) = false → s.owned pid asid w = false →
    (∀ k, k < 4 → byteAt l.data (w % 128 + k) = old.extractLsb' (8 * k) 8) →
    (∀ x ∈ s.binds, (x.err = true → x.hold = []) ∧ (x.pid = pid → ∀ banks, x.strayed { s with banks := banks } l.key l.pa [w % 128 / 4] = false)) →
    let reads (t : State) (x : Word) : Prop := ∃ u, homeWord t pid asid w = .ok x u
    (s.wordHeld pid asid w = true → ∃ t, exec e s = .next t ∧ t.binds = s.binds ∧ reads t old) ∧
    (s.wordHeld pid asid w = false → b.err = false → s.extentAtHand pid asid b.extentLog true →
      let new := mergeWord old data be
      let d := b.side m.opB
      let n := elemBytes d.ty
      let inside (k : Nat) : Prop := n * (k + 1) ≤ 4 ∧ m.col + k < d.cols
      let changed (k : Nat) : Prop := inside k ∧ ∃ i, i < n ∧ old.extractLsb' (8 * (n * k + i)) 8 ≠ new.extractLsb' (8 * (n * k + i)) 8
      let any : Prop := ∃ k, changed k
      let marked : Prop := if m.opB then ∃ k, inside k ∧ m.col + k ∈ b.colMarks else m.row ∈ b.rowMarks
      let asMark : Prop := 2 ^ b.logn ≤ b.entries.length ∨ marked
      let holds : Prop := any ∧ (b.il = .init ∨ b.il = .apend ∧ (m.opB = true ∨ b.hold ≠ []) ∨ b.il = .bpend ∧ (m.opB = false ∨ b.hold ≠ []))
      ∃ t y, exec e s = .next t ∧ t.binding m.slot = some y ∧ (holds → reads t old) ∧ (¬holds → reads t new) ∧
      (∀ k, k < 4 → (be.getLsbD k = true → new.extractLsb' (8 * k) 8 = data.extractLsb' (8 * k) 8) ∧
        (be.getLsbD k = false → new.extractLsb' (8 * k) 8 = old.extractLsb' (8 * k) 8)) ∧
      (holds → ∃ i, y = { b with hold := b.hold ++ [⟨i, w, data, be, none⟩] }) ∧
      (¬any → y = b) ∧
      (¬holds → any → asMark → y = { b with rowMarks := y.rowMarks, colMarks := y.colMarks } ∧
        (∀ i, i ∈ y.rowMarks ↔ i ∈ b.rowMarks ∨ m.opB = false ∧ i = m.row) ∧
        ∀ i, i ∈ y.colMarks ↔ i ∈ b.colMarks ∨ m.opB = true ∧ ∃ k, changed k ∧ i = m.col + k) ∧
      (¬holds → any → ¬asMark → ∃ mask : BitVec 4, (∀ k, k < 4 → (mask.getLsbD k = true ↔ changed k)) ∧
        y = { b with capseq := b.capseq + 1, entries := b.entries ++ [⟨b.capseq + 1, m.opB, w, mask, m.row, m.col, old, new⟩],
                     il := if m.opB then .bpend else .apend }))) ∧
  (∀ (slot : Nat) (s : State) (b : Binding), s.binding slot = some b →
    (b.err = false → s.speBroken b = false → exec (.bindingError slot) s = .next s) ∧
    ∀ t, b.err = true ∨ s.speBroken b = true → Dev.settled (speFail s slot) = .ok () t →
      exec (.bindingError slot) s = .next t ∧ ∃ y, t.binding slot = some y ∧ y.err = true ∧ y.il = .idle ∧
        ((∀ x ∈ s.binds, x.hold = []) → y = { b with err := true, il := .idle })) ∧
  ∀ (slot : Nat) (s : State) (b : Binding), s.binding slot = some b → b.slot = slot → b.err = true ∨ s.speBroken b = true → s.productAtHand b →
    ∃ t, exec (.bindingError slot) s = .next t ∧ t.binding slot = some { b with err := true, il := .idle } ∧
      ∀ i j, i < b.m → j < b.n → ∃ c, t.cReads b i j c

/-- R302, R308 to R311, R313: the initial product is computed by blocks of 64 and ends INIT; entries are applied in their order, one by one in DET and in groups of at most 16
in BAT, and count as applied; an element of an integer binding gets exactly the sum of the products, or of the corrections, modulo 2³²; of a float binding
it gets the exact sum rounded once for each block, and for each correction or group. -/
def Stated.Corrections : Prop :=
  (∀ (b : Binding) (later : List LogEntry) (s u : State) (i j : Nat) (ps : List (Nat × Nat)),
    let pair (s : State) (k : Nat) : Dev (Nat × Nat) :=
      (speElem b later false s i k).bind fun x s => (speElem b later true s k j).bind fun y s => .ok (x, y) s
    devList pair (List.range b.k) s = .ok ps u → ∃ c, speDot b later s i j = .ok c u ∧ ps.length = b.k ∧
      (b.cfmt = .i32 → c = BitVec.ofInt 32 ((ps.map fun p => b.int false p.1 * b.int true p.2).sum)) ∧
      (b.cfmt ≠ .i32 → ∃ run : Nat → Word, run 0 = 0 ∧ run ((b.k + 63) / 64) = c ∧ ∀ q, q < (b.k + 63) / 64 → ∀ (x y : Nat → Rat) (a : Rat),
        (∀ k p, 64 * q ≤ k → k < 64 * q + 64 → ps[k]? = some p → (b.val false p.1).real = some (x k) ∧ (b.val true p.2).real = some (y k)) →
        realOf (fmtOf .f32) (run q).toNat = some a →
        let sum := a + ((List.range (min 64 (b.k - 64 * q))).map fun k => x (64 * q + k) * y (64 * q + k)).sum
        sum ≠ 0 → sum.abs ≤ (fmtOf .f32).largest → Rounds (fmtOf .f32) .rne (fun z => z < sum) (fun z => sum < z) (run (q + 1)).toNat)) ∧
  (∀ (b : Binding) (opB : Bool) (c : Word) (ts : List Term),
    (b.cfmt = .i32 → b.correct opB c ts =
      BitVec.ofInt 32 (c.toInt + (ts.map fun t => (b.int opB t.new - b.int opB t.old) * b.int (!opB) t.other).sum)) ∧
    (b.cfmt ≠ .i32 → ∀ (x y z : Term → Rat) (a : Rat), realOf (fmtOf .f32) c.toNat = some a →
      (∀ t ∈ ts, (b.val opB t.new).real = some (x t) ∧ (b.val opB t.old).real = some (y t) ∧ (b.val (!opB) t.other).real = some (z t)) →
      let sum := a + (ts.map fun t => (x t - y t) * z t).sum
      sum ≠ 0 → sum.abs ≤ (fmtOf .f32).largest → Rounds (fmtOf .f32) .rne (fun q => q < sum) (fun q => sum < q) (b.correct opB c ts).toNat)) ∧
  (∀ (slot : Nat) (es later : List LogEntry) (joint : Bool) (s u : State) (b : Binding), s.binding slot = some b → b.slot = slot →
    speGroup slot es later joint s = .ok () u → ∃ c, u.binding slot = some c ∧ c = { b with rowCnt := c.rowCnt, colCnt := c.colCnt }) ∧
  (∀ (slot : Nat) (s : State) (b : Binding), s.binding slot = some b → s.speRuns b = true →
    (b.il ≠ .init → exec (.speInitialProduct slot) s = .next s) ∧
    (∀ t, b.il = .init → speStart slot s = .ok () t → exec (.speInitialProduct slot) s = .next t ∧
      ∀ u, speElements b b.entries ((List.range b.m).flatMap fun i => (List.range b.n).map fun j => (i, j)) s = .ok () u → (∀ x ∈ s.binds, x.hold = []) →
        ∃ y, t.binding slot = some y ∧ (y.err = false → y = { b with il := .idle })) ∧
    (b.bat = true ∨ b.il = .init ∨ b.entries = [] → exec (.speApplyEntry slot) s = .next s) ∧
    (∀ n, b.bat = false ∨ b.il = .init ∨ 16 < n ∨ groupable (b.entries.take n) = false → exec (.speApplyGroup slot n) s = .next s) ∧
    (∀ t, b.bat = false → b.il ≠ .init → b.entries ≠ [] → speApply slot 1 false s = .ok () t → exec (.speApplyEntry slot) s = .next t) ∧
    (∀ t n, b.bat = true → b.il ≠ .init → n ≤ 16 → n ≤ b.entries.length → groupable (b.entries.take n) = true → speApply slot n true s = .ok () t →
      exec (.speApplyGroup slot n) s = .next t) ∧
    ∀ t u c n, 0 < n → n ≤ b.entries.length → b.slot = slot → speApply slot n b.bat s = .ok () t →
      speGroup slot (b.entries.take n) (b.entries.drop n) b.bat s = .ok () u → u.binding slot = some c → c.t = 0 → (∀ x ∈ u.binds, x.hold = []) →
      ∃ y, t.binding slot = some y ∧ (y.err = false →
        y = { c with entries := b.entries.drop n, appseq := ((b.entries.take n).getLast?.map (·.seq)).getD b.appseq, il := if b.entries.drop n = [] then .idle else b.il }))

/-- R302, R307 to R311, R313: where the extents are at hand and nothing is held, the initial product leaves in each element of C its recomputed value; an entry that is applied
in DET leaves in each element of its row, or of its columns, the old value with its corrections added in turn; a group that is applied in BAT the old value with
all its corrections added at once; every other element stays; a line that meets a NaN or an infinity is recomputed as of the place. The statement takes T = 0. -/
def Stated.ProductBytes : Prop :=
  ∀ (slot : Nat) (s : State) (b : Binding), s.binding slot = some b → b.slot = slot → s.speRuns b = true → s.productAtHand b →
    (b.il = .init → ∃ t, exec (.speInitialProduct slot) s = .next t ∧ t.binding slot = some { b with il := .idle } ∧
      ∀ i j, i < b.m → j < b.n → ∃ c u, speDot b b.entries s i j = .ok c u ∧ t.cReads b i j c) ∧
    (let inRange (opB : Bool) (es : List LogEntry) : Prop :=
       ∀ x ∈ es.flatMap b.corrections, if opB then x.1 < b.k ∧ x.2.1 < b.n else x.1 < b.m ∧ x.2.1 < b.k
     let special (w : Word) : Prop := FVal.special (fval (fmtOf .f32) w.toNat) = true
     let onLine (opB : Bool) (i j p q : Nat) : Prop := p < b.m ∧ q < b.n ∧ if opB then q = j else p = i
     let applied (e : Instr) (es later : List LogEntry) (opB : Bool) (joint : Bool) : Prop :=
       let after (c : Word) (ts : List Term) : Word := if joint then (if ts = [] then c else b.correct opB c ts) else ts.foldl (fun c t => b.correct opB c [t]) c
       ∃ t y, exec e s = .next t ∧ t.binding slot = some y ∧
         y = { b with entries := later, appseq := (es.getLast?.map (·.seq)).getD b.appseq, il := if later = [] then .idle else b.il, rowCnt := y.rowCnt, colCnt := y.colCnt } ∧
         ∀ i j, i < b.m → j < b.n →
           (b.cfmt = .i32 ∨ (∀ p q c ts, onLine opB i j p q → s.cReads b p q c → TermsAt b later s opB p q (b.brings opB es p q) ts → ts ≠ [] →
               (∀ x ∈ ts, ¬b.specialTerm opB x) ∧ ∀ k, k < (if joint then 1 else ts.length) → ¬special (after c (ts.take k))) →
             ∀ c ts, s.cReads b i j c → TermsAt b later s opB i j (b.brings opB es i j) ts → t.cReads b i j (after c ts)) ∧
           (b.cfmt ≠ .i32 → (∃ p q c ts, onLine opB i j p q ∧ s.cReads b p q c ∧ TermsAt b later s opB p q (b.brings opB es p q) ts ∧ ts ≠ [] ∧
               (special c ∨ ∃ x ∈ (if joint then ts else ts.take 1), b.specialTerm opB x)) →
             ∃ c u, speDot b later s i j = .ok c u ∧ t.cReads b i j c)
     b.il ≠ .init → b.t = 0 →
     (b.bat = false → ∀ e later, b.entries = e :: later → inRange e.opB [e] → applied (.speApplyEntry slot) [e] later e.opB false) ∧
     (b.bat = true → ∀ n e rest, n ≤ 16 → n ≤ b.entries.length → groupable (b.entries.take n) = true → b.entries.take n = e :: rest →
       inRange e.opB (b.entries.take n) → applied (.speApplyGroup slot n) (b.entries.take n) (b.entries.drop n) e.opB true))

/-- Standing products: capture, interlock, initial product and corrections. That a later write to a held word waits, and that a recompute resets a
correction count, are the model's reading (DEDUCED, log 38 and log 54), and that a write whose line can no longer be had is lost its choice (DESIGN
CHOICE, log 24). -/
def Obligations.Products : Prop := Stated.Capture ∧ Stated.Corrections ∧ Stated.ProductBytes

/-! ## The host link -/

/-- R371, R433, R435, R437: a snoop or an eviction takes an M line's bytes to host memory and leaves the line in S, or gone, when a watched line is asked for
again; the host's grant brings its line in S or E and shows it to the watches; a read's completion shows that the host has performed the posted writes on the
link, in order, and those that wait at the port are sent, each partition's in its order. -/
def Stated.HostPort : Prop :=
  ∀ (line : Nat) (s : State),
    let inLine (a : Nat) : Prop := line * 64 ≤ a ∧ a < line * 64 + 64
    let written (l : PortLine) (a : Nat) : Byte := if l.st = .m ∧ inLine a then BitVec.ofNat 8 (l.data.toNat / 256 ^ (a - line * 64)) else s.hostByte a
    let watched : Prop := ∃ w ∈ s.watches, ∃ a p, w.got = none ∧ s.watchHost w = some a ∧ a / 64 = line ∧ s.part w.pid = some p ∧ s.portCaches p = true ∧ p.err = false
    let asks (t : State) : Prop := (watched → ∃ own, (line, own) ∈ t.portReq) ∧ (¬watched → t.portReq = s.portReq)
    (s.portLine line = none → exec (.snpdata line) s = .next s ∧ exec (.portLineEviction line) s = .next s) ∧
    (∀ l, s.portLine line = some l → l.line = line →
      (∃ t, exec (.snpdata line) s = .next t ∧ t = { s with port := t.port, hostMem := t.hostMem } ∧ t.portLine line = some { l with st := .s } ∧
        (∀ k, k ≠ line → t.portLine k = s.portLine k) ∧ ∀ a, t.hostByte a = written l a) ∧
      (∃ t, exec (.portLineEviction line) s = .next t ∧ t = { s with port := t.port, hostMem := t.hostMem, portReq := t.portReq } ∧ t.portLine line = none ∧
        (∀ k, k ≠ line → t.portLine k = s.portLine k) ∧ (∀ a, t.hostByte a = written l a) ∧ asks t)) ∧
    (∀ (addr : Nat) (data : List Byte), ∃ t, exec (.snpinv line addr data) s = .next t ∧ t = { s with port := t.port, hostMem := t.hostMem, portReq := t.portReq } ∧
      t.portLine line = none ∧ (∀ k, k ≠ line → t.portLine k = s.portLine k) ∧ asks t ∧
      ∀ a, t.hostByte a = if line * 64 ≤ addr ∧ addr + data.length ≤ line * 64 + 64 ∧ addr ≤ a ∧ a < addr + data.length then data.getD (a - addr) 0
        else match s.portLine line with | some l => written l a | none => s.hostByte a) ∧
    (∀ ans own, s.portReq.find? (fun r => r.1 == line) = some (line, own) → s.cxl = true → ans ≠ .readDone →
      (own ≠ (ans == .owned) → exec (.hostLinkResponse line ans) s = .next s) ∧
      (own = (ans == .owned) → ∃ t x, exec (.hostLinkResponse line ans) s = .next t ∧ t = { s with port := t.port, portReq := s.portReq.filter (fun r => r.1 != line), watches := t.watches } ∧
        t.portLine line = some x ∧ x.st = (if ans = .shared then .s else .e) ∧ (∀ k, k < 64 → BitVec.ofNat 8 (x.data.toNat / 256 ^ k) = s.hostByte (line * 64 + k)) ∧
        t.watches.length = s.watches.length ∧
        ∀ (i : Nat) w, s.watches[i]? = some w →
          (w.got ≠ none ∨ (∀ a, s.watchHost w = some a → a / 64 ≠ line) → t.watches[i]? = some w) ∧
          (∀ a, w.got = none → s.watchHost w = some a → a / 64 = line → a % (if w.ty.is64 then 8 else 4) = 0 →
            ∃ v, v < 2 ^ 64 ∧ (∀ k, k < (if w.ty.is64 then 8 else 4) → s.hostByte (a + k) = BitVec.ofNat 8 (v / 256 ^ k)) ∧
              t.watches[i]? = some (if condHolds w.ty w.cc (BitVec.ofNat 64 v) w.cmp = true then { w with got := some (BitVec.ofNat 64 v) } else w)))) ∧
    (∃ t, exec (.hostLinkResponse line .readDone) s = .next t ∧ t = { s with hostOut := t.hostOut, hostSent := t.hostSent, hostMem := t.hostMem } ∧
      (∀ a, t.hostByte a =
        s.hostSent.foldl (fun v w => if w.addr ≤ a ∧ a < w.addr + w.data.length then w.data.getD (a - w.addr) 0 else v) (s.hostByte a)) ∧
      (∀ pid, (t.hostSent ++ t.hostOut).filter (fun w => w.pid == pid) = s.hostOut.filter fun w => w.pid == pid) ∧
      (∀ w ∈ t.hostSent, s.errs w.pid = false) ∧ (s.link ≠ .pcie → ∀ w ∈ t.hostOut, s.errs w.pid = true)) ∧
    ∀ pid, ∃ t, exec (.backInvalidate pid line) s = .next t ∧ t = { s with hostCache := t.hostCache } ∧
      ∀ h, h ∈ t.hostCache ↔ h ∈ s.hostCache ∧ h ≠ (pid, line)

/-- R424, R427, R434: an atomic on host memory is performed in the port's cache once the port owns the line, else whole at the host, else by compare and swap until the word still
holds what was read, or as a read and a write; it returns the old value, writes the operation's new one, and an attempt that would write what it read
ends without a write; the record of an addition whose result nobody takes goes with it. The port serves no partition in error, and none whose share of the
round is done while another that waits has a share left. -/
def Stated.HostAtomics : Prop :=
  ∀ (index : Nat) (s : State) (a : HostAtom) (p : Partition), s.hostAtoms[index]? = some a → s.part a.pid = some p → (∀ w ∈ s.hostOut, w.pid ≠ a.pid) → s.hostSent = [] →
    a.addr % (if a.ty.is64 then 8 else 4) = 0 →
    a.ty = .n32 ∨ a.ty = .i32 ∨ a.ty = .n64 ∨ a.ty = .i64 ∨ a.aop = .fadd ∨ a.aop = .fmin ∨ a.aop = .fmax →
    let n := if a.ty.is64 then 8 else 4
    let e := Instr.hostAtomic index
    let reads (b : Nat → Byte) (m : Dword) : Prop := m.toNat < 256 ^ n ∧ ∀ k, k < n → b (a.addr + k) = BitVec.ofNat 8 (m.toNat / 256 ^ k)
    let whole : Prop := a.aop = .add ∨ a.aop = .swap ∨ a.aop = .cas
    let inWord (x : Nat) : Prop := a.addr ≤ x ∧ x < a.addr + n
    let becomes (t : State) (m : Dword) (done : Bool) : Prop := t.hostAtoms =
      if done = true ∧ a.team = 0 then s.hostAtoms.eraseIdx index else s.hostAtoms.set index { a with m := some m, done := done }
    let wrote (t : State) (m : Dword) : Prop := t = { s with hostMem := t.hostMem, hostAtoms := t.hostAtoms, watches := t.watches, served := t.served } ∧ becomes t m true ∧
      ∃ new, AtomicValue a.ty a.aop m a.o a.c new ∧ ∀ x, t.hostByte x = if inWord x then BitVec.ofNat 8 (new.toNat / 256 ^ (x - a.addr)) else s.hostByte x
    let read (t : State) (m : Dword) : Prop := t = { s with hostAtoms := t.hostAtoms, served := t.served } ∧
      ∃ new, AtomicValue a.ty a.aop m a.o a.c new ∧ becomes t m (decide (new.toNat = m.toNat))
    let byCas : Prop := s.portCaches p = false ∧ (s.link = .pcieCasOnly ∨ s.link ≠ .pcie ∧ ¬whole)
    let others : Prop := ∃ x ∈ s.hostAtoms, x.m ≠ none ∧ x.done = false ∧ a.addr < x.addr + 8 ∧ x.addr < a.addr + n
    (a.done = true ∨ p.err = true ∨ s.mayServe hostQueue a.pid.toNat s.atomWaiters = false → exec e s = .next s) ∧
    (p.err = false → s.mayServe hostQueue a.pid.toNat s.atomWaiters = true →
    (a.done = false → s.portCaches p = true → s.portOwns (a.addr / 64) = false →
      ∃ t, exec e s = .next t ∧ t = { s with portReq := t.portReq, served := t.served } ∧ (a.addr / 64, true) ∈ t.portReq) ∧
    (∀ l, a.done = false → s.portCaches p = true → s.portLine (a.addr / 64) = some l → l.line = a.addr / 64 → l.st ≠ .s →
      ∃ t m x new, exec e s = .next t ∧ t = { s with port := t.port, hostAtoms := t.hostAtoms, watches := t.watches, served := t.served } ∧ becomes t m true ∧
        reads (fun y => BitVec.ofNat 8 (l.data.toNat / 256 ^ (y % 64))) m ∧ AtomicValue a.ty a.aop m a.o a.c new ∧
        t.portLine (a.addr / 64) = some x ∧ x.st = .m ∧ ∀ k, k < 64 → BitVec.ofNat 8 (x.data.toNat / 256 ^ k) =
          if a.addr % 64 ≤ k ∧ k < a.addr % 64 + n then BitVec.ofNat 8 (new.toNat / 256 ^ (k - a.addr % 64)) else BitVec.ofNat 8 (l.data.toNat / 256 ^ k)) ∧
    (a.done = false → s.portCaches p = false → s.link ≠ .pcie → s.link ≠ .pcieCasOnly → whole →
      ∃ t m, exec e s = .next t ∧ reads s.hostByte m ∧ wrote t m) ∧
    (a.done = false → byCas → a.m = none → ∃ t m, exec e s = .next t ∧ reads s.hostByte m ∧ read t m) ∧
    (∀ m, a.done = false → byCas → a.m = some m → (reads s.hostByte m → ∃ t, exec e s = .next t ∧ wrote t m) ∧
      (¬reads s.hostByte m → ∃ t x, exec e s = .next t ∧ reads s.hostByte x ∧ read t x)) ∧
    (a.done = false → s.portCaches p = false → s.link = .pcie →
      (a.m = none → others → ∃ t, exec e s = .next t ∧ t = { s with served := t.served }) ∧
      (a.m = none → ¬others → ∃ t m, exec e s = .next t ∧ reads s.hostByte m ∧ t = { s with hostAtoms := t.hostAtoms, served := t.served } ∧
        becomes t m false) ∧
      ∀ m, a.m = some m → ∃ t, exec e s = .next t ∧ wrote t m))

/-- The port of host memory and atomics on it. The states of the port's lines, the data of a SNPINV, the link's answers and its mode,
back-invalidation, how an atomic goes on each mode and the order of the port's service are the model's (DESIGN CHOICE, log 47; DESIGN CHOICE, log 59). -/
def Obligations.HostLink : Prop := Stated.HostPort ∧ Stated.HostAtomics

/-- R296, R427, R435, R436: a host access to an aperture reads or writes the home line of its address under XHWIN's ASID; with XHWIN off, an ASID
outside the partition, or an address that faults, it is refused, counted in HFAULT, a read giving poison under CXL and all ones else; in a partition
in error it is refused; a write to an owned page is discarded and counted in REJ; without Relaxed Ordering a write waits for an earlier one that a
binding holds. What follows a refused piece of a host write, and which lines the host keeps, are the model's (DEDUCED, log 39; DESIGN CHOICE, log 47). -/
def Obligations.HostAperture : Prop :=
  ∀ (pid : BitVec 5) (off : Nat) (s : State) (p : Partition), s.part pid = some p →
    let asid : BitVec 16 := p.xhwin.setWidth 16
    let opens (len : Nat) : Prop := p.err = false ∧ p.xhwin.getLsbD 16 = true ∧ p.ownsAsid asid = true ∧ off + len ≤ 2 ^ 52
    let shut (len : Nat) : Prop := p.err = false ∧ (p.xhwin.getLsbD 16 = false ∨ p.ownsAsid asid = false ∨ 2 ^ 52 < off + len)
    let counted (t : State) : Prop := t.part pid = some { p with hfault := min (p.hfault + 1) 0xFFFFFFFF }
    let value (len : Nat) : Option (List Byte) := if s.cxl then none else some (List.replicate len 0xFF)
    (∀ len,
      (p.err = true → exec (.hostApertureRead pid off len) s = .next { s with hostRead := value len }) ∧
      (shut len → ∃ t, exec (.hostApertureRead pid off len) s = .next t ∧ t = { s with parts := t.parts, hostRead := value len } ∧ counted t) ∧
      (∀ c, opens len → engineReadRange s (hostWho pid asid) off len = .fault c →
        ∃ t, exec (.hostApertureRead pid off len) s = .next t ∧ t = { s with parts := t.parts, hostRead := value len } ∧ counted t) ∧
      (∀ bank l, opens len → 0 < len → off % 128 + len ≤ 128 → s.lineAtHome pid asid false off bank l →
        ∃ t, exec (.hostApertureRead pid off len) s = .next t ∧
          t = { s with banks := t.banks, hostRead := some ((List.range len).map fun j => byteAt l.data (off % 128 + j)), hostCache := t.hostCache, free := t.free } ∧
          (t.bank bank).find l.key false = some l ∧ (s.link ≠ .cxl3 → t.hostCache = s.hostCache) ∧
          (∀ h ∈ t.hostCache, h ∈ s.hostCache ∨ h = (pid, off / 128)) ∧ ∀ h ∈ s.hostCache, h ∈ t.hostCache)) ∧
    ∀ (data : List Byte) (relaxed : Bool),
      let e := Instr.hostApertureWrite pid off data relaxed
      (p.err = true → exec e s = .next s) ∧
      (shut data.length → ∃ t, exec e s = .next t ∧ t = { s with parts := t.parts } ∧ counted t) ∧
      (opens data.length → relaxed = false → (∃ b ∈ s.binds, b.pid = pid ∧ ∃ h ∈ b.hold, h.core = none) → exec e s = .next s) ∧
      (∀ bank l, opens data.length → data ≠ [] → off % 128 + data.length ≤ 128 → s.lineAtHome pid asid false (off / 128 * 128) bank l →
        ∃ t y, exec e s = .next t ∧ t = { s with banks := t.banks } ∧ (t.bank bank).find l.key false = some y ∧
          (∀ j, j < 128 → byteAt y.data j = if off % 128 ≤ j ∧ j < off % 128 + data.length then data.getD (j - off % 128) 0 else byteAt l.data j) ∧
          ∀ j, off % 128 ≤ j → j < off % 128 + data.length → y.d.getLsbD (j / 4) = true ∧ y.be.getLsbD j = true) ∧
      (∀ bank l u b t, opens data.length → data ≠ [] → off % 128 + data.length ≤ 128 →
        homeAccess { s with hostCache := s.hostCache.filter fun h => h != (pid, off / 128) } pid asid (off / 128 * 128) .write false = .line bank l u → u.binds = s.binds →
        s.binds = [b] → b.pid = pid → b.asid = asid → b.owns off = true → b.owns (off / 128 * 128) = true → b.hold = [] → s.countRej pid asid off = .ok () t →
        exec e s = .next t ∧ ∃ y, t.binds = [y] ∧ t.mem = s.mem ∧ (y.err = b.err → y = { b with rej := min (b.rej + 1) 0xFFFFFFFF }))

/-! ## Partitions -/

/-- R90, R92, R421, R422, R426, R439: a partition is created with units that no other has, none of them retired, its function block at its Reset values and a new key; a
command that would share a unit, a key slot or an ASID, or take the key slot of the reserved regions, changes nothing; a disabled, unbound partition takes a changed
ownership, and a new key with a changed key slot; a bank moves between two
such partitions, once nothing about it is under way, written back and empty. Nothing but ownership changes, and the channel sets and second-stage entries
that no partition owns any more go (R58, R66; DESIGN CHOICE, log 61). -/
def Obligations.Partitions : Prop :=
  ∀ (x : PartSpec) (s : State),
    let o := s.ownedUnits x
    let ranges (b0 l0 b1 l1 a : Nat) : Prop := b0 ≤ a ∧ a ≤ l0 ∨ b1 ≤ a ∧ a ≤ l1
    let clash : Prop := ∃ p ∈ s.parts, p.pid ≠ x.pid ∧ ((∃ u ∈ o.quads, u ∈ p.quads) ∨ (∃ u ∈ o.banks, u ∈ p.banks) ∨ (∃ u ∈ o.channels, u ∈ p.channels) ∨
      x.keyslot = p.keyslot ∨ ∃ a, ranges x.base0 x.last0 x.base1 x.last1 a ∧ ranges p.base0 p.last0 p.base1 p.last1 a)
    let outside : Prop := (∃ u ∈ o.quads, 48 ≤ u) ∨ (∃ u ∈ o.banks, 256 ≤ u) ∨ (∃ u ∈ o.channels, 512 ≤ u) ∨ (∃ b ∈ o.banks, ∀ c ∈ o.channels, c / 128 ≠ b / 64) ∨
      (∃ q ∈ o.quads, ∀ b ∈ o.banks, b / 64 ≠ q / 12) ∨ 32 ≤ x.keyslot ∨ x.weight = 0 ∨ 256 ≤ x.weight
    let owned (p : Partition) : Prop := p.quads = o.quads ∧ p.banks = o.banks ∧ p.channels = o.channels ∧ p.weight = x.weight ∧ p.keyslot = x.keyslot ∧
      p.base0 = x.base0 ∧ p.last0 = x.last0 ∧ p.base1 = x.base1 ∧ p.last1 = x.last1 ∧ p.hwBase = x.hwBase % 2 ^ 27 ∧ p.hwLast = x.hwLast % 2 ^ 27
    let kept (p : Partition) (e : Nat × Dword) : Bool := !e.2.getLsbD 0 || (storeGet [] s.chanSets (field e.2 51 21)).all p.channels.contains
    (∀ u, (u ∈ o.quads ↔ u ∈ x.quads ∧ u ∉ s.retiredUnits ∧ u ∉ s.harvested) ∧ (u ∈ o.banks ↔ u ∈ x.banks ∧ 64 + u ∉ s.retiredUnits) ∧
      (u ∈ o.channels ↔ u ∈ x.channels ∧ 1024 + u ∉ s.retiredUnits)) ∧
    (clash ∨ outside ∨ s.boot ≠ .ready ∨ s.fatal = true → exec (.partitionCreate x) s = .next s ∧ exec (.partitionChange x) s = .next s) ∧
    (s.boot = .ready → s.fatal = false → s.grants o = true → s.part x.pid = none →
      ∃ t p, exec (.partitionCreate x) s = .next t ∧ t = { s with parts := s.parts ++ [p], banks := t.banks, keys := t.keys, epoch := s.epoch + 1 } ∧ p.pid = x.pid ∧ owned p ∧
        p.enabled = true ∧ p.tdisp = .unlocked ∧ p.err = false ∧ p.cause = 0 ∧ p.ceil = 4 ∧ p.floor = 0 ∧ (∀ d, p.share.getD d 0 = 0) ∧ p.xsched = 0x080010 ∧
        p.xfq = 0x00400010 ∧ p.xasid = 0 ∧ p.xfpool = 0 ∧ p.xfpsz = 0 ∧ p.xfqdb = 0 ∧ p.xsvpool = 0 ∧ p.xsvcnt = 0 ∧ p.xlaunch = 0 ∧ p.xhwin = 0 ∧ p.xhpm = 0 ∧
        p.xnullack = 0 ∧ p.xrecov = 0 ∧ p.xreject = 0 ∧ p.drop = 0 ∧ p.hfault = 0 ∧
        storeGet 0 t.keys x.keyslot = s.epoch + 1 ∧ (∀ k, k ≠ x.keyslot → storeGet 0 t.keys k = storeGet 0 s.keys k) ∧
        ∀ b, t.bank b = if b ∈ o.banks then { s.bank b with owner := some x.pid } else s.bank b) ∧
    (∀ p, s.part x.pid = some p → exec (.partitionCreate x) s = .next s ∧
      (p.enabled = true ∨ p.bound = true → exec (.partitionChange x) s = .next s) ∧
      (s.boot = .ready → s.fatal = false → s.grants o = true → p.enabled = false → p.bound = false →
        ∃ t q, exec (.partitionChange x) s = .next t ∧ t = { s with parts := t.parts, banks := t.banks, chanSets := t.chanSets, keys := t.keys, epoch := t.epoch } ∧ t.part x.pid = some q ∧ owned q ∧
          (x.keyslot = p.keyslot → t.keys = s.keys) ∧
          (x.keyslot ≠ p.keyslot → storeGet 0 t.keys x.keyslot = s.epoch + 1 ∧ storeGet 0 t.keys p.keyslot = 0 ∧
            ∀ k, k ≠ x.keyslot → k ≠ p.keyslot → storeGet 0 t.keys k = storeGet 0 s.keys k) ∧
          q = { p with quads := q.quads, banks := q.banks, channels := q.channels, weight := q.weight, keyslot := q.keyslot, base0 := q.base0, last0 := q.last0,
                       base1 := q.base1, last1 := q.last1, hwBase := q.hwBase, hwLast := q.hwLast, stage2 := q.stage2 } ∧
          q.stage2 = p.stage2.filter (kept q) ∧ t.chanSets = s.chanSets.filter (fun c => t.parts.any fun r => c.2.all r.channels.contains) ∧
          (∀ pid, pid ≠ x.pid → t.part pid = (s.part pid).map fun r => { r with stage2 := r.stage2.filter (kept r) }) ∧
          ∀ b, t.bank b = if b ∈ o.banks then { s.bank b with owner := some x.pid } else if b ∈ p.banks then { s.bank b with owner := none } else s.bank b)) ∧
    ∀ (bank : Nat) (dst : BitVec 5) (p q : Partition), s.parts.find? (fun p => p.banks.contains bank) = some p → s.part p.pid = some p → s.part dst = some q →
      (p.enabled = true ∨ q.enabled = true ∨ p.bound = true ∨ q.bound = true ∨ s.bankQuiet bank = false → exec (.bankMove bank dst) s = .next s) ∧
      (s.boot = .ready → s.fatal = false → s.bankQuiet bank = true → p.pid ≠ dst → p.enabled = false → q.enabled = false → p.bound = false → q.bound = false →
        PartSpec.legal { q.spec with banks := sortedUnits (bank :: q.banks) } = true → PartSpec.legal { p.spec with banks := p.banks.filter (· != bank) } = true →
        (∀ l ∈ (s.bank bank).lines, l.remote = false ∧ l.own = 0 ∧ (s.bank bank).dirEntry l.key = none) →
        ∃ t p' q', exec (.bankMove bank dst) s = .next t ∧ t = { s with parts := t.parts, banks := t.banks, haq := t.haq } ∧
          t.bank bank = { Bank.blank with owner := some dst } ∧ (∀ b, b ≠ bank → t.bank b = s.bank b) ∧
          t.part p.pid = some p' ∧ p' = { p with banks := p.banks.filter (· != bank) } ∧ t.part dst = some q' ∧ q' = { q with banks := q'.banks } ∧
          (∀ b, b ∈ q'.banks ↔ b = bank ∨ b ∈ q.banks) ∧ (∀ a, t.memByte a = s.memByte a) ∧
          ∀ l, (s.bank bank).lines = [l] → ∀ a, t.viewByte a =
            if l.pa ≤ a ∧ a < l.pa + 128 ∧ l.d.getLsbD ((a - l.pa) / 4) = true ∧ l.be.getLsbD (a - l.pa) = true then byteAt l.data (a - l.pa) else s.viewByte a)

/-- R427 to R430, R439, R440: a partition enters its error state on each cause: it reports that, its unsent host writes are dropped and counted, and
each byte of those on the link is performed or not; an interface that leaves RUN for no CONFIG_UNLOCKED, an expired session of a bound one, and a
stream that fails its integrity are causes; a per-function reset ends all that belongs to the partition, forgets the memory of its channels, loads a
new key and resets its registers but those of R430; other partitions keep everything. The stream of an interface is the model's choice (DESIGN CHOICE,
log 57); what a reset keeps is its reading (DEDUCED, log 48), and that an interface is bound in CONFIG_LOCKED and RUN (DEDUCED, log 19). -/
def Obligations.PartitionErrors : Prop :=
  ∀ (pid : BitVec 5) (s : State) (p : Partition), s.part pid = some p →
    let n (q : Partition) : Nat := (s.hostOut.filter fun w => w.pid == q.pid).length
    let failed (q : Partition) (k : Nat) : Partition := { q with err := true, cause := q.cause ||| BitVec.twoPow 5 k, drop := min (q.drop + n q) 0xFFFFFFFF }
    let errs (e : Instr) (k : Nat) : Prop := ∃ t, exec e s = .next t ∧ ErrFrame s t ∧ Erred s t pid k
    errs (.partitionError pid .poison) 0 ∧ errs (.partitionError pid .reject) 1 ∧ errs (.partitionError pid .tdisp) 2 ∧ errs (.partitionError pid .spdm) 3 ∧
    errs (.partitionError pid .ide) 4 ∧
    (p.tdisp = .locked ∨ p.tdisp = .run → errs (.spdmSessionExpiry pid) 3) ∧
    (p.tdisp ≠ .locked → p.tdisp ≠ .run → exec (.spdmSessionExpiry pid) s = .next s) ∧
    (∀ stream, (s.parts.map (·.pid)).Nodup → ∃ t, exec (.ideIntegrityFailure stream) s = .next t ∧ ErrFrame s t ∧
      let hit (w : HostWrite) : Bool := s.parts.any fun q => q.pid == w.pid && q.ideStream == stream
      t.part pid = some (if p.ideStream = stream then failed p 4 else p) ∧ (p.ideStream = stream → p.err = false → some pid ∈ t.aer) ∧
      t.hostOut = s.hostOut.filter (fun w => !hit w) ∧ t.hostSent = s.hostSent.filter (fun w => !hit w) ∧
      ∀ a, t.hostByte a = s.hostByte a ∨
        ∃ w ∈ s.hostSent, hit w = true ∧ w.addr ≤ a ∧ a < w.addr + w.data.length ∧ t.hostByte a = w.data.getD (a - w.addr) 0) ∧
    (∀ st, let bad : Prop := p.tdisp = .run ∧ st ≠ .run ∧ st ≠ .unlocked
      ∃ t q, exec (.tdispStateChange pid st) s = .next t ∧ ErrFrame { s with port := t.port, portReq := t.portReq } t ∧
        t.part pid = some q ∧ (bad → q = { failed p 2 with tdisp := st } ∧ t.hostOut = s.hostOut.filter fun w => w.pid != pid) ∧
        (¬bad → q = { p with tdisp := st } ∧ t = { s with parts := t.parts, port := t.port, portReq := t.portReq, hostMem := t.hostMem }) ∧
        (st = .locked ∨ st = .run → (∀ l ∈ t.port, p.admits (l.line * 64) = false) ∧ ∀ l ∈ s.port, p.admits (l.line * 64) = false → l ∈ t.port) ∧
        (st ≠ .locked → st ≠ .run → t.port = s.port ∧ (¬bad → t.hostMem = s.hostMem))) ∧
    (∀ index, ∃ t, exec (.spdmRequest pid index) s = .next t ∧ t = { s with spdm := t.spdm } ∧ (t.spdm.isSome = true ↔ 1 ≤ index ∧ index ≤ 9) ∧
      (index = 9 → t.spdm = some (Config.measurement 9 (p.remapEntry ++ [p.xpinfo.toNat, p.xasidr.toNat])))) ∧
    (p.enabled = false → ∃ t, exec (.perFunctionReset pid) s = .next t ∧ t = { s with parts := t.parts } ∧ t.part pid = some { p with enabled := true }) ∧
    (p.enabled = true → ∃ t q, exec (.perFunctionReset pid) s = .next t ∧ t.part pid = some q ∧ (∀ i, i ≠ pid → t.part i = s.part i) ∧
      (q.pid = p.pid ∧ q.quads = p.quads ∧ q.banks = p.banks ∧ q.channels = p.channels ∧ q.weight = p.weight ∧ q.keyslot = p.keyslot ∧ q.base0 = p.base0 ∧
        q.last0 = p.last0 ∧ q.base1 = p.base1 ∧ q.last1 = p.last1 ∧ q.hwBase = p.hwBase ∧ q.hwLast = p.hwLast ∧ q.xfq = p.xfq ∧ q.xfpool = p.xfpool ∧
        q.xfpsz = p.xfpsz ∧ q.xsvpool = p.xsvpool ∧ q.xsvcnt = p.xsvcnt) ∧
      (q.xasid = 0 ∧ q.ceil = 4 ∧ q.floor = 0 ∧ q.xnullack = 0 ∧ q.xrecov = 0 ∧ q.xreject = 0 ∧ q.xsched = 0x080010 ∧ q.xfqdb = 0 ∧ q.xlaunch = 0 ∧
        q.err = false ∧ q.cause = 0 ∧ q.xhwin = 0 ∧ q.xhpm = 0 ∧ q.drop = 0 ∧ q.hfault = 0 ∧ q.frames = [] ∧ q.overflow = []) ∧
      ((∀ x ∈ t.live, x.pid ≠ pid) ∧ (∀ x ∈ t.running, x.2.pid ≠ pid) ∧ (∀ x ∈ t.loads, x.pid ≠ pid) ∧ (∀ x ∈ t.fq ++ t.fqWait, x.pid ≠ pid) ∧
        (∀ x ∈ t.rally, x.pid ≠ pid) ∧ (∀ x ∈ t.binds, x.pid ≠ pid) ∧ (∀ x ∈ t.tlb, x.pid ≠ pid) ∧ (∀ x ∈ t.hostOut ++ t.hostSent, x.pid ≠ pid) ∧
        (∀ r ∈ t.portReq, p.admits (r.1 * 64) = false) ∧ (∀ x ∈ t.hostAtoms, x.pid ≠ pid) ∧ (∀ x ∈ t.prefs, x.pid ≠ pid) ∧ (∀ x ∈ t.atomics, x.pid ≠ pid) ∧
        (∀ x ∈ t.packets, x.pid ≠ pid.setWidth 6) ∧ (∀ x ∈ t.inbox ++ t.held ++ t.bunker, x.pkt.pid ≠ pid.setWidth 6) ∧
        (∀ c ∈ t.cores, (∀ l ∈ c.2.l1, l.key.pid ≠ pid) ∧ (∀ e ∈ c.2.deque, e.pid ≠ pid) ∧ ∀ f ∈ c.2.frames, f.1 ≠ pid) ∧ ∀ b ∈ t.banks, ∀ l ∈ b.2.lines, l.key.pid ≠ pid) ∧
      (∀ x, x.pid ≠ pid → x.phase ≠ .ended → (x ∈ t.live ↔ x ∈ s.live)) ∧
      (∀ a, a / 2097152 ∉ s.ownFrames p → t.memByte a = s.memByte a) ∧
      (∀ a, a / 2097152 ∈ s.ownFrames p → ∃ e, t.memByte a = Config.lostByte e a) ∧ (∀ w ∈ t.haq, w.spa / 2097152 ∉ s.ownFrames p) ∧
      storeGet 0 t.keys p.keyslot = s.epoch + 1 ∧ ∀ k, k ≠ p.keyslot → storeGet 0 t.keys k = storeGet 0 s.keys k)

/-! ## The module and its registers -/

/-- R80, R81, R85, R441 to R444: the boot accepts only seven images that verify with versions no older than the fused counter; the power alarm rises above LIMIT and falls
after 1,000 samples below 95 % of it; a fatal error stops issue, is reported, and begins a dump, which ends complete or failed; a reset of physical function 0 or a loss of power restarts the
module, forgets HBM, and after the latter each word of persistent memory holds its durable value or one written; read-back of a readable unit returns
its bytes, and of a line each word's V, D, BE, OWN and ODIE as R85 lays them out (the window's form is a DESIGN CHOICE, log 46), all ones for a bound partition. -/
def Stated.Module : Prop :=
  ∀ (s : State),
    let restarted (t : State) : Prop := t.boot = .off ∧ t.fatal = false ∧ t.parts = [] ∧ t.live = [] ∧ t.mem = [] ∧ t.haq = [] ∧ t.binds = [] ∧ t.cores = [] ∧ t.banks = [] ∧
      t.packets = [] ∧ t.port = [] ∧ t.hostOut = [] ∧ t.hostSent = [] ∧ t.tsus = 0x200 ∧ t.limit = 0x0AF0 ∧ t.alarm = false ∧ t.dump = 0 ∧ t.keys = [] ∧ t.fuse = s.fuse ∧
      t.retiredUnits = s.retiredUnits ∧ t.harvested = s.harvested ∧ t.link = s.link ∧ t.linkRate = s.linkRate ∧
      t.linkWidth = s.linkWidth ∧ ∀ a, ∃ e, t.memByte a = Config.lostByte e a
    let wordState (bs : List Byte) (k : Nat) : BitVec 16 := bs.getD (129 + 2 * k) 0 ++ bs.getD (128 + 2 * k) 0
    let lineBytes (bs : List Byte) (data : BitVec 1024) (v d : BitVec 32) (be : BitVec 128) : Prop := bs.length = 192 ∧ (∀ k, k < 128 → bs.getD k 0 = byteAt data k) ∧
      ∀ k, k < 32 → (wordState bs k).getLsbD 5 = v.getLsbD k ∧ (wordState bs k).getLsbD 4 = d.getLsbD k ∧ (wordState bs k).extractLsb' 0 4 = be.extractLsb' (4 * k) 4
    (∀ images, (s.boot ≠ .off → exec (.powerOnBoot images) s = .next s) ∧
      (s.boot = .off → images.length = 7 → (∀ i ∈ images, i.ok = true ∧ s.fuse ≤ i.version) →
        ∃ t, exec (.powerOnBoot images) s = .next t ∧ t = { s with
            boot := .ready, link := t.link, linkRate := t.linkRate, linkWidth := t.linkWidth, free := s.free + 3, images := images.map (·.version), parts := [], keys := t.keys, epoch := s.epoch + 1 } ∧
          storeGet 0 t.keys 63 = s.epoch + 1 ∧ (∀ k, k ≠ 63 → storeGet 0 t.keys k = storeGet 0 s.keys k) ∧ t.linkWidth ∈ [16, 8, 4] ∧
          t.linkRate ∈ (match t.link with | .cxl3 => [128, 64] | .cxl2 => [32] | _ => [128, 64, 32])) ∧
      (s.boot = .off → images.length ≠ 7 ∨ (∃ i ∈ images, i.ok = false ∨ i.version < s.fuse) → ∃ t, exec (.powerOnBoot images) s = .next t ∧
        t = { s with boot := .stopped, linkWidth := t.linkWidth, free := s.free + 1 } ∧ t.linkWidth ∈ [16, 8, 4, 2, 1])) ∧
    (∀ watts, (s.limit < watts → exec (.powerSample watts) s = .next { s with alarm := true, calm := 0 }) ∧
      (watts ≤ s.limit → s.alarm = true → watts * 100 < s.limit * 95 → exec (.powerSample watts) s =
        .next (if s.calm + 1 < 1000 then { s with calm := s.calm + 1 } else { s with alarm := false, calm := 0 })) ∧
      (watts ≤ s.limit → s.alarm = false ∨ s.limit * 95 ≤ watts * 100 → exec (.powerSample watts) s = .next { s with calm := 0 })) ∧
    (s.fatal = false → ∃ t, exec .fatalError s = .next t ∧ t = { s with fatal := true, dump := 2 ^ 62, dumped := none, running := [], aer := none :: s.aer } ∧
      ∀ pid, t.issuing pid = false) ∧
    (s.fatal = true → s.dump / 2 ^ 62 = 1 → ∃ t, exec .fatalError s = .next t ∧ t = { s with dump := t.dump, dumped := t.dumped, free := t.free } ∧
      t.dump % 2 ^ 62 < 2 ^ 32 ∧ (t.dump / 2 ^ 62 = 2 ∧ t.dumped = some ((s.parts.filter fun p => !p.bound).map (·.pid)) ∨
        t.dump / 2 ^ 62 = 3 ∧ t.dumped = none)) ∧
    (s.fatal = true → s.dump / 2 ^ 62 ≠ 1 → exec .fatalError s = .next s) ∧
    (∃ t, exec .physicalFunction0Reset s = .next t ∧ restarted t ∧ t.hostMem = s.hostMem ∧ t.durable = s.durable) ∧
    (∃ t, exec .powerLoss s = .next t ∧ restarted t ∧ t.durable = t.hostMem ∧
      (∀ a ∈ s.persistentWords, ∃ l ∈ s.survivors a, ∀ k, k < 4 → t.hostByte (a + k) = l.getD k 0) ∧
      ∀ b, b / 4 * 4 ∉ s.persistentWords → t.hostByte b = s.hostByte b) ∧
    (∀ a l, l ∈ s.survivors a → l.length = 4) ∧
    (∀ spa p, s.parts.find? (fun p => (s.ownFrames p).contains (spa / 2097152)) = some p → storeGet 0 s.keys p.keyslot ≠ 0 →
      (s.fatal = false → p.err = false → exec (.readBack (.hbm spa)) s = .next s) ∧
      (s.fatal = true ∨ p.err = true → ∃ t, exec (.readBack (.hbm spa)) s = .next t ∧ t = { s with mgmtRead := t.mgmtRead } ∧
        (p.bound = true → t.mgmtRead = BitVec.allOnes 64) ∧
        (p.bound = false → ∀ k, k < 8 → BitVec.ofNat 8 (t.mgmtRead.toNat / 256 ^ k) = s.viewByte (spa + k)))) ∧
    (∀ phys index l p, (s.bank phys).lines[index]? = some l → (s.bank phys).owner = some p.pid → s.part p.pid = some p →
      (s.fatal = false → p.err = false → exec (.readBack (.bank phys index)) s = .next s) ∧
      (s.fatal = true ∨ p.err = true → ∃ bs, exec (.readBack (.bank phys index)) s = .next { s with
          hostRead := some (if p.bound then List.replicate 192 0xFF else bs), mgmtRead := if p.bound then BitVec.allOnes 64 else l.d ++ l.v } ∧
        lineBytes bs l.data l.v l.d l.be ∧ ∀ k, k < 32 → (wordState bs k).getLsbD 8 = l.own.getLsbD k ∧ (wordState bs k).extractLsb' 6 2 = l.odie.extractLsb' (2 * k) 2)) ∧
    (∀ phys index e p, (s.bank phys).dir[index]? = some e → (s.bank phys).owner = some p.pid → s.part p.pid = some p → s.fatal = true ∨ p.err = true →
      exec (.readBack (.directory phys index)) s = .next { s with mgmtRead := if p.bound then BitVec.allOnes 64 else e.bits }) ∧
    (∀ core index l p, (s.core core).l1[index]? = some l → s.part l.key.pid = some p → s.fatal = true ∨ p.err = true →
      ∃ bs, exec (.readBack (.l1 core index)) s = .next { s with
          hostRead := some (if p.bound then List.replicate 192 0xFF else bs), mgmtRead := if p.bound then BitVec.allOnes 64 else l.d ++ l.v } ∧
        lineBytes bs l.data l.v l.d l.be) ∧
    (∀ team x p, s.evTeam team = some x → s.part x.pid = some p → s.fatal = true ∨ p.err = true →
      let gives (r : ReadTarget) (v : Dword) : Prop := exec (.readBack r) s = .next { s with mgmtRead := if p.bound then BitVec.allOnes 64 else v }
      (∀ r, gives (.uniform team r) (x.uval r)) ∧ (∀ r l, gives (.lane team r l) ((x.vval r l).setWidth 64)) ∧
      (∀ d m n, m < 64 → n < 64 → gives (.tile team (tileKey d m n)) ((x.tileWord d m n).setWidth 64)) ∧
      (∀ off, ∃ v, gives (.window team off) v ∧ ∀ k, k < 8 → BitVec.ofNat 8 (v.toNat / 256 ^ k) = storeGet 0 x.win (off + k)) ∧
      (∀ slot, gives (.special team slot 0x17) x.trapcode ∧ gives (.special team slot 0x18) x.trappc ∧ gives (.special team slot 0x19) x.trapva) ∧
      (∀ m, ∃ bs, exec (.readBack (.mask team m)) s =
          .next { s with mgmtRead := if p.bound then BitVec.allOnes 64 else 0, hostRead := some (if p.bound then List.replicate 128 0xFF else bs) } ∧
        bs.length = 128 ∧ ∀ k, k < 1024 → (bs.getD (k / 8) 0).getLsbD (k % 8) = (x.mval m).getLsbD k) ∧
      ∀ slot q, x.path slot = some q → ∃ bs, exec (.readBack (.path team slot)) s =
          .next { s with mgmtRead := if p.bound then BitVec.allOnes 64 else q.pc, hostRead := some (if p.bound then List.replicate 128 0xFF else bs) } ∧
        bs.length = 128 ∧ ∀ k, k < 1024 → (bs.getD (k / 8) 0).getLsbD (k % 8) = q.mask.getLsbD k) ∧
    (∀ index k e p, s.fq[index]? = some e → s.part e.pid = some p → s.fatal = true ∨ p.err = true →
      exec (.readBack (.fault index k)) s = .next { s with mgmtRead := if p.bound then BitVec.allOnes 64 else e.words.getD k 0 }) ∧
    (∀ pid off p, s.part pid = some p → s.fatal = true ∨ p.err = true →
      exec (.readBack (.function pid off)) s = .next { s with mgmtRead := if p.bound then BitVec.allOnes 64 else p.getReg off }) ∧
    (∀ u index k p (e : List Nat), (s.unitEntries u)[index]? = some (some p, e) →
      (s.fatal = false → p.err = false → exec (.readBack (.entry u index k)) s = .next s) ∧
      (s.fatal = true ∨ p.err = true →
        exec (.readBack (.entry u index k)) s = .next { s with mgmtRead := if p.bound then BitVec.allOnes 64 else BitVec.ofNat 64 (e.getD k 0) })) ∧
    (s.fatal = true → (∀ off, exec (.readBack (.management off)) s = .next { s with mgmtRead := s.getMgmt off }) ∧
      ∀ slot, slot < 5 → exec (.readBack (.certificate slot)) s = .next { s with mgmtRead := Config.certificate slot }) ∧
    ∀ r, ∃ t, exec (.readBack r) s = .next t ∧ t = { s with mgmtRead := t.mgmtRead, hostRead := t.hostRead, free := t.free }

/-- R7, R58, R67, R92, R103, R117, R123, R127, R388, R422, R425, R439, R442: a write to a register sets its RW fields and nothing else, and a write that the map refuses has no
effect; a frame's channel set is of its die, of one partition, a power of two, and stands while the frame is used, and a frame that is given another loses its bytes; a
unit is put on the retirement list (log 61); the record of a loaded
code object replaces one for the same base, its window a multiple of 4 KiB (log 55); XRWAY clamps the shares; a read of a counter clears it; XERR's bits clear where 1 is written. -/
def Stated.RegisterMaps : Prop :=
  ∀ (pid : BitVec 5) (v : Dword) (s : State) (p : Partition), s.part pid = some p →
    let fits (w : Dword) (rw : Nat → Bool) : Prop := ∀ k, k < 64 → w.getLsbD k = (rw k && v.getLsbD k)
    let span (hi lo : Nat) (k : Nat) : Bool := decide (lo ≤ k) && decide (k ≤ hi)
    let sets (e : Instr) (P : Partition → Prop) : Prop := ∃ t q, exec e s = .next t ∧ t = { s with parts := t.parts } ∧ t.part pid = some q ∧
      (∀ i, i ≠ pid → t.part i = s.part i) ∧ P q
    let writes (r : RegName) (P : Partition → Prop) : Prop := sets (.registerWrite r v) P
    let counter (e : Instr) (n : Nat) (q : Partition) : Prop :=
      ∃ t, exec e s = .next t ∧ t = { s with parts := t.parts, mgmtRead := BitVec.ofNat 64 n } ∧ t.part pid = some q ∧ ∀ i, i ≠ pid → t.part i = s.part i
    let teams : Prop := (∃ x ∈ s.live, x.pid = pid) ∨ s.deqs pid ≠ []
    let floor := v.toNat % 16
    let ceil := v.toNat / 256 % 16
    sets (.xrwayWrite pid v) (fun q => q = { p with ceil := q.ceil, floor := q.floor, share := q.share } ∧
      (ceil < floor ∨ 8 < ceil → q = p) ∧
      (floor ≤ ceil → ceil ≤ 8 → q.ceil = ceil ∧ q.floor = floor ∧ q.share = p.share.map fun x => max floor (min ceil x))) ∧
    counter (.xnullackRead pid) p.xnullack { p with xnullack := 0 } ∧ counter (.xrecovRead pid) p.xrecov { p with xrecov := 0 } ∧
    counter (.xrejectRead pid) p.xreject { p with xreject := 0 } ∧ counter (.xhstatRead pid) (p.drop * 2 ^ 32 + p.hfault) { p with drop := 0, hfault := 0 } ∧
    sets (.xerrWrite pid v) (fun q => q = { p with cause := q.cause } ∧ ∀ k, k < 5 → q.cause.getLsbD k = (p.cause.getLsbD k && !v.getLsbD k)) ∧
    writes (.xasid pid) (fun q => q = { p with xasid := q.xasid } ∧ fits q.xasid (span 51 12)) ∧
    writes (.xsched pid) (fun q => q = { p with xsched := q.xsched } ∧ fits q.xsched fun k => span 23 16 k || span 7 0 k) ∧
    writes (.xfq pid) (fun q => q = { p with xfq := q.xfq } ∧ fits q.xfq fun k => span 26 16 k || span 10 0 k) ∧
    writes (.xfqdb pid) (fun q => q = { p with xfqdb := q.xfqdb } ∧ fits q.xfqdb (span 51 3)) ∧
    writes (.xtrapent pid) (fun q => q = { p with xtrapent := q.xtrapent } ∧ fits q.xtrapent (span 51 2)) ∧
    writes (.xlaunch pid) (fun q => q = { p with xlaunch := q.xlaunch } ∧ fits q.xlaunch (span 51 12)) ∧
    writes (.xfpool pid) (fun q => q = { p with xfpool := q.xfpool } ∧ (teams → q = p) ∧ (¬teams → fits q.xfpool (span 51 12))) ∧
    writes (.xfpsz pid) (fun q => q = { p with xfpsz := q.xfpsz } ∧ (teams → q = p) ∧ (¬teams → fits q.xfpsz (span 31 0))) ∧
    writes (.xsvpool pid) (fun q => q = { p with xsvpool := q.xsvpool } ∧ (teams → q = p) ∧ (¬teams → fits q.xsvpool (span 51 21))) ∧
    writes (.xsvcnt pid) (fun q => q = { p with xsvcnt := q.xsvcnt } ∧ (teams → q = p) ∧ (¬teams → fits q.xsvcnt (span 31 0))) ∧
    writes (.xhwin pid) (fun q => q = { p with xhwin := q.xhwin } ∧ (p.bound = true → q = p) ∧ (p.bound = false → fits q.xhwin (span 16 0))) ∧
    writes (.xhpm pid) (fun q => q = { p with xhpm := q.xhpm } ∧ (p.bound = true → q = p) ∧ (p.bound = false → fits q.xhpm fun k => span 53 18 k || span 0 0 k)) ∧
    (∀ i, writes (.stage2 pid i) fun q => q = { p with stage2 := q.stage2 } ∧
      (p.stageOk s.chanSets i v = false → q = p) ∧
      (p.stageOk s.chanSets i v = true → fits (storeGet 0 q.stage2 i) (fun k => span 51 21 k || span 0 0 k) ∧ ∀ j, j ≠ i → storeGet 0 q.stage2 j = storeGet 0 p.stage2 j)) ∧
    (∀ frame set, let good : Prop := set.length ∈ [1, 2, 4, 8, 16, 32, 64, 128] ∧ set.Nodup ∧ frame < 524288 ∧ (∀ c ∈ set, c / 128 = frame / 131072) ∧
        ∃ q ∈ s.parts, ∀ c ∈ set, c ∈ q.channels
      (good → s.frameUsed frame = false → storeGet [] s.chanSets frame = set → exec (.registerWrite (.channelSet frame set) v) s = .next s) ∧
      (good → s.frameUsed frame = false → storeGet [] s.chanSets frame ≠ set → ∃ t, exec (.registerWrite (.channelSet frame set) v) s = .next t ∧
        t = { s with chanSets := storePut [] s.chanSets frame set, mem := t.mem, haq := t.haq, lost := t.lost, epoch := s.epoch + 1 } ∧
        (∀ a, a / 2097152 ≠ frame → t.memByte a = s.memByte a) ∧ ∀ a, a / 2097152 = frame → ∃ e, t.memByte a = Config.lostByte e a) ∧
      (¬good ∨ s.frameUsed frame = true → exec (.registerWrite (.channelSet frame set) v) s = .next s)) ∧
    (∀ asid base size vregs tiles window,
      let load : Instr := .registerWrite (.object pid asid base size vregs tiles window) v
      let good : Prop := 1 ≤ vregs ∧ vregs ≤ 256 ∧ tiles ≤ 8 ∧ window ≤ 786432
      (¬good → exec load s = .next s) ∧
      (good → ∃ w, w % 4096 = 0 ∧ window ≤ w ∧ w < window + 4096 ∧
        exec load s = .next { s with objects := ⟨pid, asid, base, size, vregs, tiles, w⟩ :: s.objects.filter fun x => !decide (x.pid = pid ∧ x.asid = asid ∧ x.base = base) })) ∧
    (∀ u, let unit : Prop := u < 48 ∨ 64 ≤ u ∧ u < 320 ∨ 1024 ≤ u ∧ u < 1536
      (unit → ∃ t, exec (.registerWrite (.retire u) v) s = .next t ∧ t = { s with retiredUnits := t.retiredUnits } ∧
        ∀ x, x ∈ t.retiredUnits ↔ x = u ∨ x ∈ s.retiredUnits) ∧
      (¬unit → exec (.registerWrite (.retire u) v) s = .next s)) ∧
    exec (.registerWrite .fabsus v) s = .next (if v.toNat % 2 ^ 16 < 64 then s else { s with tsus := v.toNat % 2 ^ 16 }) ∧
    exec (.registerWrite .mpwr v) s = .next (if 2800 < v.toNat % 2 ^ 16 then s else { s with limit := v.toNat % 2 ^ 16 })

/-- Boot, power, fatal errors, dumps, and the register maps. The images of the boot, the targets of the read-back window, the mode that the link
trains to, the record of a code object and the fields of a restart are the model's (DESIGN CHOICE, log 45, log 46, log 55, log 61 and log 69; DEDUCED,
log 48). -/
def Obligations.ModuleLife : Prop := Stated.Module ∧ Stated.RegisterMaps

/-! ## Steps, decoding, reset -/

/-- R37, R40, R46, R47, R333: with an empty agenda, where the sub-core in hand has a run whose path does not wait and the bytes at its pc decode to an
instruction that passes the decode checks, a step executes that instruction and notes it: as it is where the path has already begun it, else at the
cycle that the stall counts, the pipe and the scoreboard allow, the instruction counted once in its run and, but for a YLD, in the budget. The
conditions on the agenda and on the turn counter are the model's, DESIGN CHOICE, log 36. -/
def Obligations.StepRunsDecoded : Prop :=
  ∀ (s u : State) (sub : RunRef) (x : Team) (p : Path) (bs : List Byte) (i : Instr),
    s.agenda = [] → s.fatal = false → (s.turn + 1) % 4 ≠ 0 →
    storeFind s.running s.sub = some sub → s.findTeam sub.pid sub.team = some x → x.phase = .resident → x.wafers = [] → x.path sub.slot = some p → p.wait = none →
    ({ s with turn := s.turn + 1 } : State).mayGoOn x sub.slot p = true →
    (({ s with turn := s.turn + 1 } : State).focusOn sub.pid sub.team sub.slot).startRun.fetch = .code bs u →
    decode bs = .instr i → u.checkCode bs = .legal i →
    let runs (v : State) (q : Plan) : Prop := q.i = i ∧ step s = match exec i v with | .next t => .next (t.conclude q).noteReady | o => o
    i.wf = true ∧
    (u.path.charged = true → u.path.wait = none → ∃ v q, runs v q ∧ v = { u with cycle := v.cycle, pipes := v.pipes, issued := v.issued, early := [], retired := false, raised := [] } ∧
      v.cycle = max (max u.cycle (storeGet 0 u.pipes (u.pipeKey (Instr.opcode i)))) (storeGet 0 u.issued u.team.subKey)) ∧
    ∀ at_, u.path.charged = false → u.team.chkNow = false → (u.path.budget ≠ 0 ∨ ∃ h o, i = .yld h o) → u.issueCycle i (u.sweep i) 0 = some at_ →
      ∃ v q, runs v q ∧ v.cycle = at_ ∧ v.team = u.team.setPath u.slot (some v.path) ∧
        v = { u with cycle := v.cycle, pipes := v.pipes, issued := v.issued, early := v.early, retired := false, raised := [], team := v.team } ∧
        (u.earlyReads i (passesAfter u.path.prev (Instr.gap i) at_ (u.sweep i)) at_ = [] → v.early = []) ∧
        v.path = { u.path with charged := true, runCount := u.path.runCount + 1,
                               budget := match i with | .yld .. => u.path.budget | _ => u.path.budget - 1 }

/-- R29, R30, R35: words written out from the encoding tables are read as the instructions that they stand for. -/
def Obligations.DecodeWords : Prop :=
  let words (l : List Word) : List Byte := l.flatMap wordBytes
  let all : Guard := ⟨15, false⟩
  decode (words [0x06404010, 0x00020103]) = .instr (.vadd ⟨⟨3, false⟩, false, 2, false⟩ ⟨.i32, false, 3, 1, .lane 2⟩) ∧
  decode (words [0x1E000805, 0, 0x000C1000]) = .instr (.yld ⟨all, false, 0, true⟩ ⟨0x1000, 12⟩) ∧
  decode (words [0x1E0A9080, 0x01000404]) = .instr (.ld ⟨all, true, 0, false⟩ ⟨.b32, false, 4, ⟨4, some ⟨1, 2⟩, none⟩⟩) ∧
  decode (words [0x1EC16300, 0x0B0A0908]) = .instr (.ffma ⟨all, false, 0, false⟩ ⟨.f32, .rz, false, 8, 9, .lane 10, 11⟩) ∧
  decode (words [0x1E00E480, 0x00000014]) = .instr (.fqpop ⟨all, true, 0, false⟩ ⟨20⟩)

/-- R117, R442, R443: reset leaves the suspicion time at 512 cycles, the power limit at 2800 W with no alarm, no dump and no fatal error, and memory
in its canonical form with nothing listed. That no team, no partition and no work is there is the model's reading (DESIGN CHOICE, log 37). What the
spec gives no reset value for is empty or 0 by the model's choice (DESIGN CHOICE, log 6). -/
def Obligations.ResetValues : Prop :=
  State.reset.tsus = 512 ∧ State.reset.limit = 2800 ∧ State.reset.alarm = false ∧ State.reset.dump = 0 ∧ State.reset.fatal = false ∧ State.reset.memoryWf ∧ State.reset.mem = [] ∧ State.reset.hostMem = [] ∧
    State.reset.live = [] ∧ State.reset.running = [] ∧ State.reset.parts = [] ∧ State.reset.agenda = []

/-- R32: s0 reads as zero, whatever was read too early, and a write of it changes nothing. -/
def Obligations.ZeroRegister : Prop :=
  ∀ (s : State) (v : Dword), s.readU 0 = 0 ∧ s.writeU 0 v = s ∧ ∀ d, (s.writeU d v).readU 0 = 0

/-- R29, R30, R54: the words of a well-formed instruction are read as that instruction, whatever follows them; what is read as an instruction is well formed, and its
own words are the bytes read, but for NOP, CHAIN and MMA, of which some bits have no effect (R341, R6, R185, R275). -/
def Obligations.RoundTrip : Prop :=
  (∀ (i : Instr) (rest : List Byte), i.wf = true → (Instr.enc i).isSome = true →
    decode (encodeBytes i ++ rest) = .instr i ∧ (encodeBytes i).length = Instr.length i ∧ 8 ≤ Instr.length i ∧ Instr.length i ≤ 16) ∧
  ∀ (bs : List Byte) (i : Instr), decode bs = .instr i →
    i.wf = true ∧ (Instr.enc i).isSome = true ∧ Instr.length i ≤ bs.length ∧
      ((∀ h n, i ≠ .nop h n) → (∀ h o, i ≠ .chain h o) → (∀ h o, i ≠ .mma h o) → encodeBytes i = bs.take (Instr.length i))

/-- Every step keeps HBM and host memory in their canonical form: addresses rise and no byte is listed that an unlisted one would read the same as.
The canonical form, and that an unlisted byte reads 0, are the model's (DESIGN CHOICE, log 20). -/
def Obligations.StepKeepsMemory : Prop :=
  ∀ s t : State, s.memoryWf → step s = .next t → t.memoryWf
end

