-- ==== Sys2Proof/Laws/Store.lean ====
section
/-! SUPPORT. Laws of sparse tables: a read after a write, and the canonical form. -/
namespace Sys2Proof.Machine

variable {α : Type}

@[simp] theorem storeFind_erase (st : Store α) (k j : Nat) : storeFind (storeErase st k) j = if j = k then none else storeFind st j := by
  induction st with
  | nil => simp [storeErase, storeFind]
  | cons c rest ih =>
    obtain ⟨a, v⟩ := c
    by_cases h : k = a <;> by_cases h' : j = a <;> simp_all [storeErase, storeFind]
    rintro rfl
    exact absurd rfl h

@[simp] theorem storeFind_set (st : Store α) (k j : Nat) (v : α) : storeFind (storeSet st k v) j = if j = k then some v else storeFind st j := by
  induction st with
  | nil => simp [storeSet, storeFind]
  | cons c rest ih =>
    obtain ⟨a, w⟩ := c
    by_cases h : k = a
    · subst h; by_cases h' : j = k <;> simp [storeSet, storeFind, h']
    · by_cases h'' : k < a
      · by_cases h' : j = k <;> simp [storeSet, storeFind, h, h'', h']
      · by_cases h' : j = a
        · subst h'; simp [storeSet, storeFind, h, h'', Ne.symm h]
        · simp [storeSet, storeFind, h, h'', h', ih]

theorem storeFind_put [DecidableEq α] (d : α) (st : Store α) (k j : Nat) (v : α) :
    storeFind (storePut d st k v) j = if j = k then (if v = d then none else some v) else storeFind st j := by
  unfold storePut
  split <;> simp_all

/-- A read of a table after a write. -/
@[simp] theorem storeGet_put [DecidableEq α] (d : α) (st : Store α) (k j : Nat) (v : α) :
    storeGet d (storePut d st k v) j = if j = k then v else storeGet d st j := by
  unfold storeGet
  rw [storeFind_put]
  by_cases h : j = k <;> by_cases h' : v = d <;> simp [h, h']

/-! ## The canonical form -/

theorem storeSorted_tail {c : Nat × α} {st : Store α} (h : storeSorted (c :: st) = true) : storeSorted st = true := by
  cases st with
  | nil => rfl
  | cons x xs => obtain ⟨_, _⟩ := c; obtain ⟨_, _⟩ := x; simp only [storeSorted, Bool.and_eq_true] at h; exact h.2

/-- Every key of a sorted table is above the one before it. -/
theorem storeSorted_iff (c : Nat × α) (st : Store α) : storeSorted (c :: st) = true ↔ (∀ x ∈ st, c.1 < x.1) ∧ storeSorted st = true := by
  induction st generalizing c with
  | nil => simp [storeSorted]
  | cons y ys ih =>
    obtain ⟨k, v⟩ := c
    obtain ⟨k', v'⟩ := y
    simp only [storeSorted, Bool.and_eq_true, decide_eq_true_eq, List.mem_cons, forall_eq_or_imp, ih (k', v')]
    constructor
    · rintro ⟨h, h', h''⟩; exact ⟨⟨h, fun x hx => Nat.lt_trans h (h' x hx)⟩, h', h''⟩
    · rintro ⟨⟨h, -⟩, h', h''⟩; exact ⟨h, h', h''⟩

theorem mem_storeErase {st : Store α} {k : Nat} {x : Nat × α} (h : x ∈ storeErase st k) : x ∈ st ∧ x.1 ≠ k := by
  induction st with
  | nil => simp [storeErase] at h
  | cons c rest ih =>
    obtain ⟨a, v⟩ := c
    by_cases hk : k = a
    · rw [storeErase, if_pos hk] at h; obtain ⟨h1, h2⟩ := ih h; exact ⟨List.mem_cons_of_mem _ h1, h2⟩
    · rw [storeErase, if_neg hk] at h
      rcases List.mem_cons.1 h with rfl | h
      · exact ⟨List.mem_cons_self .., fun e => hk e.symm⟩
      · obtain ⟨h1, h2⟩ := ih h; exact ⟨List.mem_cons_of_mem _ h1, h2⟩

theorem mem_storeSet {st : Store α} {k : Nat} {v : α} {x : Nat × α} (h : x ∈ storeSet st k v) : x = (k, v) ∨ x ∈ st := by
  induction st with
  | nil => simpa [storeSet] using h
  | cons c rest ih =>
    obtain ⟨a, w⟩ := c
    unfold storeSet at h
    split at h
    · rcases List.mem_cons.1 h with h | h
      · exact .inl h
      · exact .inr (List.mem_cons_of_mem _ h)
    · split at h
      · rcases List.mem_cons.1 h with h | h
        · exact .inl h
        · exact .inr h
      · rcases List.mem_cons.1 h with rfl | h
        · exact .inr (List.mem_cons_self ..)
        · rcases ih h with h | h
          · exact .inl h
          · exact .inr (List.mem_cons_of_mem _ h)

theorem storeSorted_erase {st : Store α} (h : storeSorted st = true) (k : Nat) : storeSorted (storeErase st k) = true := by
  induction st with
  | nil => simpa [storeErase] using h
  | cons c rest ih =>
    have hc := (storeSorted_iff c rest).1 h
    obtain ⟨a, v⟩ := c
    unfold storeErase
    split
    · exact ih hc.2
    · exact (storeSorted_iff _ _).2 ⟨fun x hx => hc.1 x (mem_storeErase hx).1, ih hc.2⟩

theorem storeSorted_set {st : Store α} (h : storeSorted st = true) (k : Nat) (v : α) : storeSorted (storeSet st k v) = true := by
  induction st with
  | nil => simp [storeSet, storeSorted]
  | cons c rest ih =>
    have hc := (storeSorted_iff c rest).1 h
    obtain ⟨a, w⟩ := c
    unfold storeSet
    split
    · next e => subst e; exact (storeSorted_iff _ _).2 hc
    · split
      · next e => refine (storeSorted_iff _ _).2 ⟨fun x hx => ?_, h⟩
                  rcases List.mem_cons.1 hx with rfl | hx
                  · exact e
                  · exact Nat.lt_trans e (hc.1 x hx)
      · next e1 e2 =>
        refine (storeSorted_iff _ _).2 ⟨fun x hx => ?_, ih hc.2⟩
        rcases mem_storeSet hx with rfl | hx
        · show a < k; omega
        · exact hc.1 x hx

theorem storeSorted_filter {st : Store α} (h : storeSorted st = true) (q : Nat × α → Bool) : storeSorted (st.filter q) = true := by
  induction st with
  | nil => rfl
  | cons c st ih =>
    rw [storeSorted_iff] at h
    rw [List.filter_cons]
    split
    · rw [storeSorted_iff]
      exact ⟨fun x hx => h.1 x (List.mem_filter.1 hx).1, ih h.2⟩
    · exact ih h.2

theorem storeWf_iff [DecidableEq α] (d : α) (st : Store α) : storeWf d st = true ↔ storeSorted st = true ∧ ∀ c ∈ st, c.2 ≠ d := by
  simp [storeWf, List.all_eq_true]

/-- A write keeps the canonical form. -/
theorem storeWf_put [DecidableEq α] {d : α} {st : Store α} (h : storeWf d st = true) (k : Nat) (v : α) : storeWf d (storePut d st k v) = true := by
  rw [storeWf_iff] at h ⊢
  unfold storePut
  split
  · exact ⟨storeSorted_erase h.1 k, fun c hc => h.2 c (mem_storeErase hc).1⟩
  · next hv =>
    refine ⟨storeSorted_set h.1 k v, fun c hc => ?_⟩
    rcases mem_storeSet hc with rfl | hc
    · exact hv
    · exact h.2 c hc

end Sys2Proof.Machine
end

