-- ==== Sys2Proof/Laws/Memory.lean ====
section
/-! SUPPORT. Laws of HBM and of host memory: a byte read after a write, and the canonical form. -/
namespace Sys2Proof.Machine

theorem memWf_iff (s : State) : s.memWf = true ↔ storeSorted s.mem = true ∧ ∀ c ∈ s.mem, c.2 ≠ 0 ∨ (s.lostAt c.1).isSome = true := by
  simp [State.memWf, List.all_eq_true]

@[simp] theorem lostAt_memPut (s : State) (a : Nat) (b : Byte) : (s.memPut a b).lostAt = s.lostAt := rfl

/-- The write of a byte keeps the canonical form. -/
theorem memWf_memPut {s : State} (h : s.memWf = true) (a : Nat) (b : Byte) : (s.memPut a b).memWf = true := by
  rw [memWf_iff] at h ⊢
  rw [lostAt_memPut]
  simp only [State.memPut]
  split
  · exact ⟨storeSorted_erase h.1 a, fun c hc => h.2 c (mem_storeErase hc).1⟩
  · next hb =>
    refine ⟨storeSorted_set h.1 a b, fun c hc => ?_⟩
    rcases mem_storeSet hc with rfl | hc
    · simp only [not_and] at hb
      by_cases h0 : b = 0
      · right; have := hb h0; exact Option.isSome_iff_ne_none.2 this
      · exact .inl h0
    · exact h.2 c hc

theorem memWf_memPutList {s : State} (h : s.memWf = true) (a : Nat) (bs : List Byte) (es : List Bool) : (s.memPutList a bs es).memWf = true := by
  induction bs generalizing a s es with
  | nil => cases es <;> simpa [State.memPutList] using h
  | cons b bs ih =>
    cases es with
    | nil => simpa [State.memPutList] using h
    | cons e es =>
      rw [State.memPutList]
      apply ih
      split
      · exact memWf_memPut h a b
      · exact h

/-- A byte read after the write of a byte. -/
@[simp] theorem memByte_memPut (s : State) (a c : Nat) (b : Byte) : (s.memPut a b).memByte c = if c = a then b else s.memByte c := by
  simp only [State.memByte, State.memDefault, lostAt_memPut]
  simp only [State.memPut]
  by_cases h : c = a
  · subst h
    by_cases hb : b = 0 ∧ s.lostAt c = none
    · rw [if_pos hb, storeFind_erase, if_pos rfl]; simp [hb.1, hb.2]
    · rw [if_neg hb, storeFind_set, if_pos rfl]; simp
  · split <;> simp [h]

theorem hostMem_wf_put {m : List Host.Cell} (h : storeWf 0 m = true) (k : Nat) (b : Byte) : storeWf 0 (storePut 0 m k b) = true := storeWf_put h k b

theorem reset_memoryWf : State.reset.memoryWf := ⟨rfl, rfl⟩

/-- The canonical form says nothing of a state but its cells and its losses. -/
theorem memWf_congr {s t : State} (hm : t.mem = s.mem) (hl : t.lost = s.lost) : t.memWf = s.memWf := by
  have e : t.lostAt = s.lostAt := by funext a; simp only [State.lostAt, hl]
  simp only [State.memWf, hm, e]

end Sys2Proof.Machine
end

