-- ==== Sys2Proof/Laws/Path.lean ====
section
/-! SUPPORT. Laws of the path in focus, of the end of a run and of the retirement of an instruction. -/
namespace Sys2Proof.Machine

@[simp] theorem Team.path_setPath (t : Team) (b : Bool) (p : Option Path) : (t.setPath b p).path b = p := by cases b <;> rfl
@[simp] theorem Team.path_setPath_not (t : Team) (b : Bool) (p : Option Path) : (t.setPath b p).path (!b) = t.path (!b) := by cases b <;> rfl
@[simp] theorem Team.path_not_setPath (t : Team) (b : Bool) (p : Option Path) : (t.setPath (!b) p).path b = t.path b := by cases b <;> rfl
/-- A path's slot is all that its write changes. -/
theorem Team.setPath_frame (t : Team) (b : Bool) (p : Option Path) :
    t.setPath b p = { t with path0 := (t.setPath b p).path0, path1 := (t.setPath b p).path1 } := by cases b <;> rfl

@[simp] theorem State.path_setPath (s : State) (p : Path) : (s.setPath p).path = p := by simp [State.setPath, State.path]
@[simp] theorem State.setPath_slot (s : State) (p : Path) : (s.setPath p).slot = s.slot := rfl
@[simp] theorem State.setPath_team (s : State) (p : Path) : (s.setPath p).team = s.team.setPath s.slot (some p) := rfl
theorem State.setPath_frame (s : State) (p : Path) : s.setPath p = { s with team := (s.setPath p).team } := rfl

@[simp] theorem State.endRun_team (s : State) : s.endRun.team = s.team := by unfold State.endRun; split <;> rfl
@[simp] theorem State.endRun_slot (s : State) : s.endRun.slot = s.slot := by unfold State.endRun; split <;> rfl
theorem State.endRun_frame (s : State) : s.endRun = { s with running := s.endRun.running } := by unfold State.endRun; split <;> rfl

/-- What the path holds once the instruction in hand is done (R42, R335). -/
def Path.gone (p : Path) (fin : Bool) (pc : Dword) (cycle : Nat) : Path :=
  { p with pc := pc, wait := none, charged := false, redo := none, held := [], runCount := if fin then 0 else p.runCount,
           lastEnd := if fin && !p.gaveUp then cycle else p.lastEnd, readyAt := if fin then cycle else p.readyAt,
           promo := if fin && !p.gaveUp then 0 else p.promo, gaveUp := false, spoils := [] }

/-- What going on at a pc does: the path of the slot, the run where it ends, the note of retirement. -/
theorem State.goTo_eq (s : State) (fin : Bool) (pc : Dword) :
    s.goTo fin pc = { s with team := s.team.setPath s.slot (some (s.path.gone fin pc s.cycle)), running := (s.goTo fin pc).running, retired := true } := by
  unfold State.goTo
  cases fin
  · rfl
  · simp only [if_true]
    rw [State.endRun_frame]
    rfl

theorem State.goTo_running (s : State) (pc : Dword) : (s.goTo false pc).running = s.running := rfl

@[simp] theorem State.goTo_slot (s : State) (fin : Bool) (pc : Dword) : (s.goTo fin pc).slot = s.slot := by rw [State.goTo_eq]
@[simp] theorem State.goTo_team (s : State) (fin : Bool) (pc : Dword) : (s.goTo fin pc).team = s.team.setPath s.slot (some (s.path.gone fin pc s.cycle)) := by
  rw [State.goTo_eq]
@[simp] theorem State.goTo_path (s : State) (fin : Bool) (pc : Dword) : (s.goTo fin pc).path = s.path.gone fin pc s.cycle := by
  unfold State.path; rw [State.goTo_slot, State.goTo_team]; simp; rfl
@[simp] theorem State.goTo_retired (s : State) (fin : Bool) (pc : Dword) : (s.goTo fin pc).retired = true := by rw [State.goTo_eq]

theorem State.retire_eq (s : State) (h : Hdr) (n : Nat) : s.retire h n = s.goTo h.fin (s.path.pc + BitVec.ofNat 64 n) := rfl

theorem State.goTo_runOver (s : State) (pc : Dword) : storeFind (s.goTo true pc).running s.team.subKey ≠ some ⟨s.team.pid, s.team.id, s.slot⟩ := by
  have e : (s.goTo true pc).running =
      (({ s with team := s.team.setPath s.slot (some (s.path.gone true pc s.cycle)) } : State).endRun).running := rfl
  rw [e]
  have hk : (s.team.setPath s.slot (some (s.path.gone true pc s.cycle))).subKey = s.team.subKey := by cases s.slot <;> rfl
  have hp : (s.team.setPath s.slot (some (s.path.gone true pc s.cycle))).pid = s.team.pid := by cases s.slot <;> rfl
  have hi : (s.team.setPath s.slot (some (s.path.gone true pc s.cycle))).id = s.team.id := by cases s.slot <;> rfl
  unfold State.endRun
  simp only [hk, hp, hi]
  split
  · simp
  · next h => exact h

/-- An instruction that changes registers of the team only, and then goes on at a pc. -/
theorem standsAt_goTo {s u : State} (fin : Bool) (pc : Dword) (hs : u.slot = s.slot) (h0 : u.team.path0 = s.team.path0) (h1 : u.team.path1 = s.team.path1) :
    StandsAt s (u.goTo fin pc) pc := by
  have hp : ∀ b, u.team.path b = s.team.path b := by intro b; cases b <;> simp [Team.path, h0, h1]
  have hpath : u.path = s.path := by simp [State.path, hs, hp]
  refine ⟨by simp, by simp [hs], ?_, ?_, ?_, ?_, ?_⟩
  · simp [Path.gone]
  · simp [Path.gone, hpath]
  · simp [Path.gone, hpath]
  · simp [Path.gone]
  · rw [State.goTo_team, hs, Team.path_setPath_not, hp]

theorem wentTo_goTo {s u : State} (pc : Dword) (hs : u.slot = s.slot) (h0 : u.team.path0 = s.team.path0) (h1 : u.team.path1 = s.team.path1)
    (hk : u.team.subKey = s.team.subKey) (hp : u.team.pid = s.team.pid) (hi : u.team.id = s.team.id) : WentTo s (u.goTo true pc) pc := by
  refine ⟨standsAt_goTo true pc hs h0 h1, by simp [Path.gone], ?_⟩
  have := State.goTo_runOver u pc
  rw [hk, hp, hi, hs] at this
  exact this

/-- An instruction that changes registers of the team only, and then retires, is done. -/
theorem done_retire {s u : State} (h : Hdr) (n : Nat) (hs : u.slot = s.slot) (h0 : u.team.path0 = s.team.path0) (h1 : u.team.path1 = s.team.path1)
    (hr : u.running = s.running) (hk : u.team.subKey = s.team.subKey) (hp : u.team.pid = s.team.pid) (hi : u.team.id = s.team.id) :
    Done s (u.retire h n) h n := by
  have hpc : u.path = s.path := by
    have hp : ∀ b, u.team.path b = s.team.path b := by intro b; cases b <;> simp [Team.path, h0, h1]
    simp [State.path, hs, hp]
  rw [State.retire_eq, hpc]
  refine ⟨standsAt_goTo _ _ hs h0 h1, ?_⟩
  cases hf : h.fin
  · rw [if_neg (by simp), State.goTo_running, hr]
  · rw [if_pos rfl]
    have := State.goTo_runOver u (s.path.pc + BitVec.ofNat 64 n)
    rw [hk, hp, hi, hs] at this
    exact this

theorem memorySame_of {s t : State} (hm : t.mem = s.mem) (hl : t.lost = s.lost) (hh : t.haq = s.haq) : MemorySame s t := by
  have e : ∀ a, t.lostAt a = s.lostAt a := by intro a; simp [State.lostAt, hl]
  have m : ∀ a, t.memByte a = s.memByte a := by intro a; simp [State.memByte, State.memDefault, hm, e]
  exact fun a => ⟨m a, by simp [State.viewByte, hh, m]⟩

/-- Register writes and a retirement change nothing outside the team in focus and its run. -/
theorem outside_goTo {s : State} (t : Team) (fin : Bool) (pc : Dword) : Outside s (({ s with team := t } : State).goTo fin pc) := by
  refine ⟨memorySame_of ?_ ?_ ?_, ?_⟩ <;> rw [State.goTo_eq]

/-- A retirement changes the team's paths alone. -/
theorem onlyPaths_retire (s : State) (h : Hdr) (n : Nat) : OnlyPaths s (s.retire h n) := by
  refine ⟨by simpa [State.retire_eq] using outside_goTo s.team h.fin _, ?_⟩
  rw [State.retire_eq, State.goTo_team]
  exact Team.setPath_frame ..

/-- A form that only retires where its guard selects no lane. -/
theorem idle_retire {i : Instr} {h : Hdr} {n : Nat} {s : State} (e : s.acts h.guard = false → exec i s = .next (s.retire h n)) : Idle i h n s :=
  fun ha => ⟨_, e ha, done_retire (u := s) h n rfl rfl rfl rfl rfl rfl rfl, onlyPaths_retire s h n⟩

end Sys2Proof.Machine
end

