-- ==== Sys2Proof/Laws/Forms.lean ====
section
/-! SUPPORT. One lemma for each shape of register form: what it does, once and for all. -/
namespace Sys2Proof.Machine

/-! ## Uniform registers -/

theorem uval_writeU (s : State) (d r : UReg) (v : Dword) : (s.writeU d v).team.uval r = if r = d ∧ d ≠ 0 then v else s.team.uval r := by
  unfold State.writeU
  by_cases hd : d = 0
  · subst hd; simp
  · rw [if_neg hd]
    by_cases hr : r = d
    · subst hr; rw [if_pos ⟨rfl, hd⟩]; unfold Team.uval; rw [if_neg hd]; exact (storeGet_put ..).trans (if_pos rfl)
    · have : r.toNat ≠ d.toNat := fun e => hr (BitVec.eq_of_toNat_eq e)
      rw [if_neg (fun e => hr e.1)]; unfold Team.uval
      exact ite_congr rfl (fun _ => rfl) fun _ => (storeGet_put ..).trans (if_neg this)

theorem State.writeU_frame (s : State) (d : UReg) (v : Dword) : s.writeU d v = { s with team := { s.team with s := (s.writeU d v).team.s } } := by
  unfold State.writeU; split <;> rfl

/-- A uniform form writes its value, and nothing else (R37, R237). -/
theorem uniformForm_result {i : Instr} {h : Hdr} {n : Nat} {d : UReg} {s : State} {v : Dword} {P : Dword → Prop}
    (he : exec i s = uniformForm h n d v s) (hP : P v) : UniformResult i h n d s P := by
  refine ⟨_, he, ?_, ?_, ?_⟩
  · apply done_retire <;> split <;> (first | rfl | (rw [State.writeU_frame]; rfl) | rw [State.writeU_frame])
  · refine ⟨?_, ?_⟩
    · split
      · rw [State.writeU_frame]; exact outside_goTo _ _ _
      · exact outside_goTo _ _ _
    · rw [State.retire_eq, State.goTo_team, Team.setPath_frame]
      split
      · rw [State.writeU_frame]
      · rfl
  · have hu : ∀ r, ((if s.acts h.guard then s.writeU d v else s).retire h n).team.uval r
        = if s.acts h.guard = true ∧ r = d ∧ d ≠ 0 then v else s.team.uval r := by
      intro r
      rw [State.retire_eq, State.goTo_team, Team.setPath_frame]
      cases s.acts h.guard
      · simp; rfl
      · simp only [if_true, true_and]
        exact uval_writeU s d r v
    refine ⟨fun r hr => by simp [hu, hr], ?_⟩
    split
    · next c => rw [hu, if_pos ⟨c.1, rfl, c.2⟩]; exact hP
    · next c => rw [hu, if_neg]; rintro ⟨c1, -, c2⟩; exact c ⟨c1, c2⟩

/-! ## Lane registers -/

theorem laneKey_inj {r r' : LaneReg} {l l' : Nat} (h : l < 1024) (h' : l' < 1024) : laneKey r l = laneKey r' l' ↔ r = r' ∧ l = l' := by
  unfold laneKey
  constructor
  · intro e; exact ⟨BitVec.eq_of_toNat_eq (by omega), by omega⟩
  · rintro ⟨rfl, rfl⟩; rfl

/-- The second register of a pair is not the first, where the first is even (R31). -/
theorem pair_ne {ty : Ty} {d : LaneReg} (h : pairOk ty d = true) (h64 : ty.is64 = true) : d ||| 1 ≠ d := by
  intro e
  have : (d ||| 1).getLsbD 0 = d.getLsbD 0 := by rw [e]
  rw [BitVec.getLsbD_or] at this
  simp [pairOk, h64] at h
  simp [h] at this

theorem mem_lanes {s : State} {g : Guard} {l : Nat} (h : l ∈ s.lanes g) : l < 1024 := by
  simp only [State.lanes, lanesOf, List.mem_filter] at h
  exact BitVec.lt_of_getLsbD h.2

/-- What a lane register holds after one lane of a register or pair has been written. -/
theorem storeGet_putLaneTy (ty : Ty) (v : Store Word) (d r : LaneReg) (l k : Nat) (x : Dword) (hd : pairOk ty d = true) (hl : l < 1024) (hk : k < 1024) :
    storeGet 0 (putLaneTy ty v d l x) (laneKey r k) =
      if k = l ∧ r = d then x.setWidth 32
      else if k = l ∧ ty.is64 = true ∧ r = d ||| 1 then (x >>> 32).setWidth 32 else storeGet 0 v (laneKey r k) := by
  unfold putLaneTy putLane
  by_cases h64 : ty.is64 = true
  · have hne := pair_ne hd h64
    rw [if_pos h64, storeGet_put, storeGet_put]
    simp only [laneKey_inj hk hl]
    generalize (d ||| 1) = e at hne
    by_cases h1 : r = e
    · subst h1; simp [hne, h64]
    · by_cases h2 : r = d
      · subst h2; simp [h1, h64]
      · simp [h1, h2]
  · rw [if_neg h64, storeGet_put]
    simp only [laneKey_inj hk hl, h64]
    by_cases h2 : r = d <;> simp [h2]

/-- What lane registers hold after lanes of one register or pair have been written with values that depend on the lane. -/
theorem storeGet_foldl_putLaneTy (ty : Ty) (d r : LaneReg) (k : Nat) (f : Nat → Dword) (hd : pairOk ty d = true) (hk : k < 1024) (L : List Nat)
    (hL : ∀ l ∈ L, l < 1024) (v : Store Word) :
    storeGet 0 ((L.map fun l => (l, f l)).foldl (fun v x => putLaneTy ty v d x.1 x.2) v) (laneKey r k) =
      if k ∈ L ∧ r = d then (f k).setWidth 32
      else if k ∈ L ∧ ty.is64 = true ∧ r = d ||| 1 then (f k >>> 32).setWidth 32 else storeGet 0 v (laneKey r k) := by
  induction L generalizing v with
  | nil => simp
  | cons a L ih =>
    rw [List.map_cons, List.foldl_cons, ih (fun l hl => hL l (List.mem_cons_of_mem _ hl)),
      storeGet_putLaneTy ty v d r a k (f a) hd (hL a (List.mem_cons_self ..)) hk]
    simp only [List.mem_cons]
    by_cases h1 : k = a
    · subst h1
      by_cases h2 : r = d <;> by_cases h3 : ty.is64 = true ∧ r = d ||| 1 <;> by_cases h4 : k ∈ L <;>
        simp only [h2, h3, h4, and_true, and_false, true_and, false_and, true_or, or_false, if_true, if_false, and_self]
    · simp only [h1, false_or, false_and, if_false]

theorem State.writeLanes_frame (s : State) (ty : Ty) (d : LaneReg) (vals : List (Nat × Dword)) :
    s.writeLanes ty d vals = { s with team := { s.team with v := (s.writeLanes ty d vals).team.v } } := rfl

theorem vval_writeLanes (s : State) (g : Guard) (ty : Ty) (d r : LaneReg) (f : Nat → Dword) (k : Nat) (hd : pairOk ty d = true) (hk : k < 1024) :
    (s.writeLanes ty d (s.mapLanes g f)).team.vval r k =
      if k ∈ s.lanes g ∧ r = d then (f k).setWidth 32
      else if k ∈ s.lanes g ∧ ty.is64 = true ∧ r = d ||| 1 then (f k >>> 32).setWidth 32 else s.team.vval r k := by
  unfold Team.vval State.writeLanes State.mapLanes
  exact storeGet_foldl_putLaneTy ty d r k f hd hk _ (fun l hl => mem_lanes hl) _

theorem append_halves (x : Dword) : ((x >>> 32).setWidth 32 ++ x.setWidth 32 : BitVec (32 + 32)) = x := by
  apply BitVec.eq_of_getLsbD_eq
  intro i hi
  rw [BitVec.getLsbD_append]
  by_cases h : i < 32
  · simp [h]
  · have : i - 32 < 32 := by omega
    simp [h, this, show 32 + (i - 32) = i by omega]

/-- Lane writes of a vector form: the registers as a claim speaks of them. -/
theorem wroteV_writeLanes {s t : State} (g : Guard) (ty : Ty) (d : LaneReg) (f : Nat → Dword) {P : Nat → Dword → Prop} (hd : pairOk ty d = true)
    (hv : t.team.v = (s.writeLanes ty d (s.mapLanes g f)).team.v) (hP : ∀ l ∈ s.lanes g, P l (regForm ty (f l))) : WroteV s t g ty d P := by
  have e : ∀ r k, t.team.vval r k = (s.writeLanes ty d (s.mapLanes g f)).team.vval r k := by intro r k; unfold Team.vval; rw [hv]
  constructor
  · intro r l hl hn
    rw [e, vval_writeLanes s g ty d r f l hd hl, if_neg (fun c => hn ⟨c.1, .inl c.2⟩), if_neg (fun c => hn ⟨c.1, .inr c.2⟩)]
  · intro l hl
    have := hP l hl
    unfold regForm at this
    unfold Team.lval
    by_cases h64 : ty.is64 = true
    · rw [if_pos h64] at this ⊢
      rw [e, e, vval_writeLanes s g ty d _ f l hd (mem_lanes hl), vval_writeLanes s g ty d _ f l hd (mem_lanes hl)]
      rw [if_neg (fun c => pair_ne hd h64 c.2), if_pos ⟨hl, h64, rfl⟩, if_pos ⟨hl, rfl⟩]
      exact (congrArg (P l) (append_halves (f l))).mpr this
    · rw [if_neg h64] at this ⊢
      rw [e, vval_writeLanes s g ty d _ f l hd (mem_lanes hl), if_pos ⟨hl, rfl⟩]
      exact this

/-- A vector form with a lane destination writes its participating lanes, and nothing else (R25, R196). -/
theorem vectorForm_result {i : Instr} {h : Hdr} {n : Nat} {ty : Ty} {d : LaneReg} {s : State} {f : Nat → Dword} {P : Nat → Dword → Prop}
    (he : exec i s = vectorForm h n ty d f s) (hd : pairOk ty d = true) (hP : ∀ l ∈ s.lanes h.guard, P l (regForm ty (f l))) :
    VectorResult i h n ty d s P := by
  refine ⟨_, he, done_retire h n rfl rfl rfl rfl rfl rfl rfl, ⟨outside_goTo _ _ _, ?_⟩, wroteV_writeLanes h.guard ty d f hd ?_ hP⟩
  · rw [State.retire_eq, State.goTo_team, Team.setPath_frame]; rfl
  · rw [State.retire_eq, State.goTo_team, Team.setPath_frame]

/-! ## Flags -/

theorem getLsbD_foldl_or (L : List Nat) (f : Nat → BitVec 5) (a : BitVec 5) (k : Nat) :
    (L.foldl (fun g l => g ||| f l) a).getLsbD k = (a.getLsbD k || L.any fun l => (f l).getLsbD k) := by
  induction L generalizing a with
  | nil => simp
  | cons x L ih => rw [List.foldl_cons, ih]; simp [Bool.or_assoc]

/-- A float form with a lane destination writes its participating lanes and raises their flags, and nothing else (R225). -/
theorem floatForm_result {i : Instr} {h : Hdr} {n : Nat} {ty : Ty} {d : LaneReg} {s : State} {f : Nat → Dword × BitVec 5}
    (he : exec i s = floatForm h n ty d f s) (hd : pairOk ty d = true) : FloatResult i h n ty d s f := by
  refine ⟨_, he, done_retire h n rfl rfl rfl rfl rfl rfl rfl, ⟨?_, ?_, ?_⟩, ?_, wroteV_writeLanes h.guard ty d (fun l => (f l).1) hd ?_ (fun l _ => rfl), ?_⟩
  · apply memorySame_of <;> rw [State.retire_eq, State.goTo_eq] <;> rfl
  · rw [State.retire_eq, State.goTo_eq]; rfl
  · rw [State.retire_eq, State.goTo_team, Team.setPath_frame]; rfl
  · rw [State.retire_eq, State.goTo_team, Team.setPath_frame]; rfl
  · rw [State.retire_eq, State.goTo_team, Team.setPath_frame]; rfl
  · intro k
    rw [State.retire_eq, State.goTo_team, Team.setPath_frame]
    show (((s.lanes h.guard).map fun l => (l, (f l).2)).foldl (fun g x => g ||| x.2) s.team.tstat).getLsbD k = _
    rw [List.foldl_map, getLsbD_foldl_or]

/-! ## Mask registers -/

theorem mval_writeM (s : State) (d r : MReg) (m : LaneMask) :
    (s.writeM d m).team.mval r = if r = d then m &&& laneLimit s.team.lanes else s.team.mval r := by
  unfold Team.mval State.writeM
  rw [storeGet_put]
  by_cases h : r = d
  · subst h; simp
  · rw [if_neg (fun e => h (BitVec.eq_of_toNat_eq e)), if_neg h]

theorem State.writeM_frame (s : State) (d : MReg) (m : LaneMask) : s.writeM d m = { s with team := { s.team with m := (s.writeM d m).team.m } } := rfl

theorem getLsbD_laneLimit (n l : Nat) : (laneLimit n).getLsbD l = (decide (l < 1024) && decide (l < n)) := by
  unfold laneLimit
  rw [BitVec.getLsbD_ofNat, Nat.testBit_two_pow_sub_one]

/-- Bit `l` of a mask written lane by lane (R237, R246). -/
theorem getLsbD_mapMask (s : State) (g : Guard) (old : LaneMask) (f : Nat → Bool) (l : Nat) :
    (s.mapMask g old f).getLsbD l = if l ∈ s.lanes g then f l else old.getLsbD l := by
  have key : ∀ (L : List Nat), (∀ x ∈ L, x < 1024) → ∀ m : LaneMask,
      (L.foldl (fun m l => if f l then m ||| BitVec.twoPow 1024 l else m &&& ~~~(BitVec.twoPow 1024 l)) m).getLsbD l =
        if l ∈ L then f l else m.getLsbD l := by
    intro L
    induction L with
    | nil => intro _ m; simp
    | cons a L ih =>
      intro hL m
      rw [List.foldl_cons, ih (fun x hx => hL x (List.mem_cons_of_mem _ hx))]
      have ha := hL a (List.mem_cons_self ..)
      by_cases h1 : l = a
      · subst h1
        by_cases h2 : l ∈ L
        · simp [h2]
        · rw [if_neg h2, if_pos (List.mem_cons_self ..)]
          cases hf : f l <;> simp [ha]
      · have : (l ∈ a :: L) = (l ∈ L) := by simp [h1]
        simp only [this]
        by_cases h2 : l ∈ L
        · simp [h2]
        · rw [if_neg h2, if_neg h2]
          by_cases h3 : l < 1024
          · cases hf : f a <;> simp [h3, h1]
          · rw [BitVec.getLsbD_of_ge _ _ (by omega), BitVec.getLsbD_of_ge _ _ (by omega)]
  exact key _ (fun x hx => mem_lanes hx) old

/-- A write of a mask that changes participating lanes' bits (R246). -/
theorem wroteBits_writeM {s t : State} (g : Guard) (d : MReg) (f : Nat → Bool)
    (hm : t.team.m = (s.writeM d (s.mapMask g (storeGet 0 s.team.m d.toNat) f)).team.m) : WroteBits s t g d f := by
  have e : ∀ r, t.team.mval r = (s.writeM d (s.mapMask g (storeGet 0 s.team.m d.toNat) f)).team.mval r := by intro r; unfold Team.mval; rw [hm]
  constructor
  · intro r hr; rw [e, mval_writeM, if_neg hr]
  · intro l
    rw [e, mval_writeM, if_pos rfl, BitVec.getLsbD_and, getLsbD_mapMask, getLsbD_laneLimit]
    by_cases h1 : s.team.lanes ≤ l
    · rw [if_pos h1, decide_eq_false (Nat.not_lt.2 h1), Bool.and_false, Bool.and_false]
    · rw [if_neg h1]
      by_cases h2 : l < 1024
      · rw [decide_eq_true h2, decide_eq_true (Nat.lt_of_not_le h1), Bool.and_true, Bool.and_true]; rfl
      · have h3 : l ∉ s.lanes g := fun h => h2 (mem_lanes h)
        rw [if_neg h3, if_neg h3]
        rw [BitVec.getLsbD_of_ge _ l (Nat.le_of_not_lt h2), BitVec.getLsbD_of_ge _ l (Nat.le_of_not_lt h2)]; rfl

/-- A mask form with a mask destination writes it when its guard selects a lane, and nothing else (R37, R212). -/
theorem maskForm_result {i : Instr} {h : Hdr} {n : Nat} {d : MReg} {s : State} {m : LaneMask} {f : Nat → Bool}
    (he : exec i s = maskForm h n d m s) (hm : ∀ l, l < 1024 → l < s.team.lanes → m.getLsbD l = f l) : MaskResult i h n d s f := by
  refine ⟨_, he, ?_, ⟨?_, ?_⟩, ?_⟩
  · apply done_retire <;> split <;> rfl
  · split
    · rw [State.writeM_frame]; exact outside_goTo _ _ _
    · exact outside_goTo _ _ _
  · rw [State.retire_eq, State.goTo_team, Team.setPath_frame]
    split <;> rfl
  · have hu : ∀ r, ((if s.acts h.guard then s.writeM d m else s).retire h n).team.mval r
        = if s.acts h.guard = true ∧ r = d then m &&& laneLimit s.team.lanes else s.team.mval r := by
      intro r
      rw [State.retire_eq, State.goTo_team, Team.setPath_frame]
      cases s.acts h.guard
      · simp; rfl
      · simp only [if_true, true_and]
        exact mval_writeM s d r m
    refine ⟨fun r hr => by simp [hu, hr], ?_⟩
    by_cases c : s.acts h.guard = true
    · refine (if_pos c).mpr fun l => ?_
      rw [hu, if_pos ⟨c, rfl⟩, BitVec.getLsbD_and, getLsbD_laneLimit]
      by_cases h1 : l < 1024 <;> by_cases h2 : l < s.team.lanes
      · rw [hm l h1 h2]; simp [h1, h2]
      all_goals simp [h1, h2]
    · refine (if_neg c).mpr ?_
      rw [hu, if_neg (fun e => c e.1)]

/-- A mask form with a uniform destination (R212). -/
theorem maskToUniform_result {i : Instr} {h : Hdr} {n : Nat} {d : UReg} {s : State} {v : Dword} {P : Dword → Prop}
    (he : exec i s = maskToUniform h n d v s) (hP : P v) : UniformResult i h n d s P := uniformForm_result he hP

end Sys2Proof.Machine
end

