-- ==== Sys2Proof/Laws/State.lean ====
section
/-! SUPPORT. What each update leaves alone, field by field: no later proof unfolds a record update. -/
namespace Sys2Proof.Machine

/-- A write of a uniform register: the rest of the state. -/
@[simp] theorem State.writeU_fields (s : State) (r : UReg) (v : Dword) :
    (s.writeU r v).slot = s.slot ∧ (s.writeU r v).teams = s.teams ∧ (s.writeU r v).sub = s.sub ∧ (s.writeU r v).agenda = s.agenda ∧
    (s.writeU r v).turn = s.turn ∧ (s.writeU r v).cycle = s.cycle ∧ (s.writeU r v).early = s.early ∧ (s.writeU r v).retired = s.retired ∧
    (s.writeU r v).raised = s.raised ∧ (s.writeU r v).free = s.free ∧ (s.writeU r v).serial = s.serial ∧ (s.writeU r v).running = s.running ∧
    (s.writeU r v).pipes = s.pipes ∧ (s.writeU r v).issued = s.issued ∧ (s.writeU r v).mmaRR = s.mmaRR ∧ (s.writeU r v).cores = s.cores ∧
    (s.writeU r v).banks = s.banks ∧ (s.writeU r v).loads = s.loads ∧ (s.writeU r v).prefs = s.prefs ∧ (s.writeU r v).atomics = s.atomics ∧
    (s.writeU r v).mem = s.mem ∧ (s.writeU r v).lost = s.lost ∧ (s.writeU r v).chanSets = s.chanSets ∧ (s.writeU r v).haq = s.haq ∧
    (s.writeU r v).poison = s.poison ∧ (s.writeU r v).tlb = s.tlb ∧ (s.writeU r v).walks = s.walks ∧ (s.writeU r v).shoots = s.shoots ∧
    (s.writeU r v).parts = s.parts ∧ (s.writeU r v).objects = s.objects ∧ (s.writeU r v).fq = s.fq ∧ (s.writeU r v).fqWait = s.fqWait ∧
    (s.writeU r v).cohorts = s.cohorts ∧ (s.writeU r v).binds = s.binds ∧ (s.writeU r v).bindTag = s.bindTag ∧ (s.writeU r v).rally = s.rally ∧
    (s.writeU r v).watches = s.watches ∧ (s.writeU r v).packets = s.packets ∧ (s.writeU r v).inbox = s.inbox ∧ (s.writeU r v).held = s.held ∧
    (s.writeU r v).seqNext = s.seqNext ∧ (s.writeU r v).seqSent = s.seqSent ∧ (s.writeU r v).lane = s.lane ∧ (s.writeU r v).bunker = s.bunker ∧
    (s.writeU r v).caddie = s.caddie ∧ (s.writeU r v).caddieHeld = s.caddieHeld ∧ (s.writeU r v).caddieSeen = s.caddieSeen ∧
    (s.writeU r v).rescues = s.rescues ∧ (s.writeU r v).reissues = s.reissues ∧ (s.writeU r v).tsus = s.tsus ∧
    (s.writeU r v).reissued = s.reissued ∧ (s.writeU r v).served = s.served ∧ (s.writeU r v).link = s.link ∧ (s.writeU r v).linkRate = s.linkRate ∧
    (s.writeU r v).linkWidth = s.linkWidth ∧ (s.writeU r v).hostMem = s.hostMem ∧ (s.writeU r v).durable = s.durable ∧
    (s.writeU r v).port = s.port ∧ (s.writeU r v).portReq = s.portReq ∧ (s.writeU r v).hostOut = s.hostOut ∧ (s.writeU r v).hostSent = s.hostSent ∧
    (s.writeU r v).hostAtoms = s.hostAtoms ∧ (s.writeU r v).hostCache = s.hostCache ∧ (s.writeU r v).flushAsked = s.flushAsked ∧
    (s.writeU r v).flushAcks = s.flushAcks ∧ (s.writeU r v).hostRead = s.hostRead ∧ (s.writeU r v).mgmtRead = s.mgmtRead ∧
    (s.writeU r v).spdm = s.spdm ∧ (s.writeU r v).aer = s.aer ∧ (s.writeU r v).boot = s.boot ∧ (s.writeU r v).fuse = s.fuse ∧
    (s.writeU r v).images = s.images ∧ (s.writeU r v).keys = s.keys ∧ (s.writeU r v).epoch = s.epoch ∧ (s.writeU r v).limit = s.limit ∧
    (s.writeU r v).alarm = s.alarm ∧ (s.writeU r v).calm = s.calm ∧ (s.writeU r v).fatal = s.fatal ∧ (s.writeU r v).dump = s.dump ∧
    (s.writeU r v).dumped = s.dumped ∧ (s.writeU r v).retiredUnits = s.retiredUnits ∧ (s.writeU r v).harvested = s.harvested := by
  unfold State.writeU; split <;> (repeat' apply And.intro) <;> rfl

/-- A write of a uniform register: the rest of the team. -/
@[simp] theorem State.writeU_teamFields (s : State) (r : UReg) (v : Dword) :
    ((s.writeU r v).team).id = s.team.id ∧ ((s.writeU r v).team).pid = s.team.pid ∧ ((s.writeU r v).team).asid = s.team.asid ∧
    ((s.writeU r v).team).lanes = s.team.lanes ∧ ((s.writeU r v).team).vregs = s.team.vregs ∧ ((s.writeU r v).team).ntiles = s.team.ntiles ∧
    ((s.writeU r v).team).window = s.team.window ∧ ((s.writeU r v).team).phase = s.team.phase ∧ ((s.writeU r v).team).core = s.team.core ∧
    ((s.writeU r v).team).sub = s.team.sub ∧ ((s.writeU r v).team).v = s.team.v ∧ ((s.writeU r v).team).m = s.team.m ∧
    ((s.writeU r v).team).tiles = s.team.tiles ∧ ((s.writeU r v).team).codebook = s.team.codebook ∧ ((s.writeU r v).team).tags = s.team.tags ∧
    ((s.writeU r v).team).win = s.team.win ∧ ((s.writeU r v).team).empty = s.team.empty ∧ ((s.writeU r v).team).path0 = s.team.path0 ∧
    ((s.writeU r v).team).path1 = s.team.path1 ∧ ((s.writeU r v).team).stack = s.team.stack ∧ ((s.writeU r v).team).spill = s.team.spill ∧
    ((s.writeU r v).team).gen = s.team.gen ∧ ((s.writeU r v).team).chksb = s.team.chksb ∧ ((s.writeU r v).team).chkNow = s.team.chkNow ∧
    ((s.writeU r v).team).chkFrom = s.team.chkFrom ∧ ((s.writeU r v).team).tstat = s.team.tstat ∧ ((s.writeU r v).team).sure = s.team.sure ∧
    ((s.writeU r v).team).narrow = s.team.narrow ∧ ((s.writeU r v).team).ovf = s.team.ovf ∧ ((s.writeU r v).team).nan = s.team.nan ∧
    ((s.writeU r v).team).trapcode = s.team.trapcode ∧ ((s.writeU r v).team).trappc = s.team.trappc ∧
    ((s.writeU r v).team).trapva = s.team.trapva ∧ ((s.writeU r v).team).frame = s.team.frame ∧ ((s.writeU r v).team).copied = s.team.copied ∧
    ((s.writeU r v).team).cohidx = s.team.cohidx ∧ ((s.writeU r v).team).cohsize = s.team.cohsize ∧ ((s.writeU r v).team).cohort = s.team.cohort ∧
    ((s.writeU r v).team).parent = s.team.parent ∧ ((s.writeU r v).team).root = s.team.root ∧ ((s.writeU r v).team).mesh = s.team.mesh ∧
    ((s.writeU r v).team).cls = s.team.cls ∧ ((s.writeU r v).team).sys = s.team.sys ∧ ((s.writeU r v).team).tree = s.team.tree ∧
    ((s.writeU r v).team).attr = s.team.attr ∧ ((s.writeU r v).team).live = s.team.live ∧ ((s.writeU r v).team).contLive = s.team.contLive ∧
    ((s.writeU r v).team).kids = s.team.kids ∧ ((s.writeU r v).team).copies = s.team.copies ∧ ((s.writeU r v).team).chains = s.team.chains ∧
    ((s.writeU r v).team).matq = s.team.matq ∧ ((s.writeU r v).team).pend = s.team.pend ∧ ((s.writeU r v).team).flagPend = s.team.flagPend ∧
    ((s.writeU r v).team).park = s.team.park ∧ ((s.writeU r v).team).solo = s.team.solo ∧ ((s.writeU r v).team).unfinished = s.team.unfinished ∧
    ((s.writeU r v).team).preempt = s.team.preempt ∧ ((s.writeU r v).team).slotNo = s.team.slotNo ∧ ((s.writeU r v).team).wafers = s.team.wafers ∧
    ((s.writeU r v).team).cbar = s.team.cbar ∧ ((s.writeU r v).team).ending = s.team.ending := by
  unfold State.writeU; split <;> (repeat' apply And.intro) <;> rfl

/-- A write of a mask register: the rest of the state. -/
@[simp] theorem State.writeM_fields (s : State) (m : MReg) (v : LaneMask) :
    (s.writeM m v).slot = s.slot ∧ (s.writeM m v).teams = s.teams ∧ (s.writeM m v).sub = s.sub ∧ (s.writeM m v).agenda = s.agenda ∧
    (s.writeM m v).turn = s.turn ∧ (s.writeM m v).cycle = s.cycle ∧ (s.writeM m v).early = s.early ∧ (s.writeM m v).retired = s.retired ∧
    (s.writeM m v).raised = s.raised ∧ (s.writeM m v).free = s.free ∧ (s.writeM m v).serial = s.serial ∧ (s.writeM m v).running = s.running ∧
    (s.writeM m v).pipes = s.pipes ∧ (s.writeM m v).issued = s.issued ∧ (s.writeM m v).mmaRR = s.mmaRR ∧ (s.writeM m v).cores = s.cores ∧
    (s.writeM m v).banks = s.banks ∧ (s.writeM m v).loads = s.loads ∧ (s.writeM m v).prefs = s.prefs ∧ (s.writeM m v).atomics = s.atomics ∧
    (s.writeM m v).mem = s.mem ∧ (s.writeM m v).lost = s.lost ∧ (s.writeM m v).chanSets = s.chanSets ∧ (s.writeM m v).haq = s.haq ∧
    (s.writeM m v).poison = s.poison ∧ (s.writeM m v).tlb = s.tlb ∧ (s.writeM m v).walks = s.walks ∧ (s.writeM m v).shoots = s.shoots ∧
    (s.writeM m v).parts = s.parts ∧ (s.writeM m v).objects = s.objects ∧ (s.writeM m v).fq = s.fq ∧ (s.writeM m v).fqWait = s.fqWait ∧
    (s.writeM m v).cohorts = s.cohorts ∧ (s.writeM m v).binds = s.binds ∧ (s.writeM m v).bindTag = s.bindTag ∧ (s.writeM m v).rally = s.rally ∧
    (s.writeM m v).watches = s.watches ∧ (s.writeM m v).packets = s.packets ∧ (s.writeM m v).inbox = s.inbox ∧ (s.writeM m v).held = s.held ∧
    (s.writeM m v).seqNext = s.seqNext ∧ (s.writeM m v).seqSent = s.seqSent ∧ (s.writeM m v).lane = s.lane ∧ (s.writeM m v).bunker = s.bunker ∧
    (s.writeM m v).caddie = s.caddie ∧ (s.writeM m v).caddieHeld = s.caddieHeld ∧ (s.writeM m v).caddieSeen = s.caddieSeen ∧
    (s.writeM m v).rescues = s.rescues ∧ (s.writeM m v).reissues = s.reissues ∧ (s.writeM m v).tsus = s.tsus ∧
    (s.writeM m v).reissued = s.reissued ∧ (s.writeM m v).served = s.served ∧ (s.writeM m v).link = s.link ∧ (s.writeM m v).linkRate = s.linkRate ∧
    (s.writeM m v).linkWidth = s.linkWidth ∧ (s.writeM m v).hostMem = s.hostMem ∧ (s.writeM m v).durable = s.durable ∧
    (s.writeM m v).port = s.port ∧ (s.writeM m v).portReq = s.portReq ∧ (s.writeM m v).hostOut = s.hostOut ∧ (s.writeM m v).hostSent = s.hostSent ∧
    (s.writeM m v).hostAtoms = s.hostAtoms ∧ (s.writeM m v).hostCache = s.hostCache ∧ (s.writeM m v).flushAsked = s.flushAsked ∧
    (s.writeM m v).flushAcks = s.flushAcks ∧ (s.writeM m v).hostRead = s.hostRead ∧ (s.writeM m v).mgmtRead = s.mgmtRead ∧
    (s.writeM m v).spdm = s.spdm ∧ (s.writeM m v).aer = s.aer ∧ (s.writeM m v).boot = s.boot ∧ (s.writeM m v).fuse = s.fuse ∧
    (s.writeM m v).images = s.images ∧ (s.writeM m v).keys = s.keys ∧ (s.writeM m v).epoch = s.epoch ∧ (s.writeM m v).limit = s.limit ∧
    (s.writeM m v).alarm = s.alarm ∧ (s.writeM m v).calm = s.calm ∧ (s.writeM m v).fatal = s.fatal ∧ (s.writeM m v).dump = s.dump ∧
    (s.writeM m v).dumped = s.dumped ∧ (s.writeM m v).retiredUnits = s.retiredUnits ∧ (s.writeM m v).harvested = s.harvested := by
  (repeat' apply And.intro) <;> rfl

/-- A write of a mask register: the rest of the team. -/
@[simp] theorem State.writeM_teamFields (s : State) (m : MReg) (v : LaneMask) :
    ((s.writeM m v).team).id = s.team.id ∧ ((s.writeM m v).team).pid = s.team.pid ∧ ((s.writeM m v).team).asid = s.team.asid ∧
    ((s.writeM m v).team).lanes = s.team.lanes ∧ ((s.writeM m v).team).vregs = s.team.vregs ∧ ((s.writeM m v).team).ntiles = s.team.ntiles ∧
    ((s.writeM m v).team).window = s.team.window ∧ ((s.writeM m v).team).phase = s.team.phase ∧ ((s.writeM m v).team).core = s.team.core ∧
    ((s.writeM m v).team).sub = s.team.sub ∧ ((s.writeM m v).team).v = s.team.v ∧ ((s.writeM m v).team).s = s.team.s ∧
    ((s.writeM m v).team).tiles = s.team.tiles ∧ ((s.writeM m v).team).codebook = s.team.codebook ∧ ((s.writeM m v).team).tags = s.team.tags ∧
    ((s.writeM m v).team).win = s.team.win ∧ ((s.writeM m v).team).empty = s.team.empty ∧ ((s.writeM m v).team).path0 = s.team.path0 ∧
    ((s.writeM m v).team).path1 = s.team.path1 ∧ ((s.writeM m v).team).stack = s.team.stack ∧ ((s.writeM m v).team).spill = s.team.spill ∧
    ((s.writeM m v).team).gen = s.team.gen ∧ ((s.writeM m v).team).chksb = s.team.chksb ∧ ((s.writeM m v).team).chkNow = s.team.chkNow ∧
    ((s.writeM m v).team).chkFrom = s.team.chkFrom ∧ ((s.writeM m v).team).tstat = s.team.tstat ∧ ((s.writeM m v).team).sure = s.team.sure ∧
    ((s.writeM m v).team).narrow = s.team.narrow ∧ ((s.writeM m v).team).ovf = s.team.ovf ∧ ((s.writeM m v).team).nan = s.team.nan ∧
    ((s.writeM m v).team).trapcode = s.team.trapcode ∧ ((s.writeM m v).team).trappc = s.team.trappc ∧
    ((s.writeM m v).team).trapva = s.team.trapva ∧ ((s.writeM m v).team).frame = s.team.frame ∧ ((s.writeM m v).team).copied = s.team.copied ∧
    ((s.writeM m v).team).cohidx = s.team.cohidx ∧ ((s.writeM m v).team).cohsize = s.team.cohsize ∧ ((s.writeM m v).team).cohort = s.team.cohort ∧
    ((s.writeM m v).team).parent = s.team.parent ∧ ((s.writeM m v).team).root = s.team.root ∧ ((s.writeM m v).team).mesh = s.team.mesh ∧
    ((s.writeM m v).team).cls = s.team.cls ∧ ((s.writeM m v).team).sys = s.team.sys ∧ ((s.writeM m v).team).tree = s.team.tree ∧
    ((s.writeM m v).team).attr = s.team.attr ∧ ((s.writeM m v).team).live = s.team.live ∧ ((s.writeM m v).team).contLive = s.team.contLive ∧
    ((s.writeM m v).team).kids = s.team.kids ∧ ((s.writeM m v).team).copies = s.team.copies ∧ ((s.writeM m v).team).chains = s.team.chains ∧
    ((s.writeM m v).team).matq = s.team.matq ∧ ((s.writeM m v).team).pend = s.team.pend ∧ ((s.writeM m v).team).flagPend = s.team.flagPend ∧
    ((s.writeM m v).team).park = s.team.park ∧ ((s.writeM m v).team).solo = s.team.solo ∧ ((s.writeM m v).team).unfinished = s.team.unfinished ∧
    ((s.writeM m v).team).preempt = s.team.preempt ∧ ((s.writeM m v).team).slotNo = s.team.slotNo ∧ ((s.writeM m v).team).wafers = s.team.wafers ∧
    ((s.writeM m v).team).cbar = s.team.cbar ∧ ((s.writeM m v).team).ending = s.team.ending := by
  (repeat' apply And.intro) <;> rfl

/-- A write of lanes: the rest of the state. -/
@[simp] theorem State.writeLanes_fields (s : State) (t : Ty) (d : LaneReg) (vals : List (Nat × Dword)) :
    (s.writeLanes t d vals).slot = s.slot ∧ (s.writeLanes t d vals).teams = s.teams ∧ (s.writeLanes t d vals).sub = s.sub ∧
    (s.writeLanes t d vals).agenda = s.agenda ∧ (s.writeLanes t d vals).turn = s.turn ∧ (s.writeLanes t d vals).cycle = s.cycle ∧
    (s.writeLanes t d vals).early = s.early ∧ (s.writeLanes t d vals).retired = s.retired ∧ (s.writeLanes t d vals).raised = s.raised ∧
    (s.writeLanes t d vals).free = s.free ∧ (s.writeLanes t d vals).serial = s.serial ∧ (s.writeLanes t d vals).running = s.running ∧
    (s.writeLanes t d vals).pipes = s.pipes ∧ (s.writeLanes t d vals).issued = s.issued ∧ (s.writeLanes t d vals).mmaRR = s.mmaRR ∧
    (s.writeLanes t d vals).cores = s.cores ∧ (s.writeLanes t d vals).banks = s.banks ∧ (s.writeLanes t d vals).loads = s.loads ∧
    (s.writeLanes t d vals).prefs = s.prefs ∧ (s.writeLanes t d vals).atomics = s.atomics ∧ (s.writeLanes t d vals).mem = s.mem ∧
    (s.writeLanes t d vals).lost = s.lost ∧ (s.writeLanes t d vals).chanSets = s.chanSets ∧ (s.writeLanes t d vals).haq = s.haq ∧
    (s.writeLanes t d vals).poison = s.poison ∧ (s.writeLanes t d vals).tlb = s.tlb ∧ (s.writeLanes t d vals).walks = s.walks ∧
    (s.writeLanes t d vals).shoots = s.shoots ∧ (s.writeLanes t d vals).parts = s.parts ∧ (s.writeLanes t d vals).objects = s.objects ∧
    (s.writeLanes t d vals).fq = s.fq ∧ (s.writeLanes t d vals).fqWait = s.fqWait ∧ (s.writeLanes t d vals).cohorts = s.cohorts ∧
    (s.writeLanes t d vals).binds = s.binds ∧ (s.writeLanes t d vals).bindTag = s.bindTag ∧ (s.writeLanes t d vals).rally = s.rally ∧
    (s.writeLanes t d vals).watches = s.watches ∧ (s.writeLanes t d vals).packets = s.packets ∧ (s.writeLanes t d vals).inbox = s.inbox ∧
    (s.writeLanes t d vals).held = s.held ∧ (s.writeLanes t d vals).seqNext = s.seqNext ∧ (s.writeLanes t d vals).seqSent = s.seqSent ∧
    (s.writeLanes t d vals).lane = s.lane ∧ (s.writeLanes t d vals).bunker = s.bunker ∧ (s.writeLanes t d vals).caddie = s.caddie ∧
    (s.writeLanes t d vals).caddieHeld = s.caddieHeld ∧ (s.writeLanes t d vals).caddieSeen = s.caddieSeen ∧
    (s.writeLanes t d vals).rescues = s.rescues ∧ (s.writeLanes t d vals).reissues = s.reissues ∧ (s.writeLanes t d vals).tsus = s.tsus ∧
    (s.writeLanes t d vals).reissued = s.reissued ∧ (s.writeLanes t d vals).served = s.served ∧ (s.writeLanes t d vals).link = s.link ∧
    (s.writeLanes t d vals).linkRate = s.linkRate ∧ (s.writeLanes t d vals).linkWidth = s.linkWidth ∧ (s.writeLanes t d vals).hostMem = s.hostMem ∧
    (s.writeLanes t d vals).durable = s.durable ∧ (s.writeLanes t d vals).port = s.port ∧ (s.writeLanes t d vals).portReq = s.portReq ∧
    (s.writeLanes t d vals).hostOut = s.hostOut ∧ (s.writeLanes t d vals).hostSent = s.hostSent ∧ (s.writeLanes t d vals).hostAtoms = s.hostAtoms ∧
    (s.writeLanes t d vals).hostCache = s.hostCache ∧ (s.writeLanes t d vals).flushAsked = s.flushAsked ∧
    (s.writeLanes t d vals).flushAcks = s.flushAcks ∧ (s.writeLanes t d vals).hostRead = s.hostRead ∧
    (s.writeLanes t d vals).mgmtRead = s.mgmtRead ∧ (s.writeLanes t d vals).spdm = s.spdm ∧ (s.writeLanes t d vals).aer = s.aer ∧
    (s.writeLanes t d vals).boot = s.boot ∧ (s.writeLanes t d vals).fuse = s.fuse ∧ (s.writeLanes t d vals).images = s.images ∧
    (s.writeLanes t d vals).keys = s.keys ∧ (s.writeLanes t d vals).epoch = s.epoch ∧ (s.writeLanes t d vals).limit = s.limit ∧
    (s.writeLanes t d vals).alarm = s.alarm ∧ (s.writeLanes t d vals).calm = s.calm ∧ (s.writeLanes t d vals).fatal = s.fatal ∧
    (s.writeLanes t d vals).dump = s.dump ∧ (s.writeLanes t d vals).dumped = s.dumped ∧ (s.writeLanes t d vals).retiredUnits = s.retiredUnits ∧
    (s.writeLanes t d vals).harvested = s.harvested := by
  (repeat' apply And.intro) <;> rfl

/-- A write of lanes: the rest of the team. -/
@[simp] theorem State.writeLanes_teamFields (s : State) (t : Ty) (d : LaneReg) (vals : List (Nat × Dword)) :
    ((s.writeLanes t d vals).team).id = s.team.id ∧ ((s.writeLanes t d vals).team).pid = s.team.pid ∧
    ((s.writeLanes t d vals).team).asid = s.team.asid ∧ ((s.writeLanes t d vals).team).lanes = s.team.lanes ∧
    ((s.writeLanes t d vals).team).vregs = s.team.vregs ∧ ((s.writeLanes t d vals).team).ntiles = s.team.ntiles ∧
    ((s.writeLanes t d vals).team).window = s.team.window ∧ ((s.writeLanes t d vals).team).phase = s.team.phase ∧
    ((s.writeLanes t d vals).team).core = s.team.core ∧ ((s.writeLanes t d vals).team).sub = s.team.sub ∧
    ((s.writeLanes t d vals).team).s = s.team.s ∧ ((s.writeLanes t d vals).team).m = s.team.m ∧
    ((s.writeLanes t d vals).team).tiles = s.team.tiles ∧ ((s.writeLanes t d vals).team).codebook = s.team.codebook ∧
    ((s.writeLanes t d vals).team).tags = s.team.tags ∧ ((s.writeLanes t d vals).team).win = s.team.win ∧
    ((s.writeLanes t d vals).team).empty = s.team.empty ∧ ((s.writeLanes t d vals).team).path0 = s.team.path0 ∧
    ((s.writeLanes t d vals).team).path1 = s.team.path1 ∧ ((s.writeLanes t d vals).team).stack = s.team.stack ∧
    ((s.writeLanes t d vals).team).spill = s.team.spill ∧ ((s.writeLanes t d vals).team).gen = s.team.gen ∧
    ((s.writeLanes t d vals).team).chksb = s.team.chksb ∧ ((s.writeLanes t d vals).team).chkNow = s.team.chkNow ∧
    ((s.writeLanes t d vals).team).chkFrom = s.team.chkFrom ∧ ((s.writeLanes t d vals).team).tstat = s.team.tstat ∧
    ((s.writeLanes t d vals).team).sure = s.team.sure ∧ ((s.writeLanes t d vals).team).narrow = s.team.narrow ∧
    ((s.writeLanes t d vals).team).ovf = s.team.ovf ∧ ((s.writeLanes t d vals).team).nan = s.team.nan ∧
    ((s.writeLanes t d vals).team).trapcode = s.team.trapcode ∧ ((s.writeLanes t d vals).team).trappc = s.team.trappc ∧
    ((s.writeLanes t d vals).team).trapva = s.team.trapva ∧ ((s.writeLanes t d vals).team).frame = s.team.frame ∧
    ((s.writeLanes t d vals).team).copied = s.team.copied ∧ ((s.writeLanes t d vals).team).cohidx = s.team.cohidx ∧
    ((s.writeLanes t d vals).team).cohsize = s.team.cohsize ∧ ((s.writeLanes t d vals).team).cohort = s.team.cohort ∧
    ((s.writeLanes t d vals).team).parent = s.team.parent ∧ ((s.writeLanes t d vals).team).root = s.team.root ∧
    ((s.writeLanes t d vals).team).mesh = s.team.mesh ∧ ((s.writeLanes t d vals).team).cls = s.team.cls ∧
    ((s.writeLanes t d vals).team).sys = s.team.sys ∧ ((s.writeLanes t d vals).team).tree = s.team.tree ∧
    ((s.writeLanes t d vals).team).attr = s.team.attr ∧ ((s.writeLanes t d vals).team).live = s.team.live ∧
    ((s.writeLanes t d vals).team).contLive = s.team.contLive ∧ ((s.writeLanes t d vals).team).kids = s.team.kids ∧
    ((s.writeLanes t d vals).team).copies = s.team.copies ∧ ((s.writeLanes t d vals).team).chains = s.team.chains ∧
    ((s.writeLanes t d vals).team).matq = s.team.matq ∧ ((s.writeLanes t d vals).team).pend = s.team.pend ∧
    ((s.writeLanes t d vals).team).flagPend = s.team.flagPend ∧ ((s.writeLanes t d vals).team).park = s.team.park ∧
    ((s.writeLanes t d vals).team).solo = s.team.solo ∧ ((s.writeLanes t d vals).team).unfinished = s.team.unfinished ∧
    ((s.writeLanes t d vals).team).preempt = s.team.preempt ∧ ((s.writeLanes t d vals).team).slotNo = s.team.slotNo ∧
    ((s.writeLanes t d vals).team).wafers = s.team.wafers ∧ ((s.writeLanes t d vals).team).cbar = s.team.cbar ∧
    ((s.writeLanes t d vals).team).ending = s.team.ending := by
  (repeat' apply And.intro) <;> rfl

/-- A write of the path in focus: the rest of the state. -/
@[simp] theorem State.setPath_fields (s : State) (p : Path) :
    (s.setPath p).slot = s.slot ∧ (s.setPath p).teams = s.teams ∧ (s.setPath p).sub = s.sub ∧ (s.setPath p).agenda = s.agenda ∧
    (s.setPath p).turn = s.turn ∧ (s.setPath p).cycle = s.cycle ∧ (s.setPath p).early = s.early ∧ (s.setPath p).retired = s.retired ∧
    (s.setPath p).raised = s.raised ∧ (s.setPath p).free = s.free ∧ (s.setPath p).serial = s.serial ∧ (s.setPath p).running = s.running ∧
    (s.setPath p).pipes = s.pipes ∧ (s.setPath p).issued = s.issued ∧ (s.setPath p).mmaRR = s.mmaRR ∧ (s.setPath p).cores = s.cores ∧
    (s.setPath p).banks = s.banks ∧ (s.setPath p).loads = s.loads ∧ (s.setPath p).prefs = s.prefs ∧ (s.setPath p).atomics = s.atomics ∧
    (s.setPath p).mem = s.mem ∧ (s.setPath p).lost = s.lost ∧ (s.setPath p).chanSets = s.chanSets ∧ (s.setPath p).haq = s.haq ∧
    (s.setPath p).poison = s.poison ∧ (s.setPath p).tlb = s.tlb ∧ (s.setPath p).walks = s.walks ∧ (s.setPath p).shoots = s.shoots ∧
    (s.setPath p).parts = s.parts ∧ (s.setPath p).objects = s.objects ∧ (s.setPath p).fq = s.fq ∧ (s.setPath p).fqWait = s.fqWait ∧
    (s.setPath p).cohorts = s.cohorts ∧ (s.setPath p).binds = s.binds ∧ (s.setPath p).bindTag = s.bindTag ∧ (s.setPath p).rally = s.rally ∧
    (s.setPath p).watches = s.watches ∧ (s.setPath p).packets = s.packets ∧ (s.setPath p).inbox = s.inbox ∧ (s.setPath p).held = s.held ∧
    (s.setPath p).seqNext = s.seqNext ∧ (s.setPath p).seqSent = s.seqSent ∧ (s.setPath p).lane = s.lane ∧ (s.setPath p).bunker = s.bunker ∧
    (s.setPath p).caddie = s.caddie ∧ (s.setPath p).caddieHeld = s.caddieHeld ∧ (s.setPath p).caddieSeen = s.caddieSeen ∧
    (s.setPath p).rescues = s.rescues ∧ (s.setPath p).reissues = s.reissues ∧ (s.setPath p).tsus = s.tsus ∧ (s.setPath p).reissued = s.reissued ∧
    (s.setPath p).served = s.served ∧ (s.setPath p).link = s.link ∧ (s.setPath p).linkRate = s.linkRate ∧ (s.setPath p).linkWidth = s.linkWidth ∧
    (s.setPath p).hostMem = s.hostMem ∧ (s.setPath p).durable = s.durable ∧ (s.setPath p).port = s.port ∧ (s.setPath p).portReq = s.portReq ∧
    (s.setPath p).hostOut = s.hostOut ∧ (s.setPath p).hostSent = s.hostSent ∧ (s.setPath p).hostAtoms = s.hostAtoms ∧
    (s.setPath p).hostCache = s.hostCache ∧ (s.setPath p).flushAsked = s.flushAsked ∧ (s.setPath p).flushAcks = s.flushAcks ∧
    (s.setPath p).hostRead = s.hostRead ∧ (s.setPath p).mgmtRead = s.mgmtRead ∧ (s.setPath p).spdm = s.spdm ∧ (s.setPath p).aer = s.aer ∧
    (s.setPath p).boot = s.boot ∧ (s.setPath p).fuse = s.fuse ∧ (s.setPath p).images = s.images ∧ (s.setPath p).keys = s.keys ∧
    (s.setPath p).epoch = s.epoch ∧ (s.setPath p).limit = s.limit ∧ (s.setPath p).alarm = s.alarm ∧ (s.setPath p).calm = s.calm ∧
    (s.setPath p).fatal = s.fatal ∧ (s.setPath p).dump = s.dump ∧ (s.setPath p).dumped = s.dumped ∧ (s.setPath p).retiredUnits = s.retiredUnits ∧
    (s.setPath p).harvested = s.harvested := by
  (repeat' apply And.intro) <;> rfl

/-- A write of the path in focus: the rest of the team. -/
@[simp] theorem State.setPath_teamFields (s : State) (p : Path) :
    ((s.setPath p).team).id = s.team.id ∧ ((s.setPath p).team).pid = s.team.pid ∧ ((s.setPath p).team).asid = s.team.asid ∧
    ((s.setPath p).team).lanes = s.team.lanes ∧ ((s.setPath p).team).vregs = s.team.vregs ∧ ((s.setPath p).team).ntiles = s.team.ntiles ∧
    ((s.setPath p).team).window = s.team.window ∧ ((s.setPath p).team).phase = s.team.phase ∧ ((s.setPath p).team).core = s.team.core ∧
    ((s.setPath p).team).sub = s.team.sub ∧ ((s.setPath p).team).v = s.team.v ∧ ((s.setPath p).team).s = s.team.s ∧
    ((s.setPath p).team).m = s.team.m ∧ ((s.setPath p).team).tiles = s.team.tiles ∧ ((s.setPath p).team).codebook = s.team.codebook ∧
    ((s.setPath p).team).tags = s.team.tags ∧ ((s.setPath p).team).win = s.team.win ∧ ((s.setPath p).team).empty = s.team.empty ∧
    ((s.setPath p).team).stack = s.team.stack ∧ ((s.setPath p).team).spill = s.team.spill ∧ ((s.setPath p).team).gen = s.team.gen ∧
    ((s.setPath p).team).chksb = s.team.chksb ∧ ((s.setPath p).team).chkNow = s.team.chkNow ∧ ((s.setPath p).team).chkFrom = s.team.chkFrom ∧
    ((s.setPath p).team).tstat = s.team.tstat ∧ ((s.setPath p).team).sure = s.team.sure ∧ ((s.setPath p).team).narrow = s.team.narrow ∧
    ((s.setPath p).team).ovf = s.team.ovf ∧ ((s.setPath p).team).nan = s.team.nan ∧ ((s.setPath p).team).trapcode = s.team.trapcode ∧
    ((s.setPath p).team).trappc = s.team.trappc ∧ ((s.setPath p).team).trapva = s.team.trapva ∧ ((s.setPath p).team).frame = s.team.frame ∧
    ((s.setPath p).team).copied = s.team.copied ∧ ((s.setPath p).team).cohidx = s.team.cohidx ∧ ((s.setPath p).team).cohsize = s.team.cohsize ∧
    ((s.setPath p).team).cohort = s.team.cohort ∧ ((s.setPath p).team).parent = s.team.parent ∧ ((s.setPath p).team).root = s.team.root ∧
    ((s.setPath p).team).mesh = s.team.mesh ∧ ((s.setPath p).team).cls = s.team.cls ∧ ((s.setPath p).team).sys = s.team.sys ∧
    ((s.setPath p).team).tree = s.team.tree ∧ ((s.setPath p).team).attr = s.team.attr ∧ ((s.setPath p).team).live = s.team.live ∧
    ((s.setPath p).team).contLive = s.team.contLive ∧ ((s.setPath p).team).kids = s.team.kids ∧ ((s.setPath p).team).copies = s.team.copies ∧
    ((s.setPath p).team).chains = s.team.chains ∧ ((s.setPath p).team).matq = s.team.matq ∧ ((s.setPath p).team).pend = s.team.pend ∧
    ((s.setPath p).team).flagPend = s.team.flagPend ∧ ((s.setPath p).team).park = s.team.park ∧ ((s.setPath p).team).solo = s.team.solo ∧
    ((s.setPath p).team).unfinished = s.team.unfinished ∧ ((s.setPath p).team).preempt = s.team.preempt ∧
    ((s.setPath p).team).slotNo = s.team.slotNo ∧ ((s.setPath p).team).wafers = s.team.wafers ∧ ((s.setPath p).team).cbar = s.team.cbar ∧
    ((s.setPath p).team).ending = s.team.ending := by
  rw [State.setPath_team, Team.setPath_frame] <;> (repeat' apply And.intro) <;> rfl

/-- The end of the instruction in hand: the rest of the state. -/
@[simp] theorem State.goTo_fields (s : State) (fin : Bool) (pc : Dword) :
    (s.goTo fin pc).slot = s.slot ∧ (s.goTo fin pc).teams = s.teams ∧ (s.goTo fin pc).sub = s.sub ∧ (s.goTo fin pc).agenda = s.agenda ∧
    (s.goTo fin pc).turn = s.turn ∧ (s.goTo fin pc).cycle = s.cycle ∧ (s.goTo fin pc).early = s.early ∧ (s.goTo fin pc).raised = s.raised ∧
    (s.goTo fin pc).free = s.free ∧ (s.goTo fin pc).serial = s.serial ∧ (s.goTo fin pc).pipes = s.pipes ∧ (s.goTo fin pc).issued = s.issued ∧
    (s.goTo fin pc).mmaRR = s.mmaRR ∧ (s.goTo fin pc).cores = s.cores ∧ (s.goTo fin pc).banks = s.banks ∧ (s.goTo fin pc).loads = s.loads ∧
    (s.goTo fin pc).prefs = s.prefs ∧ (s.goTo fin pc).atomics = s.atomics ∧ (s.goTo fin pc).mem = s.mem ∧ (s.goTo fin pc).lost = s.lost ∧
    (s.goTo fin pc).chanSets = s.chanSets ∧ (s.goTo fin pc).haq = s.haq ∧ (s.goTo fin pc).poison = s.poison ∧ (s.goTo fin pc).tlb = s.tlb ∧
    (s.goTo fin pc).walks = s.walks ∧ (s.goTo fin pc).shoots = s.shoots ∧ (s.goTo fin pc).parts = s.parts ∧ (s.goTo fin pc).objects = s.objects ∧
    (s.goTo fin pc).fq = s.fq ∧ (s.goTo fin pc).fqWait = s.fqWait ∧ (s.goTo fin pc).cohorts = s.cohorts ∧ (s.goTo fin pc).binds = s.binds ∧
    (s.goTo fin pc).bindTag = s.bindTag ∧ (s.goTo fin pc).rally = s.rally ∧ (s.goTo fin pc).watches = s.watches ∧
    (s.goTo fin pc).packets = s.packets ∧ (s.goTo fin pc).inbox = s.inbox ∧ (s.goTo fin pc).held = s.held ∧ (s.goTo fin pc).seqNext = s.seqNext ∧
    (s.goTo fin pc).seqSent = s.seqSent ∧ (s.goTo fin pc).lane = s.lane ∧ (s.goTo fin pc).bunker = s.bunker ∧ (s.goTo fin pc).caddie = s.caddie ∧
    (s.goTo fin pc).caddieHeld = s.caddieHeld ∧ (s.goTo fin pc).caddieSeen = s.caddieSeen ∧ (s.goTo fin pc).rescues = s.rescues ∧
    (s.goTo fin pc).reissues = s.reissues ∧ (s.goTo fin pc).tsus = s.tsus ∧ (s.goTo fin pc).reissued = s.reissued ∧
    (s.goTo fin pc).served = s.served ∧ (s.goTo fin pc).link = s.link ∧ (s.goTo fin pc).linkRate = s.linkRate ∧
    (s.goTo fin pc).linkWidth = s.linkWidth ∧ (s.goTo fin pc).hostMem = s.hostMem ∧ (s.goTo fin pc).durable = s.durable ∧
    (s.goTo fin pc).port = s.port ∧ (s.goTo fin pc).portReq = s.portReq ∧ (s.goTo fin pc).hostOut = s.hostOut ∧
    (s.goTo fin pc).hostSent = s.hostSent ∧ (s.goTo fin pc).hostAtoms = s.hostAtoms ∧ (s.goTo fin pc).hostCache = s.hostCache ∧
    (s.goTo fin pc).flushAsked = s.flushAsked ∧ (s.goTo fin pc).flushAcks = s.flushAcks ∧ (s.goTo fin pc).hostRead = s.hostRead ∧
    (s.goTo fin pc).mgmtRead = s.mgmtRead ∧ (s.goTo fin pc).spdm = s.spdm ∧ (s.goTo fin pc).aer = s.aer ∧ (s.goTo fin pc).boot = s.boot ∧
    (s.goTo fin pc).fuse = s.fuse ∧ (s.goTo fin pc).images = s.images ∧ (s.goTo fin pc).keys = s.keys ∧ (s.goTo fin pc).epoch = s.epoch ∧
    (s.goTo fin pc).limit = s.limit ∧ (s.goTo fin pc).alarm = s.alarm ∧ (s.goTo fin pc).calm = s.calm ∧ (s.goTo fin pc).fatal = s.fatal ∧
    (s.goTo fin pc).dump = s.dump ∧ (s.goTo fin pc).dumped = s.dumped ∧ (s.goTo fin pc).retiredUnits = s.retiredUnits ∧
    (s.goTo fin pc).harvested = s.harvested := by
  rw [State.goTo_eq] <;> (repeat' apply And.intro) <;> rfl

/-- The end of the instruction in hand: the rest of the team. -/
@[simp] theorem State.goTo_teamFields (s : State) (fin : Bool) (pc : Dword) :
    ((s.goTo fin pc).team).id = s.team.id ∧ ((s.goTo fin pc).team).pid = s.team.pid ∧ ((s.goTo fin pc).team).asid = s.team.asid ∧
    ((s.goTo fin pc).team).lanes = s.team.lanes ∧ ((s.goTo fin pc).team).vregs = s.team.vregs ∧ ((s.goTo fin pc).team).ntiles = s.team.ntiles ∧
    ((s.goTo fin pc).team).window = s.team.window ∧ ((s.goTo fin pc).team).phase = s.team.phase ∧ ((s.goTo fin pc).team).core = s.team.core ∧
    ((s.goTo fin pc).team).sub = s.team.sub ∧ ((s.goTo fin pc).team).v = s.team.v ∧ ((s.goTo fin pc).team).s = s.team.s ∧
    ((s.goTo fin pc).team).m = s.team.m ∧ ((s.goTo fin pc).team).tiles = s.team.tiles ∧ ((s.goTo fin pc).team).codebook = s.team.codebook ∧
    ((s.goTo fin pc).team).tags = s.team.tags ∧ ((s.goTo fin pc).team).win = s.team.win ∧ ((s.goTo fin pc).team).empty = s.team.empty ∧
    ((s.goTo fin pc).team).stack = s.team.stack ∧ ((s.goTo fin pc).team).spill = s.team.spill ∧ ((s.goTo fin pc).team).gen = s.team.gen ∧
    ((s.goTo fin pc).team).chksb = s.team.chksb ∧ ((s.goTo fin pc).team).chkNow = s.team.chkNow ∧ ((s.goTo fin pc).team).chkFrom = s.team.chkFrom ∧
    ((s.goTo fin pc).team).tstat = s.team.tstat ∧ ((s.goTo fin pc).team).sure = s.team.sure ∧ ((s.goTo fin pc).team).narrow = s.team.narrow ∧
    ((s.goTo fin pc).team).ovf = s.team.ovf ∧ ((s.goTo fin pc).team).nan = s.team.nan ∧ ((s.goTo fin pc).team).trapcode = s.team.trapcode ∧
    ((s.goTo fin pc).team).trappc = s.team.trappc ∧ ((s.goTo fin pc).team).trapva = s.team.trapva ∧ ((s.goTo fin pc).team).frame = s.team.frame ∧
    ((s.goTo fin pc).team).copied = s.team.copied ∧ ((s.goTo fin pc).team).cohidx = s.team.cohidx ∧
    ((s.goTo fin pc).team).cohsize = s.team.cohsize ∧ ((s.goTo fin pc).team).cohort = s.team.cohort ∧
    ((s.goTo fin pc).team).parent = s.team.parent ∧ ((s.goTo fin pc).team).root = s.team.root ∧ ((s.goTo fin pc).team).mesh = s.team.mesh ∧
    ((s.goTo fin pc).team).cls = s.team.cls ∧ ((s.goTo fin pc).team).sys = s.team.sys ∧ ((s.goTo fin pc).team).tree = s.team.tree ∧
    ((s.goTo fin pc).team).attr = s.team.attr ∧ ((s.goTo fin pc).team).live = s.team.live ∧ ((s.goTo fin pc).team).contLive = s.team.contLive ∧
    ((s.goTo fin pc).team).kids = s.team.kids ∧ ((s.goTo fin pc).team).copies = s.team.copies ∧ ((s.goTo fin pc).team).chains = s.team.chains ∧
    ((s.goTo fin pc).team).matq = s.team.matq ∧ ((s.goTo fin pc).team).pend = s.team.pend ∧ ((s.goTo fin pc).team).flagPend = s.team.flagPend ∧
    ((s.goTo fin pc).team).park = s.team.park ∧ ((s.goTo fin pc).team).solo = s.team.solo ∧ ((s.goTo fin pc).team).unfinished = s.team.unfinished ∧
    ((s.goTo fin pc).team).preempt = s.team.preempt ∧ ((s.goTo fin pc).team).slotNo = s.team.slotNo ∧
    ((s.goTo fin pc).team).wafers = s.team.wafers ∧ ((s.goTo fin pc).team).cbar = s.team.cbar ∧ ((s.goTo fin pc).team).ending = s.team.ending := by
  rw [State.goTo_team, Team.setPath_frame] <;> (repeat' apply And.intro) <;> rfl

/-- A byte written in HBM: the rest of the state. -/
@[simp] theorem State.memPut_fields (s : State) (a : Nat) (b : Byte) :
    (s.memPut a b).team = s.team ∧ (s.memPut a b).slot = s.slot ∧ (s.memPut a b).teams = s.teams ∧ (s.memPut a b).sub = s.sub ∧
    (s.memPut a b).agenda = s.agenda ∧ (s.memPut a b).turn = s.turn ∧ (s.memPut a b).cycle = s.cycle ∧ (s.memPut a b).early = s.early ∧
    (s.memPut a b).retired = s.retired ∧ (s.memPut a b).raised = s.raised ∧ (s.memPut a b).free = s.free ∧ (s.memPut a b).serial = s.serial ∧
    (s.memPut a b).running = s.running ∧ (s.memPut a b).pipes = s.pipes ∧ (s.memPut a b).issued = s.issued ∧ (s.memPut a b).mmaRR = s.mmaRR ∧
    (s.memPut a b).cores = s.cores ∧ (s.memPut a b).banks = s.banks ∧ (s.memPut a b).loads = s.loads ∧ (s.memPut a b).prefs = s.prefs ∧
    (s.memPut a b).atomics = s.atomics ∧ (s.memPut a b).lost = s.lost ∧ (s.memPut a b).chanSets = s.chanSets ∧ (s.memPut a b).haq = s.haq ∧
    (s.memPut a b).poison = s.poison ∧ (s.memPut a b).tlb = s.tlb ∧ (s.memPut a b).walks = s.walks ∧ (s.memPut a b).shoots = s.shoots ∧
    (s.memPut a b).parts = s.parts ∧ (s.memPut a b).objects = s.objects ∧ (s.memPut a b).fq = s.fq ∧ (s.memPut a b).fqWait = s.fqWait ∧
    (s.memPut a b).cohorts = s.cohorts ∧ (s.memPut a b).binds = s.binds ∧ (s.memPut a b).bindTag = s.bindTag ∧ (s.memPut a b).rally = s.rally ∧
    (s.memPut a b).watches = s.watches ∧ (s.memPut a b).packets = s.packets ∧ (s.memPut a b).inbox = s.inbox ∧ (s.memPut a b).held = s.held ∧
    (s.memPut a b).seqNext = s.seqNext ∧ (s.memPut a b).seqSent = s.seqSent ∧ (s.memPut a b).lane = s.lane ∧ (s.memPut a b).bunker = s.bunker ∧
    (s.memPut a b).caddie = s.caddie ∧ (s.memPut a b).caddieHeld = s.caddieHeld ∧ (s.memPut a b).caddieSeen = s.caddieSeen ∧
    (s.memPut a b).rescues = s.rescues ∧ (s.memPut a b).reissues = s.reissues ∧ (s.memPut a b).tsus = s.tsus ∧
    (s.memPut a b).reissued = s.reissued ∧ (s.memPut a b).served = s.served ∧ (s.memPut a b).link = s.link ∧ (s.memPut a b).linkRate = s.linkRate ∧
    (s.memPut a b).linkWidth = s.linkWidth ∧ (s.memPut a b).hostMem = s.hostMem ∧ (s.memPut a b).durable = s.durable ∧
    (s.memPut a b).port = s.port ∧ (s.memPut a b).portReq = s.portReq ∧ (s.memPut a b).hostOut = s.hostOut ∧ (s.memPut a b).hostSent = s.hostSent ∧
    (s.memPut a b).hostAtoms = s.hostAtoms ∧ (s.memPut a b).hostCache = s.hostCache ∧ (s.memPut a b).flushAsked = s.flushAsked ∧
    (s.memPut a b).flushAcks = s.flushAcks ∧ (s.memPut a b).hostRead = s.hostRead ∧ (s.memPut a b).mgmtRead = s.mgmtRead ∧
    (s.memPut a b).spdm = s.spdm ∧ (s.memPut a b).aer = s.aer ∧ (s.memPut a b).boot = s.boot ∧ (s.memPut a b).fuse = s.fuse ∧
    (s.memPut a b).images = s.images ∧ (s.memPut a b).keys = s.keys ∧ (s.memPut a b).epoch = s.epoch ∧ (s.memPut a b).limit = s.limit ∧
    (s.memPut a b).alarm = s.alarm ∧ (s.memPut a b).calm = s.calm ∧ (s.memPut a b).fatal = s.fatal ∧ (s.memPut a b).dump = s.dump ∧
    (s.memPut a b).dumped = s.dumped ∧ (s.memPut a b).retiredUnits = s.retiredUnits ∧ (s.memPut a b).harvested = s.harvested := by
  (repeat' apply And.intro) <;> rfl

/-- A write of a core: the rest of the state. -/
@[simp] theorem State.putCore_fields (s : State) (c : Nat) (x : Core) :
    (s.putCore c x).team = s.team ∧ (s.putCore c x).slot = s.slot ∧ (s.putCore c x).teams = s.teams ∧ (s.putCore c x).sub = s.sub ∧
    (s.putCore c x).agenda = s.agenda ∧ (s.putCore c x).turn = s.turn ∧ (s.putCore c x).cycle = s.cycle ∧ (s.putCore c x).early = s.early ∧
    (s.putCore c x).retired = s.retired ∧ (s.putCore c x).raised = s.raised ∧ (s.putCore c x).free = s.free ∧ (s.putCore c x).serial = s.serial ∧
    (s.putCore c x).running = s.running ∧ (s.putCore c x).pipes = s.pipes ∧ (s.putCore c x).issued = s.issued ∧ (s.putCore c x).mmaRR = s.mmaRR ∧
    (s.putCore c x).banks = s.banks ∧ (s.putCore c x).loads = s.loads ∧ (s.putCore c x).prefs = s.prefs ∧ (s.putCore c x).atomics = s.atomics ∧
    (s.putCore c x).mem = s.mem ∧ (s.putCore c x).lost = s.lost ∧ (s.putCore c x).chanSets = s.chanSets ∧ (s.putCore c x).haq = s.haq ∧
    (s.putCore c x).poison = s.poison ∧ (s.putCore c x).tlb = s.tlb ∧ (s.putCore c x).walks = s.walks ∧ (s.putCore c x).shoots = s.shoots ∧
    (s.putCore c x).parts = s.parts ∧ (s.putCore c x).objects = s.objects ∧ (s.putCore c x).fq = s.fq ∧ (s.putCore c x).fqWait = s.fqWait ∧
    (s.putCore c x).cohorts = s.cohorts ∧ (s.putCore c x).binds = s.binds ∧ (s.putCore c x).bindTag = s.bindTag ∧ (s.putCore c x).rally = s.rally ∧
    (s.putCore c x).watches = s.watches ∧ (s.putCore c x).packets = s.packets ∧ (s.putCore c x).inbox = s.inbox ∧ (s.putCore c x).held = s.held ∧
    (s.putCore c x).seqNext = s.seqNext ∧ (s.putCore c x).seqSent = s.seqSent ∧ (s.putCore c x).lane = s.lane ∧ (s.putCore c x).bunker = s.bunker ∧
    (s.putCore c x).caddie = s.caddie ∧ (s.putCore c x).caddieHeld = s.caddieHeld ∧ (s.putCore c x).caddieSeen = s.caddieSeen ∧
    (s.putCore c x).rescues = s.rescues ∧ (s.putCore c x).reissues = s.reissues ∧ (s.putCore c x).tsus = s.tsus ∧
    (s.putCore c x).reissued = s.reissued ∧ (s.putCore c x).served = s.served ∧ (s.putCore c x).link = s.link ∧
    (s.putCore c x).linkRate = s.linkRate ∧ (s.putCore c x).linkWidth = s.linkWidth ∧ (s.putCore c x).hostMem = s.hostMem ∧
    (s.putCore c x).durable = s.durable ∧ (s.putCore c x).port = s.port ∧ (s.putCore c x).portReq = s.portReq ∧
    (s.putCore c x).hostOut = s.hostOut ∧ (s.putCore c x).hostSent = s.hostSent ∧ (s.putCore c x).hostAtoms = s.hostAtoms ∧
    (s.putCore c x).hostCache = s.hostCache ∧ (s.putCore c x).flushAsked = s.flushAsked ∧ (s.putCore c x).flushAcks = s.flushAcks ∧
    (s.putCore c x).hostRead = s.hostRead ∧ (s.putCore c x).mgmtRead = s.mgmtRead ∧ (s.putCore c x).spdm = s.spdm ∧ (s.putCore c x).aer = s.aer ∧
    (s.putCore c x).boot = s.boot ∧ (s.putCore c x).fuse = s.fuse ∧ (s.putCore c x).images = s.images ∧ (s.putCore c x).keys = s.keys ∧
    (s.putCore c x).epoch = s.epoch ∧ (s.putCore c x).limit = s.limit ∧ (s.putCore c x).alarm = s.alarm ∧ (s.putCore c x).calm = s.calm ∧
    (s.putCore c x).fatal = s.fatal ∧ (s.putCore c x).dump = s.dump ∧ (s.putCore c x).dumped = s.dumped ∧
    (s.putCore c x).retiredUnits = s.retiredUnits ∧ (s.putCore c x).harvested = s.harvested := by
  (repeat' apply And.intro) <;> rfl

/-- A write of a bank: the rest of the state. -/
@[simp] theorem State.putBank_fields (s : State) (b : Nat) (x : Bank) :
    (s.putBank b x).team = s.team ∧ (s.putBank b x).slot = s.slot ∧ (s.putBank b x).teams = s.teams ∧ (s.putBank b x).sub = s.sub ∧
    (s.putBank b x).agenda = s.agenda ∧ (s.putBank b x).turn = s.turn ∧ (s.putBank b x).cycle = s.cycle ∧ (s.putBank b x).early = s.early ∧
    (s.putBank b x).retired = s.retired ∧ (s.putBank b x).raised = s.raised ∧ (s.putBank b x).free = s.free ∧ (s.putBank b x).serial = s.serial ∧
    (s.putBank b x).running = s.running ∧ (s.putBank b x).pipes = s.pipes ∧ (s.putBank b x).issued = s.issued ∧ (s.putBank b x).mmaRR = s.mmaRR ∧
    (s.putBank b x).cores = s.cores ∧ (s.putBank b x).loads = s.loads ∧ (s.putBank b x).prefs = s.prefs ∧ (s.putBank b x).atomics = s.atomics ∧
    (s.putBank b x).mem = s.mem ∧ (s.putBank b x).lost = s.lost ∧ (s.putBank b x).chanSets = s.chanSets ∧ (s.putBank b x).haq = s.haq ∧
    (s.putBank b x).poison = s.poison ∧ (s.putBank b x).tlb = s.tlb ∧ (s.putBank b x).walks = s.walks ∧ (s.putBank b x).shoots = s.shoots ∧
    (s.putBank b x).parts = s.parts ∧ (s.putBank b x).objects = s.objects ∧ (s.putBank b x).fq = s.fq ∧ (s.putBank b x).fqWait = s.fqWait ∧
    (s.putBank b x).cohorts = s.cohorts ∧ (s.putBank b x).binds = s.binds ∧ (s.putBank b x).bindTag = s.bindTag ∧ (s.putBank b x).rally = s.rally ∧
    (s.putBank b x).watches = s.watches ∧ (s.putBank b x).packets = s.packets ∧ (s.putBank b x).inbox = s.inbox ∧ (s.putBank b x).held = s.held ∧
    (s.putBank b x).seqNext = s.seqNext ∧ (s.putBank b x).seqSent = s.seqSent ∧ (s.putBank b x).lane = s.lane ∧ (s.putBank b x).bunker = s.bunker ∧
    (s.putBank b x).caddie = s.caddie ∧ (s.putBank b x).caddieHeld = s.caddieHeld ∧ (s.putBank b x).caddieSeen = s.caddieSeen ∧
    (s.putBank b x).rescues = s.rescues ∧ (s.putBank b x).reissues = s.reissues ∧ (s.putBank b x).tsus = s.tsus ∧
    (s.putBank b x).reissued = s.reissued ∧ (s.putBank b x).served = s.served ∧ (s.putBank b x).link = s.link ∧
    (s.putBank b x).linkRate = s.linkRate ∧ (s.putBank b x).linkWidth = s.linkWidth ∧ (s.putBank b x).hostMem = s.hostMem ∧
    (s.putBank b x).durable = s.durable ∧ (s.putBank b x).port = s.port ∧ (s.putBank b x).portReq = s.portReq ∧
    (s.putBank b x).hostOut = s.hostOut ∧ (s.putBank b x).hostSent = s.hostSent ∧ (s.putBank b x).hostAtoms = s.hostAtoms ∧
    (s.putBank b x).hostCache = s.hostCache ∧ (s.putBank b x).flushAsked = s.flushAsked ∧ (s.putBank b x).flushAcks = s.flushAcks ∧
    (s.putBank b x).hostRead = s.hostRead ∧ (s.putBank b x).mgmtRead = s.mgmtRead ∧ (s.putBank b x).spdm = s.spdm ∧ (s.putBank b x).aer = s.aer ∧
    (s.putBank b x).boot = s.boot ∧ (s.putBank b x).fuse = s.fuse ∧ (s.putBank b x).images = s.images ∧ (s.putBank b x).keys = s.keys ∧
    (s.putBank b x).epoch = s.epoch ∧ (s.putBank b x).limit = s.limit ∧ (s.putBank b x).alarm = s.alarm ∧ (s.putBank b x).calm = s.calm ∧
    (s.putBank b x).fatal = s.fatal ∧ (s.putBank b x).dump = s.dump ∧ (s.putBank b x).dumped = s.dumped ∧
    (s.putBank b x).retiredUnits = s.retiredUnits ∧ (s.putBank b x).harvested = s.harvested := by
  (repeat' apply And.intro) <;> rfl

/-- A change of a partition: the rest of the state. -/
@[simp] theorem State.mapPart_fields (s : State) (pid : BitVec 5) (f : Partition → Partition) :
    (s.mapPart pid f).team = s.team ∧ (s.mapPart pid f).slot = s.slot ∧ (s.mapPart pid f).teams = s.teams ∧ (s.mapPart pid f).sub = s.sub ∧
    (s.mapPart pid f).agenda = s.agenda ∧ (s.mapPart pid f).turn = s.turn ∧ (s.mapPart pid f).cycle = s.cycle ∧ (s.mapPart pid f).early = s.early ∧
    (s.mapPart pid f).retired = s.retired ∧ (s.mapPart pid f).raised = s.raised ∧ (s.mapPart pid f).free = s.free ∧
    (s.mapPart pid f).serial = s.serial ∧ (s.mapPart pid f).running = s.running ∧ (s.mapPart pid f).pipes = s.pipes ∧
    (s.mapPart pid f).issued = s.issued ∧ (s.mapPart pid f).mmaRR = s.mmaRR ∧ (s.mapPart pid f).cores = s.cores ∧
    (s.mapPart pid f).banks = s.banks ∧ (s.mapPart pid f).loads = s.loads ∧ (s.mapPart pid f).prefs = s.prefs ∧
    (s.mapPart pid f).atomics = s.atomics ∧ (s.mapPart pid f).mem = s.mem ∧ (s.mapPart pid f).lost = s.lost ∧
    (s.mapPart pid f).chanSets = s.chanSets ∧ (s.mapPart pid f).haq = s.haq ∧ (s.mapPart pid f).poison = s.poison ∧ (s.mapPart pid f).tlb = s.tlb ∧
    (s.mapPart pid f).walks = s.walks ∧ (s.mapPart pid f).shoots = s.shoots ∧ (s.mapPart pid f).objects = s.objects ∧ (s.mapPart pid f).fq = s.fq ∧
    (s.mapPart pid f).fqWait = s.fqWait ∧ (s.mapPart pid f).cohorts = s.cohorts ∧ (s.mapPart pid f).binds = s.binds ∧
    (s.mapPart pid f).bindTag = s.bindTag ∧ (s.mapPart pid f).rally = s.rally ∧ (s.mapPart pid f).watches = s.watches ∧
    (s.mapPart pid f).packets = s.packets ∧ (s.mapPart pid f).inbox = s.inbox ∧ (s.mapPart pid f).held = s.held ∧
    (s.mapPart pid f).seqNext = s.seqNext ∧ (s.mapPart pid f).seqSent = s.seqSent ∧ (s.mapPart pid f).lane = s.lane ∧
    (s.mapPart pid f).bunker = s.bunker ∧ (s.mapPart pid f).caddie = s.caddie ∧ (s.mapPart pid f).caddieHeld = s.caddieHeld ∧
    (s.mapPart pid f).caddieSeen = s.caddieSeen ∧ (s.mapPart pid f).rescues = s.rescues ∧ (s.mapPart pid f).reissues = s.reissues ∧
    (s.mapPart pid f).tsus = s.tsus ∧ (s.mapPart pid f).reissued = s.reissued ∧ (s.mapPart pid f).served = s.served ∧
    (s.mapPart pid f).link = s.link ∧ (s.mapPart pid f).linkRate = s.linkRate ∧ (s.mapPart pid f).linkWidth = s.linkWidth ∧
    (s.mapPart pid f).hostMem = s.hostMem ∧ (s.mapPart pid f).durable = s.durable ∧ (s.mapPart pid f).port = s.port ∧
    (s.mapPart pid f).portReq = s.portReq ∧ (s.mapPart pid f).hostOut = s.hostOut ∧ (s.mapPart pid f).hostSent = s.hostSent ∧
    (s.mapPart pid f).hostAtoms = s.hostAtoms ∧ (s.mapPart pid f).hostCache = s.hostCache ∧ (s.mapPart pid f).flushAsked = s.flushAsked ∧
    (s.mapPart pid f).flushAcks = s.flushAcks ∧ (s.mapPart pid f).hostRead = s.hostRead ∧ (s.mapPart pid f).mgmtRead = s.mgmtRead ∧
    (s.mapPart pid f).spdm = s.spdm ∧ (s.mapPart pid f).aer = s.aer ∧ (s.mapPart pid f).boot = s.boot ∧ (s.mapPart pid f).fuse = s.fuse ∧
    (s.mapPart pid f).images = s.images ∧ (s.mapPart pid f).keys = s.keys ∧ (s.mapPart pid f).epoch = s.epoch ∧ (s.mapPart pid f).limit = s.limit ∧
    (s.mapPart pid f).alarm = s.alarm ∧ (s.mapPart pid f).calm = s.calm ∧ (s.mapPart pid f).fatal = s.fatal ∧ (s.mapPart pid f).dump = s.dump ∧
    (s.mapPart pid f).dumped = s.dumped ∧ (s.mapPart pid f).retiredUnits = s.retiredUnits ∧ (s.mapPart pid f).harvested = s.harvested := by
  (repeat' apply And.intro) <;> rfl

/-- The core and the bank that have been written, and the others. -/
theorem State.core_putCore (s : State) (c k : Nat) (x : Core) : (s.putCore c x).core k = if k = c then x else s.core k :=
  storeGet_put ..
theorem State.bank_putBank (s : State) (b k : Nat) (x : Bank) : (s.putBank b x).bank k = if k = b then x else s.bank k :=
  storeGet_put ..
@[simp] theorem State.freshBits_state (s : State) (w : Nat) : (s.freshBits w).2 = { s with free := s.free + 1 } := rfl
@[simp] theorem State.choose_state (s : State) (n : Nat) : (s.choose n).2 = { s with free := s.free + 1 } := rfl
@[simp] theorem State.nextSerial_state (s : State) : s.nextSerial.2 = { s with serial := s.serial + 1 } := rfl
/-- A choice lies among its outcomes (R10). -/
theorem State.choose_lt (s : State) {n : Nat} (h : 0 < n) : (s.choose n).1 < n := Nat.mod_lt _ h
/-- What the end of an instruction writes. -/
@[simp] theorem State.retire_team (s : State) (h : Hdr) (n : Nat) :
    (s.retire h n).team = s.team.setPath s.slot (some (s.path.gone h.fin (s.path.pc + BitVec.ofNat 64 n) s.cycle)) := by rw [State.retire_eq, State.goTo_team]
@[simp] theorem State.retire_retired (s : State) (h : Hdr) (n : Nat) : (s.retire h n).retired = true := by rw [State.retire_eq, State.goTo_retired]

end Sys2Proof.Machine
end

