-- ==== Sys2Proof/Laws/Home.lean ====
section
/-! SUPPORT. What accesses at home leave alone: no team, no run, no byte of HBM or of host memory changes; dirty bytes go to the home agents' queue. -/
namespace Sys2Proof.Machine

-- One proof at a time: many at once wait on the same matches, and each that waits takes a thread.
set_option Elab.async false

/-- Teams, runs, the clock and HBM stand as before, and host memory keeps its form: a write on the link may be performed as a partition fails (R428). -/
structure Quiet (s t : State) : Prop where
  team    : t.team = s.team
  slot    : t.slot = s.slot
  teams   : t.teams = s.teams
  running : t.running = s.running
  cycle   : t.cycle = s.cycle
  retired : t.retired = s.retired
  mem     : t.mem = s.mem
  lost    : t.lost = s.lost
  hostMem : storeWf 0 s.hostMem = true → storeWf 0 t.hostMem = true

theorem Quiet.rfl' {s : State} : Quiet s s := ⟨rfl, rfl, rfl, rfl, rfl, rfl, rfl, rfl, id⟩

theorem Quiet.trans {s t u : State} (h : Quiet s t) (k : Quiet t u) : Quiet s u :=
  ⟨k.team.trans h.team, k.slot.trans h.slot, k.teams.trans h.teams, k.running.trans h.running, k.cycle.trans h.cycle, k.retired.trans h.retired,
    k.mem.trans h.mem, k.lost.trans h.lost, k.hostMem ∘ h.hostMem⟩

/-- A state that keeps its memory keeps its canonical form. -/
theorem Quiet.memoryWf {s t : State} (h : Quiet s t) (w : s.memoryWf) : t.memoryWf := by
  refine ⟨?_, ?_⟩
  · rw [memWf_congr h.mem h.lost]; exact w.1
  · exact h.hostMem w.2

/-- Folding operations that are quiet. -/
theorem quiet_foldl {α β : Type} (f : β → α → β) (g : β → State) (h : ∀ b x, Quiet (g b) (g (f b x))) (l : List α) (b : β) :
    Quiet (g b) (g (l.foldl f b)) := by
  induction l generalizing b with
  | nil => exact .rfl'
  | cons x l ih => exact (h b x).trans (ih _)

theorem quiet_mapPart (s : State) (pid : BitVec 5) (f : Partition → Partition) : Quiet s (s.mapPart pid f) := ⟨rfl, rfl, rfl, rfl, rfl, rfl, rfl, rfl, id⟩
theorem quiet_putBank (s : State) (b : Nat) (x : Bank) : Quiet s (s.putBank b x) := ⟨rfl, rfl, rfl, rfl, rfl, rfl, rfl, rfl, id⟩
theorem quiet_putCore (s : State) (c : Nat) (x : Core) : Quiet s (s.putCore c x) := ⟨rfl, rfl, rfl, rfl, rfl, rfl, rfl, rfl, id⟩
theorem quiet_hostPut (s : State) (a : Nat) (b : Byte) : Quiet s (s.hostPut a b) := ⟨rfl, rfl, rfl, rfl, rfl, rfl, rfl, rfl, fun h => hostMem_wf_put h a b⟩
theorem quiet_freshBits (s : State) (w : Nat) : Quiet s (s.freshBits w).2 := ⟨rfl, rfl, rfl, rfl, rfl, rfl, rfl, rfl, id⟩
theorem quiet_landSome (s : State) (w : HostWrite) : Quiet s (s.landSome w) := by
  unfold State.landSome
  refine (quiet_freshBits s w.data.length).trans (quiet_foldl (α := Byte × Nat) _ (fun s : State => s) (fun s x => ?_) _ _)
  split
  · exact quiet_hostPut ..
  · exact .rfl'
theorem quiet_spill (s : State) (pid : BitVec 5) : Quiet s (s.spill pid) :=
  Quiet.trans (t := { s with hostOut := s.hostOut.filter fun w => w.pid != pid, hostSent := s.hostSent.filter fun w => w.pid != pid })
    ⟨rfl, rfl, rfl, rfl, rfl, rfl, rfl, rfl, id⟩ (quiet_foldl (α := HostWrite) _ (fun s : State => s) (fun s w => quiet_landSome s w) _ _)
theorem quiet_reportErr (s : State) (pid : BitVec 5) : Quiet s (s.reportErr pid) := by
  unfold State.reportErr
  split
  · split
    · exact .rfl'
    · exact ⟨rfl, rfl, rfl, rfl, rfl, rfl, rfl, rfl, id⟩
  · exact .rfl'
/-- A partition that enters its error state (R427, R428). -/
theorem quiet_partErr (s : State) (pid : BitVec 5) (k : Nat) : Quiet s (s.partErr pid k) :=
  ((quiet_reportErr s pid).trans (quiet_mapPart ..)).trans (quiet_spill ..)
theorem quiet_poisonErr (s : State) (c : Option Nat) : Quiet s (s.poisonErr c) := by
  unfold State.poisonErr
  split
  · exact quiet_partErr ..
  · exact .rfl'
theorem quiet_countNull (s : State) (pid : BitVec 5) : Quiet s (s.countNull pid) := quiet_mapPart ..
theorem quiet_choose (s : State) (n : Nat) : Quiet s (s.choose n).2 := ⟨rfl, rfl, rfl, rfl, rfl, rfl, rfl, rfl, id⟩
theorem quiet_send (s : State) (pid : BitVec 5) (a b : Stop) (m : Msg) : Quiet s (s.send pid a b m) := ⟨rfl, rfl, rfl, rfl, rfl, rfl, rfl, rfl, id⟩
theorem quiet_mapMsgs (s : State) (f : Packet → Packet) : Quiet s (s.mapMsgs f) := ⟨rfl, rfl, rfl, rfl, rfl, rfl, rfl, rfl, id⟩
theorem quiet_takeWbs (s : State) (k : LineKey) (d : Nat) (w : BitVec 32) : Quiet s (takeWbs s k d w) := quiet_mapMsgs ..
theorem quiet_evalWatches (s : State) (pid : BitVec 5) (asid : BitVec 16) (lo hi : Nat) (v : Nat → Nat → Nat) :
    Quiet s (s.evalWatches pid asid lo hi v) := ⟨rfl, rfl, rfl, rfl, rfl, rfl, rfl, rfl, id⟩

theorem quiet_toAgent (s : State) (pa : Nat) (d : BitVec 1024) (be : BitVec 128) : Quiet s (s.toAgent pa d be) := by
  unfold State.toAgent
  split
  · exact .rfl'
  · exact ⟨rfl, rfl, rfl, rfl, rfl, rfl, rfl, rfl, id⟩

theorem quiet_countMiss (s : State) (b : Nat) (k : LineKey) (w : Nat) : Quiet s (countMiss s b k w) := by
  unfold countMiss
  dsimp only
  split
  · exact quiet_putBank ..
  · split
    · exact quiet_putBank ..
    · exact .rfl'

theorem quiet_fillWords (s : State) (l : L2Line) (want : BitVec 32) : Quiet s (fillWords s l want).2 := by
  refine quiet_foldl (α := Nat) _ (fun r : L2Line × State => r.2) (fun r q => ?_) _ (l, s)
  dsimp only
  split
  · exact .rfl'
  · split
    · exact (quiet_freshBits ..).trans (quiet_poisonErr ..)
    · exact .rfl'

theorem quiet_absorbWbs (s : State) (l : L2Line) (w : BitVec 32) : Quiet s (absorbWbs s l w).2 := by
  refine quiet_foldl (α := Packet) _ (fun r : L2Line × State => r.2) (fun r p => ?_) _ (l, s)
  dsimp only
  split
  · split
    · exact (quiet_takeWbs ..).trans (quiet_toAgent ..)
    · exact .rfl'
  · exact .rfl'

theorem quiet_forwardWords (s : State) (home : Nat) (l : L2Line) (w : BitVec 32) : Quiet s (forwardWords s home l w).2 := by
  unfold forwardWords
  dsimp only
  split
  all_goals first
    | refine Quiet.trans (quiet_foldl (α := Nat) _ (fun r : L2Line × State => r.2) (fun r d => ?_) _ (l, s)) (quiet_absorbWbs ..)
    | refine quiet_foldl (α := Nat) _ (fun r : L2Line × State => r.2) (fun r d => ?_) _ (l, s)
  all_goals
    split
    · exact quiet_countNull ..
    · exact (quiet_toAgent ..).trans (quiet_putBank ..)

theorem quiet_dropWords (s : State) (b : Nat) (c : L2Line) (w : BitVec 32) : Quiet s (s.dropWords b c w) := quiet_putBank ..

theorem quiet_invalidateWords (s : State) (home : Nat) (k : LineKey) (w : BitVec 32) : Quiet s (invalidateWords s home k w) := by
  refine quiet_foldl (α := Nat × Nat) _ (fun s : State => s) (fun s p => ?_) _ s
  split
  · exact quiet_countNull ..
  · exact quiet_dropWords ..

theorem quiet_recallWords (s : State) (home : Nat) (l : L2Line) (w : BitVec 32) : Quiet s (recallWords s home l w).2 := by
  unfold recallWords
  dsimp only
  split
  · exact quiet_invalidateWords ..
  · exact (quiet_forwardWords ..).trans (quiet_invalidateWords ..)

theorem quiet_recallLine (s : State) (home : Nat) (l : L2Line) : Quiet s (recallLine s home l).2 := by
  unfold recallLine
  dsimp only
  split <;> split
  all_goals first
    | refine Quiet.trans (quiet_foldl (α := Nat × Nat) _ (fun r : L2Line × State => r.2) (fun r q => ?_) _ (l, s)) (quiet_absorbWbs ..)
    | refine quiet_foldl (α := Nat × Nat) _ (fun r : L2Line × State => r.2) (fun r q => ?_) _ (l, s)
  all_goals
    split
    · exact quiet_countNull ..
    · exact (quiet_toAgent ..).trans (quiet_putBank ..)

theorem quiet_evictHome (s : State) (b : Nat) (l : L2Line) : Quiet s (evictHome s b l) := by
  unfold evictHome
  dsimp only
  refine (Quiet.trans ?_ ((quiet_recallLine ..).trans (quiet_putBank ..))).trans (quiet_toAgent ..)
  exact quiet_foldl (α := L2Line) _ (fun s : State => s) (fun s x => (quiet_recallLine ..).trans (quiet_putBank ..)) _ s

theorem quiet_evictRemote (s : State) (b : Nat) (l : L2Line) : Quiet s (evictRemote s b l) := by
  unfold evictRemote
  dsimp only
  split
  · exact quiet_putBank ..
  · split
    · exact quiet_putBank ..
    · split
      · exact quiet_putBank ..
      · exact (quiet_putBank ..).trans (quiet_send ..)

theorem quiet_makeRoom {s t : State} {p : Partition} {b : Nat} {k : LineKey} {r : Bool} (h : makeRoom s p b k r = some t) : Quiet s t := by
  unfold makeRoom at h
  dsimp only at h
  split at h
  · cases h
  · split at h
    · simp only [Option.map_eq_some_iff] at h
      obtain ⟨l, -, rfl⟩ := h
      exact quiet_evictRemote ..
    · split at h
      · cases h; exact .rfl'
      · split at h
        · cases h
        · cases h
          split
          · exact quiet_evictRemote ..
          · exact quiet_evictHome ..

theorem quiet_finishXlate {u s t : State} {p : Partition} {die a : Nat} {host : Bool} {q : Perms} {a' : Nat} {h' : Bool} {q' : Perms}
    (k : Quiet u s) (h : finishXlate s p die a host q = .ok a' h' q' t) : Quiet u t := by
  unfold finishXlate at h
  repeat' split at h
  all_goals cases h
  all_goals exact k

/-- A read of a table entry stops with no success. -/
theorem cachedRead_stop {s t : State} {p : Partition} {mtu : Nat} {asid : BitVec 16} {fresh : Bool} {gpa a : Nat} {b : Bool} {q : Perms} :
    cachedRead s p mtu asid fresh gpa ≠ .stop (.ok a b q t) := by
  intro h
  unfold cachedRead at h
  split at h
  · cases h
  · unfold tableRead at h
    repeat' split at h
    all_goals cases h

theorem walkLevels_stop {s t : State} {p : Partition} {mtu : Nat} {asid : BitVec 16} {va : Nat} {fresh : Bool} {a : Nat}
    {b : Bool} {q : Perms} : ∀ {k table : Nat} {used : List WalkCache}, walkLevels s p mtu asid va fresh k table used ≠ .stop (.ok a b q t)
  | 0, _, _ => by unfold walkLevels; intro h; cases h
  | k + 1, table, used => by
    intro h
    unfold walkLevels at h
    dsimp only at h
    split at h
    · next x hx => cases h; exact cachedRead_stop hx
    · repeat' split at h
      all_goals first | cases h | exact walkLevels_stop h

/-- A walk stops with no success. -/
theorem walk_stop {s t : State} {p : Partition} {mtu : Nat} {asid : BitVec 16} {va : Nat} {fresh : Bool} {a : Nat} {b : Bool} {q : Perms} :
    walk s p mtu asid va fresh ≠ .stop (.ok a b q t) := by
  intro h
  unfold walk at h
  split at h
  · next x hx => cases h; exact cachedRead_stop hx
  · repeat' split at h
    all_goals first | cases h | exact walkLevels_stop h

theorem quiet_walkPoison (s : State) (pid : BitVec 5) (asid : BitVec 16) (va : Nat) : Quiet s (s.walkPoison pid asid va) := by
  unfold State.walkPoison
  split
  · exact quiet_foldl (α := Nat) _ (fun s : State => s) (fun s x => quiet_poisonErr ..) _ s
  · exact .rfl'

/-- A translation changes the TLBs and the walk caches, and reports poisoned table entries (R59). -/
theorem quiet_translate {s t : State} {pid : BitVec 5} {asid : BitVec 16} {va a : Nat} {host : Bool} {q : Perms}
    (h : translate s pid asid va = .ok a host q t) : Quiet s t := by
  unfold translate at h
  dsimp only at h
  have fill : ∀ (c : Bool) (x : List TlbEntry) (y : List WalkCache),
      Quiet s (if c = true then s.walkPoison pid asid va else { s.walkPoison pid asid va with tlb := x, walks := y }) := by
    intro c x y; cases c
    · exact (quiet_walkPoison s pid asid va).trans ⟨rfl, rfl, rfl, rfl, rfl, rfl, rfl, rfl, id⟩
    · exact quiet_walkPoison ..
  split at h
  · cases h
  · split at h
    · cases h
    · split at h
      · exact quiet_finishXlate .rfl' h
      · split at h
        · next x hx => exact absurd (hx.trans (congrArg _ h)) walk_stop
        · split at h
          · exact quiet_finishXlate (fill ..) h
          · split at h
            · cases h
            · split at h
              · cases h
              · exact quiet_finishXlate (fill ..) h

/-- The state that an access at home goes on from, whichever way it begins. -/
def HomeAcc.state? : HomeAcc → Option State
  | .line _ _ s => some s
  | .host _ _ s => some s
  | .busy s => some s
  | _ => none

theorem quiet_homeAccess {s t : State} {pid : BitVec 5} {asid : BitVec 16} {va : Nat} {n : Need} {sys : Bool}
    (h : (homeAccess s pid asid va n sys).state? = some t) : Quiet s t := by
  unfold homeAccess at h
  dsimp only at h
  split at h
  · cases h
  · split at h
    · cases h
    · split at h
      · cases h; exact .rfl'
      · split at h
        · split at h
          · cases h; exact quiet_putBank ..
          · split at h
            · cases h
            · split at h
              · next hx =>
                split at h
                · cases h; exact (quiet_translate hx).trans (quiet_putBank ..)
                · cases h
              all_goals cases h
        · split at h
          · next hx =>
            split at h
            · cases h
            · split at h
              · cases h; exact quiet_translate hx
              · split at h
                · cases h; exact .rfl'
                · next hm => cases h; exact (((quiet_translate hx).trans (quiet_makeRoom hm)).trans (quiet_countMiss ..)).trans (quiet_putBank ..)
          all_goals cases h

theorem quiet_homeReadLine (s : State) (b : Nat) (l : L2Line) (w : BitVec 32) : Quiet s (homeReadLine s b l w).2 := by
  unfold homeReadLine
  dsimp only
  split
  · exact (quiet_fillWords ..).trans (quiet_putBank ..)
  · exact ((quiet_forwardWords ..).trans (quiet_fillWords ..)).trans (quiet_putBank ..)

theorem quiet_mergeWrite (s : State) (b : Nat) (l : L2Line) (d : BitVec 1024) (be : BitVec 128) : Quiet s (mergeWrite s b l d be) := by
  unfold mergeWrite
  dsimp only
  split <;> split
  · exact (((quiet_fillWords ..).trans (quiet_toAgent ..)).trans (quiet_putBank ..)).trans (quiet_evalWatches ..)
  · exact ((quiet_fillWords ..).trans (quiet_putBank ..)).trans (quiet_evalWatches ..)
  · exact (quiet_toAgent ..).trans (quiet_putBank ..)
  · exact quiet_putBank ..

/-- A write at home: the bytes go to the bank, or through it to the home agents' queue. -/
theorem quiet_rawWrite (s : State) (b : Nat) (l : L2Line) (d : BitVec 1024) (be : BitVec 128) : Quiet s (rawWrite s b l d be) :=
  (quiet_recallWords ..).trans (quiet_mergeWrite ..)

/-! ## Accesses of the device -/

/-- An access of the device that ends with a value leaves a state of which `P` holds. -/
structure DevAll {α : Type} (P : State → Prop) (d : Dev α) : Prop where
  holds : ∀ v t, d = .ok v t → P t

theorem Dev.all_ok {α : Type} {P : State → Prop} {v : α} {s : State} (h : P s) : DevAll P (.ok v s) := ⟨by intro w t e; cases e; exact h⟩

theorem Dev.all_busy {α : Type} {P : State → Prop} : DevAll P (Dev.busy : Dev α) := ⟨by intro v t e; cases e⟩
theorem Dev.all_no {α : Type} {P : State → Prop} : DevAll P (Dev.no : Dev α) := ⟨by intro v t e; cases e⟩

theorem Dev.all_bind {α β : Type} {P Q : State → Prop} {d : Dev α} {f : α → State → Dev β} (h : DevAll P d) (k : ∀ v t, P t → DevAll Q (f v t)) :
    DevAll Q (d.bind f) := by
  cases d with
  | ok v s => exact k v s (h.holds v s rfl)
  | busy => exact Dev.all_busy
  | no => exact Dev.all_no

theorem Dev.all_list {α β : Type} {P : State → Prop} {f : State → α → Dev β} (h : ∀ s x, P s → DevAll P (f s x)) :
    ∀ (l : List α) (s : State), P s → DevAll P (devList f l s)
  | [], _, w => Dev.all_ok w
  | x :: l, s, w => Dev.all_bind (h s x w) fun _ t w => Dev.all_bind (Dev.all_list h l t w) fun _ _ w => Dev.all_ok w

theorem Dev.all_each {α : Type} {P : State → Prop} {f : State → α → Dev Unit} (h : ∀ s x, P s → DevAll P (f s x)) :
    ∀ (l : List α) (s : State), P s → DevAll P (devEach f l s)
  | [], _, w => Dev.all_ok w
  | x :: l, s, w => Dev.all_bind (h s x w) fun _ t w => Dev.all_each h l t w

theorem Dev.all_orSkip {P : State → Prop} {d : Dev Unit} {s : State} (h : DevAll P d) (w : P s) : DevAll P (d.orSkip s) := by
  cases d with
  | ok v t => exact h
  | busy => exact h
  | no => exact Dev.all_ok w

theorem DevAll.mono {α : Type} {P Q : State → Prop} {d : Dev α} (h : DevAll P d) (k : ∀ t, P t → Q t) : DevAll Q d := ⟨fun v t e => k t (h.holds v t e)⟩

theorem quiet_deviceWrite (s : State) (pid : BitVec 5) (asid : BitVec 16) (va : Nat) (bs : List Byte) :
    DevAll (Quiet s) (deviceWrite s pid asid va bs) := by
  unfold deviceWrite
  dsimp only
  split
  · next h =>
    have := quiet_homeAccess (t := _) (congrArg HomeAcc.state? h)
    exact Dev.all_ok (Quiet.trans ⟨this.team, this.slot, this.teams, this.running, this.cycle, this.retired, this.mem, this.lost, this.hostMem⟩ (quiet_rawWrite ..))
  · exact Dev.all_busy
  · exact Dev.all_no

theorem quiet_deviceWriteAll (s : State) (pid : BitVec 5) (asid : BitVec 16) (va : Nat) (bs : List Byte) :
    DevAll (Quiet s) (deviceWriteAll s pid asid va bs) :=
  Dev.all_each (fun _ _ q => (quiet_deviceWrite ..).mono fun _ => q.trans) _ _ .rfl'

theorem quiet_deviceRead (s : State) (pid : BitVec 5) (asid : BitVec 16) (va n : Nat) : DevAll (Quiet s) (deviceRead s pid asid va n) := by
  unfold deviceRead
  split
  · next e => exact Dev.all_ok ((quiet_homeAccess (congrArg HomeAcc.state? e)).trans (quiet_homeReadLine ..))
  · exact Dev.all_busy
  · exact Dev.all_no

theorem quiet_deviceReadAll (pid : BitVec 5) (asid : BitVec 16) : ∀ (k : Nat) (s : State) (va n : Nat), DevAll (Quiet s) (deviceReadAll pid asid k s va n)
  | 0, _, _, _ => Dev.all_ok .rfl'
  | k + 1, s, va, n => by
    unfold deviceReadAll
    dsimp only
    split
    · exact Dev.all_ok .rfl'
    · exact Dev.all_bind (quiet_deviceRead ..) fun _ t q =>
        Dev.all_bind ((quiet_deviceReadAll pid asid k t _ _).mono fun _ => q.trans) fun _ _ q => Dev.all_ok q

theorem quiet_readArea (s : State) (pid : BitVec 5) (asid : BitVec 16) (va n : Nat) : DevAll (Quiet s) (readArea s pid asid va n) :=
  quiet_deviceReadAll ..

/-- A save area is written at home (R409): no register of a team changes by it. -/
theorem quiet_writeArea (s : State) (pid : BitVec 5) (base : Nat) (parts : List (Nat × List Byte)) : DevAll (Quiet s) (s.writeArea pid base parts) :=
  Dev.all_each (fun _ _ q => Dev.all_orSkip ((quiet_deviceWrite ..).mono fun _ => q.trans) q) _ _ .rfl'

end Sys2Proof.Machine
end

