-- ==== Sys2Proof/Laws/Ops.lean ====
section
/-! SUPPORT. Laws of what instructions share: waiting, the outcomes of an access, and taking a trap. -/
namespace Sys2Proof.Machine

-- One proof at a time: many at once wait on the same matches, and each that waits takes a thread.
set_option Elab.async false

/-- What a path holds while it waits (R335, R394). -/
def Path.waiting (p : Path) (giveUp : Bool) (w : Wait) (cycle : Nat) : Path :=
  { p with wait := some w, gaveUp := giveUp, lastEnd := if giveUp && !p.gaveUp then cycle else p.lastEnd,
           promo := if giveUp && !p.gaveUp then 0 else p.promo }

/-- Waiting changes the path, and the run where the sub-core is given up; nothing else. -/
theorem State.waitHere_eq (s : State) (giveUp : Bool) (w : Wait) :
    s.waitHere giveUp w =
      { s with team := s.team.setPath s.slot (some (s.path.waiting giveUp w s.cycle)), running := (s.waitHere giveUp w).running } := by
  unfold State.waitHere
  cases giveUp
  · rfl
  · simp only [if_true]
    rw [State.endRun_frame]
    rfl

@[simp] theorem State.waitHere_running (s : State) (w : Wait) : (s.waitHere false w).running = s.running := rfl
@[simp] theorem State.waitHere_slot (s : State) (g : Bool) (w : Wait) : (s.waitHere g w).slot = s.slot := by rw [State.waitHere_eq]
@[simp] theorem State.waitHere_path (s : State) (g : Bool) (w : Wait) : (s.waitHere g w).path = s.path.waiting g w s.cycle := by
  unfold State.path; rw [State.waitHere_slot, State.waitHere_eq]; simp; rfl
@[simp] theorem State.waitHere_pc (s : State) (g : Bool) (w : Wait) : (s.waitHere g w).path.pc = s.path.pc := by rw [State.waitHere_path]; rfl

/-- Waiting writes no register, no memory and no core. -/
theorem State.waitHere_leaves (s : State) (g : Bool) (w : Wait) :
    (s.waitHere g w).team.v = s.team.v ∧ (s.waitHere g w).team.s = s.team.s ∧ (s.waitHere g w).team.m = s.team.m ∧
      (s.waitHere g w).mem = s.mem ∧ (s.waitHere g w).cores = s.cores ∧ (s.waitHere g w).banks = s.banks := by
  rw [State.waitHere_eq, Team.setPath_frame]
  exact ⟨rfl, rfl, rfl, rfl, rfl, rfl⟩

@[simp] theorem Acc.out_ok (s : State) (g : Bool) (w : Wait) : (Acc.ok () s).out g w = .next s := rfl
@[simp] theorem Acc.out_busy (s : State) (g : Bool) (w : Wait) : (Acc.busy s : Acc Unit).out g w = .next (s.waitHere g w) := rfl

/-- The outcomes of an access as an instruction's: its own next state, the wait of a busy one, or the fault of a frame that is not there. -/
theorem Acc.out_cases (a : Acc Unit) (g : Bool) (w : Wait) :
    (∃ s, a = .ok () s ∧ a.out g w = .next s) ∨ (∃ s, a = .busy s ∧ a.out g w = .next (s.waitHere g w)) ∨ a.out g w = .fault .unbackedFrame := by
  cases a with
  | ok u s => exact .inl ⟨s, rfl, rfl⟩
  | busy s => exact .inr (.inl ⟨s, rfl, rfl⟩)
  | _ => exact .inr (.inr rfl)

/-- A trap with no handler, in solo mode, or with code 0x06 ends the team (R337, R340, R395). -/
theorem State.takeTrap_ends (s : State) (code : Nat) (va : Dword) (h : (s.team.solo.isSome || code == 0x06 || s.trapEntry == 0) = true) :
    s.takeTrap code va = s.killFamily s.team.pid s.team.id (BitVec.ofNat 32 code) := by
  unfold State.takeTrap
  exact if_pos h

/-- Giving frames back changes the partition alone. -/
theorem quiet_giveFrames (s : State) (pid : BitVec 5) (l : List Nat) : Quiet s (s.giveFrames pid l) := by
  unfold State.giveFrames
  split
  · exact .rfl'
  · exact quiet_mapPart ..

/-- The path in focus where the team's path of the same slot has been written. -/
theorem State.path_of_setPath {u : State} {b : Bool} {t : Team} {p : Path} (h : u.slot = b) :
    ({ u with team := t.setPath b (some p) } : State).path = p := by
  subst h; simp [State.path]

/-- Any other trap goes on (R338): it waits for the team's loads and for the lines of the save area, or it answers a state, with TRAPCODE, TRAPPC and TRAPVA
written; the path stands at the handler's entry in solo mode, and lane registers, masks and HBM are as before. -/
theorem State.takeTrap_enters (s : State) (code : Nat) (va : Dword) (h : (s.team.solo.isSome || code == 0x06 || s.trapEntry == 0) = false) :
    s.takeTrap code va = .busy s ∨
    ∃ t, s.takeTrap code va = .ok () t ∧ s.loading = false ∧ t.slot = s.slot ∧ t.team.trapcode = BitVec.ofNat 64 code ∧ t.team.trappc = s.path.pc ∧
      t.team.trapva = va ∧ t.team.solo.isSome = true ∧ t.path.pc = BitVec.ofNat 64 s.trapEntry ∧ t.path.wait = none ∧ t.team.v = s.team.v ∧
      t.team.m = s.team.m ∧ t.mem = s.mem := by
  have hp : ∃ p, s.part s.team.pid = some p := by
    cases e : s.part s.team.pid with
    | some p => exact ⟨p, rfl⟩
    | none => simp [State.trapEntry, e] at h
  obtain ⟨p, hp⟩ := hp
  unfold State.takeTrap
  rw [if_neg (by rw [h]; simp)]
  split
  · exact .inl rfl
  · next hl =>
    simp only [hp]
    split
    · next u e =>
      refine .inr ⟨_, rfl, by simp at hl; exact hl.1, ?_⟩
      unfold State.trapSave at e
      have q := ((quiet_writeArea _ _ _ _).holds _ _ e).trans (quiet_giveFrames u (s.team.saveTrap code s.path.pc va).pid s.path.held)
      have hs := q.slot.trans (State.endRun_slot (s.choose (lanesOf s.team.lanes s.path.mask).length).2)
      have hm : ((s.choose (lanesOf s.team.lanes s.path.mask).length).2.endRun).mem = s.mem := by rw [State.endRun_frame]; rfl
      refine ⟨hs, ?_, ?_, ?_, ?_, ?_, ?_, ?_, ?_, q.mem.trans hm⟩
      iterate 4 (rw [Team.setPath_frame]; rfl)
      · exact congrArg Path.pc (State.path_of_setPath hs)
      · exact congrArg Path.wait (State.path_of_setPath hs)
      all_goals (rw [Team.setPath_frame]; rfl)
    · exact .inl rfl

end Sys2Proof.Machine
end

