-- ==== Sys2Proof/Laws/Wf.lean ====
section
/-! SUPPORT. Accesses at home and at the host port keep the canonical form of HBM and of host memory, captures and the hold queue too. -/
namespace Sys2Proof.Machine

-- One proof at a time: many at once wait on the same matches, and each that waits takes a thread.
set_option Elab.async false

/-! ## The form looks at three fields alone -/

theorem wf_same {s t : State} (h : s.memoryWf) (hm : t.mem = s.mem := by rfl) (hl : t.lost = s.lost := by rfl) (hh : t.hostMem = s.hostMem := by rfl) :
    t.memoryWf := by
  refine ⟨?_, ?_⟩
  · rw [memWf_congr hm hl]; exact h.1
  · rw [hh]; exact h.2

theorem wf_foldl {α β : Type} (f : β → α → β) (g : β → State) (h : ∀ b x, (g b).memoryWf → (g (f b x)).memoryWf) :
    ∀ (l : List α) (b : β), (g b).memoryWf → (g (l.foldl f b)).memoryWf
  | [], _, hb => hb
  | x :: l, b, hb => wf_foldl f g h l (f b x) (h b x hb)

theorem wf_fold {α : Type} {f : State → α → State} (h : ∀ s x, s.memoryWf → (f s x).memoryWf) {l : List α} {s : State} (hs : s.memoryWf) :
    (l.foldl f s).memoryWf := by
  induction l generalizing s with
  | nil => exact hs
  | cons x l ih => exact ih (h s x hs)

/-- The states in which an access goes on keep the form. -/
def Acc.wf {α : Type} : Acc α → Prop
  | .ok _ s => s.memoryWf
  | .busy s => s.memoryWf
  | _ => True

/-- The next state of an outcome keeps the form. -/
def outWf : Out → Prop
  | .next s => s.memoryWf
  | _ => True

@[simp] theorem Acc.wf_ok {α : Type} (v : α) (s : State) : (Acc.ok v s).wf = s.memoryWf := rfl
@[simp] theorem Acc.wf_busy {α : Type} (s : State) : (Acc.busy s : Acc α).wf = s.memoryWf := rfl
@[simp] theorem Acc.wf_fault {α : Type} (c : BitVec 4) : (Acc.fault c : Acc α).wf = True := rfl
@[simp] theorem Acc.wf_misplaced {α : Type} : (Acc.misplaced : Acc α).wf = True := rfl
@[simp] theorem Acc.wf_refused {α : Type} : (Acc.refused : Acc α).wf = True := rfl
@[simp] theorem Acc.wf_unbacked {α : Type} : (Acc.unbacked : Acc α).wf = True := rfl

theorem Acc.wf_of {α : Type} {a b : Acc α} (h : a.wf) (e : a = b) : b.wf := e ▸ h

@[simp] theorem outWf_next (s : State) : outWf (.next s) = s.memoryWf := rfl
@[simp] theorem outWf_fault (f : Fault) : outWf (.fault f) := trivial
@[simp] theorem outWf_refused (r : Refusal) : outWf (.refused r) := trivial

theorem outWf_iff (o : Out) : outWf o ↔ ∀ t, o = .next t → t.memoryWf := by
  cases o with
  | next s => exact ⟨fun h t e => by cases e; exact h, fun h => h s rfl⟩
  | _ => exact ⟨fun _ t e => (by cases e), fun _ => trivial⟩

/-- How an access begins at home, as an access of a core that fails or waits. -/
theorem wf_homeFail {α : Type} {s : State} (h : s.memoryWf) {a : HomeAcc} (k : ∀ t, a.state? = some t → t.memoryWf) : (a.fail s : Acc α).wf := by
  cases a with
  | busy t => exact k t rfl
  | _ => first | exact trivial | exact h

theorem wf_homeAccess {s t : State} (h : s.memoryWf) {pid : BitVec 5} {asid : BitVec 16} {va : Nat} {n : Need} {sys : Bool} {a : HomeAcc}
    (e : homeAccess s pid asid va n sys = a) (k : a.state? = some t) : t.memoryWf := by
  subst e; exact (quiet_homeAccess k).memoryWf h

theorem wf_homeReadLine {s : State} (h : s.memoryWf) (b : Nat) (l : L2Line) (w : BitVec 32) : (homeReadLine s b l w).2.memoryWf :=
  (quiet_homeReadLine s b l w).memoryWf h
theorem wf_rawWrite {s : State} (h : s.memoryWf) (b : Nat) (l : L2Line) (d : BitVec 1024) (be : BitVec 128) : (rawWrite s b l d be).memoryWf :=
  (quiet_rawWrite s b l d be).memoryWf h

/-! ## The host port -/

theorem wf_hostPut {s : State} (h : s.memoryWf) (a : Nat) (b : Byte) : (s.hostPut a b).memoryWf :=
  ⟨(memWf_congr rfl rfl).trans h.1, hostMem_wf_put h.2 a b⟩

theorem wf_hostPutList {s : State} (h : s.memoryWf) (a : Nat) (bs : List Byte) : (s.hostPutList a bs).memoryWf := by
  induction bs generalizing s a with
  | nil => exact h
  | cons b bs ih => exact ih (wf_hostPut h a b) (a + 1)

theorem wf_sendSome {s : State} (h : s.memoryWf) (pid : BitVec 5) (n : Nat) : (s.sendSome pid n).memoryWf := wf_same h

theorem wf_land {s : State} (h : s.memoryWf) : s.land.memoryWf := wf_fold (fun _ _ hb => wf_hostPutList hb ..) (wf_same h)

theorem wf_sendPosted {s : State} (h : s.memoryWf) (pid : BitVec 5) : (s.sendPosted pid).memoryWf := wf_land (wf_sendSome h ..)

theorem wf_sendRounds : ∀ (n : Nat) {s : State}, s.memoryWf → (s.sendRounds n).memoryWf
  | 0, _, h => h
  | n + 1, _, h => wf_sendRounds n (wf_fold (fun _ _ hb => wf_sendSome hb ..) h)

theorem wf_writeBackPort {s : State} (h : s.memoryWf) (l : PortLine) : (s.writeBackPort l).memoryWf := by
  unfold State.writeBackPort; split
  · exact wf_hostPutList h ..
  · exact h

theorem wf_askHost {s : State} (h : s.memoryWf) (l : Nat) (own : Bool) : (s.askHost l own).memoryWf := by
  unfold State.askHost; split
  · exact h
  · exact wf_same h

theorem wf_portMerge {s : State} (h : s.memoryWf) (l : Nat) (d : BitVec 512) (be : BitVec 64) : (s.portMerge l d be).memoryWf := by
  unfold State.portMerge; split
  · exact h
  · exact wf_same h

theorem wf_portWatches {s : State} (h : s.memoryWf) (pid : BitVec 5) (asid : BitVec 16) (va a : Nat) : (s.portWatches pid asid va a).memoryWf :=
  (quiet_evalWatches ..).memoryWf h

def PortAcc.state : PortAcc → State
  | .ok _ s => s
  | .busy s => s

theorem wf_portRead {s : State} (h : s.memoryWf) (p : Partition) (a : Nat) : (portRead s p a).state.memoryWf := by
  unfold portRead
  dsimp only
  split
  · exact h
  split
  · split
    · exact h
    · exact wf_askHost h ..
    · exact wf_askHost h ..
    · exact wf_askHost (wf_askHost h ..) ..
  · split <;> exact wf_sendPosted h ..

theorem wf_portWrite {s : State} (h : s.memoryWf) (p : Partition) (a : Nat) (d : BitVec 1024) (be : BitVec 128) :
    (portWrite s p a d be).state.memoryWf := by
  unfold portWrite
  dsimp only
  split
  · exact wf_same h
  split
  · split
    · have h1 : (if (be.setWidth 64 != (0 : BitVec 64) && !s.portOwns (a / 64)) = true then s.askHost (a / 64) true else s).memoryWf := by
        split
        · exact wf_askHost h ..
        · exact h
      simp only [PortAcc.state]
      split
      · exact wf_askHost h1 ..
      · exact h1
    · simp only [PortAcc.state]
      have h1 : (if be.setWidth 64 = (0 : BitVec 64) then s else s.portMerge (a / 64) (d.setWidth 512) (be.setWidth 64)).memoryWf := by
        split
        · exact h
        · exact wf_portMerge h ..
      split
      · exact h1
      · exact wf_portMerge h1 ..
  · exact wf_same h

theorem wf_portRead_of {s : State} (h : s.memoryWf) {p : Partition} {a : Nat} {r : PortAcc} (e : portRead s p a = r) : r.state.memoryWf :=
  e ▸ wf_portRead h p a
theorem wf_portWrite_of {s : State} (h : s.memoryWf) {p : Partition} {a : Nat} {d : BitVec 1024} {be : BitVec 128} {r : PortAcc}
    (e : portWrite s p a d be = r) : r.state.memoryWf := e ▸ wf_portWrite h p a d be

/-! ## Captures -/

/-- An access of the device keeps the form where it ends with a value. -/
theorem dev_quiet {α : Type} {s : State} {d : Dev α} (q : DevAll (Quiet s) d) (h : s.memoryWf) : DevAll State.memoryWf d := q.mono fun _ k => k.memoryWf h

/-- Device accesses one after another keep the form. -/
theorem wf_bind {α β : Type} {d : Dev α} {f : α → State → Dev β} (h : DevAll State.memoryWf d) (k : ∀ v t, t.memoryWf → DevAll State.memoryWf (f v t)) :
    DevAll State.memoryWf (d.bind f) := Dev.all_bind h k
theorem wf_list {α β : Type} {f : State → α → Dev β} (h : ∀ s x, s.memoryWf → DevAll State.memoryWf (f s x)) (l : List α) (s : State) (w : s.memoryWf) :
    DevAll State.memoryWf (devList f l s) := Dev.all_list h l s w
theorem wf_each {α : Type} {f : State → α → Dev Unit} (h : ∀ s x, s.memoryWf → DevAll State.memoryWf (f s x)) (l : List α) (s : State) (w : s.memoryWf) :
    DevAll State.memoryWf (devEach f l s) := Dev.all_each h l s w

theorem wf_deviceWrite {s : State} (h : s.memoryWf) (pid : BitVec 5) (asid : BitVec 16) (va : Nat) (bs : List Byte) :
    DevAll State.memoryWf (deviceWrite s pid asid va bs) := dev_quiet (quiet_deviceWrite ..) h
theorem wf_deviceWriteAll {s : State} (h : s.memoryWf) (pid : BitVec 5) (asid : BitVec 16) (va : Nat) (bs : List Byte) :
    DevAll State.memoryWf (deviceWriteAll s pid asid va bs) := dev_quiet (quiet_deviceWriteAll ..) h
theorem wf_deviceRead {s : State} (h : s.memoryWf) (pid : BitVec 5) (asid : BitVec 16) (va n : Nat) :
    DevAll State.memoryWf (deviceRead s pid asid va n) := dev_quiet (quiet_deviceRead ..) h
theorem wf_freshBits {s : State} (h : s.memoryWf) (w : Nat) : (s.freshBits w).2.memoryWf := wf_same h
theorem wf_mapBinding {s : State} (h : s.memoryWf) (slot : Nat) (f : Binding → Binding) : (s.mapBinding slot f).memoryWf := wf_same h
theorem wf_nextSerial {s : State} (h : s.memoryWf) : s.nextSerial.2.memoryWf := wf_same h

theorem wf_anyBytes {s : State} (h : s.memoryWf) (n : Nat) : (s.anyBytes n).2.memoryWf := wf_same h

theorem wf_loseC {s : State} (h : s.memoryWf) (slot : Nat) : DevAll State.memoryWf (loseC s slot) := by
  unfold loseC
  split
  · exact Dev.all_ok h
  · exact Dev.all_each (fun _ _ hb => Dev.all_orSkip (wf_deviceWrite (wf_anyBytes hb 4) ..) (wf_anyBytes hb 4)) _ _ h

theorem wf_speWrite {s : State} (h : s.memoryWf) (slot va : Nat) (bs : List Byte) : DevAll State.memoryWf (speWrite s slot va bs) := by
  unfold speWrite
  split
  · exact Dev.all_ok h
  · next b hb =>
    have h1 : (if b.lost = true then s.anyBytes bs.length else (bs, s)).2.memoryWf := by
      split
      · exact wf_anyBytes h _
      · exact h
    dsimp only
    split
    · split
      · exact Dev.all_ok h1
      · exact wf_loseC (wf_mapBinding h1 ..) ..
    · exact wf_deviceWriteAll h1 ..

theorem wf_speHeader {s : State} (h : s.memoryWf) (slot : Nat) : DevAll State.memoryWf (speHeader s slot) := by
  unfold speHeader
  split
  · exact Dev.all_ok h
  · exact wf_speWrite h ..

theorem wf_strayWrite {s : State} (h : s.memoryWf) (k : LineKey) (pa : Nat) (ws : List Nat) : DevAll State.memoryWf (strayWrite s k pa ws) :=
  Dev.all_each (fun _ _ hb => Dev.all_bind (wf_loseC (wf_mapBinding hb ..) ..) fun _ _ hb => wf_speWrite hb ..) _ _ h

theorem wf_captureEntry {s : State} (h : s.memoryWf) (b : Binding) (opB : Bool) (va row col : Nat) (ch : BitVec 4) (old new : Word) :
    DevAll State.memoryWf (captureEntry s b opB va row col ch old new) :=
  Dev.all_bind (wf_speWrite (wf_mapBinding h ..) ..) fun _ _ hb => wf_speHeader hb ..

theorem wf_captureMark {s : State} (h : s.memoryWf) (b : Binding) (opB : Bool) (row col : Nat) (ch : BitVec 4) :
    DevAll State.memoryWf (captureMark s b opB row col ch) := by
  unfold captureMark
  dsimp only
  split
  · exact Dev.all_bind (Dev.all_each (fun _ _ hb => wf_speWrite hb ..) _ _ (wf_mapBinding h ..)) fun _ _ hb => wf_speHeader hb ..
  · exact Dev.all_bind (wf_speWrite (wf_mapBinding h ..) ..) fun _ _ hb => wf_speHeader hb ..

theorem wf_capture {s : State} (h : s.memoryWf) (m : Member) (va : Nat) (o : Offer) (ch : BitVec 4) (old new : Word) :
    DevAll State.memoryWf (capture s m va o ch old new) := by
  unfold capture
  split
  · exact Dev.all_ok h
  · split
    · exact wf_captureEntry h ..
    · exact wf_captureMark h ..
    · exact Dev.all_ok h

theorem wf_homeWord {s : State} (h : s.memoryWf) (pid : BitVec 5) (asid : BitVec 16) (va : Nat) : DevAll State.memoryWf (homeWord s pid asid va) :=
  Dev.all_bind (wf_deviceRead h ..) fun _ _ hb => Dev.all_ok hb

theorem wf_performWord {s : State} (h : s.memoryWf) (pid : BitVec 5) (asid : BitVec 16) (va : Nat) (d : Word) (be : BitVec 4) :
    DevAll State.memoryWf (performWord s pid asid va d be) := by
  unfold performWord
  split
  · next e => exact Dev.all_ok (wf_rawWrite (wf_homeAccess (wf_same h) e rfl) ..)
  · exact Dev.all_busy
  · exact Dev.all_no

theorem wf_offerWord {s : State} (h : s.memoryWf) (pid : BitVec 5) (asid : BitVec 16) (va : Nat) (old d : Word) (be : BitVec 4) (core : Option Nat) :
    DevAll State.memoryWf (offerWord s pid asid va old d be core) := by
  unfold offerWord
  refine Dev.all_bind (Dev.all_each (fun _ _ hb => ?_) _ _ h) fun _ _ hb => ?_
  · split
    · exact Dev.all_ok hb
    · exact wf_capture hb ..
  · split
    · exact wf_performWord hb ..
    · exact Dev.all_each (fun _ _ hb => wf_speHeader (wf_mapBinding hb ..) ..) _ _ (wf_nextSerial hb)

theorem wf_writeWord {s : State} (h : s.memoryWf) (pid : BitVec 5) (asid : BitVec 16) (va : Nat) (d : Word) (be : BitVec 4) (core : Option Nat) :
    DevAll State.memoryWf (writeWord s pid asid va d be core) := by
  unfold writeWord
  split
  · exact wf_performWord h ..
  · split
    · exact Dev.all_busy
    · exact Dev.all_bind (wf_homeWord h ..) fun _ _ hb => wf_offerWord hb ..

theorem wf_drainHold (slot : Nat) : ∀ (n : Nat) {s : State}, s.memoryWf → DevAll State.memoryWf (drainHold slot n s)
  | 0, _, h => Dev.all_ok h
  | n + 1, s, h => by
    unfold drainHold
    split
    · exact Dev.all_ok h
    · next b hb =>
      split
      · exact Dev.all_ok h
      · dsimp only
        split
        · exact Dev.all_busy
        · exact wf_drainHold slot n (wf_mapBinding h ..)
        · next e =>
          have h1 := (wf_homeWord h ..).holds _ _ e
          split
          · exact Dev.all_ok h1
          · refine Dev.all_bind (Dev.all_each (fun _ _ hb => wf_capture hb ..) _ _ (wf_mapBinding h1 ..)) fun _ _ hb => ?_
            refine Dev.all_bind (P := State.memoryWf) ?_ fun _ _ hb => Dev.all_bind (wf_speHeader hb ..) fun _ _ hb => wf_drainHold slot n hb
            split
            · exact Dev.all_ok hb
            · exact Dev.all_orSkip (wf_performWord hb ..) hb

theorem wf_freeErr : ∀ (n : Nat) {s : State}, s.memoryWf → DevAll State.memoryWf (freeErr n s)
  | 0, _, h => Dev.all_ok h
  | n + 1, s, h => by
    unfold freeErr
    split
    · exact Dev.all_ok h
    · exact Dev.all_bind (wf_drainHold _ _ h) fun _ _ hb => wf_freeErr n hb

theorem wf_settled {α : Type} {d : Dev α} (h : DevAll State.memoryWf d) : DevAll State.memoryWf d.settled :=
  Dev.all_bind h fun _ _ hb => Dev.all_bind (wf_freeErr _ hb) fun _ _ hb => Dev.all_ok hb

theorem wf_enterIdle {s : State} (h : s.memoryWf) (slot : Nat) : DevAll State.memoryWf (enterIdle s slot) := by
  unfold enterIdle
  split
  · exact Dev.all_ok h
  · exact Dev.all_bind (wf_speHeader (wf_mapBinding h ..) ..) fun _ _ hb => wf_drainHold slot _ hb

theorem wf_bindErr {s : State} (h : s.memoryWf) (slot : Nat) : DevAll State.memoryWf (bindErr s slot) := wf_speHeader (wf_mapBinding h ..) ..

/-- The state in which a write at home goes on. -/
def WriteAcc.state? : WriteAcc → Option State
  | .ok s => some s
  | .busy s => some s
  | .host _ _ s => some s
  | _ => none

theorem wf_homeWrite {s t : State} (h : s.memoryWf) {pid : BitVec 5} {asid : BitVec 16} {va : Nat} {d : BitVec 1024} {be : BitVec 128} {sys : Bool}
    {core : Option Nat} {a : WriteAcc} (e : homeWrite s pid asid va d be sys core = a) (k : a.state? = some t) : t.memoryWf := by
  unfold homeWrite at e
  dsimp only at e
  split at e
  · next q => subst e; exact wf_homeAccess h q k
  · subst e; cases k
  · subst e; cases k
  · subst e; cases k
  · next q => subst e; cases k; exact wf_homeAccess h q rfl
  · next q =>
    have h1 := wf_homeAccess h q rfl
    split at e
    · subst e; cases k
    · split at e
      · subst e; cases k; exact wf_rawWrite h1 ..
      · split at e
        · next q =>
          subst e; cases k
          refine (wf_settled (Dev.all_bind (wf_strayWrite h1 ..) fun _ _ hb => ?_)).holds _ _ q
          split
          · exact Dev.all_ok (wf_rawWrite hb ..)
          · exact Dev.all_each (fun _ _ hb => wf_writeWord hb ..) _ _ hb
        · subst e; cases k; exact h

/-- The state in which an atomic at home goes on. -/
def AtomAcc.state? : AtomAcc → Option State
  | .ok _ s => some s
  | .no w => w.state?

theorem wf_homeAtomicOp {s t : State} (h : s.memoryWf) {pid : BitVec 5} {asid : BitVec 16} {va : Nat} {ty : Ty} {op : Aop} {o c : Dword} {sys : Bool}
    {core : Option Nat} {a : AtomAcc} (e : homeAtomicOp s pid asid va ty op o c sys core = a) (k : a.state? = some t) : t.memoryWf := by
  unfold homeAtomicOp at e
  dsimp only at e
  generalize (if ty.is64 = true then 8 else 4) = n at e
  split at e
  · next q => subst e; exact wf_homeAccess h q k
  · subst e; cases k
  · subst e; cases k
  · subst e; cases k
  · next q => subst e; cases k; exact wf_homeAccess h q rfl
  · next q =>
    have h1 := wf_homeAccess h q rfl
    split at e
    · subst e; cases k
    · have h3 : ∀ (x : State) (b : Nat) (l : L2Line) (w : BitVec 32) (y : Bank), x.memoryWf →
          ((fillWords (recallWords x b l w).2 (recallWords x b l w).1 w).2.putBank b y).memoryWf := fun x b l w y hx =>
        wf_same ((quiet_fillWords ..).memoryWf ((quiet_recallWords x b l w).memoryWf hx))
      replace h3 := fun b l w y => h3 _ b l w y h1
      split at e
      · subst e; cases k; exact (quiet_mergeWrite ..).memoryWf (h3 ..)
      · split at e
        · subst e; cases k; exact h1
        · split at e
          · next q =>
            subst e; cases k
            refine (wf_settled (Dev.all_bind (wf_strayWrite (h3 ..) ..) fun _ _ hb => Dev.all_each (fun _ _ hb => wf_offerWord hb ..) _ _ hb)).holds _ _ q
          · subst e; cases k; exact h1

end Sys2Proof.Machine
end

