-- ==== Sys2Proof/Laws/WfCore.lean ====
section
/-! SUPPORT. Accesses through an L1 and by the engines keep the canonical form of HBM and of host memory. -/
namespace Sys2Proof.Machine

-- One proof at a time: many at once wait on the same matches, and each that waits takes a thread.
set_option Elab.async false

theorem wf_putCore {s : State} (h : s.memoryWf) (c : Nat) (x : Core) : (s.putCore c x).memoryWf := wf_same h
theorem wf_putBank {s : State} (h : s.memoryWf) (b : Nat) (x : Bank) : (s.putBank b x).memoryWf := wf_same h
theorem wf_mapPart {s : State} (h : s.memoryWf) (p : BitVec 5) (f : Partition → Partition) : (s.mapPart p f).memoryWf := wf_same h
theorem wf_send {s : State} (h : s.memoryWf) (p : BitVec 5) (a b : Stop) (m : Msg) : (s.send p a b m).memoryWf := wf_same h
theorem wf_countMiss {s : State} (h : s.memoryWf) (b : Nat) (k : LineKey) (w : Nat) : (countMiss s b k w).memoryWf := (quiet_countMiss ..).memoryWf h
theorem wf_putL1 {s : State} (h : s.memoryWf) (c : Nat) (l : L1Line) : (s.putL1 c l).memoryWf := wf_same h
theorem wf_dropCopies {s : State} (h : s.memoryWf) (c : Nat) (k : LineKey) (w : BitVec 32) : (dropCopies s c k w).memoryWf := wf_same h

/-- The states in which an access goes on: after a successful one, and while it is busy. -/
theorem wf_ok {α : Type} {a : Acc α} (h : a.wf) {v : α} {t : State} (e : a = .ok v t) : t.memoryWf := Acc.wf_of h e
theorem wf_busy {α : Type} {a : Acc α} (h : a.wf) {t : State} (e : a = .busy t) : t.memoryWf := Acc.wf_of h e

/-! ## The L1 -/

theorem wf_countRemote {s : State} (h : s.memoryWf) (p : Partition) (c : Nat) (k : LineKey) : (p.countRemote s c k).memoryWf := by
  unfold Partition.countRemote
  split
  · exact wf_countMiss h ..
  · exact h

theorem wf_addAck {s : State} (h : s.memoryWf) (w : Who) (kind : AckKind) (k : LineKey) (n id : Nat) : (s.addAck w kind k n id).memoryWf := wf_same h

theorem wf_sendWrite {s : State} (h : s.memoryWf) (w : Who) (home : Nat) (m : WriteReq → Msg) (id : Nat) : (s.sendWrite w home m id).memoryWf := by
  unfold State.sendWrite
  dsimp only
  split <;> exact wf_same h

theorem wf_numbered {s : State} (h : s.memoryWf) (w : Who) (home : Nat) : (s.numbered w home).memoryWf := by
  unfold State.numbered
  split
  · exact h
  · exact wf_same h

theorem wf_supplyRead {s : State} (h : s.memoryWf) (w : Who) (va : Nat) (n : Need) : (supplyRead s w va n).wf := by
  unfold supplyRead
  dsimp only
  split
  · trivial
  · split
    · next e =>
      have h1 := wf_homeAccess h e rfl
      split
      · next q => exact wf_portRead_of h1 q
      · next q => exact wf_portRead_of h1 q
    · next e =>
      have h1 := wf_homeAccess h e rfl
      split
      · split
        · exact h1
        · refine wf_homeReadLine ?_ ..
          split
          · exact wf_numbered h1 ..
          · exact wf_countRemote (wf_numbered h1 ..) ..
      · split
        · split
          · exact wf_putBank h1 ..
          · split
            · exact h1
            · exact wf_send h1 ..
        · split
          · exact h1
          · exact wf_countMiss (wf_send h1 ..) ..
    · exact wf_homeFail h fun t k => wf_homeAccess h rfl k

theorem wf_sendHome {s : State} (h : s.memoryWf) (w : Who) (p : Partition) (va : Nat) (q : Perms) (d : BitVec 1024) (be : BitVec 128) (k : AckKind) :
    (sendHome s w p va q d be k).wf := by
  unfold sendHome
  dsimp only
  split
  · exact h
  · split
    · trivial
    · split
      · exact h
      · split
        · split
          · exact h
          · refine wf_addAck (wf_sendWrite ?_ ..) ..
            split
            · exact wf_nextSerial h
            · exact wf_countRemote (wf_nextSerial h) ..
        · split
          · split
            · exact wf_addAck (wf_putBank (wf_nextSerial h) ..) ..
            · split
              · exact h
              · exact wf_addAck (wf_send (wf_putBank (wf_nextSerial h) ..) ..) ..
          · split
            · exact h
            · exact wf_addAck (wf_send (wf_putBank (wf_countMiss (wf_nextSerial h) ..) ..) ..) ..

theorem wf_pushWords {s : State} (h : s.memoryWf) (w : Who) (va : Nat) (q : Perms) (host : Bool) (d : BitVec 1024) (be : BitVec 128) (k : AckKind) :
    (pushWords s w va q host d be k).wf := by
  unfold pushWords
  dsimp only
  split
  · trivial
  · split
    · exact wf_sendHome h ..
    · split
      · next e => exact wf_sendHome ((quiet_translate e).memoryWf h) ..
      · next e =>
        have h1 := (quiet_translate e).memoryWf h
        split
        · next q => exact wf_addAck (wf_portWatches (wf_nextSerial (wf_portWrite_of h1 q)) ..) ..
        · next q => exact wf_portWrite_of h1 q
      all_goals trivial

theorem wf_evictL1 {s : State} (h : s.memoryWf) (c team : Nat) (l : L1Line) : (evictL1 s c team l).wf := by
  unfold evictL1
  dsimp only
  split
  · exact wf_putCore h ..
  · have h1 := wf_pushWords h (l.owner c team) l.key.va l.perms l.host l.data (dirtyBytes l.d l.be) .writeback
    split
    · next e => exact wf_putCore (wf_ok h1 e) ..
    · next e => exact wf_busy h1 e
    · trivial
    · exact wf_putCore h ..

theorem wf_l1Room (c team set ways : Nat) : ∀ (n : Nat) {s : State}, s.memoryWf → (l1Room c team set ways n s).wf
  | 0, _, h => h
  | n + 1, s, h => by
    unfold l1Room
    dsimp only
    split
    · exact h
    · split
      · exact h
      · next l hl =>
        have h1 := wf_evictL1 h c team l
        split
        · next e => exact wf_l1Room c team set ways n (wf_ok h1 e)
        · exact h1

theorem wf_l1Load {s : State} (h : s.memoryWf) (w : Who) (va : Nat) (want : BitVec 128) (k : Option Nat) (na : Bool) :
    (l1Load s w va want k na).wf := by
  unfold l1Load
  dsimp only
  split
  · split
    · trivial
    · exact wf_putL1 h ..
  · split
    · exact h
    · have h1 := wf_supplyRead h w va .read
      split
      · next e =>
        have h2 := wf_ok h1 e
        split
        · exact h2
        · split
          · exact wf_putL1 h2 ..
          · split
            · next e => exact wf_putL1 (wf_ok (wf_l1Room _ _ _ _ _ h2) e) ..
            · next e => exact wf_busy (wf_l1Room _ _ _ _ _ h2) e
            · trivial
            · exact h2
      · next e => exact wf_busy h1 e
      all_goals trivial

theorem wf_writePerms {s : State} (h : s.memoryWf) (w : Who) (va : Nat) : (writePerms s w va).wf := by
  unfold writePerms
  split
  · next e => exact wf_homeAccess h e rfl
  · next e => exact wf_homeAccess h e rfl
  · exact wf_homeFail h fun t k => wf_homeAccess h rfl k

theorem wf_l1Release {s : State} (h : s.memoryWf) (w : Who) (va : Nat) (ws : BitVec 32) : (l1Release s w va ws).wf := by
  unfold l1Release
  dsimp only
  split
  · exact h
  · split
    · exact wf_dropCopies h ..
    · split
      · exact wf_dropCopies h ..
      · split
        · next e => exact wf_dropCopies (wf_ok (wf_pushWords h ..) e) ..
        · exact wf_pushWords h ..

theorem wf_l1Store {s : State} (h : s.memoryWf) (w : Who) (va : Nat) (d : BitVec 1024) (be : BitVec 128) (na : Bool) : (l1Store s w va d be na).wf := by
  unfold l1Store
  dsimp only
  split
  · trivial
  · split
    · split
      · next e =>
        have h1 := wf_ok (wf_writePerms h ..) e
        split
        · next e => exact wf_dropCopies (wf_ok (wf_pushWords h1 ..) e) ..
        · exact wf_pushWords h1 ..
      · next e => exact wf_busy (wf_writePerms h ..) e
      all_goals trivial
    · split
      · split
        · trivial
        · split
          · exact wf_putL1 h ..
          · split
            · next e => exact wf_putL1 (wf_ok (wf_writePerms h ..) e) ..
            · next e => exact wf_busy (wf_writePerms h ..) e
            all_goals trivial
      · split
        · exact h
        · split
          · next e =>
            have h2 := wf_ok (wf_writePerms h ..) e
            split
            · next e => exact wf_putL1 (wf_ok (wf_l1Room _ _ _ _ _ h2) e) ..
            · exact wf_l1Room _ _ _ _ _ h2
          · next e => exact wf_busy (wf_writePerms h ..) e
          all_goals trivial

theorem wf_flushLines (c team : Nat) : ∀ (ls : List L1Line) {s : State}, s.memoryWf → (flushLines c team ls s).wf
  | [], _, h => h
  | l :: ls, s, h => by
    have later : ∀ {s : State}, s.memoryWf → (match flushLines c team ls s with | .ok _ s => .busy s | a => a : Acc Unit).wf := by
      intro s h
      have h1 := wf_flushLines c team ls h
      split
      · next e => exact wf_ok h1 e
      · exact h1
    unfold flushLines
    dsimp only
    split
    · exact wf_flushLines c team ls h
    · split
      · exact later h
      · have h1 := wf_pushWords h (l.owner c team) l.key.va l.perms l.host l.data (dirtyBytes (l.d &&& ~~~l.out) l.be) .flush
        split
        · next e => exact later (wf_putCore (wf_ok h1 e) ..)
        · next e => exact later (wf_busy h1 e)
        · trivial
        · exact wf_flushLines c team ls (wf_putCore h ..)

theorem wf_flush {s : State} (h : s.memoryWf) (c team : Nat) (pid : BitVec 5) (asid : BitVec 16) : (flush s c team pid asid).wf := by
  unfold flush
  have h1 := wf_flushLines c team ((s.core c).l1.filter fun l => l.key.pid == pid && l.key.asid == asid) h
  split
  · next e => split <;> exact wf_ok h1 e
  · exact h1

theorem wf_flushOf {s : State} (h : s.memoryWf) (t : Team) : (flushOf s t).wf := by
  unfold flushOf
  have h1 := wf_flush h t.core t.id t.pid t.asid
  split
  · next e =>
    split
    · exact wf_flush (wf_ok h1 e) ..
    · exact wf_ok h1 e
  · exact h1

theorem wf_flushTeam {s : State} (h : s.memoryWf) : s.flushTeam.wf := wf_flush h ..
theorem wf_selfInvalidate {s : State} (h : s.memoryWf) (c : Nat) (pid : BitVec 5) (asid : BitVec 16) (tree : Nat) :
    (selfInvalidate s c pid asid tree).memoryWf := wf_same h
theorem wf_selfInv {s : State} (h : s.memoryWf) : s.selfInv.memoryWf := wf_selfInvalidate h ..

theorem wf_relaxSplit {s : State} (h : s.memoryWf) (c : Nat) : (s.relaxSplit c).memoryWf := by
  unfold State.relaxSplit
  split
  · exact wf_putCore h ..
  · exact h

theorem wf_trimL1 (c ways : Nat) : ∀ (l : List Nat) {s : State}, s.memoryWf → (trimL1 c ways l s).wf
  | [], _, h => h
  | set :: l, s, h => by
    unfold trimL1
    have h1 := wf_l1Room c 0 set (ways + 1) 64 h
    split
    · next e => exact wf_trimL1 c ways l (wf_ok h1 e)
    · exact h1

theorem wf_growSplit {s : State} (h : s.memoryWf) (c n : Nat) : (growSplit c n s).wf := by
  unfold growSplit
  dsimp only
  split
  · exact h
  · split
    · next e => exact wf_putCore (wf_ok (wf_trimL1 _ _ _ h) e) ..
    · exact wf_trimL1 _ _ _ h

/-! ## The engines -/

theorem wf_engineRead {s : State} (h : s.memoryWf) (w : Who) (va n : Nat) : (engineRead s w va n).wf := by
  unfold engineRead
  split
  · trivial
  · split
    · next e => exact wf_homeReadLine (wf_homeAccess h e rfl) ..
    · next e =>
      split
      · next q => exact wf_portRead_of (wf_homeAccess h e rfl) q
      · next q => exact wf_portRead_of (wf_homeAccess h e rfl) q
    · exact wf_homeFail h fun t k => wf_homeAccess h rfl k

theorem wf_engineWrite {s : State} (h : s.memoryWf) (w : Who) (va : Nat) (bs : List Byte) : (engineWrite s w va bs).wf := by
  unfold engineWrite
  dsimp only
  split
  · trivial
  · split
    · next e => exact wf_homeWrite h e rfl
    · next e => exact wf_homeWrite h e rfl
    · trivial
    · trivial
    · trivial
    · trivial
    · next e =>
      have h1 := wf_homeWrite h e rfl
      split
      · next q => exact wf_portWatches (wf_portWrite_of h1 q) ..
      · next q => exact wf_portWrite_of h1 q

theorem wf_engineReadAll (w : Who) : ∀ (k : Nat) {s : State} (va n : Nat), s.memoryWf → (engineReadAll w k s va n).wf
  | 0, _, _, _, h => h
  | k + 1, s, va, n, h => by
    unfold engineReadAll
    dsimp only
    split
    · exact h
    · have h1 := wf_engineRead h w va (min n (128 - va % 128))
      split
      · next e =>
        have h2 := wf_engineReadAll w k (va + min n (128 - va % 128)) (n - min n (128 - va % 128)) (wf_ok h1 e)
        split
        · next e => exact wf_ok h2 e
        · exact h2
      · exact h1

theorem wf_engineReadRange {s : State} (h : s.memoryWf) (w : Who) (va n : Nat) : (engineReadRange s w va n).wf := wf_engineReadAll w _ va n h

end Sys2Proof.Machine
end

