-- ==== Sys2Proof/Laws/WfTeams.lean ====
section
/-! SUPPORT. What happens to teams keeps the canonical form of HBM and of host memory: register writes, retirement, waits, frames, the end of teams,
traps and the return from them, parking, saving and restoring, and taking an entry of a deque. -/
namespace Sys2Proof.Machine

-- One proof at a time: many at once wait on the same matches, and each that waits takes a thread.
set_option Elab.async false

/-! ## Register writes, retirement and waits -/

theorem wf_setPath {s : State} (h : s.memoryWf) (p : Path) : (s.setPath p).memoryWf := wf_same h

theorem wf_setTeam {s : State} (h : s.memoryWf) (t : Team) : ({ s with team := t } : State).memoryWf := wf_same h

theorem wf_writeU {s : State} (h : s.memoryWf) (r : UReg) (v : Dword) : (s.writeU r v).memoryWf := by
  unfold State.writeU
  split
  · exact h
  · exact wf_same h

theorem wf_writeM {s : State} (h : s.memoryWf) (r : MReg) (v : LaneMask) : (s.writeM r v).memoryWf := wf_same h

theorem wf_writeLanes {s : State} (h : s.memoryWf) (ty : Ty) (d : LaneReg) (vs : List (Nat × Dword)) : (s.writeLanes ty d vs).memoryWf := wf_same h

theorem wf_endRun {s : State} (h : s.memoryWf) : s.endRun.memoryWf := by
  unfold State.endRun
  split
  · exact wf_same h
  · exact h

theorem wf_goTo {s : State} (h : s.memoryWf) (fin : Bool) (pc : Dword) : (s.goTo fin pc).memoryWf := by
  unfold State.goTo
  cases fin
  · exact wf_same h
  · exact wf_same (wf_endRun (wf_setPath h _))

theorem wf_retire {s : State} (h : s.memoryWf) (hd : Hdr) (n : Nat) : (s.retire hd n).memoryWf := wf_goTo h ..

theorem wf_waitHere {s : State} (h : s.memoryWf) (g : Bool) (w : Wait) : (s.waitHere g w).memoryWf := by
  unfold State.waitHere
  cases g
  · exact wf_setPath h _
  · exact wf_endRun (wf_setPath h _)

theorem wf_addLoad {s : State} (h : s.memoryWf) (id : Nat) (w : Wafer) (vs : List (Nat × Dword)) (rs : List RegRef) (a : List LaneReg) :
    (s.addLoad id w vs rs a).memoryWf := wf_same h

theorem wf_loadId {s : State} (h : s.memoryWf) (rs : List RegRef) : (s.loadId rs).2.memoryWf := by
  unfold State.loadId
  split
  · exact h
  · exact wf_nextSerial h

/-! ## Frames and the fault queue -/

theorem wf_mapTeam {s : State} (h : s.memoryWf) (pid : BitVec 5) (id : Nat) (f : Team → Team) : (s.mapTeam pid id f).memoryWf := by
  unfold State.mapTeam; split <;> exact wf_same h

theorem wf_focusOn {s : State} (h : s.memoryWf) (pid : BitVec 5) (id : Nat) (slot : Bool) : (s.focusOn pid id slot).memoryWf := by
  unfold State.focusOn
  split
  · exact wf_same h
  · split
    · exact h
    · exact wf_same h

theorem wf_onTeam {s : State} (h : s.memoryWf) (pid : BitVec 5) (id : Nat) (slot : Bool) {f : State → Acc Unit} (k : ∀ s, s.memoryWf → (f s).wf) :
    (s.onTeam pid id slot f).wf := by
  unfold State.onTeam
  have h1 := k _ (wf_focusOn h pid id slot)
  split
  · next e => exact wf_focusOn (wf_ok h1 e) ..
  · next e => exact wf_focusOn (wf_busy h1 e) ..
  · exact h1

theorem wf_takeFrames {s t : State} (h : s.memoryWf) {pid : BitVec 5} {n : Nat} {l : List Nat} (e : s.takeFrames pid n = some (l, t)) : t.memoryWf := by
  unfold State.takeFrames at e
  split at e
  · cases e
  · split at e
    · cases e
    · cases e; exact wf_mapPart h ..

theorem wf_giveFrames {s : State} (h : s.memoryWf) (pid : BitVec 5) (l : List Nat) : (s.giveFrames pid l).memoryWf := (quiet_giveFrames ..).memoryWf h
theorem wf_fillFrame {s : State} (h : s.memoryWf) (pid : BitVec 5) (a : Nat) (f : Frame) : (s.fillFrame pid a f).memoryWf := wf_mapPart h ..

theorem wf_newHandle {s : State} (h : s.memoryWf) (pid : BitVec 5) (a : Nat) : (s.newHandle pid a).2.memoryWf := by
  unfold State.newHandle
  split
  · exact h
  · exact wf_mapPart h ..

theorem wf_offerFault {s : State} (h : s.memoryWf) (t : Team) (pc : Dword) (f : FaultAt) : (s.offerFault t pc f).memoryWf := by
  unfold State.offerFault
  split
  · exact wf_same h
  · split <;> exact wf_same h

theorem wf_offerFaults {s : State} (h : s.memoryWf) (t : Team) (pc : Dword) (fs : List FaultAt) : (s.offerFaults t pc fs).memoryWf :=
  wf_fold (fun _ _ hb => wf_offerFault hb ..) h

theorem wf_admitOldest {s : State} (h : s.memoryWf) (pid : BitVec 5) : (s.admitOldest pid).memoryWf := by
  unfold State.admitOldest
  split
  · split
    · dsimp only
      split <;> exact wf_same h
    · exact h
  · exact h

theorem wf_admitFault {s : State} (h : s.memoryWf) (pid : BitVec 5) : (s.admitFault pid).memoryWf := by
  unfold State.admitFault
  split
  · exact wf_fold (fun _ _ hb => wf_admitOldest hb ..) h
  · exact h

/-! ## The end of teams -/

theorem wf_takeBack {s : State} (h : s.memoryWf) (x : DeqEnt) : (s.takeBack x).memoryWf := by
  unfold State.takeBack
  dsimp only
  split <;> split
  all_goals first
    | exact h
    | exact wf_mapPart (wf_putCore h ..) ..

theorem wf_mapDeques {s : State} (h : s.memoryWf) (pid : BitVec 5) (f : DeqEnt → Bool) : (s.mapDeques pid f).memoryWf := by
  unfold State.mapDeques
  extract_lets keep s1
  have h1 : s1.memoryWf := wf_same h
  clear_value s1
  split
  · exact wf_fold (fun _ _ hb => wf_takeBack hb _) h1
  · exact h1

theorem wf_endTree {s : State} (h : s.memoryWf) (pid : BitVec 5) (tree : Nat) : (s.endTree pid tree).memoryWf := by
  unfold State.endTree
  split
  · exact h
  · exact wf_same h

theorem wf_flipCohort {s : State} (h : s.memoryWf) (id core : Nat) : (s.flipCohort id core).memoryWf := by
  unfold State.flipCohort
  split
  · exact h
  · split
    · exact h
    · exact wf_same h

theorem wf_leaveCohort {s : State} (h : s.memoryWf) (id idx core : Nat) : (s.leaveCohort id idx core).memoryWf := by
  unfold State.leaveCohort
  dsimp only
  refine wf_same (wf_flipCohort ?_ id core) rfl rfl rfl
  exact wf_same h

theorem wf_arriveCohort {s : State} (h : s.memoryWf) : s.arriveCohort.memoryWf := by
  unfold State.arriveCohort
  dsimp only
  split
  · exact h
  · split
    · exact wf_flipCohort (wf_same h) ..
    · exact h

theorem wf_breakRally {s : State} (h : s.memoryWf) (pid : BitVec 5) (id : Nat) : (s.breakRally pid id).memoryWf := by
  unfold State.breakRally
  refine wf_same (wf_fold (fun s r hb => ?_) h)
  split
  · exact hb
  · exact wf_same (wf_mapTeam hb ..)

theorem wf_release {s : State} (h : s.memoryWf) (t : Team) : (s.release t).memoryWf := by
  unfold State.release
  extract_lets held records s1 s2 conts s3 s4 s5 b s6 s7
  have h1 : s1.memoryWf := wf_giveFrames h ..
  clear_value s1
  have h2 : s2.memoryWf := wf_mapPart h1 ..
  clear_value s2
  have h3 : s3.memoryWf := wf_giveFrames h2 ..
  clear_value s3
  have h4 : s4.memoryWf := wf_mapDeques h3 ..
  clear_value s4
  have h5 : s5.memoryWf := wf_breakRally h4 ..
  clear_value s5
  have h6 : s6.memoryWf := wf_same h5
  clear_value s6
  have h7 : s7.memoryWf := by
    unfold s7
    split
    · exact wf_leaveCohort h6 ..
    · exact h6
  exact wf_relaxSplit (wf_endTree h7 ..) _

theorem wf_finishTeam (n : Nat) {s : State} (t : Team) (bad : Option AbEnd) (h : s.memoryWf) : (finishTeam n s t bad).memoryWf := by
  induction n generalizing s t bad with
  | zero => exact h
  | succ n ih =>
    rw [finishTeam]
    unfold finishOne
    extract_lets s1
    have h1 : s1.memoryWf := wf_release h t
    clear_value s1
    split
    · exact h1
    · extract_lets s2
      have h2 : s2.memoryWf := wf_mapTeam h1 ..
      clear_value s2
      split
      · exact h2
      · split
        · split
          · exact ih _ _ h2
          · exact h2
        · exact h2

theorem wf_endNormally {s : State} (h : s.memoryWf) : s.endNormally.memoryWf := by
  unfold State.endNormally
  dsimp only
  split
  · exact wf_finishTeam _ _ _ (wf_endRun h)
  · exact wf_same (wf_endRun h)

theorem wf_flushFamily (pid : BitVec 5) : ∀ (l : List Nat) {s : State}, s.memoryWf → (flushFamily pid l s).wf
  | [], _, h => h
  | id :: l, s, h => by
    unfold flushFamily
    split
    · exact wf_flushFamily pid l h
    · split
      · exact wf_flushFamily pid l h
      · split
        · next e => exact wf_flushFamily pid l (wf_ok (wf_flushOf h _) e)
        · exact wf_flushOf h _

theorem wf_cancelFaults {s : State} (h : s.memoryWf) (pid : BitVec 5) (id : Nat) : (s.cancelFaults pid id).memoryWf := wf_same h

theorem wf_killTeams (pid : BitVec 5) (status : Word) : ∀ (l : List Nat) {s : State}, s.memoryWf → (killTeams pid status l s).memoryWf
  | [], _, h => h
  | id :: l, s, h => by
    unfold killTeams
    split
    · exact wf_killTeams pid status l h
    · exact wf_killTeams pid status l (wf_finishTeam _ _ _ (wf_cancelFaults (wf_mapDeques (wf_giveFrames (wf_mapTeam h ..) ..) ..) ..))

theorem wf_halt {s : State} (h : s.memoryWf) (pid : BitVec 5) (ids : List Nat) : (s.halt pid ids).memoryWf := wf_same h

theorem wf_killFamily {s : State} (h : s.memoryWf) (pid : BitVec 5) (id : Nat) (status : Word) : (s.killFamily pid id status).wf := by
  unfold State.killFamily
  dsimp only
  have h1 := wf_halt h pid (family pid s.teamFuel s id)
  split
  · split
    · next e => exact wf_killTeams pid status _ (wf_ok (wf_flushFamily _ _ h1) e)
    · exact wf_flushFamily _ _ h1
  · exact h1

/-! ## Traps, parking and waits as outcomes -/

theorem wf_writeArea {s : State} (h : s.memoryWf) (pid : BitVec 5) (base : Nat) (parts : List (Nat × List Byte)) :
    DevAll State.memoryWf (s.writeArea pid base parts) := dev_quiet (quiet_writeArea ..) h

theorem wf_readArea {s : State} (h : s.memoryWf) (pid : BitVec 5) (asid : BitVec 16) (va n : Nat) : DevAll State.memoryWf (readArea s pid asid va n) :=
  dev_quiet (quiet_readArea ..) h

theorem wf_walkPoison {s : State} (h : s.memoryWf) (pid : BitVec 5) (asid : BitVec 16) (va : Nat) : (s.walkPoison pid asid va).memoryWf :=
  (quiet_walkPoison ..).memoryWf h

theorem wf_dropArea {s : State} (h : s.memoryWf) (core : Nat) (pid : BitVec 5) (base n : Nat) : (s.dropArea core pid base n).memoryWf := wf_same h

theorem wf_trapSave {s : State} (h : s.memoryWf) (p : Partition) (code : Nat) (va : Dword) : DevAll State.memoryWf (s.trapSave p code va) := by
  unfold State.trapSave
  dsimp only
  refine wf_writeArea ?_ ..
  have h1 := wf_dropArea (wf_endRun (wf_same h : (s.choose (lanesOf s.team.lanes s.path.mask).length).2.memoryWf))
    (s.team.saveTrap code s.path.pc va).core (s.team.saveTrap code s.path.pc va).pid ((s.team.saveTrap code s.path.pc va).saveAddr p) trapAreaBytes
  revert h1
  generalize (s.choose (lanesOf s.team.lanes s.path.mask).length).2.endRun.dropArea _ _ _ _ = u
  exact fun h1 => wf_same h1

theorem wf_settleArea {s : State} (h : s.memoryWf) (core : Nat) (pid : BitVec 5) (base : Nat) (bs : List Byte) :
    DevAll State.memoryWf (s.settleArea core pid base bs) :=
  Dev.all_bind (Dev.all_each (fun _ _ hb => Dev.all_orSkip (wf_deviceWrite hb ..) hb) _ _ h) fun _ _ hb => Dev.all_ok (wf_dropArea hb ..)

theorem wf_takeTrap {s : State} (h : s.memoryWf) (code : Nat) (va : Dword) : (s.takeTrap code va).wf := by
  unfold State.takeTrap
  split
  · exact wf_killFamily h ..
  · split
    · exact h
    · split
      · exact h
      · next p hp =>
        dsimp only
        split
        · next u e =>
          have h1 := wf_giveFrames ((wf_trapSave h ..).holds _ _ e) (s.team.saveTrap code s.path.pc va).pid s.path.held
          revert h1
          generalize u.giveFrames _ _ = w
          exact fun h1 => wf_same h1
        · exact h

theorem outWf_out {a : Acc Unit} (h : a.wf) (g : Bool) (w : Wait) : outWf (a.out g w) := by
  cases a with
  | ok u s => simpa [Acc.out] using h
  | busy s => simpa [Acc.out] using wf_waitHere h g w
  | _ => simp [Acc.out]

theorem outWf_trap {s : State} (h : s.memoryWf) (code : Nat) (va : Dword) : outWf (s.trap code va) := outWf_out (wf_takeTrap h ..) ..

theorem wf_leaveSolo {s : State} (h : s.memoryWf) (solo : Solo) (target : Dword) : (s.leaveSolo solo target).wf := by
  unfold State.leaveSolo
  dsimp only
  split
  · exact h
  · split
    · exact h
    · split
      · exact h
      · exact wf_killFamily h ..
      · next e =>
        have h1 := (wf_readArea h ..).holds _ _ e
        split
        · exact wf_killFamily h1 ..
        · next e =>
          have h2 := wf_endRun ((wf_settleArea h1 ..).holds _ _ e)
          revert h2
          generalize State.endRun _ = w
          exact fun h2 => wf_same h2
        · exact h

theorem outWf_park {s : State} (h : s.memoryWf) (u : LaneMask) (fs : List FaultAt) (engine : Bool) : outWf (s.park u fs engine) := by
  unfold State.park
  extract_lets s1
  have h1 : s1.memoryWf := wf_fold (fun _ _ hb => wf_walkPoison hb ..) h
  clear_value s1
  split
  · exact outWf_trap h1 ..
  · rw [outWf_next]
    rename_i s2 p s3 t s4 _
    have h2 : s2.memoryWf := by
      unfold s2
      split
      · exact h1
      · exact wf_offerFaults h1 ..
    have h3 : s3.memoryWf := wf_setPath h2 _
    exact wf_endRun (wf_same h3)

theorem outWf_parkOne {s : State} (h : s.memoryWf) (va : Nat) (k : FaultKind) (c : BitVec 4) : outWf (s.parkOne va k c) := outWf_park h ..

theorem outWf_failOne {α : Type} {s : State} (h : s.memoryWf) {a : Acc α} (ha : a.wf) (va : Nat) (k : FaultKind) : outWf (s.failOne a va k) := by
  cases a with
  | ok v t => simpa [State.failOne] using ha
  | busy t => simpa [State.failOne] using wf_waitHere ha _ _
  | fault c => exact outWf_parkOne h ..
  | misplaced => exact outWf_trap h ..
  | refused => exact outWf_trap h ..
  | unbacked => exact outWf_fault _

theorem outWf_awaitEngines {s : State} (h : s.memoryWf) {g : Bool} {w : Wait} {cs : List CopyOp} {hs : List ChainOp} {o : Out}
    (e : s.awaitEngines g w cs hs = some o) : outWf o := by
  unfold State.awaitEngines at e
  split at e
  · cases e; exact outWf_trap (wf_same h) ..
  · cases e; exact outWf_trap (wf_same h) ..
  · cases e; exact outWf_park h ..
  · split at e
    · cases e
    · cases e; rw [outWf_next]; exact wf_waitHere h ..

theorem outWf_edgeWait {s : State} (h : s.memoryWf) {g : Bool} {mk : Nat → Wait} {o : Out} (e : s.edgeWait g mk = some o) : outWf o := by
  unfold State.edgeWait at e
  dsimp only at e
  split at e
  · next q => cases e; exact outWf_awaitEngines h q
  · split at e
    · cases e; rw [outWf_next]; exact wf_waitHere h ..
    · cases e

theorem outWf_releaseEdgeBy {s : State} (h : s.memoryWf) (g : Bool) (mk : Nat → Wait) {k : State → Out} (hk : ∀ s, s.memoryWf → outWf (k s)) :
    outWf (s.releaseEdgeBy g mk k) := by
  unfold State.releaseEdgeBy
  split
  · next e => exact outWf_edgeWait h e
  · split
    · next e => exact hk _ (wf_ok (wf_flushTeam h) e)
    · next e => rw [outWf_next]; exact wf_waitHere (wf_busy (wf_flushTeam h) e) ..
    · exact outWf_fault _

theorem outWf_releaseEdge {s : State} (h : s.memoryWf) (g : Bool) {k : State → Out} (hk : ∀ s, s.memoryWf → outWf (k s)) : outWf (s.releaseEdge g k) :=
  outWf_releaseEdgeBy h g _ hk

/-! ## The accesses of a lane instruction -/

theorem wf_tallyStep {α : Type} {t : Tally} (h : t.s.memoryWf) (asid : BitVec 16) (kind : FaultKind) (g : Group) {acc : State → Acc α}
    {k : α → State → State} (ha : ∀ s, s.memoryWf → (acc s).wf) (hk : ∀ v s, s.memoryWf → (k v s).memoryWf) : (t.step asid kind g acc k).s.memoryWf := by
  unfold Tally.step
  dsimp only
  split
  · exact h
  · split
    · next e => exact hk _ _ (wf_ok (ha _ h) e)
    · next e => exact wf_busy (ha _ h) e
    all_goals exact h

theorem outWf_tallyFinish {t : Tally} (h : t.s.memoryWf) (hd : Hdr) (n : Nat) : outWf (t.finish hd n) := by
  unfold Tally.finish
  split
  · exact outWf_fault _
  · split
    · rw [outWf_next]; exact wf_setPath (wf_waitHere h false .retry) _
    · dsimp only
      split
      · exact outWf_trap (wf_same h) ..
      · split
        · exact outWf_trap (wf_same h) ..
        · split
          · exact outWf_park h ..
          · rw [outWf_next]; exact wf_retire h ..

theorem wf_tallyFold {α : Type} {f : Tally → α → Tally} (h : ∀ t x, t.s.memoryWf → (f t x).s.memoryWf) {l : List α} {t : Tally} (ht : t.s.memoryWf) :
    (l.foldl f t).s.memoryWf := by
  induction l generalizing t with
  | nil => exact ht
  | cons x l ih => exact ih (h t x ht)

theorem wf_loadGroup {s : State} (h : s.memoryWf) (ty : Ty) (d : LaneReg) (k : Option Nat) (na : Bool) (id : Nat) (g : Group) (v : BitVec 1024 × Bool) :
    (loadGroup ty d k na id g v s).memoryWf := by
  unfold loadGroup
  dsimp only
  split
  · exact wf_writeLanes h ..
  · exact wf_addLoad h ..

theorem wf_loadTally {s : State} (h : s.memoryWf) (ty : Ty) (na : Bool) (k : Option Nat) (d : LaneReg) (as : List (Nat × Dword)) :
    (loadTally s ty na k d as).s.memoryWf :=
  wf_tallyFold (fun _ _ ht => wf_tallyStep ht _ _ _ (fun _ hs => wf_l1Load hs ..) (fun _ _ hs => wf_loadGroup hs ..)) (wf_loadId h _)

theorem wf_passLoads {s : State} (h : s.memoryWf) (w : Who) (va : Nat) (be : BitVec 128) : (s.passLoads w va be).memoryWf := wf_same h

theorem wf_teamStore {s : State} (h : s.memoryWf) (w : Who) (va : Nat) (d : BitVec 1024) (be : BitVec 128) (na : Bool) : (teamStore s w va d be na).wf := by
  unfold teamStore
  have h1 := wf_l1Store h w va d be na
  split
  · next e => exact wf_passLoads (wf_ok h1 e) ..
  · exact h1

theorem wf_storeTally {s : State} (h : s.memoryWf) (ty : Ty) (na : Bool) (b : LaneReg) (as : List (Nat × Dword)) : (storeTally s ty na b as).s.memoryWf :=
  wf_tallyFold (fun _ _ ht => wf_tallyStep ht _ _ _ (fun _ hs => wf_teamStore hs ..) (fun _ _ hs => hs)) h

theorem wf_numberedAt {s : State} (h : s.memoryWf) (w : Who) (va : Nat) : (s.numberedAt w va).memoryWf := by
  unfold State.numberedAt
  split
  · exact wf_numbered h ..
  · exact h

theorem wf_atomicLane {s : State} (h : s.memoryWf) (w : Who) (slot : Bool) (lane a : Nat) (ty : Ty) (op : Aop) (o c : Dword) :
    (atomicLane s w slot lane a ty op o c).wf := by
  unfold atomicLane
  dsimp only
  split
  · trivial
  · split
    · exact h
    · have h1 := wf_l1Release h w a (wordsOfRange (a % 128) (accessBytes ty))
      split
      · next e => exact wf_busy h1 e
      · trivial
      · trivial
      · trivial
      · trivial
      · next e =>
        have h2 := wf_ok h1 e
        split
        · next q => exact wf_passLoads (wf_addAck (wf_numberedAt (wf_nextSerial (wf_homeAtomicOp h2 q rfl)) ..) ..) ..
        · next q =>
          have h3 := wf_homeAtomicOp h2 q rfl
          split
          · split
            · exact wf_passLoads (wf_same h3) ..
            · exact h3
          · exact wf_same h3
        · next q => exact wf_homeAtomicOp h2 q rfl
        · trivial
        · trivial
        · trivial
        · trivial
        · next q => exact wf_homeAtomicOp h2 q rfl

theorem wf_atomicTally {s : State} (h : s.memoryWf) (ty : Ty) (op : Aop) (d : Option LaneReg) (b cmp : LaneReg) (as : List (Nat × Dword)) :
    (atomicTally s ty op d b cmp as).s.memoryWf :=
  wf_tallyFold (fun _ _ ht => wf_tallyStep ht _ _ _ (fun _ hs => wf_atomicLane hs ..) (fun _ _ hs => by
    split
    · exact wf_writeLanes hs ..
    · exact hs)) h

/-! ## Residency and deques -/

theorem wf_seat {s : State} (h : s.memoryWf) (t : Team) : (s.seat t).memoryWf := by
  unfold State.seat
  extract_lets s1
  have h1 : s1.memoryWf := wf_mapPart h ..
  clear_value s1
  exact wf_selfInvalidate (wf_same h1) ..

theorem wf_dropFrame {s t : State} (h : s.memoryWf) {core : Nat} {l : List (BitVec 5 × Nat)} (e : dropFrame core s l = some t) : t.memoryWf := by
  induction l with
  | nil => cases e
  | cons x l ih =>
    simp only [dropFrame] at e
    split at e
    · next q => cases e; exact wf_same ((wf_deviceWriteAll h ..).holds _ _ q)
    · cases e; exact wf_putCore h ..
    · exact ih e

theorem wf_useFrame {s : State} (h : s.memoryWf) (core : Nat) (pid : BitVec 5) (a : Nat) : (s.useFrame core pid a).memoryWf := by
  unfold State.useFrame
  extract_lets keep s1 c s2
  have h1 : s1.memoryWf := wf_same h
  have h2 : s2.memoryWf := wf_putCore h1 ..
  clear_value s2
  split
  · exact h2
  · cases q : dropFrame core s2 c.frames.reverse with
    | none => exact wf_putCore h2 ..
    | some t => exact wf_dropFrame h2 q

theorem wf_useFrames {s : State} (h : s.memoryWf) (core : Nat) (pid : BitVec 5) (l : List Nat) : (s.useFrames core pid l).memoryWf :=
  wf_fold (fun _ _ hb => wf_useFrame hb ..) h

theorem wf_startChild {s : State} (h : s.memoryWf) (spec : TeamSpec) (id idx frame : Nat) (handle : Dword) (aff : Aff) (core sub : Nat) :
    (s.startChild spec id idx frame handle aff core sub).wf := by
  unfold State.startChild
  have h1 := wf_growSplit h core spec.window
  split
  · next e =>
    split
    · exact wf_ok h1 e
    · exact wf_useFrame (wf_seat (wf_fillFrame (wf_ok h1 e) ..) _) ..
  · exact h1

theorem wf_pushDeque {s : State} (h : s.memoryWf) (core : Nat) (e : DeqEnt) : (s.pushDeque core e).memoryWf := by
  unfold State.pushDeque
  dsimp only
  split
  · split
    · exact wf_putCore h ..
    · exact wf_mapPart (wf_putCore h ..) ..
  · exact wf_putCore h ..

theorem wf_dropEntry {s : State} (h : s.memoryWf) (e : DeqEnt) : (s.dropEntry e).memoryWf := wf_mapDeques h ..

theorem wf_mapEntry {s : State} (h : s.memoryWf) (pid : BitVec 5) (age : Nat) (f : DeqEnt → DeqEnt) : (s.mapEntry pid age f).memoryWf := wf_same h

theorem wf_resumeCont {s : State} (h : s.memoryWf) (pid : BitVec 5) (id : Nat) (frames : List Nat) (core sub : Nat) (stolen : Bool) :
    (s.resumeCont pid id frames core sub stolen).wf := by
  unfold State.resumeCont
  split
  · exact h
  · next t ht =>
    have h1 := wf_growSplit h core t.window
    split
    · next e =>
      have h2 := wf_ok h1 e
      dsimp only
      exact wf_selfInvalidate (wf_mapTeam (wf_same (wf_giveFrames (wf_useFrames h2 ..) ..)) ..) ..
    · exact h1

theorem wf_sendWafer {s : State} (h : s.memoryWf) (w : Wafer) : (s.sendWafer w).wf := by
  unfold State.sendWafer
  dsimp only
  have h0 : ({ s with slot := w.slot } : State).memoryWf := wf_same h
  split
  · exact wf_writeLanes h0 ..
  · split
    · next e => exact wf_setTeam (wf_addLoad (wf_loadId (wf_ok (wf_l1Load h0 ..) e) _) ..) _
    · next e => exact wf_busy (wf_l1Load h0 ..) e
    all_goals trivial

theorem wf_sendWafers : ∀ (n : Nat) {s : State}, s.memoryWf → (s.sendWafers n).wf
  | 0, _, h => h
  | n + 1, s, h => by
    unfold State.sendWafers
    split
    · exact h
    · next w rest hw =>
      have h1 := wf_sendWafer h w
      split
      · next e => exact wf_sendWafers n (wf_same (wf_ok h1 e))
      · next e => exact wf_busy h1 e
      · trivial
      · split
        · exact wf_waitHere (wf_same h) ..
        · exact wf_same (wf_offerFaults h s.team s.path.pc _)
      · exact wf_waitHere (wf_same h) ..

theorem wf_restoreTeam {s : State} (h : s.memoryWf) (pid : BitVec 5) (id core sub : Nat) : (s.restoreTeam pid id core sub).wf := by
  unfold State.restoreTeam
  split
  · next t p ht hp =>
    have h1 := wf_growSplit h core t.window
    split
    · next e =>
      have h2 := wf_ok h1 e
      split
      · exact h2
      · exact wf_killFamily h2 ..
      · next q =>
        have h3 := (wf_readArea h2 ..).holds _ _ q
        split
        · exact wf_killFamily h3 ..
        · extract_lets n live t' s1 s2
          have k1 : s1.memoryWf := wf_same h3
          clear_value s1
          have k2 : s2.memoryWf := wf_mapTeam k1 ..
          clear_value s2
          have k3 := wf_sendWafers 64 (wf_focusOn k2 pid id false)
          split
          · next q => exact wf_busy k3 q
          · exact k3
    · exact h1
  · exact h

theorem wf_takeEntry {s : State} (h : s.memoryWf) (sub : Nat) (e : DeqEnt) : (s.takeEntry sub e).wf := by
  unfold State.takeEntry
  dsimp only
  split
  · split
    · exact wf_dropEntry h e
    · split
      · next q =>
        have h1 := wf_ok (wf_startChild h ..) q
        rw [Acc.wf_ok]
        split
        · exact wf_dropEntry h1 e
        · exact wf_mapEntry h1 ..
      · exact wf_startChild h ..
  · split
    · next q => exact wf_dropEntry (wf_ok (wf_resumeCont h ..) q) e
    · exact wf_resumeCont h ..
  · split
    · exact h
    · exact wf_restoreTeam (wf_dropEntry h e) ..

/-! ## Saving -/

theorem wf_pushSaved {s : State} (h : s.memoryWf) (pid : BitVec 5) (id : Nat) : (s.pushSaved pid id).memoryWf := wf_same h

theorem wf_saveTeam {s : State} (h : s.memoryWf) (t : Team) (hard : Bool) : (s.saveTeam t hard).wf := by
  unfold State.saveTeam
  split
  · exact h
  · extract_lets ws r s0 accepted put s1 t'
    have h1 : s1.memoryWf := wf_same h
    clear_value s1 t' put
    split
    · next e =>
      have h2 := (wf_writeArea (wf_dropArea h1 ..) ..).holds _ _ e
      dsimp only
      have h3 := fun l f => wf_relaxSplit (wf_mapTeam (wf_giveFrames h2 t'.pid l) t'.pid t'.id f) t'.core
      rw [Acc.wf_ok]
      split
      · exact h3 ..
      · exact wf_pushSaved (h3 ..) ..
    · exact h

end Sys2Proof.Machine
end

