-- ==== Sys2Proof/Laws/WfFabric.lean ====
section
/-! SUPPORT. What the directory's messages do keeps the canonical form of HBM and of host memory. -/
namespace Sys2Proof.Machine

-- One proof at a time: many at once wait on the same matches, and each that waits takes a thread.
set_option Elab.async false

theorem wf_dropInbox {s : State} (h : s.memoryWf) (i : Nat) : (s.dropInbox i).memoryWf := wf_same h
theorem wf_mapTxn {s : State} (h : s.memoryWf) (home : Nat) (k : LineKey) (f : Txn → Txn) : (s.mapTxn home k f).memoryWf := wf_same h
theorem wf_losePend {s : State} (h : s.memoryWf) (b : Nat) (k : LineKey) : (s.losePend b k).memoryWf := wf_same h
theorem wf_nullAnswer {s : State} (h : s.memoryWf) (b home : Nat) (k : LineKey) (die : Nat) (w : BitVec 32) : (s.nullAnswer b home k die w).memoryWf :=
  wf_same h
theorem wf_toAgent {s : State} (h : s.memoryWf) (pa : Nat) (d : BitVec 1024) (be : BitVec 128) : (s.toAgent pa d be).memoryWf :=
  (quiet_toAgent ..).memoryWf h
theorem wf_takeWbs {s : State} (h : s.memoryWf) (k : LineKey) (die : Nat) (w : BitVec 32) : (takeWbs s k die w).memoryWf := (quiet_takeWbs ..).memoryWf h
theorem wf_fillWords {s : State} (h : s.memoryWf) (l : L2Line) (w : BitVec 32) : (fillWords s l w).2.memoryWf := (quiet_fillWords ..).memoryWf h

theorem wf_closeTxn {s : State} (h : s.memoryWf) (home : Nat) (k : LineKey) : (s.closeTxn home k).memoryWf := by
  unfold State.closeTxn
  dsimp only
  split
  · exact h
  · split
    · split <;> exact wf_putBank h ..
    · exact h

theorem wf_answer {s : State} (h : s.memoryWf) (home : Nat) (k : LineKey) (t : Txn) : (s.answer home k t).memoryWf := by
  unfold State.answer
  dsimp only
  split
  · exact wf_closeTxn (wf_mapTxn h ..) ..
  · next l _ =>
    have inv : ∀ {u : State} (ds : List Nat), u.memoryWf →
        (ds.foldl (fun s d => s.send k.pid (.bank home) (.bank (s.copyBank home k d)) (.inv k d t.words)) u).memoryWf :=
      fun ds hu => wf_fold (fun _ _ hb => wf_send hb ..) hu
    have hf := wf_fillWords h l t.words
    split
    · exact wf_closeTxn (wf_mapTxn h ..) ..
    · exact wf_mapTxn (wf_send (wf_putBank hf ..) ..) ..
    · exact wf_mapTxn (wf_send (wf_putBank (inv _ hf) ..) ..) ..
    · exact wf_mapTxn (wf_send (wf_putBank (inv _ h) ..) ..) ..

theorem wf_progress {s : State} (h : s.memoryWf) (home : Nat) (k : LineKey) : (s.progress home k).memoryWf := by
  unfold State.progress
  split
  · exact h
  · split
    · exact h
    · split
      · exact wf_closeTxn h ..
      · exact wf_answer h ..

theorem wf_openTxn {s : State} (h : s.memoryWf) (home : Nat) (l : L2Line) (kind : TxnKind) (die : Nat) (w : BitVec 32) :
    (s.openTxn home l kind die w).memoryWf :=
  wf_progress (wf_fold (fun _ _ hb => wf_send hb ..) (wf_putBank h ..)) ..

theorem wf_evictEntry {s : State} (h : s.memoryWf) (home : Nat) (e : DirEntry) : (s.evictEntry home e).2.memoryWf := by
  unfold State.evictEntry
  dsimp only
  split
  · exact wf_putBank h ..
  · split
    · exact h
    · exact wf_fold (fun _ _ hb => wf_progress (wf_fold (fun _ _ hb => wf_send hb ..) (wf_putBank hb ..)) ..) h

theorem wf_makeEntry {s : State} (h : s.memoryWf) (home : Nat) (k : LineKey) (die copy : Nat) : (s.makeEntry home k die copy).2.memoryWf := by
  unfold State.makeEntry
  dsimp only
  split
  · split
    · exact wf_evictEntry h ..
    · exact h
  · split
    · exact h
    · split
      · exact h
      · exact wf_evictEntry h ..

theorem wf_losers {s : State} (h : s.memoryWf) (home : Nat) (k : LineKey) (c : Nat) : (s.losers home k c).memoryWf := wf_same h

theorem wf_serveRequest {s : State} (h : s.memoryWf) (i : Nat) (kind : TxnKind) (k : LineKey) (die : Nat) (w : BitVec 32) (home : Nat) :
    (s.serveRequest i kind k die w home).memoryWf := by
  unfold State.serveRequest
  extract_lets need at_
  split
  · exact h
  · split
    · next e =>
      have h1 := wf_homeAccess h e rfl
      split
      · exact wf_dropInbox h i
      · have h2 := wf_makeEntry h1 home k die (s.keepBank k die)
        dsimp only
        split
        · exact h2
        · refine wf_openTxn ?_ ..
          split
          · exact wf_losers (wf_dropInbox h2 i) ..
          · exact wf_dropInbox h2 i
    · next e => exact wf_homeAccess h e rfl
    · split
      · exact wf_dropInbox h i
      · exact wf_losePend (wf_dropInbox h i) ..

theorem wf_makeRoom {s t : State} (h : s.memoryWf) {p : Partition} {b : Nat} {k : LineKey} {r : Bool} (e : makeRoom s p b k r = some t) : t.memoryWf :=
  (quiet_makeRoom e).memoryWf h

theorem wf_fillCopy {s : State} (h : s.memoryWf) (b : Nat) (k : LineKey) (w : BitVec 32) (d : BitVec 1024) (p : Perms) (pa : Nat) :
    (s.fillCopy b k w d p pa).memoryWf := by
  unfold State.fillCopy
  dsimp only
  split
  · exact wf_putBank h ..
  · split
    · next e =>
      simp only [Option.bind_eq_some_iff] at e
      obtain ⟨q, -, e⟩ := e
      split at e
      · cases e
      · exact wf_putBank (wf_makeRoom h e) ..
    · exact h

theorem wf_landed {s : State} (h : s.memoryWf) (k : LineKey) : (s.landed k).memoryWf := by
  unfold State.landed
  split
  · exact wf_closeTxn (wf_mapTxn h ..) ..
  · exact h

theorem wf_performPend {s : State} (h : s.memoryWf) (b : Nat) (k : LineKey) : (s.performPend b k).memoryWf := by
  unfold State.performPend
  dsimp only
  refine wf_fold (fun _ _ hb => ?_) (wf_losePend h ..)
  split
  · exact wf_putBank hb ..
  · split
    · exact wf_same hb
    · exact hb

theorem wf_takeGrant {s : State} (h : s.memoryWf) (b : Nat) (m : Msg) : (s.takeGrant b m).memoryWf := by
  unfold State.takeGrant
  split
  · exact wf_landed (wf_performPend h ..) _
  · exact wf_landed (wf_performPend (wf_fillCopy h ..) ..) _
  · exact h

theorem wf_mergeHome {s : State} (h : s.memoryWf) (home : Nat) (k : LineKey) (w : BitVec 32) (d : BitVec 1024) (be : BitVec 128) (clean : Bool) :
    (s.mergeHome home k w d be clean).memoryWf := by
  unfold State.mergeHome
  split
  · exact h
  · split
    · exact wf_toAgent (wf_putBank h ..) ..
    · exact wf_putBank h ..

theorem wf_answered {s : State} (h : s.memoryWf) (home : Nat) (k : LineKey) (die : Nat) (w : BitVec 32) : (s.answered home k die w).memoryWf := by
  unfold State.answered
  extract_lets asked
  clear_value asked
  split
  · dsimp only
    split
    · exact h
    · exact wf_putBank h ..
  · exact h

theorem wf_takeData {s : State} (h : s.memoryWf) (home : Nat) (k : LineKey) (die : Nat) (w : BitVec 32) (d : BitVec 1024) (be : BitVec 128) :
    (s.takeData home k die w d be).memoryWf := wf_progress (wf_mapTxn (wf_answered (wf_mergeHome (wf_takeWbs h ..) ..) ..) ..) ..

theorem wf_takeAck {s : State} (h : s.memoryWf) (home : Nat) (k : LineKey) (die : Nat) : (s.takeAck home k die).memoryWf := wf_progress (wf_mapTxn h ..) ..

theorem wf_takeNull {s : State} (h : s.memoryWf) (home : Nat) (k : LineKey) (die : Nat) (w : BitVec 32) : (s.takeNull home k die w).memoryWf :=
  wf_progress (wf_mapTxn (wf_answered (wf_mapPart h ..) ..) ..) ..

theorem wf_takeWb {s : State} (h : s.memoryWf) (i home : Nat) (k : LineKey) (die : Nat) (w : BitVec 32) (d : BitVec 1024) (be : BitVec 128)
    (leaves : Bool) : (s.takeWb i home k die w d be leaves).memoryWf := by
  unfold State.takeWb
  extract_lets held s1 s2 s3 b gone alone s4 cut
  have h1 : s1.memoryWf := wf_dropInbox h i
  have h2 : s2.memoryWf := by
    unfold s2
    split
    · exact h1
    · split
      · next e => exact wf_homeAccess h1 e rfl
      · exact h1
  have h3 : s3.memoryWf := wf_mergeHome h2 ..
  have h4 : s4.memoryWf := by
    unfold s4
    split
    · exact wf_putBank h3 ..
    · exact h3
  split
  · exact h
  · exact wf_progress (wf_mapTxn h4 ..) ..

end Sys2Proof.Machine
end

