-- ==== Sys2Proof/Laws/WfModule.lean ====
section
/-! SUPPORT. What happens to the module as a whole keeps the canonical form of HBM and of host memory: writes of the home agents, lost frames, a
partition's errors and reset, the port's lines given up, and a restart. -/
namespace Sys2Proof.Machine

-- One proof at a time: many at once wait on the same matches, and each that waits takes a thread.
set_option Elab.async false

theorem wf_memPutList {s : State} (h : s.memoryWf) (a : Nat) (bs : List Byte) (es : List Bool) : (s.memPutList a bs es).memoryWf := by
  refine ⟨memWf_memPutList h.1 a bs es, ?_⟩
  have : (s.memPutList a bs es).hostMem = s.hostMem := by
    induction bs generalizing s a es with
    | nil => cases es <;> rfl
    | cons b bs ih =>
      cases es with
      | nil => rfl
      | cons e es =>
        rw [State.memPutList]
        cases e
        · exact ih h _ _
        · exact ih (s := s.memPut a b) ⟨memWf_memPut h.1 a b, h.2⟩ _ _
  rw [this]; exact h.2

/-- Frames that are lost take their cells with them; a 0 stays listed only where something was lost, and that stays so. -/
theorem wf_loseFrames {s : State} (h : s.memoryWf) (fs : List Nat) : (s.loseFrames fs).memoryWf := by
  refine ⟨?_, h.2⟩
  have h1 := (memWf_iff s).1 h.1
  refine (memWf_iff _).2 ⟨storeSorted_filter h1.1 _, fun c hc => ?_⟩
  have hc' : c ∈ s.mem := (List.mem_filter.1 hc).1
  rcases h1.2 c hc' with k | k
  · exact .inl k
  · right
    have : ∀ l : List LostRange, ∀ q : LostRange → Bool, ((l.find? q).map (·.epoch)).isSome = true → ∀ x : LostRange, (((x :: l).find? q).map (·.epoch)).isSome = true := by
      intro l q hl x
      rw [List.find?_cons]
      split
      · rfl
      · exact hl
    exact this _ _ k _

theorem wf_partErr {s : State} (h : s.memoryWf) (pid : BitVec 5) (k : Nat) : (s.partErr pid k).memoryWf := (quiet_partErr ..).memoryWf h

theorem wf_evictBank (b : Nat) : ∀ (l : List L2Line) {s : State}, s.memoryWf → (evictBank b l s).memoryWf
  | [], _, h => h
  | l :: ls, s, h => by
    unfold evictBank
    refine wf_evictBank b ls ?_
    split
    · exact (quiet_evictRemote ..).memoryWf h
    · exact (quiet_evictHome ..).memoryWf h

theorem wf_dropTeams {s : State} (h : s.memoryWf) (pid : BitVec 5) : (s.dropTeams pid).memoryWf := wf_same h
theorem wf_dropCaches {s : State} (h : s.memoryWf) (p : Partition) : (s.dropCaches p).memoryWf := wf_same h
theorem wf_dropRest {s : State} (h : s.memoryWf) (p : Partition) : (s.dropRest p).memoryWf := wf_same h

theorem wf_uncache {s : State} (h : s.memoryWf) (p : Partition) : (s.uncache p).memoryWf := by
  unfold State.uncache
  extract_lets mine s1 s2
  have h1 : s1.memoryWf := wf_same h
  have h2 : s2.memoryWf := wf_fold (fun _ _ hb => wf_writeBackPort hb _) h1
  exact wf_same h2

/-- A restart lists nothing of HBM, and keeps the host's memory. -/
theorem wf_restart {s : State} (h : s.memoryWf) : s.restart.memoryWf := ⟨rfl, h.2⟩

theorem wf_readClear {s : State} (h : s.memoryWf) (pid : BitVec 5) (v : Partition → Dword) (c : Partition → Partition) :
    (s.readClear pid v c).memoryWf := by
  unfold State.readClear
  split
  · exact h
  · exact wf_same h

theorem wf_returns {s : State} (h : s.memoryWf) (p : Option Partition) (v : Dword) : (s.returns p v).memoryWf := by
  unfold State.returns
  split
  · exact wf_same h
  · exact h

end Sys2Proof.Machine
end

