-- ==== Sys2Proof/Laws/WfSpe.lean ====
section
/-! SUPPORT. The standing-product engine keeps the canonical form of HBM and of host memory: corrections, recomputation, marks and errors. -/
namespace Sys2Proof.Machine

-- One proof at a time: many at once wait on the same matches, and each that waits takes a thread.
set_option Elab.async false

theorem wf_speElem {s : State} (h : s.memoryWf) (b : Binding) (later : List LogEntry) (opB : Bool) (r c : Nat) :
    DevAll State.memoryWf (speElem b later opB s r c) := wf_bind (wf_homeWord h ..) fun _ _ hb => Dev.all_ok hb

theorem wf_speWriteC {s : State} (h : s.memoryWf) (b : Binding) (i j : Nat) (x : Word) : DevAll State.memoryWf (speWriteC b s i j x) := by
  unfold speWriteC
  dsimp only
  refine wf_deviceWrite ?_ ..
  split
  · exact wf_anyBytes h 4
  · exact h

theorem wf_speDot {s : State} (h : s.memoryWf) (b : Binding) (later : List LogEntry) (i j : Nat) : DevAll State.memoryWf (speDot b later s i j) :=
  wf_bind (wf_list (fun _ _ hb => wf_bind (wf_speElem hb ..) fun _ _ hb => wf_bind (wf_speElem hb ..) fun _ _ hb => Dev.all_ok hb) _ _ h)
    fun _ _ hb => Dev.all_ok hb

theorem wf_speElements {s : State} (h : s.memoryWf) (b : Binding) (later : List LogEntry) (l : List (Nat × Nat)) :
    DevAll State.memoryWf (speElements b later l s) :=
  wf_each (fun _ _ hb => wf_bind (wf_speDot hb ..) fun _ _ hb => wf_speWriteC hb ..) _ _ h

theorem wf_speLine {s : State} (h : s.memoryWf) (slot : Nat) (later : List LogEntry) (col : Bool) (i : Nat) :
    DevAll State.memoryWf (speLine slot later col s i) := by
  unfold speLine
  split
  · exact Dev.all_ok h
  · exact wf_bind (wf_speElements h ..) fun _ _ hb => Dev.all_ok (wf_mapBinding hb ..)

theorem wf_speTarget {s : State} (h : s.memoryWf) (b : Binding) (opB : Bool) (later : List LogEntry) (line : Nat) (cs : List (Nat × Nat × Nat)) :
    DevAll State.memoryWf (speTarget b opB later line cs s) := by
  unfold speTarget
  refine wf_bind (wf_list (fun s q hb => ?_) _ _ h) fun _ _ hb => ?_
  · refine wf_bind (wf_homeWord hb ..) fun _ _ hb => wf_bind (wf_list (fun s x hb => ?_) _ _ hb)
      fun _ _ hb => Dev.all_ok hb
    exact wf_bind (wf_speElem hb ..) fun _ _ hb => Dev.all_ok hb
  split
  · exact wf_bind (wf_speLine hb ..) fun _ _ hb => Dev.all_ok hb
  · exact wf_bind (wf_each (fun _ _ hb => wf_speWriteC hb ..) _ _ hb) fun _ _ hb => Dev.all_ok hb

theorem wf_speInTurn (b : Binding) (opB : Bool) (later : List LogEntry) (line : Nat) :
    ∀ (l : List (List (Nat × Nat × Nat))) {s : State}, s.memoryWf → DevAll State.memoryWf (speInTurn b opB later line l s)
  | [], _, h => Dev.all_ok h
  | ts :: rest, s, h => by
    unfold speInTurn
    refine wf_bind (wf_speTarget h ..) fun redone _ hb => ?_
    split
    · exact Dev.all_ok hb
    · exact wf_speInTurn b opB later line rest hb

theorem wf_speGroup {s : State} (h : s.memoryWf) (slot : Nat) (es later : List LogEntry) (joint : Bool) :
    DevAll State.memoryWf (speGroup slot es later joint s) := by
  unfold speGroup
  split
  · exact wf_each (fun _ _ hb => wf_bind (wf_speInTurn _ _ _ _ _ hb) fun _ _ hb => Dev.all_ok (wf_mapBinding hb ..)) _ _ h
  · exact Dev.all_ok h

theorem wf_speRefresh {s : State} (h : s.memoryWf) (slot : Nat) (later : List LogEntry) : DevAll State.memoryWf (speRefresh slot later s) := by
  unfold speRefresh
  split
  · exact Dev.all_ok h
  · split
    · exact Dev.all_ok h
    · exact wf_bind (wf_each (fun _ _ hb => wf_speLine hb ..) _ _ h) fun _ _ hb => wf_each (fun _ _ hb => wf_speLine hb ..) _ _ hb

theorem wf_speFail {s : State} (h : s.memoryWf) (slot : Nat) : DevAll State.memoryWf (speFail s slot) :=
  wf_bind (wf_loseC h slot) fun _ _ hb => wf_bindErr hb slot

theorem wf_speTry {s : State} (h : s.memoryWf) (slot : Nat) {f : State → Dev Unit} (hf : ∀ s, s.memoryWf → DevAll State.memoryWf (f s)) :
    DevAll State.memoryWf (speTry slot f s) := by
  unfold speTry
  split
  · next e =>
    have h1 := (hf s h).holds _ _ e
    split
    · split
      · exact wf_speFail h1 slot
      · exact Dev.all_ok h1
    · exact Dev.all_ok h1
  · exact Dev.all_busy
  · exact wf_speFail h slot

theorem wf_speApply {s : State} (h : s.memoryWf) (slot n : Nat) (joint : Bool) : DevAll State.memoryWf (speApply slot n joint s) := by
  unfold speApply
  split
  · exact Dev.all_ok h
  · refine wf_settled (wf_bind (wf_speTry h slot fun s hs => ?_) fun _ s hb => ?_)
    · exact wf_bind (wf_speGroup hs ..) fun _ _ hb => wf_bind (wf_speRefresh (wf_mapBinding hb ..) ..) fun _ _ hb => wf_speHeader hb slot
    · split
      · split
        · exact wf_enterIdle hb slot
        · exact Dev.all_ok hb
      · exact Dev.all_ok hb

theorem wf_speStart {s : State} (h : s.memoryWf) (slot : Nat) : DevAll State.memoryWf (speStart slot s) := by
  unfold speStart
  split
  · exact Dev.all_ok h
  · refine wf_settled (wf_bind (wf_speTry h slot fun s hs => wf_speElements hs ..) fun _ s hb => ?_)
    split
    · split
      · exact Dev.all_ok hb
      · exact wf_enterIdle hb slot
    · exact Dev.all_ok hb

theorem wf_speMarkBytes {s : State} (h : s.memoryWf) (slot : Nat) (col : Bool) (bits : List Nat) : DevAll State.memoryWf (speMarkBytes slot col bits s) := by
  unfold speMarkBytes
  split
  · exact Dev.all_ok h
  · exact wf_each (fun _ _ hb => wf_speWrite hb ..) _ _ h

theorem wf_speSettle {s : State} (h : s.memoryWf) (slot : Nat) : DevAll State.memoryWf (speSettle slot s) := by
  unfold speSettle
  split
  · exact Dev.all_ok h
  · split
    · exact Dev.all_ok h
    · refine wf_settled (wf_speTry h slot fun s hs => ?_)
      exact wf_bind (wf_each (fun _ _ hb => wf_speLine hb ..) _ _ hs) fun _ _ hb =>
        wf_bind (wf_each (fun _ _ hb => wf_speLine hb ..) _ _ hb) fun _ _ hb =>
          wf_bind (wf_speMarkBytes (wf_mapBinding hb ..) ..) fun _ _ hb => wf_bind (wf_speMarkBytes hb ..) fun _ _ hb => wf_speHeader hb slot

end Sys2Proof.Machine
end

