-- ==== Sys2Proof/Tests/Slice0.lean ====
section
/-! SUPPORT. Small tests: ill-formed terms that the checks refuse, words written out from the spec's encodings, the spec's worked values, and for each
statement with hypotheses a state and operands that meet them. -/
namespace Sys2Proof.Tests
open Sys2Proof Sys2Proof.Machine

set_option maxRecDepth 200000
set_option Elab.async false
set_option exponentiation.threshold 4000

/-- No guard, no SB, no stall, END = 0; and the same with SB, and with END = 1. -/
abbrev hd : Hdr := ⟨⟨15, false⟩, false, 0, false⟩
abbrev hsb : Hdr := ⟨⟨15, false⟩, true, 0, false⟩
abbrev hend : Hdr := ⟨⟨15, false⟩, false, 0, true⟩
/-- The guard m1: no lane of a team whose masks are zero. -/
abbrev hoff : Hdr := ⟨⟨1, false⟩, false, 0, false⟩

/-- A system team of 32 lanes that stands at address 128 of a partition with one bank. -/
def base : State := State.reset.withFetchWord 64 0

/-- Uniform registers, and words of lane registers (register, lane, word), on top of a state. -/
def State.withS (s : State) (l : List (Nat × Dword)) : State :=
  { s with team := { s.team with s := l.foldl (fun r x => storePut 0 r x.1 x.2) s.team.s } }
def State.withV (s : State) (l : List (Nat × Nat × Word)) : State :=
  { s with team := { s.team with v := l.foldl (fun r x => storePut 0 r (x.1 * 1024 + x.2.1) x.2.2) s.team.v } }
def State.withM (s : State) (l : List (Nat × LaneMask)) : State :=
  { s with team := { s.team with m := l.foldl (fun r x => storePut 0 r x.1 x.2) s.team.m } }

/-- The state after an instruction, if it completes. -/
def after (i : Instr) (s : State) : Option State := match exec i s with | .next t => some t | _ => none
def uniformAfter (i : Instr) (s : State) (r : UReg) : Option Dword := (after i s).map fun t => t.team.uval r
def laneAfter (i : Instr) (s : State) (r : LaneReg) (l : Nat) : Option Word := (after i s).map fun t => t.team.vval r l
def flagsAfter (i : Instr) (s : State) : Option (BitVec 5) := (after i s).map fun t => t.team.tstat
/-- A trap: its code, its address and the trapped pc (R338). -/
def trapAfter (i : Instr) (s : State) : Option (Nat × Dword × Dword) :=
  (after i s).bind fun t => if t.team.solo.isSome then some (t.team.trapcode.toNat, t.team.trapva, t.team.trappc) else none

/-! ## Ill-formed terms (R31, R35, R36, R44, R51) -/

theorem test_wf_guard : (Instr.smov ⟨⟨15, true⟩, false, 0, false⟩ ⟨1, 2⟩).wf = false := by decide +kernel
theorem test_wf_end : (Instr.exit hd).wf = false ∧ (Instr.bra hd ⟨0⟩).wf = false ∧ (Instr.cbar hd).wf = false ∧ (Instr.settle hd ⟨1⟩).wf = false := by decide +kernel
theorem test_wf_sb : (Instr.ld hd ⟨.b32, false, 1, ⟨1, none, none⟩⟩).wf = false ∧ (Instr.sdiv hd ⟨.i32, false, 1, 1, .reg 1⟩).wf = false := by decide +kernel
theorem test_wf_bare : (Instr.join ⟨⟨1, false⟩, false, 0, true⟩).wf = false ∧ (Instr.yld ⟨⟨1, false⟩, false, 0, true⟩ ⟨1, 0⟩).wf = false := by decide +kernel
theorem test_wf_pair : (Instr.vadd hd ⟨.i64, false, 1, 2, .lane 4⟩).wf = false ∧ (Instr.vadd hd ⟨.i64, false, 2, 2, .lane 4⟩).wf = true := by decide +kernel
theorem test_wf_mask : (Instr.mand hd ⟨15, 0, 0⟩).wf = false ∧ (Instr.vballot hd ⟨15, 0⟩).wf = false := by decide +kernel
theorem test_wf_type : (Instr.sadd hd ⟨.b32, false, 1, 1, .reg 1⟩).wf = false ∧ (Instr.sand hd ⟨.i32, false, 1, 1, .reg 1⟩).wf = false ∧
    (Instr.scmp hd ⟨.b32, .lt, 1, 1, .reg 1⟩).wf = false ∧ (Instr.fadd hd ⟨.e4m3, .rne, false, 1, 1, .lane 1⟩).wf = false := by decide +kernel
theorem test_wf_yld : (Instr.yld hend ⟨0, 0⟩).wf = false ∧ (Instr.yld hend ⟨1, 257⟩).wf = false ∧ (Instr.yld hend ⟨1, 256⟩).wf = true := by decide +kernel
theorem test_wf_spawn : (Instr.spawn hend ⟨.sub, .imm 0, 1, 1, 0⟩).wf = false ∧ (Instr.spawn hend ⟨.sub, .imm 1024, 121, 1, 0⟩).wf = false ∧
    (Instr.spawn hend ⟨.sub, .imm 1024, 120, 1, 0⟩).wf = true := by decide +kernel
theorem test_wf_atomic : (Instr.amo hsb ⟨.b32, .add, 1, 1, 0, 1, none, 0⟩).wf = false ∧ (Instr.amo hsb ⟨.i32, .add, 1, 1, 3, 1, none, 0⟩).wf = false ∧
    (Instr.red hd ⟨.b32, .swap, 1, 1, none, 0⟩).wf = false := by decide +kernel

/-! ## Words from the encodings -/

def words (l : List Word) : List Byte := l.flatMap wordBytes

/-- The example of R30: `vadd.i32 v3, v1, v2` guarded by m3 with STL 2. -/
theorem test_decode_vadd : decode (words [0x06404010, 0x00020103]) = .instr (.vadd ⟨⟨3, false⟩, false, 2, false⟩ ⟨.i32, false, 3, 1, .lane 2⟩) := by decide +kernel
/-- The examples of R245 and R250 to R258 and R228. -/
theorem test_decode_vcmp : decode (words [0x1E425721, 0x00000103, 0x00000020]) = .instr (.vcmp ⟨⟨15, false⟩, false, 4, false⟩ ⟨.i32, .lt, 3, 1, .imm 32⟩) := by decide +kernel
theorem test_decode_vaddc : decode (words [0x1E805B20, 0x02040602]) = .instr (.vaddc ⟨⟨15, false⟩, false, 4, false⟩ ⟨.n32, false, 2, 6, .lane 4, 2⟩) := by decide +kernel
theorem test_decode_ffma : decode (words [0x1EC16300, 0x0B0A0908]) = .instr (.ffma hd ⟨.f32, .rz, false, 8, 9, .lane 10, 11⟩) := by decide +kernel
theorem test_decode_fdiv : decode (words [0x1EC06A80, 0x00020104]) = .instr (.fdiv hsb ⟨.f32, .rne, false, 4, 1, .lane 2⟩) := by decide +kernel
theorem test_decode_fcvt : decode (words [0x1EE47400, 0x0C000506]) = .instr (.fcvt hd ⟨.e4m3, .f32, .rne, true, 6, 5⟩) := by decide +kernel
/-- Control, memory, matrix and privileged forms, field by field from R341, R152, R161, R275 and R412. -/
theorem test_decode_yld : decode (words [0x1E000805, 0, 0x000C1000]) = .instr (.yld hend ⟨0x1000, 12⟩) := by decide +kernel
theorem test_decode_brd : decode (words [0x0A000305, 0, 0xFFFFFFC0]) = .instr (.brd ⟨⟨5, false⟩, false, 0, true⟩ ⟨0xFFFFFFC0⟩) := by decide +kernel
theorem test_decode_sadd : decode (words [0x1E412001, 0x00000201, 0x7FFFFFFF]) = .instr (.sadd hd ⟨.i32, true, 1, 2, .imm 0x7FFFFFFF⟩) := by decide +kernel
theorem test_decode_ld : decode (words [0x1E0A9080, 0x01000404]) = .instr (.ld hsb ⟨.b32, false, 4, ⟨4, some ⟨1, 2⟩, none⟩⟩) := by decide +kernel
theorem test_decode_amo : decode (words [0x1E0A9782, 0x01020607, 0x00000010, 0x00000307]) =
    .instr (.amo hsb ⟨.b32, .cas, 7, 2, 3, 6, some ⟨1, 2⟩, 16⟩) := by decide +kernel
theorem test_decode_mma : decode (words [0x1EB0B002, 0x02040402, 0x00C00040, 0x00004100]) =
    .instr (.mma hd ⟨.bf16, false, 2, .win 4 0x40, .win 4 0xC0, 2, some ⟨0, some 1, none⟩⟩) := by decide +kernel
theorem test_decode_mma_short : decode (words [0x1EB0B001, 0, 0x00400000]) = .instr (.mma hd ⟨.bf16, false, 0, .win 0 0, .win 0 0x40, 0, none⟩) := by decide +kernel
theorem test_decode_spawn : decode (words [0x1E001006, 0x03000001, 0x00000100, 0x00004020]) = .instr (.spawn hend ⟨.any, .imm 32, 3, 1, 0x100⟩) := by decide +kernel
theorem test_decode_vshfl : decode (words [0x1E0B8000, 0x00030201]) = .instr (.vshfl hd ⟨.bfly, .b32, 1, 2, .unif 3⟩) := by decide +kernel
theorem test_decode_fqpop : decode (words [0x1E00E480, 0x00000014]) = .instr (.fqpop hsb ⟨20⟩) := by decide +kernel
theorem test_decode_replay : decode (words [0x1E00E200, 0x00070605]) = .instr (.replay hd ⟨5, 6, 7, 0⟩) := by decide +kernel
/-- A pad word, a reserved top bit, an unassigned OP, GM 15 with GN 1, a non-zero unused byte, and an unlisted LEN are no instructions (R29, R36, R39, R54). -/
theorem test_decode_refuses :
    decode (words [0x00000003, 0]) = .reject .padWord ∧ decode (words [0x5E003000, 0x00000201]) = .reject .topBits ∧
      decode (words [0x1E000D00, 0]) = .reject .unassignedOp ∧ decode (words [0x3E003000, 0x00000201]) = .reject .badGuard ∧
      decode (words [0x1E003000, 0x00010201]) = .reject .illegalForm ∧ decode (words [0x1E003001, 0x00000201, 0]) = .reject .illegalForm ∧
      decode (words [0x1E003001, 0x00000201]) = .reject .truncated := by decide +kernel

/-! ## Integer forms: the table of R241 and the rules' own cases -/

def u2 (ty : Ty) (sat : Bool) : U2 := ⟨ty, sat, 3, 1, .reg 2⟩
def v2 (ty : Ty) (sat : Bool) : V2 := ⟨ty, sat, 3, 1, .lane 2⟩
def ab (a b : Word) : State := State.withV base [(1, 0, a), (2, 0, b)]
def sab (a b : Dword) : State := State.withS base [(1, a), (2, b)]

theorem test_vdiv_vrem :
    [(7, 2), (0xFFFFFFF9, 2), (7, 0xFFFFFFFE), (7, 0), (0x80000000, 0xFFFFFFFF)].map (fun p : Word × Word =>
      (laneAfter (.vdiv hsb (v2 .i32 false)) (ab p.1 p.2) 3 0, laneAfter (.vrem hsb (v2 .i32 false)) (ab p.1 p.2) 3 0)) =
    [(some 3, some 1), (some 0xFFFFFFFD, some 0xFFFFFFFF), (some 0xFFFFFFFD, some 1), (some 0xFFFFFFFF, some 7), (some 0x80000000, some 0)] := by decide +kernel
theorem test_vdiv_unsigned : laneAfter (.vdiv hsb (v2 .n32 false)) (ab 0xFFFFFFF9 2) 3 0 = some 0x7FFFFFFC := by decide +kernel
theorem test_vadd : laneAfter (.vadd hd (v2 .i32 false)) (ab 0x7FFFFFFF 1) 3 0 = some 0x80000000 ∧
    laneAfter (.vadd hd (v2 .i32 true)) (ab 0x7FFFFFFF 1) 3 0 = some 0x7FFFFFFF := by decide +kernel
theorem test_vsub : laneAfter (.vsub hd (v2 .n32 true)) (ab 3 5) 3 0 = some 0 := by decide +kernel
theorem test_vmulh : laneAfter (.vmulh hd (v2 .i32 false)) (ab 0xFFFFFFFE 3) 3 0 = some 0xFFFFFFFF ∧
    laneAfter (.vmulh hd (v2 .n32 false)) (ab 0xFFFFFFFF 0xFFFFFFFF) 3 0 = some 0xFFFFFFFE := by decide +kernel
theorem test_vsar : laneAfter (.vsar hd (v2 .i32 false)) (ab 0xFFFFFFFB 1) 3 0 = some 0xFFFFFFFD ∧
    laneAfter (.vsar hd (v2 .i32 false)) (ab 0xFFFFFFFB 40) 3 0 = some 0xFFFFFFFF := by decide +kernel
theorem test_vbfe : laneAfter (.vbfe hd (v2 .i32 false)) (ab 0xF0 0x0404) 3 0 = some 0xFFFFFFFF ∧ laneAfter (.vbfe hd (v2 .n32 false)) (ab 0xF0 0x0404) 3 0 = some 0xF ∧
    laneAfter (.vbfe hd (v2 .n32 false)) (ab 0x80000000 0x101C) 3 0 = some 8 := by decide +kernel
theorem test_vclz : laneAfter (.vclz hd ⟨.b32, false, 3, 1⟩) (ab 0 0) 3 0 = some 32 := by decide +kernel
/-- R233: a 32-bit result is sign-extended for I32 and zero-extended for N32. -/
theorem test_sadd : uniformAfter (.sadd hd (u2 .i32 false)) (sab 0x7FFFFFFF 1) 3 = some 0xFFFFFFFF80000000 ∧
    uniformAfter (.sadd hd (u2 .n32 false)) (sab 0x7FFFFFFF 1) 3 = some 0x80000000 := by decide +kernel
theorem test_sdiv : uniformAfter (.sdiv hsb (u2 .i64 false)) (sab 0x8000000000000000 0xFFFFFFFFFFFFFFFF) 3 = some 0x8000000000000000 ∧
    uniformAfter (.srem hsb (u2 .n64 false)) (sab 9 0) 3 = some 9 := by decide +kernel
theorem test_sshl : uniformAfter (.sshl hd (u2 .b32 false)) (sab 1 31) 3 = some 0x80000000 ∧ uniformAfter (.sshl hd (u2 .b32 false)) (sab 1 32) 3 = some 0 := by decide +kernel
theorem test_scmp : uniformAfter (.scmp hd ⟨.i32, .lt, 3, 1, .reg 2⟩) (sab 0xFFFFFFFF 0) 3 = some 1 ∧
    uniformAfter (.scmp hd ⟨.n32, .lt, 3, 1, .reg 2⟩) (sab 0xFFFFFFFF 0) 3 = some 0 := by decide +kernel
/-- R32: a destination of s0 discards its result. -/
theorem test_s0 : (after (.sli hd ⟨0, .short 5⟩) base).map (fun t => (t.team.s, t.readU 0, t.path.pc)) = some ([], 0, 140) := by decide +kernel
/-- R246: the carry is read as it stood, and only the participating lanes of the mask change. -/
theorem test_vaddc : (after (.vaddc hd ⟨.n32, false, 3, 1, .lane 2, 2⟩) (State.withM (ab 0xFFFFFFFF 0) [(2, 3)])).map
    (fun t => (t.team.vval 3 0, t.team.vval 3 1, t.team.mval 2)) = some (0, 1, 1) := by decide +kernel

theorem witness_UniformArithmetic : (Instr.sadd hd ⟨.i64, true, 0, 127, .imm 0x80000000⟩).wf ∧ (Instr.ssub hd (u2 .n64 true)).wf ∧ (Instr.smul hd (u2 .i32 false)).wf ∧
    (Instr.smulh hd (u2 .n32 false)).wf ∧ (Instr.sdiv hsb (u2 .i32 false)).wf ∧ (Instr.srem hsb (u2 .n64 false)).wf ∧ (Instr.smin hd (u2 .i64 false)).wf ∧
    (Instr.smax hd (u2 .n32 false)).wf := by decide +kernel
theorem witness_UniformBits : (Instr.sand hd (u2 .b32 false)).wf ∧ (Instr.sor hd (u2 .b64 false)).wf ∧ (Instr.sxor hd (u2 .b32 false)).wf ∧
    (Instr.sshl hd (u2 .b64 false)).wf ∧ (Instr.sshr hd (u2 .b32 false)).wf ∧ (Instr.ssar hd (u2 .i64 false)).wf ∧ (Instr.sbfe hd (u2 .n64 false)).wf ∧
    (Instr.sbfi hd ⟨.b64, 3, 1, .imm 0xFFFF, 2⟩).wf ∧ (Instr.spopc hd ⟨.b64, 3, 1⟩).wf := by decide +kernel
theorem witness_UniformMoves : (Instr.scmp hd ⟨.b64, .ne, 3, 1, .reg 2⟩).wf := by decide +kernel
theorem witness_VectorArithmetic : (Instr.vadd hd (v2 .i32 true)).wf ∧ (Instr.vsub hd (v2 .n32 true)).wf ∧ (Instr.vmul hd (v2 .i32 false)).wf ∧
    (Instr.vmulh hd ⟨.i64, false, 2, 4, .unif 1⟩).wf ∧ (Instr.vdiv hsb (v2 .i32 false)).wf ∧ (Instr.vrem hsb ⟨.n64, false, 254, 0, .imm 0⟩).wf ∧
    (Instr.vmin hd (v2 .n32 false)).wf ∧ (Instr.vmax hd (v2 .i32 false)).wf ∧ (Instr.vmad hd ⟨.i32, true, 3, 1, .lane 2, 3⟩).wf ∧
    (Instr.vclamp hd ⟨.n64, false, 2, 4, .lane 6, 8⟩).wf ∧ (Instr.vabs hd ⟨.i32, true, 3, 1⟩).wf ∧ (Instr.vneg hd ⟨.i64, false, 2, 4⟩).wf := by decide +kernel
theorem witness_VectorBits : (Instr.vand hd (v2 .b32 false)).wf ∧ (Instr.vor hd ⟨.b64, false, 2, 4, .lane 6⟩).wf ∧ (Instr.vxor hd (v2 .b32 false)).wf ∧
    (Instr.vshl hd ⟨.b64, false, 2, 4, .lane 5⟩).wf ∧ (Instr.vshr hd (v2 .b32 false)).wf ∧ (Instr.vsar hd (v2 .i32 false)).wf ∧ (Instr.vbfe hd (v2 .n32 false)).wf ∧
    (Instr.vbfi hd ⟨.b32, false, 3, 1, .lane 2, 4⟩).wf ∧ Ty.b64.isB = true ∧ pairOk .b64 4 = true ∧ pairOk .b64 2 = true := by decide +kernel
theorem witness_VectorMoves : (Instr.vsel hd ⟨.b64, 2, 4, .lane 6, 14⟩).wf ∧ (Instr.vmov hd ⟨.b64, 2, .unif 1⟩).wf ∧ (Instr.vli hd ⟨.b64, 2, .long 0xFFFFFFFFFFFFFFFF⟩).wf ∧
    (Instr.vcmp hd ⟨.i64, .ge, 14, 2, .lane 4⟩).wf ∧ (Instr.vaddc hd ⟨.n64, true, 2, 4, .lane 6, 0⟩).wf := by decide +kernel
/-- A word list of the encoding tables (R29, R30 and the table of the form) decodes to an instruction. -/
def reads (l : List (List Word × Instr)) : Bool := l.all fun x => decode (words x.1) == .instr x.2

/-- Every control form, field by field (R341). -/
theorem test_words_control : reads [
    ([0x1E000000, 0x00000000], .nop hd .l64), ([0x1E000105, 0x00000000, 0x00000040], .bra hend ⟨0x40⟩), ([0x1E000204, 0x00000900], .brx hend ⟨9, none⟩),
    ([0x1E000205, 0x00000900, 0x00000044], .brx hend ⟨9, some 0x44⟩), ([0x1E000305, 0x00000000, 0x00000080], .brd hend ⟨0x80⟩), ([0x1E000404, 0x00000000], .join hend),
    ([0x1E000505, 0x00000005, 0x00000020], .call hend ⟨5, 0x20⟩), ([0x1E000604, 0x00000500], .ret hend ⟨5⟩), ([0x1E000704, 0x00000000], .exit hend),
    ([0x1E000805, 0x00000000, 0x000C1000], .yld hend ⟨0x1000, 12⟩), ([0x1E000905, 0x00000000, 0x00000077], .trap hend ⟨0x77⟩), ([0x1E000A04, 0x00000700], .sret hend ⟨7⟩),
    ([0x1E000B00, 0x00000E03], .srd hd ⟨3, 0x0E⟩), ([0x1E000C00, 0x0004000F], .swr hd ⟨0x0F, .reg 4⟩), ([0x1E000C01, 0x00000010, 0x0000001F], .swr hd ⟨0x10, .imm 31⟩)] = true := by decide +kernel
/-- Every graph form, field by field (R353, R363, R366, R368, R370, R129). -/
theorem test_words_graph : reads [
    ([0x1E001006, 0x03000001, 0x00000100, 0x00004020], .spawn hend ⟨.any, .imm 32, 3, 1, 0x100⟩),
    ([0x1E001006, 0x00060001, 0x00000100, 0x00002000], .spawn hend ⟨.quad, .reg 6, 0, 1, 0x100⟩),
    ([0x1E011006, 0x03000901, 0x00000100, 0x00001040], .spawnCoh hend ⟨⟨.core, .imm 64, 3, 1, 0x100⟩, 9⟩),
    ([0x1E021006, 0x00000002, 0x00000100, 0x00053008], .spawnE hend ⟨⟨.die, .imm 8, 0, 2, 0x100⟩, 5⟩), ([0x1E001104, 0x00000000], .await hend),
    ([0x1E011104, 0x00000600], .awaitHandle hend ⟨6⟩), ([0x1E001204, 0x00000000], .cbar hend), ([0x1E001300, 0x00000000], .pub hd),
    ([0x1E011301, 0x00060400, 0x00000180], .pubSt hd ⟨.b32, 6, 4, some 0x180⟩), ([0x1E521300, 0x00060400], .pubAdd hd ⟨.i64, 6, 4, none⟩),
    ([0x1E001406, 0x00000400, 0x00000100, 0x00000001], .awaitw hend ⟨.b32, .eq, 0, 4, .imm 0x100 1⟩),
    ([0x1E551405, 0x00070402, 0x00000008], .awaitw hend ⟨.i64, .ge, 2, 4, .regOff 8 7⟩), ([0x1E811404, 0x00070400], .awaitw hend ⟨.n32, .ne, 0, 4, .reg 7⟩),
    ([0x1E041506, 0x00000300, 0x0D0C0B0A, 0x0000000E], .xshuf hend ⟨3, [10, 11, 12, 13, 14]⟩)] = true := by decide +kernel
/-- Every product form, field by field (R300). -/
theorem test_words_product : reads [
    ([0x1E001600, 0x00000302], .bind hd ⟨2, 3⟩), ([0x1E001700, 0x00000300], .unbind hd ⟨3⟩), ([0x1E001804, 0x00000300], .settle hend ⟨3⟩),
    ([0x1E001980, 0x00000302], .qstaleCnt hsb ⟨2, 3⟩), ([0x1E011980, 0x00000302], .qstaleState hsb ⟨2, 3⟩), ([0x1E021980, 0x00000302], .qstaleCap hsb ⟨2, 3⟩),
    ([0x1E031980, 0x00000302], .qstaleApp hsb ⟨2, 3⟩)] = true := by decide +kernel
/-- Every uniform form, field by field (R238, R242). -/
theorem test_words_uniform : reads [
    ([0x1E412001, 0x00000201, 0x7FFFFFFF], .sadd hd ⟨.i32, true, 1, 2, .imm 0x7FFFFFFF⟩), ([0x1E802100, 0x00030201], .ssub hd ⟨.n32, false, 1, 2, .reg 3⟩),
    ([0x1E512200, 0x00030201], .smul hd ⟨.i64, true, 1, 2, .reg 3⟩), ([0x1E902300, 0x00030201], .smulh hd ⟨.n64, false, 1, 2, .reg 3⟩),
    ([0x1E402480, 0x00030201], .sdiv hsb ⟨.i32, false, 1, 2, .reg 3⟩), ([0x1E802580, 0x00030201], .srem hsb ⟨.n32, false, 1, 2, .reg 3⟩),
    ([0x1E102600, 0x00030201], .sand hd ⟨.b64, false, 1, 2, .reg 3⟩), ([0x1E102700, 0x00030201], .sor hd ⟨.b64, false, 1, 2, .reg 3⟩),
    ([0x1E102800, 0x00030201], .sxor hd ⟨.b64, false, 1, 2, .reg 3⟩), ([0x1E102900, 0x00030201], .sshl hd ⟨.b64, false, 1, 2, .reg 3⟩),
    ([0x1E102A00, 0x00030201], .sshr hd ⟨.b64, false, 1, 2, .reg 3⟩), ([0x1E502B01, 0x00000201, 0x00000004], .ssar hd ⟨.i64, false, 1, 2, .imm 4⟩),
    ([0x1E402C00, 0x00030201], .smin hd ⟨.i32, false, 1, 2, .reg 3⟩), ([0x1E802D00, 0x00030201], .smax hd ⟨.n32, false, 1, 2, .reg 3⟩),
    ([0x1E422E00, 0x00030201], .scmp hd ⟨.i32, .lt, 1, 2, .reg 3⟩), ([0x1E002F00, 0x04030201], .ssel hd ⟨1, 2, .reg 3, 4⟩), ([0x1E003000, 0x00000201], .smov hd ⟨1, 2⟩),
    ([0x1E003101, 0x00000001, 0x00000005], .sli hd ⟨1, .short 5⟩), ([0x1E003102, 0x00000001, 0x00000005, 0x00000009], .sli hd ⟨1, .long 0x900000005⟩),
    ([0x1E803200, 0x00030201], .sbfe hd ⟨.n32, false, 1, 2, .reg 3⟩), ([0x1E003300, 0x04030201], .sbfi hd ⟨.b32, 1, 2, .reg 3, 4⟩),
    ([0x1E103400, 0x00000201], .spopc hd ⟨.b64, 1, 2⟩), ([0x1E003500, 0x00000201], .sclz hd ⟨.b32, 1, 2⟩)] = true := by decide +kernel
/-- Every vector form, field by field (R238, R244). -/
theorem test_words_vector : reads [
    ([0x1E494000, 0x00030201], .vadd hd ⟨.i32, true, 1, 2, .unif 3⟩), ([0x1E804100, 0x00030201], .vsub hd ⟨.n32, false, 1, 2, .lane 3⟩),
    ([0x1E514200, 0x00060402], .vmul hd ⟨.i64, true, 2, 4, .lane 6⟩), ([0x1E804300, 0x00030201], .vmulh hd ⟨.n32, false, 1, 2, .lane 3⟩),
    ([0x1E414400, 0x04030201], .vmad hd ⟨.i32, true, 1, 2, .lane 3, 4⟩), ([0x1E404580, 0x00030201], .vdiv hsb ⟨.i32, false, 1, 2, .lane 3⟩),
    ([0x1E804680, 0x00030201], .vrem hsb ⟨.n32, false, 1, 2, .lane 3⟩), ([0x1E004700, 0x00030201], .vand hd ⟨.b32, false, 1, 2, .lane 3⟩),
    ([0x1E004800, 0x00030201], .vor hd ⟨.b32, false, 1, 2, .lane 3⟩), ([0x1E004900, 0x00030201], .vxor hd ⟨.b32, false, 1, 2, .lane 3⟩),
    ([0x1E004A00, 0x00030201], .vshl hd ⟨.b32, false, 1, 2, .lane 3⟩), ([0x1E004B00, 0x00030201], .vshr hd ⟨.b32, false, 1, 2, .lane 3⟩),
    ([0x1E404C01, 0x00000201, 0x00000004], .vsar hd ⟨.i32, false, 1, 2, .imm 4⟩), ([0x1E404D00, 0x00030201], .vmin hd ⟨.i32, false, 1, 2, .lane 3⟩),
    ([0x1E904E00, 0x00060402], .vmax hd ⟨.n64, false, 2, 4, .lane 6⟩), ([0x1E414F00, 0x00000201], .vabs hd ⟨.i32, true, 1, 2⟩),
    ([0x1E505000, 0x00000402], .vneg hd ⟨.i64, false, 2, 4⟩), ([0x1E405100, 0x04030201], .vclamp hd ⟨.i32, false, 1, 2, .lane 3, 4⟩),
    ([0x1E005200, 0x00000201], .vpopc hd ⟨.b32, false, 1, 2⟩), ([0x1E105300, 0x00000402], .vclz hd ⟨.b64, false, 2, 4⟩),
    ([0x1E405400, 0x00030201], .vbfe hd ⟨.i32, false, 1, 2, .lane 3⟩), ([0x1E005500, 0x04030201], .vbfi hd ⟨.b32, false, 1, 2, .lane 3, 4⟩),
    ([0x1E005600, 0x00000201], .vbrev hd ⟨.b32, false, 1, 2⟩), ([0x1E455701, 0x00000103, 0x00000020], .vcmp hd ⟨.i32, .ge, 3, 1, .imm 32⟩),
    ([0x1E005800, 0x04030201], .vsel hd ⟨.b32, 1, 2, .lane 3, 4⟩), ([0x1E005900, 0x00000201], .vmov hd ⟨.b32, 1, .lane 2⟩),
    ([0x1E115900, 0x00000302], .vmov hd ⟨.b64, 2, .unif 3⟩), ([0x1E005A01, 0x00000001, 0x00000007], .vli hd ⟨.b32, 1, .short 7⟩),
    ([0x1E815B00, 0x04030201], .vaddc hd ⟨.n32, true, 1, 2, .lane 3, 4⟩), ([0x1E805C01, 0x00000001, 0x00000009], .vidx hd ⟨1, some 9⟩),
    ([0x1E805C00, 0x00000001], .vidx hd ⟨1, none⟩)] = true := by decide +kernel
/-- Every float form, field by field (R226, R230, R249). -/
theorem test_words_float : reads [
    ([0x1ECE6000, 0x00030201], .fadd hd ⟨.f32, .ru, true, 1, 2, .unif 3⟩), ([0x1EA36100, 0x00030201], .fsub hd ⟨.f16, .rd, false, 1, 2, .lane 3⟩),
    ([0x1EB16200, 0x00030201], .fmul hd ⟨.bf16, .rz, false, 1, 2, .lane 3⟩), ([0x1F246300, 0x04030201], .ffma hd ⟨.x2f16, .rne, true, 1, 2, .lane 3, 4⟩),
    ([0x1EC06400, 0x00030201], .fmin hd ⟨.f32, .rne, false, 1, 2, .lane 3⟩), ([0x1F346500, 0x00030201], .fmax hd ⟨.x2bf16, .rne, true, 1, 2, .lane 3⟩),
    ([0x1EC06600, 0x00000201], .fabs hd ⟨.f32, .rne, false, 1, 2⟩), ([0x1ED46700, 0x00000402], .fneg hd ⟨.f64, .rne, true, 2, 4⟩),
    ([0x1EC76800, 0x00030201], .fcmp hd ⟨.f32, .ord, 1, 2, .lane 3⟩), ([0x1EC06900, 0x00000201], .fclass hd ⟨.f32, 1, 2⟩),
    ([0x1EC06A80, 0x00020104], .fdiv hsb ⟨.f32, .rne, false, 4, 1, .lane 2⟩), ([0x1EC16B80, 0x00000201], .fsqrt hsb ⟨.f32, .rz, false, 1, 2⟩),
    ([0x1EC46C00, 0x00000201], .frcp hd ⟨.f32, .rne, true, 1, 2⟩), ([0x1EC46D00, 0x00000201], .frsq hd ⟨.f32, .rne, true, 1, 2⟩),
    ([0x1EC46E00, 0x00000201], .fexp2 hd ⟨.f32, .rne, true, 1, 2⟩), ([0x1EC46F00, 0x00000201], .flog2 hd ⟨.f32, .rne, true, 1, 2⟩),
    ([0x1EC47000, 0x00000201], .fsin hd ⟨.f32, .rne, true, 1, 2⟩), ([0x1EC47100, 0x00000201], .fcos hd ⟨.f32, .rne, true, 1, 2⟩),
    ([0x1EC37200, 0x00000201], .frnd hd ⟨.f32, .rd, false, 1, 2⟩), ([0x1EC07300, 0x00030201], .fscale hd ⟨.f32, .rne, false, 1, 2, .lane 3⟩),
    ([0x1EE47400, 0x0C000506], .fcvt hd ⟨.e4m3, .f32, .rne, true, 6, 5⟩), ([0x1F217400, 0x0C030201], .fcvtPack hd ⟨.x2f16, .rz, false, 1, 2, 3⟩),
    ([0x1EC07400, 0x13010201], .fcvtUnpack hd ⟨.x2bf16, 1, 2, true⟩), ([0x1E417500, 0x0C000201], .icvt hd ⟨.i32, .f32, .rz, false, 1, 2⟩),
    ([0x1F207600, 0x04030201], .fdot2 hd ⟨.x2f16, .rne, false, 1, 2, .lane 3, 4⟩)] = true := by decide +kernel
/-- Every lane form, field by field (R203). -/
theorem test_words_lane : reads [
    ([0x1E0B8000, 0x00030201], .vshfl hd ⟨.bfly, .b32, 1, 2, .unif 3⟩), ([0x1E118001, 0x00000402, 0x00000001], .vshfl hd ⟨.up, .b64, 2, 4, .imm 1⟩),
    ([0x1E008100, 0x00030201], .vbcast hd ⟨.b32, 1, 2, .reg 3⟩), ([0x1E808280, 0x00000205], .vred hsb ⟨.add, .n32, 5, 2⟩),
    ([0x1E4A8380, 0x00000201], .vscan hsb ⟨.max, true, .i32, 1, 2⟩), ([0x1E008400, 0x00000203], .vballot hd ⟨3, 2⟩),
    ([0x1E408D00, 0x00030205], .vtos hd ⟨.i32, 5, 2, .reg 3⟩)] = true := by decide +kernel
/-- Every mask form, field by field (R212). -/
theorem test_words_mask : reads [
    ([0x1E008500, 0x00030201], .mand hd ⟨1, 2, 3⟩), ([0x1E008600, 0x00030201], .mor hd ⟨1, 2, 3⟩), ([0x1E008700, 0x00030201], .mxor hd ⟨1, 2, 3⟩),
    ([0x1E008800, 0x00000201], .mnot hd ⟨1, 2⟩), ([0x1E008900, 0x00000205], .mcnt hd ⟨5, 2⟩), ([0x1E018A00, 0x00000205], .mfirst hd ⟨true, 5, 2⟩),
    ([0x1E008B00, 0x00030201], .msetRange hd ⟨1, 2, .reg 3⟩), ([0x1E018B00, 0x00000001], .msetActive hd 1),
    ([0x1E028B01, 0x00000201, 0x00000004], .msetWord hd ⟨1, 2, .imm 4⟩), ([0x1E008C00, 0x00030205], .mtest hd ⟨5, 2, .reg 3⟩),
    ([0x1E018C01, 0x00000205, 0x0000001F], .mtestWord hd ⟨5, 2, .imm 31⟩), ([0x1E028C00, 0x00000205], .mtestSum hd ⟨5, 2⟩)] = true := by decide +kernel
/-- Every memory form, field by field (R152, R157 to R166). -/
theorem test_words_memory : reads [
    ([0x1E0A9080, 0x01000404], .ld hsb ⟨.b32, false, 4, ⟨4, some ⟨1, 2⟩, none⟩⟩),
    ([0x1E649101, 0x00030200, 0xFFFFFFFC], .st hd ⟨.n8, true, 3, ⟨2, none, some 0xFFFFFFFC⟩⟩),
    ([0x1E399281, 0x09000204, 0x00000008], .ldk hsb ⟨.i16, 4, ⟨2, some ⟨9, 1⟩, some 8⟩⟩), ([0x1E109380, 0x00000204], .lds hsb ⟨.b64, 4, ⟨2, none, none⟩⟩),
    ([0x1E0B9400, 0x09030200], .sts hd ⟨.b32, 3, ⟨2, some ⟨9, 3⟩, none⟩⟩), ([0x1E709581, 0x00000205, 0x00000004], .sld hsb ⟨.n16, 5, 2, some 4⟩),
    ([0x1E109600, 0x00030200], .sst hd ⟨.b64, 3, 2, none⟩), ([0x1E0A9782, 0x01020607, 0x00000010, 0x00000307], .amo hsb ⟨.b32, .cas, 7, 2, 3, 6, some ⟨1, 2⟩, 16⟩),
    ([0x1EC09802, 0x00020600, 0x00000010, 0x00000008], .red hd ⟨.f32, .fadd, 2, 6, none, 16⟩),
    ([0x1E509B82, 0x00020607, 0x00000000, 0x00000000], .samo hsb ⟨.i64, .add, 7, 2, 0, 6, 0⟩), ([0x1E049901, 0x00000200, 0x00000040], .pref hd ⟨true, ⟨2, none, some 64⟩⟩),
    ([0x1E009A00, 0x00030200], .persist hd ⟨2, none, 3⟩)] = true := by decide +kernel
/-- Every engine form, field by field (R170, R175, R180, R181, R185). -/
theorem test_words_engine : reads [
    ([0x1E05A001, 0x04030201, 0x00000009], .copy hd ⟨true, false, 1, 2, 3, some 4, 9⟩), ([0x1E02A001, 0x00030201, 0x00000009], .copy hd ⟨false, true, 1, 2, 3, none, 9⟩),
    ([0x1E00A100, 0x00000900], .copyw hd ⟨9⟩), ([0x1E01A100, 0x00000000], .copywAll hd), ([0x1E00A201, 0x00050400, 0x00000003], .chain hd ⟨4, 5, 3⟩),
    ([0x1E00A300, 0x00000300], .chainw hd ⟨3⟩), ([0x1E01A300, 0x00000000], .chainwAll hd), ([0x1E01A401, 0x00030200, 0x00000080], .feset hd ⟨true, 2, some 128, 3⟩),
    ([0x1E00A500, 0x00030205], .feq hd ⟨5, 2, none, 3⟩)] = true := by decide +kernel
/-- Every matrix form, field by field (R275, R285, R286, R288, R292). -/
theorem test_words_matrix : reads [
    ([0x1EB6B001, 0x07400201, 0x00000010], .mma hd ⟨.bf16, true, 1, .win 2 0x10, .lane 64, 7, none⟩), ([0x1E00B100, 0x00000700], .mwait hd ⟨7⟩),
    ([0x1E01B100, 0x00000000], .mwaitAll hd), ([0x1E00B200, 0x00000001], .mzero hd ⟨1⟩), ([0x1E00B301, 0x00000201, 0x00000080], .mlda hd ⟨1, 2, some 128⟩),
    ([0x1E00B400, 0x00010200], .msta hd ⟨1, 2, none⟩), ([0x1E2FB500, 0x00000201], .drain hd ⟨.i8, .rd, true, true, 1, 2, none⟩),
    ([0x1E00B600, 0x00000203], .mcbl hd ⟨3, 2, none⟩), ([0x1E00B780, 0x00000005], .mstat hsb ⟨5⟩), ([0x1E01B780, 0x00000005], .mstatIds hsb ⟨5⟩),
    ([0x1E02B780, 0x00000005], .mstatClr hsb ⟨5⟩)] = true := by decide +kernel
/-- Every privileged form, field by field (R412). -/
theorem test_words_privileged : reads [
    ([0x1E00E000, 0x04030200], .tlbiVa hd ⟨2, 3, 4⟩), ([0x1E01E000, 0x04000000], .tlbiAsid hd ⟨4⟩), ([0x1E02E000, 0x00000000], .tlbiAll hd),
    ([0x1E00E100, 0x04030200], .cinvVa hd ⟨2, 3, 4⟩), ([0x1E01E100, 0x04000000], .cinvAsid hd ⟨4⟩), ([0x1E02E100, 0x00000000], .cinvAll hd),
    ([0x1E00E200, 0x08070605], .replay hd ⟨5, 6, 7, 8⟩), ([0x1E01E200, 0x00070605], .replayDlv hd ⟨5, 6, 7, 0⟩), ([0x1E00E300, 0x00070605], .kill hd ⟨5, 6, 7⟩),
    ([0x1E00E480, 0x00000014], .fqpop hsb ⟨20⟩), ([0x1E00E500, 0x00030017], .pswr hd ⟨0x17, 3⟩), ([0x1E01E501, 0x00030000, 0x00001058], .pswrX hd ⟨0x1058, 3⟩),
    ([0x1E02E500, 0x00030000], .pswrSpawn hd ⟨3⟩), ([0x1E00E600, 0x00000605], .preempt hd ⟨5, 6⟩), ([0x1E01E600, 0x00000605], .preemptHard hd ⟨5, 6⟩)] = true := by decide +kernel

/-! ## Float forms: the spec's worked values -/

/-- R256: FDOT2 on X2BF16 writes 0.75, with no flag. -/
theorem test_fdot2 : let s := State.withV base [(1, 0, 0x40403F80), (2, 0, 0xBF004000), (4, 0, 0x3E800000)]
    laneAfter (.fdot2 hd ⟨.x2bf16, .rne, false, 3, 1, .lane 2, 4⟩) s 3 0 = some 0x3F400000 ∧
      flagsAfter (.fdot2 hd ⟨.x2bf16, .rne, false, 3, 1, .lane 2, 4⟩) s = some 0 := by decide +kernel
/-- R230: FRND of 2.5, −2.5, 2.7 and −0.3 in the four modes. -/
theorem test_frnd :
    [RMode.rne, .rz, .ru, .rd].map (fun m => [0x40200000, 0xC0200000, 0x402CCCCD, 0xBE99999A].map fun a : Word =>
      laneAfter (.frnd hd ⟨.f32, m, false, 3, 1⟩) (ab a 0) 3 0) =
    [[some 0x40000000, some 0xC0000000, some 0x40400000, some 0x80000000], [some 0x40000000, some 0xC0000000, some 0x40000000, some 0x80000000],
     [some 0x40400000, some 0xC0000000, some 0x40400000, some 0x80000000], [some 0x40000000, some 0xC0400000, some 0x40000000, some 0xBF800000]] := by decide +kernel
/-- R230: FSCALE on F16 of 1.5 by 15, by 16 (overflow: OF and NX), and by −25 (the least subnormal: UF and NX), with FTZ to 0. -/
theorem test_fscale : let s := ab 0x3E00 0
    [15, 16, 0xFFFFFFE7].map (fun n : Word => (laneAfter (.fscale hd ⟨.f16, .rne, false, 3, 1, .imm n⟩) s 3 0, flagsAfter (.fscale hd ⟨.f16, .rne, false, 3, 1, .imm n⟩) s)) =
      [(some 0x7A00, some 0), (some 0x7C00, some 0x14), (some 0x0001, some 0x18)] ∧
    laneAfter (.fscale hd ⟨.f16, .rne, true, 3, 1, .imm 0xFFFFFFE7⟩) s 3 0 = some 0 := by decide +kernel
/-- R228's worked case: F32 to E4M3 with SAT, and the flags of all its lanes together. -/
theorem test_fcvt : let s := State.withV base [(5, 0, 0x3F800000), (5, 1, 0x3E99999A), (5, 2, 0x43960000), (5, 3, 0x43FA0000), (5, 4, 0xBA83126F), (5, 5, 0x7F800000), (5, 6, 0x7FC00000)]
    (List.range 7).map (laneAfter (.fcvt hd ⟨.e4m3, .f32, .rne, true, 6, 5⟩) s 6) =
      [some 0x38, some 0x2A, some 0x79, some 0x7E, some 0x81, some 0x7E, some 0x7F] ∧
    flagsAfter (.fcvt hd ⟨.e4m3, .f32, .rne, true, 6, 5⟩) s = some 0x1D := by decide +kernel
/-- R228: I8 −5 to N32; and −2.5 and 2.5 to I32 under RNE, −0.5 under RD. -/
theorem test_icvt : laneAfter (.icvt hd ⟨.n32, .i8, .rne, false, 3, 1⟩) (ab 0xFB 0) 3 0 = some 0xFFFFFFFB ∧
    laneAfter (.icvt hd ⟨.i32, .f32, .rne, false, 3, 1⟩) (ab 0xC0200000 0) 3 0 = some 0xFFFFFFFE ∧
    laneAfter (.icvt hd ⟨.i32, .f32, .rne, false, 3, 1⟩) (ab 0x40200000 0) 3 0 = some 2 ∧
    laneAfter (.icvt hd ⟨.i32, .f32, .rd, false, 3, 1⟩) (ab 0xBF000000 0) 3 0 = some 0xFFFFFFFF := by decide +kernel
/-- R252, R220: an exact zero sum is +0, and −0 under RD; 1/0 is +∞ with DZ, and the 0/0 of the other lanes is NV. -/
theorem test_fadd_zero : laneAfter (.fsub hd ⟨.f32, .rne, false, 3, 1, .lane 2⟩) (ab 0x3F800000 0x3F800000) 3 0 = some 0 ∧
    laneAfter (.fsub hd ⟨.f32, .rd, false, 3, 1, .lane 2⟩) (ab 0x3F800000 0x3F800000) 3 0 = some 0x80000000 := by decide +kernel
theorem test_fdiv_zero : laneAfter (.fdiv hsb ⟨.f32, .rne, false, 3, 1, .lane 2⟩) (ab 0x3F800000 0) 3 0 = some 0x7F800000 ∧
    flagsAfter (.fdiv hsb ⟨.f32, .rne, false, 3, 1, .lane 2⟩) (ab 0x3F800000 0) = some 3 := by decide +kernel
theorem test_fmin : laneAfter (.fmin hd ⟨.f32, .rne, false, 3, 1, .lane 2⟩) (ab 0x00000000 0x80000000) 3 0 = some 0x80000000 ∧
    laneAfter (.fmin hd ⟨.f32, .rne, false, 3, 1, .lane 2⟩) (ab 0x7FC00000 0x3F800000) 3 0 = some 0x3F800000 := by decide +kernel
theorem test_fclass : [0xFF800000, 0xBF800000, 0x80000001, 0x80000000, 0, 1, 0x3F800000, 0x7F800000, 0x7F800001, 0x7FC00000].map (fun a : Word =>
    laneAfter (.fclass hd ⟨.f32, 3, 1⟩) (ab a 0) 3 0) = (List.range 10).map fun k => some (BitVec.ofNat 32 (2 ^ k)) := by decide +kernel
theorem test_fcmp : (after (.fcmp hd ⟨.f32, .ne, 3, 1, .lane 2⟩) (ab 0x7FC00000 0)).map (fun t => (t.team.mval 3, t.team.tstat)) = some (1, 0) ∧
    (after (.fcmp hd ⟨.f32, .lt, 3, 1, .lane 2⟩) (ab 0x7FC00000 0)).map (fun t => t.team.tstat) = some 1 := by decide +kernel

theorem witness_FloatArithmetic : (Instr.fadd hd ⟨.f64, .rd, true, 2, 4, .lane 6⟩).wf ∧ (Instr.fsub hd ⟨.x2f16, .ru, false, 3, 1, .imm 0x3C003C00⟩).wf ∧
    (Instr.fmul hd ⟨.bf16, .rz, true, 3, 1, .unif 2⟩).wf ∧ (Instr.fdiv hsb ⟨.f16, .rne, false, 3, 1, .lane 2⟩).wf ∧ (Instr.fscale hd ⟨.f64, .rne, false, 2, 4, .lane 3⟩).wf ∧
    (Instr.ffma hd ⟨.f32, .rz, false, 8, 9, .lane 10, 11⟩).wf ∧ (Instr.fdot2 hd ⟨.x2bf16, .rne, true, 3, 1, .lane 2, 4⟩).wf ∧
    (Instr.fsqrt hsb ⟨.f32, .rne, false, 3, 1⟩).wf ∧ (Instr.frnd hd ⟨.x2bf16, .rd, true, 3, 1⟩).wf := by decide +kernel
/-- The largest F32 value times one; the root of two; a sum at the least normal value under FTZ. -/
theorem witness_FloatRounding : Ty.isVFloat .f32 = true ∧ realOf (fmtOf .f32) (flushIn (fmtOf .f32) true 0x7F7FFFFF) = some (fmtOf .f32).largest ∧
    realOf (fmtOf .f32) (flushIn (fmtOf .f32) true 0x3F800000) = some 1 ∧ realOf (fmtOf .f32) (flushIn (fmtOf .f32) true 0) = some 0 ∧
    ((fmtOf .f32).largest * 1 ≠ 0 ∧ ((fmtOf .f32).largest * 1).abs ≤ (fmtOf .f32).largest ∧ (true = true → (fmtOf .f32).smallestNormal ≤ ((fmtOf .f32).largest * 1).abs)) ∧
    (0 : Rat) < 1 := by decide +kernel
/-- NaN, invalid products, infinities, zeros and negative numbers (F16). -/
theorem witness_FloatSpecial : let v x := fval (fmtOf .f16) (flushIn (fmtOf .f16) false x)
    (v 0x7C01).isNan ∧ mulInvalid (v 0) (v 0x7C00) = true ∧ v 0xFC00 = .inf true ∧ v 0x7C00 = .inf false ∧ v 0x3C00 = .fin false 1024 (-10) ∧
    (v 0x8000).isZero = true ∧ (v 0x7C00).isInf = true ∧ v 0xBC00 = .fin true 1024 (-10) := by decide +kernel
theorem witness_FloatCompare : (Instr.fmin hd ⟨.f64, .rne, true, 2, 4, .lane 6⟩).wf ∧ (Instr.fmax hd ⟨.x2f16, .rne, false, 3, 1, .imm 0⟩).wf ∧
    (Instr.fabs hd ⟨.bf16, .rne, true, 3, 1⟩).wf ∧ (Instr.fclass hd ⟨.f64, 3, 2⟩).wf ∧ (Instr.fcmp hd ⟨.f64, .ord, 14, 2, .lane 4⟩).wf ∧
    realOf (fmtOf .f32) 0x80000000 = some 0 ∧ realOf (fmtOf .f32) 0x3F800000 = some 1 := by decide +kernel
theorem witness_FloatApproximations : (Instr.frcp hd ⟨.f32, .rne, true, 3, 1⟩).wf ∧ (Instr.frsq hd ⟨.x2bf16, .rne, false, 3, 1⟩).wf ∧ (Instr.fexp2 hd ⟨.f16, .rne, false, 3, 1⟩).wf ∧
    (Instr.flog2 hd ⟨.bf16, .rne, false, 3, 1⟩).wf ∧ (Instr.fsin hd ⟨.f32, .rne, false, 3, 1⟩).wf ∧ (Instr.fcos hd ⟨.f32, .rne, false, 3, 1⟩).wf ∧
    (let f := fmtOf .f16; let v x := fval f (flushIn f true x)
      (v 0x4000).real = some 2 ∧ (2 : Rat) ≠ 0 ∧ (2 : Rat)⁻¹.abs ≤ f.largest ∧ f.smallestNormal ≤ (2 : Rat)⁻¹.abs ∧ (0 : Rat) < 2 ∧ (v 0x8001).isZero = true ∧
        v 0x7C00 = .inf false ∧ v 0xFC00 = .inf true ∧ (v 0x7E00).isNan = true ∧ v 0xBC00 = .fin true 1024 (-10)) := by decide +kernel
theorem witness_Conversions : (Instr.fcvt hd ⟨.e4m3, .f32, .ru, true, 6, 5⟩).wf ∧ (Instr.fcvtPack hd ⟨.x2bf16, .rne, false, 3, 1, 2⟩).wf ∧
    (Instr.fcvtUnpack hd ⟨.x2f16, 3, 1, true⟩).wf ∧ (Instr.icvt hd ⟨.n64, .f64, .rd, false, 2, 4⟩).wf ∧ (Instr.icvt hd ⟨.i8, .n64, .rne, true, 3, 4⟩).wf ∧
    (Instr.icvt hd ⟨.f16, .i32, .rne, false, 3, 1⟩).wf ∧ realOf (fmtOf .f32) 0x43E00000 = some 448 ∧ (448 : Rat).abs ≤ (fmtOf .e4m3).largest ∧
    (fval (fmtOf .f64) 0x7FF0000000000001).isNan = true ∧ realOf (fmtOf .f64) 0xBFE0000000000000 = some (-1 / 2) ∧
    intOf .i32 65504 ≠ 0 ∧ ((intOf .i32 65504 : Int) : Rat).abs ≤ (fmtOf .f16).largest := by decide +kernel

/-! ## Lane exchange and masks -/

/-- R204: `down` past the last lane keeps the lane's own value; R205, R206 take an active lane that the guard leaves out. -/
theorem test_vshfl : let s := State.withV base [(1, 31, 7), (1, 30, 5)]
    laneAfter (.vshfl hd ⟨.down, .b32, 3, 1, .imm 1⟩) s 3 31 = some 7 ∧ laneAfter (.vshfl hd ⟨.down, .b32, 3, 1, .imm 1⟩) s 3 30 = some 7 ∧
    laneAfter (.vshfl hd ⟨.bfly, .b32, 3, 1, .imm 31⟩) s 3 1 = some 5 := by decide +kernel
theorem test_vbcast : let s := State.withM (State.withV base [(1, 31, 7)]) [(1, 1)]
    laneAfter (.vbcast ⟨⟨1, false⟩, false, 0, false⟩ ⟨.b32, 3, 1, .imm 31⟩) s 3 0 = some 7 ∧ laneAfter (.vbcast hd ⟨.b32, 3, 1, .imm 32⟩) s 3 0 = some 0 := by decide +kernel
/-- R207: VBALLOT writes the whole mask, also with no lane selected. -/
theorem test_vballot : (after (.vballot hoff ⟨3, 1⟩) (State.withM base [(3, 5)])).map (fun t => t.team.mval 3) = some 0 := by decide +kernel
/-- R208: the sum of 32 lanes, and the identity of min where no lane takes part. -/
theorem test_vred : uniformAfter (.vred hsb ⟨.add, .i32, 3, 1⟩) (State.withV base [(1, 0, 0xFFFFFFFF), (1, 31, 3)]) 3 = some 2 ∧
    uniformAfter (.vred ⟨⟨1, false⟩, true, 0, false⟩ ⟨.min, .i32, 3, 1⟩) base 3 = some 0x7FFFFFFF := by decide +kernel
theorem test_vscan : let s := State.withV base [(1, 0, 1), (1, 1, 2), (1, 2, 4)]
    laneAfter (.vscan hsb ⟨.add, false, .n32, 3, 1⟩) s 3 2 = some 7 ∧ laneAfter (.vscan hsb ⟨.add, true, .n32, 3, 1⟩) s 3 2 = some 3 := by decide +kernel
/-- R213. -/
theorem test_masks : (after (.mnot hd ⟨3, 1⟩) (State.withM base [(1, 1)])).map (fun t => t.team.mval 3) = some 0xFFFFFFFE ∧
    uniformAfter (.mfirst hd ⟨true, 3, 1⟩) (State.withM base [(1, 6)]) 3 = some 2 ∧ uniformAfter (.mfirst hd ⟨false, 3, 1⟩) base 3 = some 0xFFFFFFFFFFFFFFFF ∧
    (after (.msetRange hd ⟨3, 1, .imm 5⟩) (State.withS base [(1, 30)])).map (fun t => t.team.mval 3) = some 0xC0000000 ∧
    uniformAfter (.mtest hd ⟨3, 1, .imm 1024⟩) (State.withM base [(1, 6)]) 3 = some 0 := by decide +kernel

theorem witness_LaneExchange : (Instr.vshfl hd ⟨.up, .b64, 2, 4, .lane 7⟩).wf ∧ (Instr.vbcast hd ⟨.b64, 2, 4, .imm 31⟩).wf ∧ (Instr.vtos hd ⟨.i32, 3, 1, .reg 2⟩).wf ∧
    (Instr.vballot hd ⟨14, 1⟩).wf ∧ 31 < base.team.lanes ∧ base.path.mask.getLsbD 31 = true ∧ base.path.mask.getLsbD 32 = false := by decide +kernel
theorem witness_Reductions : (Instr.vred hsb ⟨.fadd, .f32, 3, 1⟩).wf ∧ (Instr.vscan hsb ⟨.xor, true, .b32, 3, 1⟩).wf ∧ base.lanes ⟨1, false⟩ = [] ∧
    base.lanes ⟨15, false⟩ = List.range 32 ∧ (fval (fmtOf .f32) (0x7FC00000#32).toNat).isNan = true ∧ fval (fmtOf .f32) 0xFF800000 = .inf true ∧
    realOf (fmtOf .f32) 0x3F800000 = some 1 := by decide +kernel
theorem witness_MaskForms : (Instr.mand hd ⟨14, 0, 1⟩).wf ∧ (Instr.mnot hd ⟨14, 0⟩).wf ∧ (Instr.msetRange hd ⟨14, 1, .imm 0xFFFFFFFF⟩).wf ∧ (Instr.msetActive hd 14).wf ∧
    (Instr.mcnt hd ⟨0, 14⟩).wf ∧ (Instr.mfirst hd ⟨true, 127, 14⟩).wf ∧ (Instr.mtest hd ⟨1, 0, .imm 1023⟩).wf := by decide +kernel

/-! ## Control -/

def withPath (s : State) (slot : Bool) (p : Option Path) : State := { s with team := s.team.setPath slot p }
/-- The path of the base state at a pc, with some lanes. -/
def pathAt (pc : Dword) (mask : LaneMask) (w : Option Wait) : Path := { freshPath pc 32 0 with mask := mask, wait := w }
def withStack (s : State) (l : List StackEntry) : State := { s with team := { s.team with stack := l } }
/-- The lanes 0 to 15 in m1. -/
def half : State := State.withM base [(1, 0xFFFF)]
def hm1 : Hdr := ⟨⟨1, false⟩, false, 0, true⟩
def paths (s : State) : Option (Dword × LaneMask) × Option (Dword × LaneMask) := (s.team.path0.map fun p => (p.pc, p.mask), s.team.path1.map fun p => (p.pc, p.mask))

/-- The base state with a trap entry at 0x1000 (R389). -/
def trapping : State := { base with tlb := [⟨0, 0, 0, 0, 2 ^ 38, 0, false, ⟨true, true, false, false⟩, []⟩], parts := base.parts.map fun p => { p with xtrapent := 0x1000 } }

/-- R342, R343. -/
theorem test_bra : (after (.bra hend ⟨0xFFFFFFFC⟩) base).map (·.path.pc) = some 124 ∧ (after (.bra hm1 ⟨0xFFFFFFFC⟩) base).map (·.path.pc) = some 140 ∧
    trapAfter (.bra hend ⟨2⟩) trapping = some (4, 130, 128) := by decide +kernel
theorem test_call : (after (.call hend ⟨5, 0x40⟩) base).map (fun t => (t.path.pc, t.team.uval 5)) = some (0xC0, 140) ∧
    (after (.ret hend ⟨5⟩) (State.withS base [(5, 140)])).map (·.path.pc) = some 140 := by decide +kernel
/-- R26, R328: the taken lanes get the free slot. -/
theorem test_brd : (after (.brd hm1 ⟨0x40⟩) half).map (fun t => (paths t, t.team.stack)) =
    some ((some (140, 0xFFFF0000), some (0xC0, 0xFFFF)), [⟨.split, false, 0, 0⟩]) := by decide +kernel
theorem test_brd_busy : (after (.brd hm1 ⟨0x40⟩) (withPath half true (some (pathAt 256 0xFF00000000 none)))).map (fun t => (paths t, t.team.stack)) =
    some ((some (0xC0, 0xFFFF), some (256, 0xFF00000000)), [⟨.pending, false, 140, 0xFFFF0000⟩]) := by decide +kernel
/-- R329: the pending lanes run next; then both halves go on behind the JOIN. -/
theorem test_join : (after (.join hend) (withStack (withPath base false (some (pathAt 192 1 none))) [⟨.pending, false, 140, 2⟩])).map (fun t => (paths t, t.team.stack)) =
      some ((some (140, 2), none), [⟨.joined, false, 192, 1⟩]) := by decide +kernel
theorem test_join_done : (after (.join hend) (withStack (withPath base false (some (pathAt 192 2 none))) [⟨.joined, false, 192, 1⟩])).map (fun t => (paths t, t.team.stack)) =
      some ((some (200, 3), none), []) := by decide +kernel
theorem test_exit : (after (.exit hm1) half).map paths = some (some (136, 0xFFFF0000), none) ∧ (after (.exit hend) base).map (fun t => t.findTeam 0 1) = some none := by decide +kernel
theorem test_nop : (after (.nop hd .l128) base).map (·.path.pc) = some 144 := by decide +kernel
theorem test_yld : (after (.yld hend ⟨0x1000, 12⟩) base).map (fun t => (t.path.budget, t.team.live, t.path.pc)) = some (0x1000, 12, 140) := by decide +kernel
/-- R338, R347: the trap of TRAP. -/
theorem test_trap : trapAfter (.trap hend ⟨0x77⟩) trapping = some (8, 0x77, 128) ∧
    (after (.trap hend ⟨0x77⟩) trapping).map (fun t => (t.team.uval 1, t.team.uval 2, t.team.uval 3)) = some (8, 128, 0x77) := by decide +kernel
theorem test_srd : uniformAfter (.srd hd ⟨3, 0x02⟩) base 3 = some 32 ∧ uniformAfter (.srd hd ⟨3, 0x11⟩) base 3 = some 65535 := by decide +kernel
/-- R201: a TSTAT bit written as 1 is cleared. -/
theorem test_swr : (after (.swr hd ⟨0x10, .imm 5⟩) { base with team := { base.team with tstat := 7, sure := 7 } }).map (·.team.tstat) = some 2 := by decide +kernel

theorem witness_Transfers : base.acts hend.guard = true ∧ base.acts hoff.guard = false ∧ (base.path.pc + (0xFFFFFFFC#32).signExtend 64).toNat % 4 = 0 ∧
    (base.path.pc + (1#32).signExtend 64).toNat % 4 ≠ 0 := by decide +kernel
/-- Sixteen entries, and no free frame. -/
def full16 : State := withStack half (List.replicate 16 ⟨.pending, false, 128, 1⟩)
theorem witness_Divergence : half.active &&& half.guardMask hm1.guard ≠ 0 ∧ half.active &&& ~~~(half.active &&& half.guardMask hm1.guard) ≠ 0 ∧ half.canPush = true ∧
    full16.canPush = false ∧ full16.active &&& full16.guardMask hm1.guard ≠ 0 ∧ full16.active &&& ~~~(full16.active &&& full16.guardMask hm1.guard) ≠ 0 ∧
    base.active &&& base.guardMask hm1.guard = 0 ∧ base.active &&& ~~~(base.active &&& base.guardMask hend.guard) = 0 ∧ half.team.path true = none := by decide +kernel
def waiting : State := withPath (withStack base [⟨.split, false, 0, 0⟩]) true (some (pathAt 256 0xFF (some .join)))
theorem witness_Joins : waiting.team.path (!waiting.slot) = some (pathAt 256 0xFF (some .join)) ∧ (pathAt 256 0xFF (some .join)).wait = some .join ∧
    waiting.team.top false = some ⟨.split, false, 0, 0⟩ ∧ waiting.team.top true = none ∧ base.team.top false = none ∧ base.team.path true = none ∧
    (withStack base [⟨.pending, true, 4, 1⟩, ⟨.joined, false, 8, 2⟩]).team.top false = some ⟨.joined, false, 8, 2⟩ := by decide +kernel
theorem witness_Exits : half.active &&& half.guardMask hm1.guard ≠ 0 ∧ base.active &&& ~~~(base.active &&& base.guardMask hend.guard) = 0 ∧
    waiting.team.path true = some (pathAt 256 0xFF (some .join)) ∧ (withStack waiting []).team.stack = [] ∧ base.team.solo = none := by decide +kernel
theorem witness_TeamEnd : base.active ≠ 0 ∧ base.active &&& base.guardMask hend.guard = base.active ∧ base.team.path true = none ∧ (∀ e ∈ (withStack base [⟨.split, true, 0, 0⟩]).team.stack, e.kind = .split) ∧
    base.team.copies = [] ∧ base.team.chains = [] ∧ base.team.matq = [] ∧ base.persisting = false ∧
    (match base.flushTeam with | .ok () u => decide (u.team = base.team) | _ => false) = true := by decide +kernel
/-- An outstanding load of the team's path. -/
def loaded (s : State) : State :=
  { withPath s false (some { pathAt 128 0xFFFFFFFF none with sb := [⟨0, .s 3, none, 0⟩] }) with
    loads := [⟨0, 1, s.team.gen, 0, 0, false, ⟨0, .n32, 3, 0, 0, [(0, 0)], false, false⟩, [(0, 0)], [], false⟩] }
theorem witness_TrapEntry : ∃ p, trapping.part trapping.team.pid = some p ∧ trapping.team.solo = none ∧ field p.xtrapent 51 2 ≠ 0 ∧ trapping.acts hend.guard = true ∧
    trapping.loading = false ∧ (match trapping.trapSave p 0x08 5 with | .ok () _ => true | _ => false) = true ∧
    (loaded trapping).loading = true ∧ (loaded trapping).trapEntry ≠ 0 := ⟨_, rfl, by decide +kernel⟩

/-! ## Memory -/

/-- The bytes 0, 1, 2, … of a line. -/
def risingLine : BitVec 1024 := BitVec.ofNat 1024 (bytesNat ((List.range 128).map (BitVec.ofNat 8)))
def ordinary : Perms := ⟨true, true, false, false⟩
def l1Line (tag : Nat) (k : Option Nat) : L1Line := { key := ⟨0, 0, tag⟩, perms := ordinary, k := k, data := risingLine, v := BitVec.allOnes 32, d := 0, be := 0, out := 0, host := false }
def homeLine (tag : Nat) : L2Line := { newLine ⟨0, 0, tag⟩ ordinary (tag * 128) false with data := risingLine, v := BitVec.allOnes 32 }

/-- A partition with a trap entry, frames, save slots, and main memory below 2³⁷ (not the save areas) and host memory mapped one to one for ASID 0; its team has a frame and a save slot.
Core 0 has a line at 1024, the home bank has the lines at 128 and 2048. -/
def world : State :=
  { base with
    parts := base.parts.map fun p => { p with xtrapent := 0x1000, xfpool := 0, xfpsz := 64, xsvpool := BitVec.ofNat 64 (2 ^ 37), xsvcnt := 4, saveUsed := [0], frames := [(0, Frame.blank)] },
    tlb := [⟨0, 0, 0, 0, 2 ^ 37, 0, false, ordinary, []⟩, ⟨0, 0, 0, 2 ^ 48, 2 ^ 48, 0, true, ordinary, []⟩],
    team := { base.team with slotNo := some 0, frame := 0, root := true },
    cores := [(0, { Core.blank with ways := 48, l1 := [l1Line 8 none, l1Line 9 (some 0)] })],
    banks := base.banks.map fun b => (b.1, { b.2 with lines := b.2.lines ++ [homeLine 16] }) }

/-- R4, R157, R160: loads are little-endian, sign-extended for I types. -/
theorem test_sld : uniformAfter (.sld hsb ⟨.b64, 3, 1, some 8⟩) (State.withS world [(1, 1024)]) 3 = some 0x0F0E0D0C0B0A0908 ∧
    uniformAfter (.sld hsb ⟨.i8, 3, 1, none⟩) (State.withS { world with cores := [(0, { Core.blank with l1 := [{ l1Line 8 none with data := 0x80 }] })] } [(1, 1024)]) 3 =
      some 0xFFFFFFFFFFFFFF80 := by decide +kernel
theorem test_ld : laneAfter (.ld hsb ⟨.b32, false, 3, ⟨1, some ⟨2, 2⟩, none⟩⟩) (State.withV (State.withS world [(1, 1024)]) ((List.range 32).map fun l => (2, l, BitVec.ofNat 32 l))) 3 31 =
    some 0x7F7E7D7C := by decide +kernel
theorem test_ldk : laneAfter (.ldk hsb ⟨.n16, 3, ⟨1, none, none⟩⟩) (State.withS world [(1, 1154)]) 3 0 = some 0x0302 := by decide +kernel
/-- R151, R157: where lanes meet, the highest lane's bytes stay. -/
theorem test_st : (after (.st hd ⟨.b32, false, 2, ⟨1, none, none⟩⟩) (State.withV (State.withS world [(1, 1028)]) [(2, 30, 1), (2, 31, 0xAABBCCDD)])).map
    (fun t => [1027, 1028, 1031, 1032].map (t.l1Byte 0 0 0 none)) = some [some 3, some 0xDD, some 0xAA, some 8] := by decide +kernel
theorem test_sst : (after (.sst hd ⟨.n8, 2, 1, none⟩) (State.withS world [(1, 1025), (2, 0xFFFF)])).map (fun t => [1024, 1025, 1026].map (t.l1Byte 0 0 0 none)) =
    some [some 0, some 0xFF, some 2] := by decide +kernel
/-- R154: a misaligned address of lane 5 alone. -/
theorem test_ld_misaligned : trapAfter (.ld hsb ⟨.b32, false, 3, ⟨1, some ⟨2, 0⟩, none⟩⟩) (State.withV (State.withS world [(1, 1024)]) [(2, 5, 2)]) = some (0x0A, 1026, 128) := by decide +kernel
/-- R162, R164: a compare and swap at home returns the old value. -/
theorem test_samo : (after (.samo hsb ⟨.b32, .cas, 3, 2, 4, 1, 0⟩) (State.withS world [(1, 2048), (2, 5), (4, 0x03020100)])).map
    (fun t => (t.team.uval 3, ((t.bank 0).find ⟨0, 0, 16⟩ false).map fun l => byteAt l.data 0)) = some (0x03020100, some 5) := by decide +kernel
theorem test_amo : (after (.amo ⟨⟨1, false⟩, true, 0, false⟩ ⟨.n32, .add, 3, 2, 0, 1, none, 4⟩) (State.withM (State.withV (State.withS world [(1, 2048)]) [(2, 0, 1), (2, 1, 0x100)]) [(1, 3)])).map
    (fun t => (t.team.vval 3 1, ((t.bank 0).find ⟨0, 0, 16⟩ false).map fun l => lineNat l.data 4 4)) = some (0x07060505, some 0x07060605) := by decide +kernel
/-- R142, R159: STS sets F; LDS waits for an empty granule. -/
theorem test_sts : (after (.sts hd ⟨.b32, 2, ⟨1, none, none⟩⟩) (State.withV (State.withS { world with team := { world.team with empty := [(1, true)] } } [(1, 128)]) [(2, 31, 7)])).map
    (fun t => (storeGet 0 t.team.win 128, t.team.full 1)) = some (7, true) := by decide +kernel
theorem test_lds : (after (.lds hsb ⟨.b32, 3, ⟨1, none, none⟩⟩) (State.withS { world with team := { world.team with empty := [(1, true)] } } [(1, 128)])).map
    (fun t => (t.path.wait, t.path.pc)) = some (some .granule, 128) := by decide +kernel
theorem test_feset : (after (.feset hd ⟨false, 1, none, 2⟩) (State.withS world [(1, 127), (2, 2)])).map (fun t => [0, 1, 2].map t.team.full) = some [false, false, true] ∧
    uniformAfter (.feq hd ⟨3, 1, none, 2⟩) (State.withS { world with team := { world.team with empty := [(1, true)] } } [(2, 384)]) 3 = some 5 := by decide +kernel
theorem test_persist : trapAfter (.persist hd ⟨1, none, 2⟩) (State.withS world [(2, 0x40000001)]) = some (0x0A, 0x40000001, 128) := by decide +kernel

/-- Each check at the border of its range: bit 52, a byte past alignment, a byte past the window. -/
theorem witness_AddressChecks :
    (let s := State.withS world [(1, 0x10000000000000)]; 0 ∈ s.lanes hd.guard ∧ 2 ^ 52 ≤ (s.ea ⟨1, none, none⟩ 0).toNat) ∧
    (let s := State.withS world [(1, 0xFFFFFFFFFFFFF)]; 0 ∈ s.lanes hd.guard ∧ (∀ l ∈ s.lanes hd.guard, (s.ea ⟨1, none, none⟩ l).toNat < 2 ^ 52) ∧
      (s.ea ⟨1, none, none⟩ 0).toNat % accessBytes .b32 ≠ 0) ∧
    (let s := State.withS world [(1, 131072)]; (∀ l ∈ s.lanes hd.guard, (s.ea ⟨1, none, none⟩ l).toNat % accessBytes .n8 = 0) ∧
      s.team.window < (s.ea ⟨1, none, none⟩ 0).toNat + accessBytes .n8) ∧ world.acts hd.guard = true ∧ world.lanes hoff.guard = [] := by decide +kernel
theorem witness_LoadHits : (Instr.ld hsb ⟨.b32, false, 3, ⟨1, none, none⟩⟩).wf = true ∧ (Instr.ldk hsb ⟨.b64, 2, ⟨1, none, none⟩⟩).wf = true ∧ (Instr.sld hsb ⟨.i8, 0, 1, none⟩).wf = true ∧
    (∃ x, (world.core world.team.core).findLine (keyOf world.team.pid world.team.asidNow 1148) none = some x ∧ (x.perms.s = true → world.team.privileged = true)) ∧
    (∃ x, (world.core world.team.core).findLine (keyOf world.team.pid world.team.asidNow 1152) (some world.team.tree) = some x ∧ (x.perms.s = true → world.team.privileged = true)) ∧
    (∀ j, j < 4 → world.l1Byte 0 0 0 none (1148 + j) ≠ none) ∧ (∀ j, j < 8 → world.l1Byte 0 0 0 (some 0) (1152 + j) ≠ none) ∧
    (world.core 0).findLine (keyOf 0 0 1024) (some 0) = none :=
  ⟨by decide +kernel, by decide +kernel, by decide +kernel, ⟨_, rfl, by decide +kernel⟩, ⟨_, rfl, by decide +kernel⟩, by decide +kernel, by decide +kernel, by decide +kernel⟩
theorem witness_LoadMiss : (world.core world.team.core).findLine (keyOf 0 0 2048) none = none ∧ world.loadWaits world.who (keyOf 0 0 2048) = false ∧
    (match supplyRead world world.who 2048 .read with
     | .ok _ u => (match l1Room 0 1 (l1Set (keyOf 0 0 2048)) (u.core 0).ways 64 u with | .ok () v => decide (v.team = world.team ∧ v.slot = world.slot ∧ v.running = world.running) | _ => false)
     | _ => false) = true := by decide +kernel
theorem witness_StoreHits : (Instr.st hd ⟨.n8, false, 2, ⟨1, none, none⟩⟩).wf = true ∧ (Instr.sst hd ⟨.b64, 2, 1, none⟩).wf = true ∧
    (∃ x, (world.core world.team.core).findLine (keyOf 0 0 1151) none = some x ∧ x.perms.w = true ∧ (x.perms.s = true → world.team.privileged = true)) ∧
    world.owned 0 0 1151 = false :=
  ⟨by decide +kernel, by decide +kernel, ⟨_, rfl, by decide +kernel⟩, by decide +kernel⟩
theorem witness_AccessesComplete : let s := State.withM (State.withS world [(1, 1024), (2, 2048)]) [(1, 3)]
    (loadTally s .b32 false none 3 ((s.lanes ⟨1, false⟩).map fun l => (l, s.ea ⟨1, none, none⟩ l))).clean = true ∧
    (loadTally s .b32 true none 3 ((s.lanes ⟨1, false⟩).map fun l => (l, s.ea ⟨2, none, none⟩ l))).clean = true ∧
    (loadTally s .b32 false (some s.team.tree) 3 ((s.lanes ⟨1, false⟩).map fun l => (l, s.ea ⟨2, none, none⟩ l))).clean = true ∧
    (storeTally s .b32 true 3 ((s.lanes ⟨1, false⟩).map fun l => (l, s.ea ⟨2, none, none⟩ l))).clean = true ∧
    (atomicTally s .n32 .add (some 3) 2 0 ((s.lanes ⟨1, false⟩).map fun l => (l, s.eaOf 2 none (some 0) l))).clean = true ∧
    (atomicTally s .n32 .add none 2 0 ((s.lanes ⟨1, false⟩).map fun l => (l, s.eaOf 2 none (some 0) l))).clean = true := by decide +kernel
theorem witness_AtomicsAtHome : (Instr.samo hsb ⟨.b64, .cas, 3, 2, 4, 1, 0⟩).wf = true ∧ (Instr.amo hsb ⟨.n32, .add, 3, 2, 0, 1, none, 4⟩).wf = true ∧ (Instr.red hd ⟨.f32, .fadd, 2, 1, none, 0⟩).wf = true ∧
    world.acts hd.guard = true ∧ world.acts hoff.guard = false ∧ (State.withM world [(1, 1)]).lanes ⟨1, false⟩ = [0] :=
  by decide +kernel
theorem witness_wordAtHome : (State.withM world [(1, 1)]).wordAtHome 2168 8 0 (homeLine 16) := ⟨_, 0, rfl, by unfold State.unbound; decide⟩
theorem witness_StagingWindow : (Instr.lds hsb ⟨.n8, 3, ⟨1, none, none⟩⟩).wf = true ∧ (Instr.sts hd ⟨.b64, 2, ⟨1, none, none⟩⟩).wf = true ∧
    (∀ l ∈ world.lanes hd.guard, (world.ea ⟨1, none, some 131064⟩ l).toNat % accessBytes .b64 = 0 ∧ (world.ea ⟨1, none, some 131064⟩ l).toNat + accessBytes .b64 ≤ world.team.window) ∧
    (∀ l ∈ world.lanes hd.guard, ∀ j, j < 8 → world.team.full (((world.ea ⟨1, none, some 131064⟩ l).toNat + j) / 128) = true) ∧
    ({ world with team := { world.team with empty := [(1023, true)] } } : State).team.full 1023 = false := by decide +kernel
theorem witness_FullEmpty : world.acts hoff.guard = false ∧ world.acts hd.guard = true ∧ 131072 ≤ world.team.window ∧ world.team.window < 131073 := by decide +kernel
theorem witness_Prefetch : 2 ^ 52 ≤ ((State.withS world [(1, 0x10000000000000)]).ea ⟨1, none, none⟩ 0).toNat ∧
    (∃ x, (world.core world.team.core).findLine (keyOf 0 0 1024) none = some x ∧ (x.perms.s = true → world.team.privileged = true) ∧ (fun _ => true) x.perms = true) ∧
    world.l1Byte 0 0 0 none 1024 ≠ none := ⟨by decide +kernel, ⟨_, rfl, by decide +kernel⟩, by decide +kernel⟩
theorem witness_Persisting : world.acts hoff.guard = false ∧ world.acts hd.guard = true ∧ world.dirtyIn 0 0 0 0x1000000000000 0x1000040000000 = [] ∧
    (match flushLines 0 1 [] world with | .unbacked => false | _ => true) = true ∧ 0x1000000000000 + 0x40000000 ≤ 2 ^ 52 ∧ 2 ^ 52 < 0xFFFFFFFFFFFFF + 2 := by decide +kernel
/-- A modified port line of persistent memory, and one of other host memory. -/
def flushing : State := { world with parts := world.parts.map (fun p => { p with xhpm := 1 }), port := [⟨3, .m, 7⟩, ⟨2 ^ 24, .m, 9⟩] }
theorem witness_Flush : (∀ c ∈ flushing.cores, ∀ l ∈ c.2.l1, l.host = false ∨ l.d = 0) ∧ flushing.hostOut = [] ∧ (flushing.port.map (·.line)).Nodup ∧
    flushing.portLine 3 = some ⟨3, .m, 7⟩ ∧ flushing.persistentAt (3 * 64) = true ∧ flushing.persistentAt (2 ^ 24 * 64) = false ∧
    (after .globalPersistentFlush flushing).map (fun t => (t.hostByte 192, storeGet 0 t.durable 192, t.portLine 3, t.portLine (2 ^ 24), t.hostByte (2 ^ 30))) =
      some (7, 7, some ⟨3, .e, 7⟩, some ⟨2 ^ 24, .m, 9⟩, 0) := by decide +kernel

/-! ## Engines -/

/-- The world with other bytes in its home line at 2048. -/
def worldWith (data : BitVec 1024) : State := { world with banks := base.banks.map fun b => (b.1, { b.2 with lines := b.2.lines ++ [{ homeLine 16 with data := data }] }) }
def aCopy (id : Nat) (stop : Option (EngineStop × Nat)) : CopyOp :=
  { id := id, tag := 5, ss := true, ds := true, stride := 0, asid := 0, src := 0, dst := 128, len := 8, rows := 1, twoD := false, off := 0, flying := [], stop := stop }
def aChain (id : Nat) (stop : Option (EngineStop × Nat)) : ChainOp := { id := id, tag := 5, asid := 0, desc := [], dst := 0, n := 1, next := 0, stop := stop }
def withTeam (s : State) (f : Team → Team) : State := { s with team := f s.team }
def anMma (id : BitVec 6) (d : Tile) : MmaCmd :=
  { o := ⟨.bf16, false, d, .win 0 0, .win 0 64, id, none⟩, af := .bf16, bf := .bf16, aslot := 0, bslot := 0, a := .win 0, b := .win 8192, fmt := 0, after := [],
    started := false, narrow := false, ends := 0, touched := false, result := [], nan := false, ovf := false }
def commands (n : Nat) : List MatEntry := (List.range n).map fun k => ⟨k, .mma hd (anMma (BitVec.ofNat 6 k) 1).o, 0, 0, .mma (anMma (BitVec.ofNat 6 k) 1)⟩
def tileOps (n : Nat) : List MatEntry := (List.range n).map fun k => ⟨k, .mzero hd ⟨1⟩, 0, 0, .tile (.zero 1)⟩

/-- R172: a copy into the window clears F of the granules it touches; 0x4000_0004 bytes are too many. -/
theorem test_copy : (after (.copy hd ⟨false, true, 1, 2, 3, none, 9⟩) (State.withS world [(1, 124), (2, 2048), (3, 8)])).map
    (fun t => (t.team.copies.length, [0, 1, 2].map t.team.full, t.path.pc)) = some (1, [false, false, true], 140) ∧
    trapAfter (.copy hd ⟨false, false, 1, 2, 3, none, 9⟩) (State.withS world [(1, 0), (2, 2048), (3, 0x40000004)]) = some (0x0A, 0x40000004, 128) := by decide +kernel
theorem test_copyw : (after (.copyw hend ⟨5⟩) (withTeam { world with serial := 1 } fun t => { t with copies := [aCopy 0 none] })).map (fun t => (t.path.pc, t.path.wait)) =
      some (128, some (.ops [0])) ∧
    (after (.copyw hend ⟨6⟩) (withTeam { world with serial := 1 } fun t => { t with copies := [aCopy 0 none] })).map (fun t => (t.path.pc, t.path.wait)) = some (136, none) := by decide +kernel
theorem test_chain : (after (.chain hd ⟨1, 2, 9⟩) (State.withS (worldWith 0) [(1, 2048), (2, 3)])).map (fun t => t.team.chains.map fun c => (c.n, c.tag, c.next)) = some [(3, 9, 0)] ∧
    trapAfter (.chain hd ⟨1, 2, 9⟩) (State.withS (worldWith 0) [(1, 2052), (2, 3)]) = some (0x0A, 2052, 128) := by decide +kernel
/-- R276. -/
theorem test_mma : (after (.mma hd (anMma 7 2).o) world).map (fun t => (t.team.matq.length, t.path.pc)) = some (1, 140) ∧
    trapAfter (.mma hd (anMma 7 2).o) (withTeam world fun t => { t with window := 16383 }) = some (0x0D, 8192, 128) := by decide +kernel
theorem test_mzero : (after (.mzero hd ⟨3⟩) world).map (fun t => t.team.matq.map (·.op)) = some [.tile (.zero 3)] := by decide +kernel
theorem test_msta : (after (.msta hd ⟨3, 0, none⟩) world).map (fun t => [127, 128].map t.team.full) = some [false, true] := by decide +kernel
theorem test_mstat : uniformAfter (.mstatIds hsb ⟨3⟩) (withTeam world fun t => { t with matq := commands 2 }) 3 = some 3 ∧
    uniformAfter (.mstat hsb ⟨3⟩) (withTeam world fun t => { t with matq := commands 2 ++ tileOps 1, ovf := true }) 3 = some 0x41002 := by decide +kernel

theorem witness_CopyIssue : let s := State.withS world [(1, 0x1000000000000), (2, 2048), (3, 8), (4, 0x0000000800000004), (5, 0xFFFFFFFC00000004)]
    (s.readU 2).toNat % 4 = 0 ∧ (s.readU 1).toNat % 4 = 0 ∧ (s.readU 3).toNat ≤ 0x40000000 ∧ (s.readU 4).toNat / 2 ^ 32 = 8 ∧ (s.readU 4).toNat % 2 ^ 32 = 4 ∧
    ((s.readU 5).extractLsb' 32 32).toInt = -4 ∧ 0 ≤ (2048 : Int) + 7 * 4 ∧ (2048 : Int) + 7 * 4 + 4 ≤ 131072 ∧ s.acts hd.guard = true ∧
    s.team.copies.length < Config.copiesPerTeam ∧ s.copiesOn s.team.core < Config.copiesPerCore ∧ ¬(List.replicate 64 (aCopy 0 none)).length < Config.copiesPerTeam := by decide +kernel
theorem witness_flushed : world.flushed := ⟨by decide +kernel, by decide +kernel, by decide +kernel⟩
theorem witness_CopyChecks : let s := State.withS world [(1, 0xFFFFFFFFFFFFC), (2, 8), (3, 2), (4, 6), (5, 0x40000004)]
    s.acts hd.guard = true ∧ 2 ^ 52 < (s.readU 1).toNat + (s.readU 2).toNat ∧ (s.readU 1).toNat + 4 ≤ 2 ^ 52 ∧ (s.readU 3).toNat % 4 ≠ 0 ∧ (s.readU 4).toNat % 2 ^ 32 % 4 ≠ 0 ∧
    0x40000000 < (s.readU 5).toNat ∧ (s.readU 5).toNat % 2 ^ 32 % 4 = 0 := by decide +kernel
theorem witness_EngineWaits :
    let s := withTeam world fun t => { t with copies := [aCopy 0 none, aCopy 1 (some (.bound, 64)), aCopy 2 (some (.misplaced, 8))], chains := [aChain 3 (some (.misplaced, 8))] }
    let u := withPath s false (some (pathAt 128 0xFFFFFFFF (some (.ops [0, 2]))))
    (s.team.copies.filter fun c => c.tag == 5).filterMap (·.stop) = [(.bound, 64), (.misplaced, 8)] ∧ s.team.copies.filter (fun c => c.tag == 6) = [] ∧
    u.path.wait = some (.ops [0, 2]) ∧ (u.team.copies.filter fun c => c.tag == 5 && [0, 2].contains c.id).filterMap (·.stop) = [(.misplaced, 8)] ∧
    s.team.chains.filterMap (·.stop) = [(.misplaced, 8)] ∧ s.acts hend.guard = true ∧
    (let t := withTeam world fun t => { t with sys := false, copies := [aCopy 0 none, aCopy 1 (some (.fault, 64))] }
     (t.team.copies.filterMap (·.stop)) = [(.fault, 64)] ∧ t.team.privileged = false ∧ t.acts hend.guard = true) := by decide +kernel
theorem witness_ChainIssue : world.acts hoff.guard = false ∧ 2 ^ 52 < 0xFFFFFFFFFFF81 + 128 ∧ (worldWith 0).acts hd.guard = true ∧
    (match (worldWith 0).flushTeam with
     | .ok () u => decide (u.team = (worldWith 0).team) && (match engineReadRange u (worldWith 0).who 2048 128, engineReadRange u (worldWith 0).who 2052 128 with
        | .ok bs v, .ok _ x => decide (v.team = (worldWith 0).team ∧ x.team = (worldWith 0).team ∧ v.slot = false ∧ v.running = (worldWith 0).running) && chainLegal bs &&
            (chainDesc bs).bases.all (fun b => decide (b = 0)) && decide ((chainDesc bs).dst = 0)
        | _, _ => false)
     | _ => false) = true ∧
    (match engineReadRange (worldWith 0x8000) (worldWith 0x8000).who 2048 128 with | .ok bs _ => chainLegal bs | _ => true) = false := by decide +kernel
theorem witness_MmaIssue : (Instr.mma hd ⟨.b32, false, 1, .win 1 0, .lane 200, 3, some ⟨5, some 1, none⟩⟩).wf = true ∧
    (let s := withTeam (State.withS world [(5, 0x00000000100C4010#64 ||| 0x140), (1, 0)]) fun t => { t with matq := commands 63 }
     Ty.ofCode ((s.readU 5).extractLsb' 0 5) = some .cb4 ∧ Ty.ofCode ((s.readU 5).extractLsb' 5 5) = some .f16 ∧ (s.readU 5).toNat / 2 ^ 40 = 0 ∧
     (s.readU 5).getLsbD 14 = true ∧ ((s.readU 5).toNat / 2 ^ 16 % 4096) * 256 + 256 ≤ s.team.window ∧
     0 + 512 * mmaBits .cb4 ≤ s.team.window ∧ 224 + 2 * mmaBits .f16 ≤ s.team.vregs ∧ s.team.cmdq < 64 ∧ s.team.mmaWith 63 = none ∧ (s.team.mmaWith 1).isSome = true) ∧
    64 ≤ (withTeam world fun t => { t with matq := commands 64 }).team.cmdq := by decide +kernel
theorem witness_MmaChecks : let s := withTeam (State.withS world [(1, 1)]) fun t => { t with vregs := 31 }
    s.acts hd.guard = true ∧ (s.readU 1 + BitVec.ofNat 64 0).toNat % 128 ≠ 0 ∧ s.team.window < (s.readU 0 + BitVec.ofNat 64 (128 * 961)).toNat + 512 * mmaBits .bf16 ∧
    s.team.vregs < (0#8).toNat + 2 * mmaBits .f16 := by decide +kernel
theorem witness_TileOperations : (withTeam world fun t => { t with matq := tileOps 16 }).team.topq = 16 ∧ (withTeam world fun t => { t with matq := tileOps 15 }).team.topq < 16 ∧
    114688 % 128 = 0 ∧ 114688 + 16384 ≤ world.team.window ∧ world.team.window < 114816 + 16384 ∧ world.acts hd.guard = true ∧ world.acts hoff.guard = false ∧
    (withTeam world fun t => { t with empty := [(2, true)] }).team.full (256 / 128) = false ∧
    drainLegal (natBytes 64 (256 * 2 ^ 32)) .f32 world.team.window = true ∧ drainLegal (natBytes 64 0) .f32 world.team.window = false := by decide +kernel
theorem witness_MatrixStatus : let s := withTeam { world with serial := 70 } fun t => { t with matq := commands 64 ++ tileOps 15 }
    (∃ e ∈ s.team.matq, e.order ∈ (s.team.matq.filter fun e => match e.op with | .mma c => c.o.id == 63 | .tile _ => false).map (·.order)) ∧
    (∀ e ∈ world.team.matq, e.order ∉ [5]) ∧ s.acts hd.guard = true ∧ s.team.cmdq < 2 ^ 12 ∧ s.team.topq < 2 ^ 5 := by decide +kernel

/-! ## Teams and synchronization -/

/-- A team without tiles and window, of 16 lane registers. -/
def plain : State := withTeam world fun t => { t with ntiles := 0, window := 0, vregs := 16 }
def aKid (seq frame size ended : Nat) (bad : List AbEnd) : Kid := { seq := seq, frame := frame, tag := 7, first := 9, size := size, ended := ended, frames := [], bad := bad }
def cohort3 (arrived : List Nat) : Cohort := { id := 4, pid := 0, first := 1, size := 3, phase := false, arrived := arrived, ended := [2] }
def inCohort (arrived : List Nat) : State := { withTeam world (fun t => { t with cohort := some 4, cohidx := 0, cohsize := 3 }) with cohorts := [cohort3 arrived] }
def awEq : AwaitwO := ⟨.b32, .eq, 3, 1, .imm 0 0x03020100⟩
def watched (got : Option Dword) : State :=
  { withPath world false (some { (pathAt 128 (laneLimit 32) none) with wait := some .watch }) with watches := [⟨0, 1, false, 0, 2048, .b32, .eq, 0x03020100, got⟩] }

/-- R355, R356, R362: a child of 32 lanes, and its record. -/
theorem test_spawn : (after (.spawn hend ⟨.any, .imm 32, 0, 3, 0x100⟩) plain).map (fun t => (t.team.kids.map fun k => (k.first, k.size, k.ended), (t.core 0).deque.map (·.sub), t.path.pc)) =
    some ([(2, 1, 0)], [0], 144) := by decide +kernel
theorem test_spawn_traps : trapAfter (.spawn hend ⟨.any, .imm 1024, 0, 3, 0x100⟩) world = some (3, 0, 128) ∧
    trapAfter (.spawn hend ⟨.any, .imm 1, 0, 3, 0x101⟩) plain = some (4, 0, 128) := by decide +kernel
theorem test_spawnCoh : (after (.spawnCoh hend ⟨⟨.any, .imm 1, 0, 3, 0x100⟩, 1⟩) (State.withS plain [(1, 3)])).map (fun t => t.team.kids.map fun k => (k.first, k.size, k.frames.length)) =
    some [(2, 3, 3)] ∧ trapAfter (.spawnCoh hend ⟨⟨.any, .imm 1, 0, 3, 0x100⟩, 1⟩) (State.withS plain [(1, 1025)]) = some (3, 0, 128) := by decide +kernel
/-- R360: the child runs at once, and its parent keeps the registers below LIVE. -/
theorem test_spawnE : (after (.spawnE hend ⟨⟨.sub, .imm 32, 0, 3, 0x100⟩, 1⟩) (State.withV plain [(0, 0, 5), (1, 0, 6)])).map
    (fun t => ((t.team.phase, t.team.vval 0 0, t.team.vval 1 0), t.teams.map fun c => (c.id, c.path0.map (·.pc)))) =
    some ((.continuation, 5, 0), [(2, some 384)]) := by decide +kernel
theorem test_await : (after (.await hend) (withTeam { world with serial := 9 } fun t => { t with kids := [aKid 0 5 1 1 []] })).map (fun t => (t.team.kids, t.path.pc)) = some ([], 136) ∧
    trapAfter (.await hend) (withTeam { world with serial := 9 } fun t => { t with kids := [aKid 0 5 1 1 [⟨2, 0x33, 4⟩]] }) = some (0x10, 0x3300000004, 128) := by decide +kernel
theorem test_cbar : (after (.cbar hend) (inCohort [1])).map (fun t => (t.path.wait, t.cohorts.map (·.phase))) = some (none, [true]) ∧
    (after (.cbar hend) (inCohort [])).map (fun t => (t.path.wait, t.cohorts.map (·.arrived))) = some (some .barrier, [[0]]) := by decide +kernel
theorem test_pubAdd : (after (.pubAdd hd ⟨.n32, 2, 1, some 4⟩) (State.withS world [(1, 2048), (2, 1)])).map (fun t => ((t.bank 0).find ⟨0, 0, 16⟩ false).map fun l => lineNat l.data 4 4) =
    some (some 0x07060505) ∧ trapAfter (.pubSt hd ⟨.b64, 2, 1, some 4⟩) (State.withS world [(1, 2048)]) = some (0x0A, 2052, 128) := by decide +kernel
/-- R370: the word holds at once; another is watched for. -/
theorem test_awaitw : uniformAfter (.awaitw hend awEq) (State.withS world [(1, 2048)]) 3 = some 0x03020100 ∧
    (after (.awaitw hend awEq) (State.withS world [(1, 2052)])).map (fun t => (t.path.wait, t.watches.map (·.va))) = some (some .watch, [2052]) := by decide +kernel
theorem test_xshuf : (after (.xshuf hend ⟨1, [4, 5]⟩) (State.withS world [(1, 77)])).map (fun t => t.rally.map fun r => (r.id, r.regs, r.deadline)) = some [(77, [4, 5], 64 * 256)] := by decide +kernel

theorem witness_Spawning : plain.team.attr = none ∧ plain.acts hend.guard = true ∧
    (plain.countsAt 0 0 384 (16, 0)).1 * 128 * ((1024 + 31) / 32) ≤ Config.laneRegBytes ∧ Config.laneRegBytes < (world.countsAt 0 0 384 (256, 0)).1 * 128 * ((1024 + 31) / 32) ∧
    plain.path.held = [] ∧ (plain.path.pc + (0x100#32).signExtend 64).toNat % 4 = 0 ∧ (plain.path.pc + (0x101#32).signExtend 64).toNat % 4 ≠ 0 ∧
    (∀ p ∈ base.parts, p.freeFrames 1 = none) ∧ plain.team.ntiles = 0 ∧ plain.team.window = 0 ∧
    [[1], [4], [3, 1]].all (fun need => match plain.reserve need with
      | some u => (match u.part 0, u.path.held with | some p, f :: fs => p.frames.any (fun x => x.1 == f) && !(fs.contains f) | _, _ => false) | none => false) = true := by decide +kernel
theorem witness_quiet : plain.quiet ∧ plain.flushed := ⟨by unfold State.quiet; decide, ⟨by decide +kernel, by decide +kernel, by decide +kernel⟩⟩
theorem witness_EagerSpawn : let o : SpawnEO := ⟨⟨.sub, .imm 32, 0, 3, 0x100⟩, 16⟩
    plain.spawnCheck (plain.spawnPlan o.base) 1 = none ∧ (∀ r ∈ plain.loads, r.team ≠ plain.team.id) ∧ plain.team.phase = .resident ∧ plain.acts hend.guard = true ∧
    (match plain.reserve [1 + contFrames 16 32, 1] with
     | some u => decide (u.path.held.length = 1 + contFrames 16 32) && (u.part 0).isSome && u.eagerHere (u.spawnPlan o.base) && decide ((u.core 0).ways ≤ waysFor (u.windowSum 0))
     | none => false) = true ∧ (plain.countsAt 0 0 384 (16, 0)).2.2 = 0 := by decide +kernel
theorem witness_Awaiting : let s (k : List Kid) := withTeam { world with serial := 9 } fun t => { t with kids := k }
    (∃ k ∈ (s [aKid 8 5 2 1 []]).team.kids.filter (fun k => decide (k.seq < (s [aKid 8 5 2 1 []]).waitLimit)), k.ended < k.size) ∧
    (∀ k ∈ (s [aKid 0 5 2 2 []]).team.kids, k.size ≤ k.ended) ∧ ([aKid 0 5 2 2 [⟨2, 1, 9⟩, ⟨3, 2, 9⟩]].flatMap (·.bad)) = [⟨2, 1, 9⟩, ⟨3, 2, 9⟩] ∧
    handleOf 256 7 ≠ handleOf 512 7 ∧ world.acts hend.guard = true ∧ world.path.wait = none := by decide +kernel
theorem witness_quietAwait : let s := withTeam { world with serial := 9 } fun t => { t with kids := [aKid 8 5 2 1 []] }
    s.quiet ∧ ∀ l x, s.path.wait ≠ some (.awaiting l x) := by
  have h : (withTeam { world with serial := 9 } fun t => { t with kids := [aKid 8 5 2 1 []] }).path.wait = none := by decide +kernel
  exact ⟨by unfold State.quiet; decide +kernel, fun l x => by simp [h]⟩
theorem witness_Barrier : (false ∈ (withTeam world fun t => { t with cbar := [false] }).team.cbar) ∧ false ∉ world.team.cbar ∧ world.team.cohort = none ∧
    (inCohort []).cohorts.find? (fun y => y.id == 4) = some (cohort3 []) ∧ (1 < (cohort3 []).size ∧ 1 ∉ [0] ∧ 1 ∉ (cohort3 []).ended) ∧
    (∀ j, j < (cohort3 [1]).size → j ∈ [0, 1] ∨ j ∈ (cohort3 [1]).ended) ∧ (inCohort [1]).team.cohidx ∉ (cohort3 [1]).arrived ∧
    (withPath (inCohort []) true (some (pathAt 256 1 none))).team.path true = some (pathAt 256 1 none) ∧ (pathAt 256 1 none).wait ≠ some .barrier := by decide +kernel
theorem witness_Publishing : world.acts hd.guard = true ∧ (match world.flushTeam with | .ok () u => decide (u.team = world.team ∧ u.slot = world.slot ∧ u.running = world.running) | _ => false) = true ∧
    world.path.wait = none ∧ (Instr.pubSt hd ⟨.b32, 2, 1, none⟩).wf = true ∧ (Instr.pubAdd hd ⟨.i64, 2, 1, none⟩).wf = true ∧ 2172 % accessBytes .b32 = 0 := by decide +kernel
theorem witness_WordWaits : (Instr.awaitw hend awEq).wf = true ∧ world.acts hend.guard = true ∧ world.path.wait ≠ some .watch ∧ (watched none).path.wait = some .watch ∧
    ((watched (some 0x03020100)).myWatch.map (·.got)) = some (some 0x03020100) ∧ ((watched none).myWatch.map (·.got)) = some none ∧
    Cond.rel .eq (intOf .b32 0x03020100) (intOf .b32 (world.awValue .b32 awEq.cmp)) = true ∧ Cond.rel .eq (intOf .b32 0x03020101) (intOf .b32 (world.awValue .b32 awEq.cmp)) = false := by decide +kernel
theorem witness_RallyPosts : world.acts hend.guard = true ∧ (world.part world.team.pid).isSome = true ∧ world.path.wait = none ∧
    (withPath world false (some (pathAt 128 1 (some .rally)))).path.wait = some .rally ∧ (withPath world false (some (pathAt 128 1 (some .broken)))).path.wait = some .broken := by decide +kernel

/-! ## Standing products -/

/-- A descriptor of a product of one element (R298): I8 operands, an I32 result, and its areas four pages apart. -/
def bindDesc (slotBase : Nat) : Nat :=
  slotBase + 0x20000 * 2 ^ 64 + 0x30000 * 2 ^ 128 + 0x40000 * 2 ^ 192 + (1 + 2 ^ 32 + 2 ^ 64) * 2 ^ 256 + (4 + 4 * 2 ^ 32 + 4 * 2 ^ 64) * 2 ^ 352 +
    (0x02 + 0x02 * 32 + 0x04 * 1024 + 4 * 65536) * 2 ^ 480
def binding (slot : Nat) (f : Binding → Binding) : Option Binding := (bindingOf (natBytes 128 (bindDesc 0x10000)) 0 0).map fun b => f { b with slot := slot, tag := 7 }
def withBinding (f : Binding → Binding) : State := { world with binds := (binding 0 f).toList }

theorem test_bind : (after (.bind hd ⟨3, 1⟩) (State.withS (worldWith (BitVec.ofNat 1024 (bindDesc 0x10000))) [(1, 2048)])).map
      (fun t => (t.team.uval 3, t.binds.map fun b => (b.slot, b.m, b.il, b.logn))) = some (0x10000, [(0, 1, .init, 4)]) ∧
    trapAfter (.bind hd ⟨3, 1⟩) (State.withS (worldWith 0) [(1, 2048)]) = some (1, 2048, 128) := by decide +kernel
theorem test_unbind : (after (.unbind hd ⟨1⟩) (State.withS (withBinding id) [(1, 0x70000)])).map (fun t => t.binds.length) = some 0 ∧
    (after (.unbind hd ⟨1⟩) (State.withS (withBinding id) [(1, 0x60000)])).map (fun t => t.binds.length) = some 1 := by decide +kernel
/-- R320: the state word of a live binding in INIT; 0 for a dead handle. -/
theorem test_qstale : uniformAfter (.qstaleState hsb ⟨3, 1⟩) (State.withS (withBinding id) [(1, 0x70000)]) 3 = some 0x8000000300000000 ∧
    uniformAfter (.qstaleCap hsb ⟨3, 1⟩) (State.withS (withBinding id) [(1, 0x60000)]) 3 = some 0 := by decide +kernel
theorem test_settle : (after (.settle hend ⟨1⟩) (State.withS (withBinding id) [(1, 0x70000)])).map (fun t => (t.path.wait, t.path.pc)) = some (some (.settle 0x70000 0 (some 0)), 128) ∧
    (after (.settle hend ⟨1⟩) (State.withS (withBinding fun b => { b with il := .idle }) [(1, 0x70000)])).map (fun t => (t.path.wait, t.path.pc)) = some (none, 136) := by decide +kernel

theorem witness_Binds : let s := worldWith (BitVec.ofNat 1024 (bindDesc 0x10000))
    s.acts hd.guard = true ∧ (match s.flushTeam with
    | .ok () u => decide (u.team = s.team) && (match engineReadRange u s.who 2048 128 with
      | .ok bs v => decide (v.team = s.team ∧ v.slot = s.slot ∧ v.running = s.running) && (match bindingOf bs 0 0 with
        | some b => b.extents.all (fun x => decide (x.1.last ≤ 2 ^ 52)) && !bindOutside v b && bindApart b (v.bindsOf 0 0) && !bindFifth b (v.bindsOf 0 0) && decide (v.freeBinding 0 = some 0) &&
            (match bindWalk b true b.walkPages v with | (.ok () w, 0) => decide (w.team = s.team ∧ w.slot = s.slot ∧ w.running = s.running ∧ w.binds = v.binds ∧ w.bindTag = v.bindTag) | _ => false)
        | none => false)
      | _ => false)
    | _ => false) = true ∧ bindingOf (natBytes 128 0) 0 0 = none ∧ 2 ^ 52 < 0xFFFFFFFFFFF81 + 128 ∧
    ({ world with binds := List.replicate Config.bindingsPerPartition ((binding 0 id).getD ⟨0, 0, 0, 0, 0, 0, 0, 0, 0, 0, 0, 0, 0, 0, 0, .i8, .i8, .i32, false, 4, 0, 0, [], [], [], [], [], .init, [], 0, false, false⟩) } : State).freeBinding 0 = none := by decide +kernel
theorem witness_BindingUse : (withBinding id).liveBinding 0x70000 = binding 0 id ∧ (binding 0 id).isSome = true ∧ (withBinding id).liveBinding 0 = none ∧
    (binding 0 id).map (·.hold) = some [] ∧ world.acts hd.guard = true := by decide +kernel
theorem witness_Settling : (withBinding id).liveBinding 0x70000 = (withBinding id).binding 0 ∧ (binding 0 id).map (fun b => (b.slot, b.err, b.il, b.capseq)) = some (0, false, .init, 0) ∧
    (withBinding id).path.wait = none ∧ (withBinding id).team.copies = [] ∧ (withPath (withBinding id) false (some (pathAt 128 1 (some (.settle 0x70000 0 (some 0)))))).path.wait = some (.settle 0x70000 0 (some 0)) ∧
    (binding 0 fun b => { b with il := .idle }).map (·.il) = some .idle ∧
    (match speSettle 0 (withBinding fun b => { b with il := .idle }) with | .ok () u => decide (u.team = world.team ∧ u.slot = world.slot ∧ u.running = world.running) | _ => false) = true := by decide +kernel
/-- A binding with a held write at 0x20000: PUB waits for it. -/
theorem witness_held : (withBinding fun b => { b with hold := [⟨9, 0x20000, 5, 1, some 0⟩] }).stillHeld 9 0x20000 4 = true ∧ (withBinding id).stillHeld 9 0x20000 4 = false := by decide +kernel
theorem witness_flushedBinding : (withBinding id).flushed := ⟨by decide +kernel, by decide +kernel, by decide +kernel⟩

/-! ## Privileged forms -/

/-- A second team of the world's partition, on the next sub-core. -/
def mate : Team := { world.team with id := 2, sub := 1, slotNo := some 1, root := false, path0 := some (pathAt 256 (laneLimit 32) none) }
def withMate (f : Team → Team) : State := { world with teams := [f mate] }
def onFault : Park := { slot := false, unfinished := 6, faults := [⟨0, 4100, .load, 1, 2, 1⟩], engine := false }
def aFault : FaultEntry := { pid := 0, asid := 3, va := 0x1234000, kind := .store, cause := 2, pc := 0x9000, team := 7, core := 47, gen := 5, ulanes := 12, merge := 3, teams := [7] }

theorem test_tlbi : (after (.tlbiAll hd) world).map (fun t => t.tlb.length) = some 0 ∧
    (after (.tlbiVa hd ⟨1, 2, 3⟩) (State.withS world [(1, 4095), (2, 2)])).map (fun t => (t.tlb.map (·.base), t.path.pc)) = some ([2 ^ 48], 136) ∧
    trapAfter (.tlbiVa hd ⟨1, 2, 3⟩) (State.withS world [(1, 0xFFFFFFFFFFFFF), (2, 2)]) = some (0x0B, 0, 128) ∧
    (after (.tlbiAsid hd ⟨3⟩) (State.withS world [(3, 9)])).map (fun t => t.tlb.length) = some 2 := by decide +kernel
theorem test_cinv : (after (.cinvVa hd ⟨1, 2, 3⟩) (State.withS world [(1, 100), (2, 1)])).map
      (fun t => (t.cores.flatMap fun c => c.2.l1.map fun l => l.key.tag, t.banks.flatMap fun b => b.2.lines.map fun l => l.key.tag, t.shoots)) =
      some ([], [], [⟨0, some 0, 0, 4096, false⟩]) ∧ (after (.cinvAsid hd ⟨3⟩) world).map (fun t => t.shoots) = some [⟨0, some 0, 0, 2 ^ 52, true⟩] ∧
    (after (.cinvAll hd) world).map (fun t => t.shoots) = some [⟨0, none, 0, 2 ^ 52, true⟩] := by decide +kernel
/-- R414: the parked team goes on at its instruction, for the lanes that are unfinished. -/
theorem test_replay : (after (.replay hd ⟨3, 1, 2, 0⟩) (State.withS (withMate fun t => { t with park := some onFault }) [(1, 4096)])).map
      (fun t => (t.team.uval 3, t.teams.map fun x => (x.park, x.path0.map (·.redo)))) = some (1, [(none, some (some 6))]) ∧
    (after (.replay hd ⟨3, 1, 2, 0⟩) (State.withS (withMate fun t => { t with park := some onFault }) [(1, 8192)])).map (fun t => t.team.uval 3) = some 0 := by decide +kernel
theorem test_replayDlv : (after (.replayDlv hd ⟨3, 1, 2, 0⟩) (State.withS (withMate fun t => { t with park := some onFault, phase := .saved }) [(1, 4096)])).map
      (fun t => (t.team.uval 3, t.teams.map fun x => x.path0.map (·.wait), t.parts.map fun p => p.overflow.length)) = some (1, [some (some (.trapping 0x0B 4100))], [1]) := by decide +kernel
/-- R415: a TEAMID without GEN; the GEN of another team. -/
theorem test_kill : (after (.kill hd ⟨3, 1, 2⟩) (State.withS (withMate id) [(1, 2), (2, 0xE01)])).map (fun t => (t.team.uval 3, t.teams.map (·.id))) = some (1, []) ∧
    (after (.kill hd ⟨3, 1, 2⟩) (State.withS (withMate id) [(1, 0x8000000100000002)])).map (fun t => (t.team.uval 3, t.teams.map (·.id))) = some (0, [2]) := by decide +kernel
/-- R416: the fields of a fault-queue entry. -/
theorem test_fqpop : (after (.fqpop hd ⟨20⟩) { world with fq := [aFault] }).map (fun t => (t.team.uval 20, t.team.uval 21, t.team.uval 22, t.team.uval 23, t.fq.length)) =
      some (0x9000, 0x1234000, 0x0000000700030012, 0x800301800005002F, 0) ∧
    (after (.fqpop hd ⟨20⟩) (State.withS world [(20, 1), (23, 1)])).map (fun t => (t.team.uval 20, t.team.uval 23)) = some (0, 0) := by decide +kernel
theorem test_pswr : (after (.pswr hd ⟨0x18, 1⟩) (State.withS world [(1, 0x123456789)])).map (·.team.trappc) = some 0x123456789 ∧
    (after (.pswrX hd ⟨0x1058, 1⟩) (State.withS world [(1, 0xFFF0000000001003)])).map (fun t => t.parts.map (·.xtrapent)) = some [0x1000] ∧
    trapAfter (.pswrX hd ⟨0x1004, 1⟩) world = some (1, 0, 128) ∧ (after (.pswrSpawn hd ⟨1⟩) (State.withS world [(1, 9)])).map (·.team.attr) = some (some 9) := by decide +kernel
theorem test_preempt : (after (.preempt hd ⟨3, 1⟩) (State.withS (withMate id) [(1, 2)])).map (fun t => (t.team.uval 3, t.teams.map (·.preempt))) = some (1, [some ⟨false, 0, false⟩]) ∧
    (after (.preemptHard hd ⟨3, 1⟩) (State.withS (withMate id) [(1, 2)])).map (fun t => (t.team.uval 3, t.teams.map (·.preempt))) = some (1, [some ⟨true, 0, false⟩]) ∧
    (after (.preempt hd ⟨3, 1⟩) (State.withS (withMate id) [(1, 1)])).map (fun t => t.team.uval 3) = some 0 := by decide +kernel

theorem witness_Invalidates : world.acts hd.guard = true ∧ world.acts hoff.guard = false ∧ ∃ p, world.part 0 = some p ∧ p.ownsAsid 0 = true ∧ p.ownsAsid 9 = false ∧
    2 ^ 52 < 0xFFFFFFFFFFFFF + 2 ∧ world.binds = [] ∧ (∀ b ∈ p.banks, (world.bank b).txns = []) ∧
    (∀ c ∈ p.quads.flatMap fun q => (List.range 4).map (4 * q + ·), (∀ l ∈ (world.core c).l1, l.d = 0) ∧ (world.core c).acks = []) ∧ world.msgs = [] :=
  ⟨by decide +kernel, by decide +kernel, _, rfl, by decide +kernel⟩
def sending : Txn := { key := ⟨0, 0, 1⟩, kind := .rd, die := 1, words := 1, fwd := [], inv := [], need := [], sent := true, landed := false }
theorem witness_CacheInvalidate_waits : let s : State := { world with banks := base.banks.map fun b => (b.1, { b.2 with txns := [sending] }) }
    (∃ t ∈ (s.bank 0).txns, t.key.pid = 0 ∧ Covers (some 0) 0 4096 t.key.asid t.key.va (t.key.va + 128)) ∧
    (after (.cinvAll hd) s).map (fun t => (t.path.wait, t.path.pc)) = some (some .retry, 128) :=
  ⟨⟨sending, by decide +kernel, rfl, .inr rfl, by decide +kernel, by decide +kernel⟩, by decide +kernel⟩
theorem witness_Replaying : let s := withMate fun t => { t with park := some onFault, phase := .saved }
    s.acts hd.guard = true ∧ s.team.park = none ∧ (s.part 0).isSome = true ∧ s.findTeam 0 2 = s.teams[0]? ∧ (s.teams[0]?.bind (·.park)) = some onFault ∧
    (∀ x ∈ s.live, x.park.isSome = true → x.phase = .saved) ∧ (onFault.faults.any fun f => decide (4096 / 4096 * 4096 ≤ f.va) && decide (f.va < (4096 + 1 + 4095) / 4096 * 4096)) = true := by
  decide
theorem witness_Killing : let s := withMate fun t => { t with phase := .saved, parent := some 1 }
    s.acts hd.guard = true ∧ s.teamNamed 0 2 = s.teams[0]? ∧ s.teamNamed 0 5 = none ∧ s.queuedNamed 0 5 = none ∧ s.teamNamed 0 1 = some s.team ∧ s.findTeam 0 2 = s.teams[0]? ∧
    s.teams.map (fun t => (t.phase, t.cohort, t.ending)) = [(.saved, none, none)] ∧ (∀ y ∈ s.live, y.parent ≠ some 2) ∧ s.rally = [] ∧ s.team.ending = none ∧
    (2 : Nat) < 2 ^ 63 ∧ s.teams.map (s.stopped true) = [true] ∧ (let u : State := { s with cores := [(0, { Core.blank with acks := [⟨0, 2, .store, ⟨0, 0, 9⟩, 1, 0⟩] })] }; u.teams.map u.unacked = [true]) ∧ 0x8000000100000002 / 2 ^ 32 % 2 ^ 16 ≠ (0 : Nat) ∧ s.team.phase ≠ .ended := by decide +kernel
theorem witness_FaultPop : ({ world with fq := [aFault] } : State).fq.find? (fun e => e.pid == world.team.pid) = some aFault ∧ world.fq.find? (fun e => e.pid == world.team.pid) = none ∧
    world.fqWait = [] ∧ aFault.va < 2 ^ 64 ∧ aFault.ulanes < 2 ^ 11 ∧ aFault.merge < 2 ^ 15 ∧ aFault.core < 2 ^ 16 ∧ aFault.team < 2 ^ 32 ∧ (1 ≤ (124 : Nat)) ∧ world.acts hd.guard = true := by decide +kernel
theorem witness_PrivilegedWrites : world.acts hd.guard = true ∧ (world.part world.team.pid).isSome = true ∧ 0x1004 % 8 ≠ 0 ∧ 0x1008 % 8 = 0 ∧ (0x504 : Nat) % 16 ≤ 0x504 / 256 % 16 ∧
    0x504 / 256 % 16 ≤ 8 ∧ world.team.flagPend = [] ∧
    (after (.pswrX hd ⟨0x1008, 1⟩) (State.withS world [(1, 0x504)])).map (fun t => t.parts.map fun p => (p.floor, p.ceil, p.share)) = some [(4, 5, [4, 4, 4, 4])] := by decide +kernel
theorem witness_Preempting : let s := withMate fun t => { t with preempt := some ⟨false, 0, false⟩ }
    s.acts hd.guard = true ∧ s.teamNamed 0 2 = s.teams[0]? ∧ s.findTeam 0 2 = s.teams[0]? ∧ s.teams.map (·.phase) = [.resident] ∧ s.teamNamed 0 9 = none := by decide +kernel

/-! ## Scheduling -/

/-- The mate with few registers and a hard request to leave, and its state after the save (R406). -/
def small : Team := { mate with lanes := 1, vregs := 1, ntiles := 0, window := 0, v := [(0, 77)], s := [(3, 0x1234)], tstat := 5 }
def leaving (hard : Bool) : State := withMate fun _ => { small with preempt := some ⟨hard, 0, false⟩ }
def aSpec : TeamSpec :=
  { pid := 0, entry := 384, lanes := 33, vregs := 16, tiles := 1, window := 128, asid := 0, cls := 2, sys := false, tree := 0, chksb := false,
    args := [11, 12], size := 3, cohort := some 4, parent := some (1, 0), root := false, mesh := false }
/-- The save areas mapped as well. -/
def saveMap : List TlbEntry := [⟨0, 0, 0, 0, 2 ^ 38, 0, false, ordinary, []⟩]
def anEntry (kind : DeqKind) : DeqEnt := { pid := 0, age := 3, since := 0, sub := 1, aff := .core, kind := kind }
def withEntry (s : State) (kind : DeqKind) : State := { s with cores := [(0, { s.core 0 with deque := [anEntry kind] })], cohorts := [cohort3 []] }
def queued : State := withEntry world (.spawn aSpec 1 2 [0x2000, 0x3000, 0x4000] [])
/-- A continuation of TEAMID 2 on sub-core 1, whose child 3 has ended. -/
def continued : State := withEntry (withMate fun _ => { small with phase := .continuation }) (.cont 2 [0x2000] 3)

theorem test_runArbitration : (after (.runArbitration 1) (withMate id)).map (fun t => storeFind t.running 1) = some (some ⟨0, 2, false⟩) ∧
    (after (.runArbitration 0) world).map (·.running) = some world.running := by decide +kernel
theorem test_starvationPromotion : (after (.starvationPromotion 2 false) { withMate id with cycle := 4096 }).map (fun t => t.teams.map fun x => x.path0.map (·.promo)) = some [some 1] ∧
    (after (.starvationPromotion 2 false) { withMate id with cycle := 4095 }).map (fun t => t.teams.map fun x => x.path0.map (·.promo)) = some [some 0] := by decide +kernel
/-- R355, R356: the second of three siblings starts at its entry. -/
theorem test_dequeTake : (after (.dequeTake 1) queued).map (fun t => t.teams.map fun c => ([c.id, c.sub, c.frame, c.cohidx, c.cohsize], c.path0.map (·.pc), c.uval 1, c.uval 3)) =
    some [([3, 1, 0x3000, 1, 3], some 384, 11, 0)] := by decide +kernel
theorem test_continuationTakeBack : (after (.continuationTakeBack 1 2) continued).map (fun t => (t.findTeam 0 2).map fun x => (x.phase, x.sub, x.uval 3, x.path0.map (·.pc))) =
    some (some (.resident, 1, 0x1234, some 256)) := by decide +kernel
theorem test_graceExpiry : (after (.graceExpiry 2) { leaving false with cycle := 2048 }).map (fun t => t.teams.map (·.preempt)) = some [some ⟨true, 0, false⟩] ∧
    (after (.graceExpiry 2) { leaving false with cycle := 2047 }).map (fun t => t.teams.map (·.preempt)) = some [some ⟨false, 0, false⟩] := by decide +kernel
theorem test_cbarWake : (after (.cbarWake 0 4) { withPath (inCohort []) false (some (pathAt 128 1 (some .woken))) with cycle := 9 }).map (fun t => (t.path.wait, t.path.readyAt)) = some (none, 9) := by decide +kernel
/-- The core is full: TEAMIDs 2 and 5 keep all its tiles, and a sibling waits. -/
def crowded : State := { withEntry (inCohort []) (.spawn { aSpec with tiles := 8, vregs := 64, lanes := 1024 } 1 2 [0x2000, 0x3000, 0x4000] []) with cycle := 4096 }
def stuck : State := withPath crowded false (some (pathAt 128 1 (some .barrier)))
def allBusy : State := { stuck with teams := (List.range 31).map fun i => { mate with id := 10 + i, window := 0, core := (i + 1) / 8, sub := (i + 1) % 8 } }

theorem witness_Scheduling_runs : storeFind world.running 0 ≠ none ∧ storeFind (withMate id).running 1 = none ∧ (withMate id).choices 1 ≠ [] := by decide +kernel
theorem witness_Scheduling_starves : let s : State := { withMate id with cycle := 4096 }
    s.evTeam 2 = s.teams[0]? ∧ s.teams.map (fun x => (s.ready x false (pathAt 256 (laneLimit 32) none), effective x.cls 0, x.path0 == some (pathAt 256 (laneLimit 32) none))) = [(true, 2, true)] ∧
    (s.part 0).map (fun q => q.xsched.toNat % 256) = some 16 ∧ storeFind s.running 1 = none ∧ 0 + 256 * 16 ≤ s.cycle := by decide +kernel
theorem witness_Scheduling_takes : (queued.partOfCore 0).map (·.pid) = some 0 ∧ queued.idleSub 1 = true ∧ queued.issuing 0 = true ∧
    queued.nextEntry 0 1 = some (anEntry (.spawn aSpec 1 2 [0x2000, 0x3000, 0x4000] [])) ∧ (queued.core 0).ways ≤ waysFor (queued.windowSum 0 + 128) ∧
    ((queued.part 0).bind Partition.freeSlot).isSome = true := by decide +kernel
theorem witness_Scheduling_continues : continued.deqs 0 = [anEntry (.cont 2 [0x2000] 3)] ∧ continued.findTeam 0 3 = none ∧ continued.findTeam 0 2 = continued.teams[0]? ∧
    continued.entryFits 1 (anEntry (.cont 2 [0x2000] 3)) = true ∧ continued.issuing 0 = true ∧ (continued.core 0).ways ≤ waysFor (continued.windowSum 0 + 0) := by decide +kernel
theorem witness_Preemption_sibling : allBusy.cohorts.find? (fun y => y.id == 4) = some (cohort3 []) ∧ (allBusy.deqs 0).map (fun e => (allBusy.placeable e, match e.kind with | .spawn spec .. => spec.cohort | _ => none)) = [(false, some 4)] ∧
    allBusy.team.cohort = some 4 ∧ allBusy.team.preempt = none ∧ allBusy.path.wait = some .barrier := by decide +kernel
theorem witness_Preemption_starved : let k : DeqKind := .spawn { aSpec with tiles := 8, vregs := 64, lanes := 1024, cls := 0 } 1 2 [] []
    let s := { allBusy with cores := [(0, { allBusy.core 0 with deque := [{ anEntry k with since := 0 }] })] }
    (s.partOfCore 0).isSome = true ∧ ((s.core 0).deque.map fun e => (s.entryNeeds e == some (0, 1024, 64, 8, 128), s.placeable e, e.allows 0)) = [(true, false, true)] ∧
    s.fits 0 0 (some 1) 1024 64 8 128 = true ∧ 0 + 256 * 16 ≤ s.cycle ∧ (∀ z ∈ s.residents 0, z.sub = 0 → z.id = 1) := by decide +kernel
theorem witness_Preemption_soft : let x : Team := { small with preempt := some ⟨false, 0, false⟩, path0 := some (pathAt 256 1 (some .join)) }
    let s : State := { withMate fun _ => x with tlb := saveMap }
    s.evTeam 2 = some x ∧ s.findTeam 0 2 = some x ∧ x.ending = none ∧ (match flushOf s x with | .ok () u => decide (u.team = s.team ∧ u.teams = s.teams) && (u.part 0).isSome && (match u.saveTeam x false with | .ok () _ => true | _ => false) | _ => false) = true ∧
      s.atPoint x = true ∧ s.atBoundary x = true ∧ s.outside x = true ∧ s.unacked x = false ∧ s.loads = [] := by decide +kernel
theorem witness_Preemption_hard : let s : State := { leaving true with tlb := saveMap }
    s.evTeam 2 = s.teams[0]? ∧ s.teams.map (fun x => (s.halted x, x.preempt)) = [(true, some ⟨true, 0, false⟩)] ∧ (s.part 0).map (fun p => p.xsched.toNat / 2 ^ 16 % 256) = some 8 ∧
    (match s.teams with
     | [x] => (match flushOf s x with
      | .ok () u => decide (u.team = s.team ∧ u.teams = s.teams) && (match u.saveTeam x true with | .ok () t => decide ((t.teams.map fun y => (y.phase, y.gen)) = [(.saved, 1)]) | _ => false)
      | _ => false)
     | _ => false) = true := by decide +kernel
/-- The first line of the mate's save area, as R409 lays it out: PC0 256, one path, LIVE 1, 1 lane, TEAMID 2, class 2, system, TSTAT 5, both budgets. -/
def areaLine : L2Line :=
  { newLine ⟨0, 0, 137440264192 / 128⟩ ordinary 137440264192 false with
    v := BitVec.allOnes 32,
    data := BitVec.ofNat 1024 (256 + 2 ^ 128 + 2 ^ 160 + 2 ^ 192 + 2 * 2 ^ 224 + 2 * 2 ^ 288 + 2 ^ 304 + 5 * 2 ^ 384 + 0x0000FFFF0000FFFF * 2 ^ 640) }
def savedState : State :=
  { withMate (fun _ => { small with phase := .saved, v := [], tstat := 0 }) with
    tlb := saveMap,
    banks := world.banks.map fun b => (b.1, { b.2 with lines := areaLine :: b.2.lines }),
    parts := world.parts.map fun p => { p with saveUsed := [0, 1], overflow := [{ pid := 0, age := 3, since := 0, sub := 0, aff := .any, kind := .saved 2 }] } }
theorem witness_Scheduling_restores : let s := savedState
    (s.partOfCore 0).map (·.pid) = some 0 ∧ s.idleSub 1 = true ∧ s.issuing 0 = true ∧
      (match s.nextEntry 0 1 with
       | some e => decide (e.kind = .saved 2 ∧ e.pid = 0) && (match (s.dropEntry e).part 0, s.findTeam 0 2 with
          | some p, some x => decide (((s.dropEntry e).core 0).ways ≤ waysFor ((s.dropEntry e).windowSum 0 + 0)) && (match readArea (s.dropEntry e) 0 0 (x.saveAddr p) x.areaBytes with
            | .ok bs v => decide (v.team = s.team ∧ v.teams = s.teams) && (match teamOf bs x p v.serial with | some (y, ws) => ws.isEmpty && decide (y.tstat = 5 ∧ y.path0.map (·.pc) = some 256) | none => false)
            | _ => false)
          | _, _ => false)
       | none => false) = true := by decide +kernel

/-! ## What reaches a team -/

/-- A load of four bytes for the lanes 0 and 31 of TEAMID 1, under scoreboard entry 7. -/
def aLoad : LoadRec := { pid := 0, team := 1, gen := 0, core := 0, sb := 7, slot := false, wafer := ⟨0, .i8, 3, 0, 2048, [(0, 0), (31, 1)], false, false⟩, vals := [(0, 0xFF), (31, 0xFFFFFFFF)], any := [], passed := false }
def aUniformLoad : LoadRec := { aLoad with wafer := ⟨3, .b64, 5, 0, 2048, [(0, 0)], false, false⟩, vals := [(0, 99)] }
def sbOf (id : Nat) (due : Option Nat) : SbEntry := { id := id, reg := .v 3, due := due, last := 0 }
def loading (l : List LoadRec) : State := { withPath world false (some { (pathAt 136 (laneLimit 32) none) with sb := [sbOf 7 none, sbOf 8 none] }) with loads := l }

theorem test_responseArrival : (after (.responseArrival 0) (loading [aLoad])).map (fun t => (t.team.vval 3 0, t.team.vval 3 31, t.path.sb.map (·.id), t.loads.length)) =
      some (0xFF, 0xFFFFFFFF, [8], 0) ∧
    (after (.responseArrival 0) (loading [aUniformLoad, aLoad])).map (fun t => (t.team.uval 5, t.path.sb.map (·.id), t.loads.length)) = some (99, [7, 8], 1) := by decide +kernel
theorem test_responseArrival_stale : (after (.responseArrival 0) (loading [{ aLoad with gen := 1 }])).map (fun t => (t.team.vval 3 0, t.path.sb.map (·.id))) = some (0, [7, 8]) := by decide +kernel
theorem test_sbResultWrite : (after (.sbResultWrite 1 false) (withPath { world with cycle := 1 } false (some { (pathAt 136 1 none) with sb := [sbOf 7 none, sbOf 8 (some 0)] }))).map (fun t => t.path.sb.map (·.id)) = some [7] := by decide +kernel
def acking : State := { world with cores := [(0, { world.core 0 with acks := [⟨0, 1, .flush, ⟨0, 0, 8⟩, 1, 5⟩, ⟨0, 1, .atomic, ⟨0, 0, 9⟩, 1, 6⟩] })] }
/-- The flush's write is still a packet. -/
def onWay : State := { acking with packets := [packetOf 0 (.quad 0) (.bank 0) (.write ⟨0, 0, 8⟩ 0 0xF ⟨5, 0, 1, 0⟩) 0] }
theorem test_requestAcknowledge : (after (.requestAcknowledge 0 0) acking).map (fun t => (t.core 0).acks.map (·.kind)) = some [.atomic] := by decide +kernel
/-- The world with a host window (R432). -/
def hostWorld : State := { world with parts := world.parts.map fun p => { p with hwBase := 0, hwLast := 2 ^ 20 } }
def hostWatch : Watch := ⟨0, 1, false, 0, 2 ^ 48 + 64, .b32, .eq, 0, none⟩
theorem test_awaitwPoll : (after (.awaitwPoll 1) { hostWorld with watches := [hostWatch], link := .pcie }).map (fun t => t.watches.map (·.got)) = some [some 0] ∧
    (after (.awaitwPoll 1) { hostWorld with watches := [hostWatch] }).map (·.portReq) = some [(1, false)] := by decide +kernel
theorem test_faultEnqueue : (after (.faultEnqueue 0) { world with fqWait := [{ aFault with va := 4096 }], parts := world.parts.map fun p => { p with xfqdb := 0x1008 } }).map
    (fun t => (t.fq.length, t.fqWait.length, t.atomics.map fun a => (a.va, a.o))) = some (1, 0, [(0x1008, 1)]) := by decide +kernel
theorem test_faultEnqueue_together : (after (.faultEnqueue 0) { world with fqWait := [aFault, { aFault with va := 4096 }, { aFault with va := 8192, pc := 8 }] }).map
    (fun t => (t.fq.map (·.va), t.fqWait.length)) = some ([aFault.va, 4096], 1) := by decide +kernel
theorem test_yieldWatchdog : (after .yieldWatchdog (withPath base false (some { (pathAt 128 1 none) with budget := 0 }))).map (fun t => t.findTeam 0 1) = some none := by decide +kernel
/-- The base state before a word with an unassigned OP. -/
def illegal : State := { trapping with banks := base.banks.map fun b => (b.1, { b.2 with lines := b.2.lines.map fun l => { l with data := 0xD00 } }) }
theorem test_notLegalInstruction : trapAfter (.notLegalInstruction 1) illegal = some (1, 0, 128) := by decide +kernel

theorem witness_Responses : (loading [aLoad]).loads[0]? = some aLoad ∧ (loading []).findTeam 0 1 = some (loading []).team ∧ (loading []).findTeam 0 9 = none ∧
    (loading []).team.gen = aLoad.gen ∧ (loading []).team.core = aLoad.core ∧ (loading []).team.matq = [] ∧ (∀ v ∈ aLoad.vals, v.1 < 1024) ∧ (aLoad.vals.map (·.1)).Nodup ∧
    aLoad.wafer.ty.is64 = false ∧ aUniformLoad.wafer.kind = 3 ∧ (5 : UReg).setWidth 8 = aUniformLoad.wafer.dreg := by decide +kernel
theorem witness_Responses_results : let s := withPath world false (some { (pathAt 136 1 none) with sb := [sbOf 7 none, sbOf 8 (some 0)] })
    s.evTeam 1 = some s.team ∧ s.findTeam 0 1 = some s.team ∧ (s.path.sb.find? (fun e => e.due.isSome)) = some (sbOf 8 (some 0)) ∧
    (acking.core 0).acks[0]? = some ⟨0, 1, .flush, ⟨0, 0, 8⟩, 1, 5⟩ ∧
    (match acking.performWrite 5 with | .ok () u => decide (u = acking) && !u.underWay 5 | _ => false) = true ∧ onWay.underWay 5 = true ∧
    (match onWay.performWrite 5 with | .ok () u => u.underWay 5 | _ => false) = true ∧ onWay.inbox = [] := by decide +kernel
theorem witness_Responses_polls : let s : State := { hostWorld with watches := [hostWatch] }
    s.evTeam 1 = some s.team ∧ s.watches.filter (fun y => y.pid == 0 && y.team == 1 && y.got.isNone) = [hostWatch] ∧ s.watchHost hostWatch = some 64 ∧ s.portLine 1 = none ∧
    (s.part 0).map s.portCaches = some true ∧ (s.part 0).map ({ s with link := .pcie } : State).portCaches = some false ∧ s.portReq = [] ∧ s.hostOut = [] ∧
    64 % (if hostWatch.ty.is64 then 8 else 4) = 0 := by decide +kernel
theorem witness_FaultQueue : let s : State := { world with fqWait := [aFault] }
    s.fqWait.find? (fun e => e.pid == 0) = some aFault ∧ (s.part 0).map (fun p => (p.xfq.toNat / 2 ^ 16 % 2 ^ 11, p.xfq.toNat % 2 ^ 11)) = some (64, 16) ∧
    (0 < 64 ∧ 0 < 16) ∧ ¬(64 < (64 : Nat)) := by decide +kernel
theorem witness_DecodeTraps : ([] : List Byte).length < lowWordLength (bytesWord []) ∧ decode (words [0xD00, 0]) = .reject .unassignedOp ∧
    decode (words [0x1E003000, 0x00000201]) = .instr (.smov hd ⟨1, 2⟩) ∧ Instr.opcode (.tlbiAll hd) = 0xE0 ∧ Instr.withinCounts (.ldk hsb ⟨.b32, 7, ⟨1, none, none⟩⟩) 7 0 = false ∧ base.path.runCount ≠ Config.runLength ∧
    base.team.solo = none ∧ base.team.phase = .resident ∧ base.team.parent ≠ some 1 := by decide +kernel
theorem witness_DecodeTraps_run : let s := withPath base false (some { (pathAt 128 1 none) with budget := 0 })
    s.path.charged = false ∧ (match s.fetch with
      | .code bs u => (match u.checkCode bs with | .legal i => decide (Instr.opcode i ≠ 0x08) | _ => false) &&
          (let h := u.halt u.team.pid [u.team.id]; h.stopped true h.team && (match flushOf h h.team with | .ok () v => decide (v.team = h.team ∧ v.teams = h.teams) | _ => false))
      | _ => false) = true ∧
    (match illegal.fetch with
      | .code bs u => (match u.checkCode bs with | .trap c => c == 1 | _ => false)
      | _ => false) = true := by decide +kernel

/-! ## Rallies, memory and the directory -/

def post (team : Nat) (paired : Option Nat) (regs : List LaneReg) (lanes : LaneMask) : Rally :=
  { bank := 0, pid := 0, team := team, slot := false, id := 77, regs := regs, lanes := lanes, deadline := 100, paired := paired }
/-- Two posts; registers 4 and 5 of both teams hold the team's number and the register's. -/
def rallying (paired : Option Nat) : State :=
  { State.withV (withMate fun t => { t with v := [(laneKey 4 0, 24), (laneKey 5 0, 25), (laneKey 4 1, 26)], path0 := some (pathAt 256 3 (some .rally)) }) [(4, 0, 14), (5, 0, 15), (4, 1, 16)] with
    rally := [post 1 paired [4, 5] 3, post 2 paired [5, 4] 1] }
/-- R132: position by position, in the lanes of both. -/
theorem test_rallyPair : (after (.rallyPair 0) (rallying (some 9))).map (fun t => ((t.findTeam 0 1).map fun x => (x.vval 4 0, x.vval 5 0, x.vval 4 1), t.rally.length)) = some (some (25, 24, 16), 0) := by decide +kernel
theorem test_rallyTimeout : (after (.rallyTimeout 0) { rallying none with cycle := 100 }).map (fun t => ((t.findTeam 0 1).map fun x => (x.trapcode, x.trappc), t.rally.length)) = some (some (9, 128), 1) ∧
    (after (.rallyTimeout 0) { rallying none with cycle := 99 }).map (fun t => t.rally.length) = some 2 := by decide +kernel
theorem test_mtuWalk : (after (.mtuWalk 0 0 4096) world).map (fun t => t.tlb.length) = some 2 ∧ (after (.mtuWalk 0 7 4096) world).map (fun t => t.tlb.length) = some 2 := by decide +kernel
def readOnlyLine : L2Line := { homeLine 16 with perms := ⟨false, true, false, false⟩ }
def readOnly : State := { world with banks := base.banks.map fun b => (b.1, { b.2 with lines := b.2.lines ++ [readOnlyLine] }) }
theorem test_permissionMiss : (after (.permissionMiss 0 0 2048 false) readOnly).map (fun t => ((t.bank 0).find ⟨0, 0, 16⟩ false).map fun l => l.perms.w) = some (some true) := by decide +kernel
def agents : State := { world with haq := [⟨none, 256, [1, 2], [true, false]⟩, ⟨none, 300, [3], [true]⟩, ⟨none, 512, [4], [true]⟩] }
/-- R56, R59: in order within a 256-byte block; a block that cannot be corrected is poisoned. -/
theorem test_homeAgentRequest : (after (.homeAgentRequest 0 false) agents).map (fun t => (t.mem, t.haq.length, t.poison)) = some ([(256, 1)], 2, []) ∧
    (after (.homeAgentRequest 1 false) agents).map (fun t => (t.mem, t.haq.length)) = some ([], 3) ∧
    (after (.homeAgentRequest 2 true) agents).map (fun t => (t.mem, t.haq.length, t.poison)) = some ([(512, 4)], 2, [2]) ∧
    (after (.homeAgentRequest 8 true) agents).map (·.poison) = some [5] := by decide +kernel
/-- A home line with one dirty byte and one valid sector, over memory that holds 9 in every third byte listed. -/
def partLine : L2Line := { homeLine 16 with data := 0xAA, v := 0xFF00, d := 1, be := 1 }
def partial_ : State := { world with mem := [(2048, 9), (2049, 9)], banks := base.banks.map fun b => (b.1, { b.2 with lines := [partLine] }) }
theorem test_l2Fill : (after (.l2Fill 0 0 0) partial_).map (fun t => ((t.bank 0).lines.map fun l => (byteAt l.data 0, byteAt l.data 1, l.v))) = some [(0xAA, 9, 0xFFFF)] := by decide +kernel
theorem test_l2LineEviction : (after (.l2LineEviction 0 0) partial_).map (fun t => ((t.bank 0).lines.length, t.viewByte 2048, t.viewByte 2049)) = some (0, 0xAA, 9) := by decide +kernel
def l1Dirty : State := { world with cores := [(0, { world.core 0 with l1 := [{ l1Line 16 none with data := 0xBB, d := 1, be := 1 }] })] }
theorem test_l1Replacement : (after (.l1Replacement 0 16) l1Dirty).map (fun t => ((t.core 0).l1.length, (t.core 0).acks.map (·.kind), t.packets.map (·.dst), ((t.bank 0).find ⟨0, 0, 16⟩ false).map fun l => lineNat l.data 0 2)) =
    some (0, [.writeback], [.bank 0], some 0x0100) := by decide +kernel
theorem test_homeAtomic : (after (.homeAtomic 0) { world with atomics := [⟨0, 0, 2048, .n32, .add, 1⟩] }).map (fun t => (t.atomics.length, ((t.bank 0).find ⟨0, 0, 16⟩ false).map fun l => lineNat l.data 0 4)) =
    some (0, some 0x03020101) := by decide +kernel
/-- R93: a difference of more than a sixteenth moves the share. -/
theorem test_rwayEpochEnd : let s (hi lo : Nat) : State := { world with cycle := 65536, banks := base.banks.map fun b => (b.1, { b.2 with hiMiss := hi, loMiss := lo }), parts := world.parts.map fun p => { p with share := [2, 2, 2, 2] } }
    (after (.rwayEpochEnd 0 0) (s 14 16)).map (fun t => t.parts.map (·.share)) = some [[3, 2, 2, 2]] ∧ (after (.rwayEpochEnd 0 0) (s 15 16)).map (fun t => t.parts.map (·.share)) = some [[2, 2, 2, 2]] ∧
    (after (.rwayEpochEnd 0 0) (s 32 16)).map (fun t => t.parts.map (·.share)) = some [[1, 2, 2, 2]] := by decide +kernel

theorem witness_Rallies : (rallying (some 9)).rally[0]? = some (post 1 (some 9) [4, 5] 3) ∧
    (rallying (some 9)).rally.find? (fun y => y.paired == some 9 && y.team != 1) = some (post 2 (some 9) [5, 4] 1) ∧ ([4, 5] : List LaneReg).Nodup ∧
    (rallying none).partner (post 1 none [4, 5] 3) = some (post 2 none [5, 4] 1) ∧ ((rallying none).findTeam 0 1).isSome = true ∧ ((rallying none).findTeam 0 2).isSome = true ∧
    ({ rallying none with rally := [post 1 none [4, 5] 3] } : State).partner (post 1 none [4, 5] 3) = none ∧ (rallying none).team.solo = none := by decide +kernel
theorem witness_Translations : (match translate world 0 0 4096 with | .ok a host _ _ => a == 4096 && !host | _ => false) = true ∧ world.shooting 0 0 4096 = false ∧
    ({ world with shoots := [⟨0, none, 0, 8192, false⟩] } : State).shooting 0 0 4096 = true ∧ (match translate world 0 7 4096 with | .fault _ => true | _ => false) = true ∧
    (match translate { world with tlb := [⟨0, 0, 0, 0, 2 ^ 40, 2 ^ 38 - 2 ^ 30, false, ordinary, []⟩] } 0 0 4096 with | .unbacked => true | _ => false) = true := by decide +kernel
theorem witness_Translations_miss : let key := keyOf 0 0 2048
    (readOnly.partOfCore 0).isSome = true ∧ (readOnly.part 0).bind (fun p => p.home 0 2048) = some (0, 0) ∧ (readOnly.bank 0).busyOn key = false ∧ readOnly.hostCache = [] ∧
    (readOnly.bank 0).find key false = some readOnlyLine ∧ readOnlyLine.perms.w = false ∧ (match translate readOnly 0 0 2048 with | .ok _ _ q _ => q.w | _ => false) = true ∧
    agents.haq[1]? = some ⟨none, 300, [3], [true]⟩ ∧ (256 / 256 = 300 / 256) ∧ 512 / 256 ≠ 256 / 256 := by decide +kernel
theorem witness_CacheEvents : (partial_.bank 0).lines[0]? = some partLine ∧ partLine.remote = false ∧ partial_.poison = [] ∧ (partial_.bank 0).busyOn partLine.key = false ∧ partLine.own = 0 ∧
    (partial_.bank 0).dirEntry partLine.key = none ∧ ((l1Dirty.core 0).l1.filter fun x => l1Set x.key == 16).getLast? = some { l1Line 16 none with data := 0xBB, d := 1, be := 1 } ∧
    (match pushWords l1Dirty ⟨0, 0, 0, true, 0, 0⟩ 2048 ordinary false 0xBB (dirtyBytes 1 1) .writeback with | .ok () _ => true | _ => false) = true ∧
    (match homeAtomicOp world 0 0 2048 .n32 .add 1 0 true none with | .ok _ _ => true | _ => false) = true ∧ (match homeAtomicOp world 0 9 2048 .n32 .add 1 0 true none with | .no (.fault _) => true | _ => false) = true ∧
    (world.part 0).isSome = true := by decide +kernel

/-- A partition on two dies: lines 1 and 16 are at home in bank 0, and bank 64 keeps die 1's copies. -/
def copyLine : L2Line := { homeLine 16 with remote := true }
def twoDies (f : Bank → Bank) (g : Bank → Bank) (inbox : List Arrived) : State :=
  { world with
    parts := world.parts.map fun p => { p with banks := [0, 64], quads := [0, 12] },
    banks := [(0, f (world.bank 0)), (64, g { world.bank 0 with lines := [copyLine] })], inbox := inbox }
def packet (dst src : Stop) (msg : Msg) : Packet :=
  { pid := 0, dst := dst, src := src, team := 0, gen := 0, seq := none, mis := 0, x := 0, y := 0, port := 4, vc := 0, blocked := 0, suspect := false, flits := 1, msg := msg }
def toHome (m : Msg) : Arrived := ⟨.bank 0, packet (.bank 0) (.bank 64) m, 0⟩
def toCopy (m : Msg) : Arrived := ⟨.bank 64, packet (.bank 64) (.bank 0) m, 0⟩
def key16 : LineKey := ⟨0, 0, 16⟩
def sentOf (s : State) : List (Stop × Msg) := s.packets.map fun p => (p.dst, p.msg)
theorem test_rd : (after (.rd 0) (twoDies id id [toHome (.rd key16 1 3)])).map (fun t => (sentOf t, (t.bank 0).txns.map (·.kind), t.inbox.length)) =
    some ([(.bank 64, .data key16 3 risingLine ordinary 2048 false)], [.rd], 0) := by decide +kernel
theorem test_upg : (after (.upg 0) { twoDies id id [toHome (.upg key16 1 3)] with cycle := 1 }).map (fun t => (sentOf t, (t.bank 0).txns.map (·.kind))) = some ([(.bank 64, .grant key16 3)], [.upg]) ∧
    (after (.upg 0) { twoDies id (fun b => { b with lines := [] }) [toHome (.upg key16 1 3)] with cycle := 1 }).map sentOf = some [(.bank 64, .data key16 3 risingLine ordinary 2048 true)] := by decide +kernel
theorem test_rdx : (after (.rdx 0) (twoDies id id [toHome (.rdx key16 1 3)])).map (fun t => (sentOf t, ((t.bank 0).find key16 false).map fun l => (l.own, l.owner 1))) =
    some ([(.bank 64, .data key16 3 risingLine ordinary 2048 true)], some (3, some 1)) := by decide +kernel
theorem test_wb : (after (.wb 0) (twoDies id id [toHome (.wb key16 1 1 0xAABBCCDD 5 true)])).map (fun t => ((t.bank 0).find key16 false).map fun l => (lineNat l.data 0 4, l.d)) = some (some (0x03BB01DD, 1)) := by decide +kernel
theorem test_inv : (after (.inv 0) (twoDies id id [toCopy (.inv key16 1 1)])).map (fun t => (sentOf t, ((t.bank 64).find key16 true).map (·.v))) = some ([(.bank 0, .ack key16 1)], some 0xFFFFFFFE) ∧
    (after (.inv 0) (twoDies id (fun b => { b with lines := [] }) [toCopy (.inv key16 1 1)])).map sentOf = some [(.bank 0, .nullAck key16 1 0)] := by decide +kernel
theorem test_invWb : (after (.invWb 0) (twoDies id (fun b => { b with lines := [{ copyLine with d := 2, be := 0xF0 }] }) [toCopy (.invWb key16 1)])).map (fun t => (sentOf t, (t.bank 64).lines.length)) =
    some ([(.bank 0, .ackData key16 1 2 risingLine 0xF0)], 0) := by decide +kernel
theorem test_fwd : (after (.fwd 0) (twoDies id (fun b => { b with lines := [{ copyLine with d := 3, be := 0xFF }] }) [toCopy (.fwd key16 1 2)])).map (fun t => (sentOf t, ((t.bank 64).find key16 true).map fun l => (l.d, l.be))) =
    some ([(.bank 0, .ackData key16 1 2 risingLine 0xF0)], some (1, 0xF)) := by decide +kernel
theorem test_probeFilterDrop : (after (.probeFilterDrop 0) (twoDies id (fun b => { b with owner := some 3 }) [toCopy (.fwd key16 1 2)])).map sentOf = some [(.bank 0, .nullAck key16 1 0)] := by decide +kernel
def awaiting : Txn := { key := key16, kind := .rd, die := 0, words := 1, fwd := [1], inv := [], need := [], sent := false, landed := false }
theorem test_nullAck : (after (.nullAck 0) (twoDies (fun b => { b with txns := [awaiting] }) id [toHome (.nullAck key16 1 1)])).map (fun t => ((t.bank 0).txns.map fun x => (x.fwd, x.need), t.parts.map (·.xnullack))) =
    some ([([], [(1, 1)])], [1]) := by decide +kernel
theorem test_upgGrant : (after (.upgGrant 0) (twoDies id (fun b => { b with pend := [⟨key16, 0x77, 1, ⟨0, 0, 0, 0⟩⟩] }) [toCopy (.grant key16 1)])).map (fun t => ((t.bank 64).find key16 true).map fun l => (lineNat l.data 0 4, l.d, l.be)) =
    some (some (0x03020177, 1, 1)) := by decide +kernel

theorem witness_DirectoryRequests : let s := twoDies id id [toHome (.rd key16 1 3)]
    s.inbox[0]? = some (toHome (.rd key16 1 3)) ∧ (s.part 0).bind (fun p => p.home 0 key16.va) = some (0, 0) ∧ (s.bank 0).find key16 false = some (homeLine 16) ∧
    (∀ j, j < 32 → (homeLine 16).v.getLsbD j = true ∧ (homeLine 16).owner j = none) ∧ ((s.bank 0).dir.filter fun e => e.set == dirSet key16).length < 16 ∧ (s.bank 0).busyOn key16 = false ∧
    ((s.bank 0).mapTxn key16 id).busyOn key16 = false ∧ ({ s.bank 0 with txns := [awaiting] } : Bank).busyOn key16 = true ∧ (homeLine 16).perms.w = true ∧ s.hostCache = [] ∧
    s.holdsClean key16 1 3 = true ∧ (twoDies id (fun b => { b with lines := [] }) []).holdsClean key16 1 3 = false ∧
    ({ s.bank 0 with dir := [⟨dirSet key16, dirTag key16, [(2, 128), (1, 64)]⟩] } : Bank).others key16 1 = [2] := by decide +kernel
theorem witness_DirectoryAnswers : let s := twoDies (fun b => { b with txns := [awaiting] }) (fun b => { b with pend := [⟨key16, 0x77, 1, ⟨0, 0, 0, 0⟩⟩] }) [toHome (.wb key16 1 1 0 1 true)]
    (s.bank 0).txn key16 = some awaiting ∧ 1 ∈ awaiting.fwd ∧ ((twoDies id id []).bank 0).busyOn key16 = false ∧ ((twoDies id id []).bank 0).find key16 false = some (homeLine 16) ∧
    (homeLine 16).perms.wt = false ∧ s.homeOf key16 = some (0, 0) ∧ (s.bank 64).owner = some 0 ∧ (s.bank 64).find key16 true = some copyLine ∧
    (s.bank 64).find ⟨0, 0, 17⟩ true = none ∧ ((twoDies id (fun b => { b with owner := some 3 }) []).bank 64).owner = some 3 ∧
    (s.bank 64).pend.filter (fun x => x.key == key16) = [⟨key16, 0x77, 1, ⟨0, 0, 0, 0⟩⟩] := by decide +kernel

/-! ## The fabric -/

def moving (l : List Packet) : State := { twoDies id id [] with packets := l }
/-- A packet for bank 0 that stands at a router and a VC. -/
def at_ (x y vc : Nat) : Packet := { packet (.bank 0) (.bank 64) (.ack key16 1) with x := x, y := y, vc := vc }
def home_ : Nat × Nat := (Stop.bank 0).router
def arrived : Packet := at_ home_.1 home_.2 0
/-- R111, R115: one hop toward the stop, and one away from it; the ninth is not taken. -/
theorem test_routerForward : (after (.routerForward 0 1 2) (moving [at_ (home_.1 + 3) home_.2 0])).map (fun t => t.packets.map fun p => (p.x, p.port, p.vc, p.mis)) = some [(home_.1 + 2, 0, 2, 0)] ∧
    (after (.routerForward 0 0 2) (moving [at_ (home_.1 + 3) home_.2 0])).map (fun t => t.packets.map fun p => (p.x, p.port, p.mis)) = some [(home_.1 + 4, 1, 1)] ∧
    (after (.routerForward 0 0 2) (moving [{ at_ (home_.1 + 3) home_.2 0 with mis := 8 }])).map (fun t => t.packets.map (·.mis)) = some [8] := by decide +kernel
theorem test_packetSuspect : (after (.packetSuspect 0) { moving [at_ 3 3 0] with cycle := 513 }).map (fun t => t.packets.map (·.suspect)) = some [true] ∧
    (after (.packetSuspect 0) { moving [at_ 3 3 0] with cycle := 512 }).map (fun t => t.packets.map (·.suspect)) = some [false] := by decide +kernel
theorem test_packetReject : (after (.packetReject 0) (moving [{ arrived with dst := .bank 5, x := (Stop.bank 5).router.1, y := (Stop.bank 5).router.2, msg := .rd key16 1 1 }])).map
    (fun t => (t.packets.length, t.parts.map fun p => (p.xreject, p.err, p.cause))) = some (0, [(1, true, 2)]) := by decide +kernel
def numbered (n : Nat) : Packet := { packet (.bank 0) (.bank 64) (.rd key16 1 1) with seq := some n }
theorem test_seqOrderRelease : (after (.seqOrderRelease 0) { moving [] with held := [⟨.bank 0, numbered 0, 0⟩] }).map (fun t => (t.held.length, t.inbox.length)) = some (0, 1) ∧
    (after (.seqOrderRelease 0) { moving [] with held := [⟨.bank 0, numbered 1, 0⟩] }).map (fun t => (t.held.length, t.inbox.length)) = some (1, 0) := by decide +kernel
theorem test_bunker : (after (.bunkerDelivery 0) { moving [] with lane := [numbered 0] }).map (fun t => (t.lane.length, t.bunker.length)) = some (0, 1) ∧
    (after (.bunkerSlotService 64) { moving [] with bunker := [⟨.bank 0, numbered 0, 0⟩] }).map (fun t => (t.bunker.length, t.inbox.length)) = some (0, 1) := by decide +kernel
theorem test_peerLinkArrival : (after (.peerLinkArrival 2 ⟨0, 64, 9⟩) (moving [])).map (fun t => t.packets.map fun p => (p.src, p.dst, p.flits)) = some [(.peer 2, .bank 0, 5)] := by decide +kernel
/-- R119: of two suspect packets at the caddie's next router, the one blocked longest. -/
theorem test_caddie : (after .caddieArrival (moving [{ at_ 1 0 0 with suspect := true, blocked := 9 }, { at_ 1 0 1 with suspect := true, blocked := 4 }])).map (fun t => (t.caddie, t.lane.map (·.vc), t.packets.map (·.vc), t.rescues, t.parts.map (·.xrecov))) =
      some (1, [1], [0], 1, [1]) ∧
    (after .caddieReissue { moving [] with cycle := 2 ^ 20, caddie := 7 }).map (fun t => (t.caddie, t.reissues)) = some (0, 1) ∧ (after .caddieReissue { moving [] with cycle := 2 ^ 20 - 1 }).map (·.reissues) = some 0 := by decide +kernel

theorem witness_Packets : (moving [arrived]).packets[0]? = some arrived ∧ (arrived.x, arrived.y) = arrived.dst.router ∧ (moving [arrived]).accepts arrived = true ∧ ((at_ 3 3 0).x, (at_ 3 3 0).y) ≠ (at_ 3 3 0).dst.router ∧
    (moving []).accepts { arrived with dst := .bank 5, msg := .rd key16 1 1 } = false ∧ (moving []).accepts { arrived with pid := 40 } = false ∧
    (let a := at_ 4 4 1; let b := at_ 4 4 1; a.x = b.x ∧ a.y = b.y ∧ a.port = b.port ∧ a.vc = b.vc) ∧ storeGet 0 (moving []).seqNext (seqKey (numbered 0)) = 0 ∧
    (Msg.inv key16 1 1).probe = true ∧ stopOf 64 = .bank 0 ∧ world.who.team ≠ 0 := by decide +kernel
theorem witness_Caddie : (let p := { at_ 1 0 0 with suspect := true }; p.suspect = true ∧ (p.x, p.y) = caddieAt 1) ∧ caddieAt 255 = (0, 1) ∧ caddieAt 0 = (0, 0) := by decide +kernel

/-! ## Copies and chains -/

def copying (c : CopyOp) : State := withTeam { world with serial := 9 } fun t => { t with copies := [c], win := [(8, 0xAB)], empty := [(1, true)] }
def toMemory : CopyOp := { aCopy 1 none with ds := false, dst := 2048, src := 8 }
def landing (c : CopyOp) : CopyOp := { c with off := 0, rows := 0, flying := [(⟨8, c.dst.toNat, 2, 0, 0⟩, [0xAB, 0xCD])] }
theorem test_copyLineRequest : (after (.copyLineRequest 0) (copying { toMemory with dst := 2172, len := 200, rows := 2, twoD := true, stride := 0x10000000000 })).map
      (fun t => t.team.copies.map fun c => c.flying.map fun f => f.2) = some [[[0xAB, 0, 0, 0]]] ∧
    (after (.copyLineRequest 0) (copying { toMemory with len := 4, rows := 2, twoD := true, stride := 0x10000000000 })).map (fun t => t.team.copies.map fun c => (c.off, c.rows, c.dst)) = some [(0, 1, 2304)] := by decide +kernel
theorem test_copyLand : (after (.copyLand 0 0) (copying (landing toMemory))).map (fun t => (((t.bank 0).find key16 false).map fun l => lineNat l.data 0 4, t.team.copies.map (·.flying))) = some (some 0x0302CDAB, [[]]) ∧
    (after (.copyLand 0 0) (copying (landing (aCopy 1 none)))).map (fun t => (storeGet 0 t.team.win 129, t.team.full 1)) = some (0xCD, true) := by decide +kernel
def asUser (s : State) : State := withTeam s fun t => { t with sys := false }
theorem test_engineFault : (after (.engineFault 0 false) (asUser (copying { toMemory with ss := false, ds := true, asid := 7, src := 4096 }))).map
    (fun t => (t.team.copies.map (·.stop), t.fqWait.map fun e => (e.va, e.asid))) = some ([some (.fault, 4096)], [(4096, 7)]) := by decide +kernel
theorem test_engineCompletion : (after (.engineCompletion 0 false 0) (copying { toMemory with rows := 0 })).map (fun t => t.team.copies.length) = some 0 ∧
    (after (.engineCompletion 0 false 0) (copying toMemory)).map (fun t => t.team.copies.length) = some 1 := by decide +kernel

/-- The manual's worked chain: CTL, two streams at 2048 and 2052, its destination at 2080, its constants and its steps. -/
def workedDesc : List Byte :=
  natBytes 8 0x00130437 ++ natBytes 8 2048 ++ natBytes 8 2052 ++ natBytes 16 0 ++ natBytes 8 2080 ++ natBytes 8 0x0000004000000010 ++ natBytes 8 0 ++
    natBytes 4 0x00001002 ++ natBytes 4 0x00008400 ++ natBytes 4 0x000A940B ++ natBytes 52 0
theorem test_worked_chain : chainLegal workedDesc = true ∧
    [[0x18, 0x20], [0xF8, 0x30], [0x7F, 0x7F], [0x03, 0x09]].map (chainDesc workedDesc).element = [0x4080, 0x0000, 0x4080, 0x3F90] := by decide +kernel
def chaining (f : ChainOp → ChainOp) : State :=
  withTeam (worldWith 0x097F3020037FF818) fun t => { t with chains := [f { aChain 3 none with desc := workedDesc, dst := 2080, n := 4 }] }
theorem test_chainBlock : (after (.chainBlock 0) (chaining id)).map (fun t => (((t.bank 0).find key16 false).map fun l => lineNat l.data 32 8, t.team.chains.map (·.next))) =
    some (some 0x3F90408000004080, [4]) := by decide +kernel

theorem witness_Copies : let s := copying { toMemory with len := 200 }
    (s.copyTurn 0).map (fun x => (x.1.id, x.2)) = some (1, { toMemory with len := 200 }) ∧ s.findTeam 0 1 = some s.team ∧
    (match s.copySource s.team toMemory toMemory.nextReq with | .ok _ u => decide (u.team = s.team ∧ u.teams = s.teams) | _ => false) = true ∧ toMemory.off < toMemory.len ∧
    s.copyFlying 0 = [] ∧ (match engineRead s (s.team.engineWho 7) 4096 8 with | .fault _ => true | _ => false) = true ∧ s.fq ++ s.fqWait = [] ∧ (asUser s).team.sys = false ∧
    ((copying (landing toMemory)).copyFlying 0).map (fun x => x.2.1) = [landing toMemory] ∧ (landing toMemory).rows = 0 ∧ s.binds = [] := by decide +kernel
theorem witness_lineAtHome : world.lineAtHome 0 0 true 2048 0 (homeLine 16) := ⟨_, 0, rfl, by unfold State.unbound; decide⟩
theorem witness_Chains : let s := chaining id
    (s.chainTurn 0).map (fun x => x.2.id) = some 3 ∧
    (match chainSources (s.team.engineWho 0) (chainDesc workedDesc) 0 4 ((chainDesc workedDesc).bases.take 2) s with
     | .ok cols u => decide (cols = [[0x18, 0xF8, 0x7F, 0x03], [0x20, 0x30, 0x7F, 0x09]]) &&
         (match chainWrites (s.team.engineWho 0) 1 3 2080 [1] 0 u, chainWrites (s.team.engineWho 7) 1 3 2080 [1] 0 u with | .go _, .stop .fault 2080 _ true v => (v.findTeam 0 1).isSome | _, _ => false)
     | _ => false) = true ∧ (chainDesc workedDesc).w = 8 ∧ (chainDesc workedDesc).frac < 8 ∧ s.binds = [] ∧ (asUser s).team.sys = false ∧ s.chainWork 0 ≠ [] ∧
    ((s.residents 0).flatMap fun t => t.chains.map fun c => (t.id, c.next, c.n)) = [(1, 0, 4)] ∧ ((chaining fun c => { c with next := 4 }).team.chains.map fun c => (c.next, c.n)) = [(4, 4)] ∧
    (65504 : Rat) < 65520 := by decide +kernel

/-! ## Matrix arrays -/

def atile (k : Nat) (op : TileOp) : MatEntry := ⟨k, .mzero hd ⟨1⟩, 0, 0, .tile op⟩
def acmd (k : Nat) (c : MmaCmd) : MatEntry := ⟨k, .mma hd c.o, 0, 0, .mma c⟩
def matrices (l : List MatEntry) : State := withTeam world fun t => { t with matq := l }
/-- R280, R281: MCBL loads sixteen numbers from the window; MSTA waits for nothing. -/
theorem test_tileOpExecute : (after (.tileOpExecute 1) (withTeam world fun t => { t with matq := [atile 0 (.codebook 2 128)], win := [(130, 0x34), (131, 0x12)] })).map
      (fun t => ([32, 33].map (storeGet 0 t.team.codebook), t.team.matq.length)) = some ([0, 0x1234], 0) ∧
    (after (.tileOpExecute 1) (withTeam world fun t => { t with matq := [atile 0 (.codebook 2 128)], empty := [(1, true)] })).map (fun t => t.team.matq.length) = some 1 := by decide +kernel
theorem test_mmaRetire_early : (after (.mmaRetire 1 0) { matrices [acmd 0 { anMma 0 1 with started := true, ends := 64 }] with cycle := 63 }).map (fun t => t.team.matq.length) = some 1 := by decide +kernel
/-- The manual's table of R291. -/
theorem test_ch32 : ch32 0 0 1 0 = 0x1A1C9FB0 ∧ ch32 0 0 0 1 = 0x5E24B190 := by decide +kernel

theorem witness_Arrays : let s := matrices (commands 2)
    s.evTeam 1 = some s.team ∧ s.findTeam 0 1 = some s.team ∧ s.team.core = 0 ∧ (s.residents 0).map (·.id) = [1] ∧ s.team.mmaWith 1 = some (1, anMma 1 1) ∧ mmaLegal .bf16 = true ∧ s.enginesRun s.team = true ∧
    (s.mmaTurn 0 0).map evOf = some (evOf s.team) ∧ s.team.sub = 0 ∧ (s.focusOn 0 1 s.slot).anyReady = true ∧ s.team.phase = .resident ∧ s.team.wafers = [] ∧
    (anMma 1 1).started = false ∧ (∀ e ∈ s.team.matq, e.isMma = true) ∧ (∀ g ∈ (anMma 1 1).granules, s.team.full g = true) ∧ s.team.pend = [] ∧ s.path.sb = [] ∧
    (s.team.matq.all fun e => match e.op with | .mma k => !k.started | _ => true) = true ∧
    (matrices [atile 0 (.zero 1), acmd 1 (anMma 1 1)]).team.matq.map (·.isMma) = [false, true] ∧ (intOf .i8 0xFF = -1) ∧
    (elemVal .bf16 [] 0 0x3F80).real = some 1 ∧ realOf (fmtOf .f32) 0 = some 0 := by decide +kernel
theorem witness_Tiles : let s := matrices [acmd 0 (anMma 1 1), atile 1 (.store 2 128)]
    s.evTeam 1 = some s.team ∧ s.findTeam 0 1 = some s.team ∧ s.enginesRun s.team = true ∧ s.team.nextTile = some (1, .store 2 128) ∧
    (match (matrices [atile 1 (.drain ⟨.f32, .rne, false, false, 0, 0, none⟩ (natBytes 64 (256 * 2 ^ 32)) .none)]).team.nextTile with | some (1, .drain ..) => true | _ => false) = true ∧
    drainLegal (natBytes 64 (256 * 2 ^ 32)) .f32 s.team.window = true ∧ (drainDesc (natBytes 64 (256 * 2 ^ 32))).rfmt = 0 ∧ (drainDesc (natBytes 64 (256 * 2 ^ 32))).doen = false := by decide +kernel

/-! ## Standing products -/

def idle (f : Binding → Binding) : State := withBinding fun b => f { b with il := .idle }
def aMark (b : Binding) : Binding := { b with rowMarks := [0] }
/-- R314: a write of B whose word has a marked column is captured as a mark, though it changes another column. -/
theorem test_operandCapture_marked : (after (.operandCapture 0 0 0x30000 0x500 0xF) (idle fun b => { b with n := 4, colMarks := [0] })).map (fun t => t.binds.map fun b => (b.capseq, b.colMarks)) = some [(0, [1, 0])] := by decide +kernel
/-- R303, R304: a write that changes an element is logged; one that changes none is passed; one in INIT is held. -/
theorem test_operandCapture : (after (.operandCapture 0 0 0x20000 5 0xF) (idle id)).map (fun t => t.binds.map fun b => (b.capseq, b.il, b.entries.map fun e => (e.old, e.new))) = some [(1, .apend, [(0, 5)])] ∧
    (after (.operandCapture 0 0 0x20000 0x500 0xF) (idle id)).map (fun t => t.binds.map fun b => (b.capseq, b.il)) = some [(0, .idle)] ∧
    (after (.operandCapture 0 0 0x20000 5 0xF) (withBinding id)).map (fun t => t.binds.map fun b => b.hold.map (·.data)) = some [[5]] := by decide +kernel
theorem test_bindingError : (after (.bindingError 0) (idle fun b => { b with cbase := 2 ^ 40 })).map (fun t => t.binds.map (·.err)) = some [true] ∧
    (after (.bindingError 0) (idle id)).map (fun t => t.binds.map (·.err)) = some [false] := by decide +kernel
/-- A product of one element, I8 by I8: −3 times 7, and then the entry that makes it 5 times 7. -/
def product (f : Binding → Binding) : State :=
  let line (tag : Nat) (d : BitVec 1024) : L2Line := { homeLine tag with data := d }
  { withBinding f with banks := base.banks.map fun b => (b.1, { b.2 with lines := [line 512 0, line 1024 0xFD, line 1536 7] }) }
theorem test_speInitialProduct : (after (.speInitialProduct 0) (product id)).map (fun t => (((t.bank 0).find ⟨0, 0, 512⟩ false).map fun l => lineNat l.data 0 4, t.binds.map (·.il))) =
    some (some 0xFFFFFFEB, [.idle]) := by decide +kernel
def entryA : LogEntry := { seq := 1, opB := false, va := 0x20000, emask := 1, row := 0, col := 0, old := 0xFD, new := 5 }
theorem test_speApplyEntry : (after (.speApplyEntry 0) (product fun b => { b with il := .apend, capseq := 1, entries := [entryA] })).map
    (fun t => (((t.bank 0).find ⟨0, 0, 512⟩ false).map fun l => lineNat l.data 0 4, t.binds.map fun b => (b.appseq, b.il))) = some (some 56, [(1, .idle)]) := by decide +kernel
theorem test_speApplyGroup : (after (.speApplyGroup 0 1) (product fun b => { b with il := .apend, capseq := 1, entries := [entryA], bat := true })).map
    (fun t => (((t.bank 0).find ⟨0, 0, 512⟩ false).map fun l => lineNat l.data 0 4, t.binds.map fun b => (b.appseq, b.il))) = some (some 56, [(1, .idle)]) := by decide +kernel

theorem witness_Corrections : let s := product fun b => { b with entries := [entryA], il := .apend, bat := true }
    (match (product id).binding 0 with
     | some b => b.slot == 0 && !b.err && (product id).speRuns b && decide (b.il = .init) && decide (1 ≤ b.k ∧ b.k ≤ 64) && (match speStart 0 (product id) with | .ok () _ => true | _ => false) &&
         (match devList (fun s k => (speElem b [] false s 0 k).bind fun x s => (speElem b [] true s k 0).bind fun y s => .ok (x, y) s) (List.range b.k) (product id) with | .ok ps _ => ps.length == 1 | _ => false) && decide (b.hold = []) && decide (b.cfmt = .i32) && decide (b.t = 0) && (match speDot b [] (product id) 0 0 with | .ok _ _ => true | _ => false) &&
         (match speElements b b.entries [(0, 0)] (product id) with | .ok () u => decide (u.binds = (product id).binds) | _ => false)
     | none => false) = true ∧
    (match s.binding 0 with
     | some b => groupable (b.entries.take 1) && s.speRuns b && (match speApply 0 1 true s with | .ok () _ => true | _ => false) &&
         (match speApply 0 1 false (product fun b => { b with entries := [entryA], il := .apend }) with | .ok () _ => true | _ => false) &&
         (match speGroup 0 (b.entries.take 1) (b.entries.drop 1) b.bat s with
         | .ok () u => (match u.binding 0 with | some c => decide (c = { b with rowCnt := c.rowCnt, colCnt := c.colCnt } ∧ c.t = 0) | none => false)
         | _ => false)
     | none => false) = true := by decide +kernel

/-! ## The host link -/

/-- Line 3 of the port in M with a 7, and line 5 in S; host bytes 192 and 320 hold 1 and 2. -/
def porting : State := { hostWorld with port := [⟨3, .m, 7⟩, ⟨5, .s, 9⟩], hostMem := [(192, 1), (320, 2)] }
theorem test_snpdata : (after (.snpdata 3) porting).map (fun t => (t.hostByte 192, t.portLine 3)) = some (7, some ⟨3, .s, 7⟩) := by decide +kernel
theorem test_snpinv : (after (.snpinv 3 194 [0xAA]) porting).map (fun t => ([192, 194].map t.hostByte, t.port.length)) = some ([7, 0xAA], 1) := by decide +kernel
theorem test_portLineEviction : (after (.portLineEviction 5) porting).map (fun t => (t.hostByte 320, t.port.map (·.line))) = some (2, [3]) := by decide +kernel
theorem test_hostLinkResponse : (after (.hostLinkResponse 5 .owned) { porting with portReq := [(5, true)] }).map (fun t => ((t.portLine 5).map fun l => (l.st, l.data), t.portReq)) = some (some (.e, 2), []) ∧
    (after (.hostLinkResponse 5 .shared) { porting with portReq := [(5, true)] }).map (·.portReq) = some [(5, true)] ∧
    (after (.hostLinkResponse 0 .readDone) { porting with hostSent := [⟨0, 192, [5]⟩], hostOut := [⟨0, 192, [6]⟩] }).map (fun t => (t.hostByte 192, t.hostOut, t.hostSent)) =
      some (5, [], [⟨0, 192, [6]⟩]) := by decide +kernel
theorem test_backInvalidate : (after (.backInvalidate 0 3) { porting with hostCache := [(0, 3), (0, 4)] }).map (·.hostCache) = some [(0, 4)] := by decide +kernel
def atom (ty : Ty) (aop : Aop) (m : Option Dword) : HostAtom := { pid := 0, team := 1, slot := false, lane := 0, addr := 192, ty := ty, aop := aop, o := 5, c := 0, m := m, done := false }
def atoms (link : LinkMode) (a : HostAtom) : State := { hostWorld with link := link, hostMem := [(192, 1)], hostAtoms := [a] }
/-- R434: in the port's cache, whole at the host, and by compare and swap. -/
theorem test_hostAtomic : (after (.hostAtomic 0) { porting with hostAtoms := [atom .n32 .add none] }).map (fun t => ((t.portLine 3).map (·.data), t.hostAtoms.map fun a => (a.m, a.done))) = some (some 12, [(some 7, true)]) ∧
    (after (.hostAtomic 0) (atoms .pcieAtomics (atom .n32 .add none))).map (fun t => (t.hostByte 192, t.hostAtoms.map fun a => (a.m, a.done))) = some (6, [(some 1, true)]) := by decide +kernel
theorem test_hostAtomic_cas : (after (.hostAtomic 0) (atoms .pcieCasOnly (atom .n32 .and none))).map (fun t => (t.hostByte 192, t.hostAtoms.map fun a => (a.m, a.done))) = some (1, [(some 1, true)]) ∧
    (after (.hostAtomic 0) (atoms .pcieCasOnly (atom .n32 .or (some 1)))).map (fun t => t.hostByte 192) = some 5 ∧
    (after (.hostAtomic 0) (atoms .pcieCasOnly (atom .n32 .or (some 9)))).map (fun t => (t.hostByte 192, t.hostAtoms.map (·.m))) = some (1, [some 1]) := by decide +kernel
def aperture (f : Partition → Partition) : State := { hostWorld with parts := hostWorld.parts.map fun p => f { p with xhwin := 0x10000 } }
theorem test_hostApertureRead : (after (.hostApertureRead 0 2052 2) { aperture id with link := .pcie }).map (·.hostRead) = some (some [4, 5]) ∧
    (after (.hostApertureRead 0 2052 2) { aperture (fun p => { p with xhwin := 0 }) with link := .pcie }).map (fun t => (t.hostRead, t.parts.map (·.hfault))) = some (some [0xFF, 0xFF], [1]) ∧
    (after (.hostApertureRead 0 2052 2) (aperture fun p => { p with xhwin := 0 })).map (·.hostRead) = some none := by decide +kernel
theorem test_hostApertureWrite : (after (.hostApertureWrite 0 2052 [0xAA] true) (aperture id)).map (fun t => ((t.bank 0).find key16 false).map fun l => lineNat l.data 3 3) = some (some 0x05AA03) := by decide +kernel

theorem witness_HostPort : porting.portLine 3 = some ⟨3, .m, 7⟩ ∧ porting.portLine 4 = none ∧ porting.cxl = true ∧ ({ porting with portReq := [(5, true)] } : State).portReq.find? (fun r => r.1 == 5) = some (5, true) ∧
    ({ hostWorld with watches := [hostWatch] } : State).watchHost hostWatch = some 64 ∧ (hostWorld.part 0).map hostWorld.portCaches = some true ∧ hostWatch.got = none ∧ porting.link ≠ .pcie := by decide +kernel
theorem witness_HostAtomics : let s := atoms .pcie (atom .n32 .add none)
    s.hostAtoms[0]? = some (atom .n32 .add none) ∧ (s.part 0).map s.portCaches = some false ∧ s.hostOut = [] ∧ 192 % 4 = 0 ∧ ({ porting with hostAtoms := [atom .n32 .add none] } : State).portOwns 3 = true ∧
    (atoms .cxl3 (atom .n32 .add none)).portOwns 3 = false ∧ ((atoms .pcieCasOnly (atom .n32 .or none)).part 0).map (atoms .pcieCasOnly (atom .n32 .or none)).portCaches = some false ∧
    (after (.hostAtomic 0) s).map (fun t => (t.hostByte 192, t.hostAtoms.map (·.m))) = some (1, [some 1]) ∧
    (after (.hostAtomic 0) (atoms .pcieAtomics { atom .n32 .add none with team := 0 })).map (fun t => (t.hostByte 192, t.hostAtoms.length)) = some (6, 0) := by decide +kernel
theorem witness_HostAperture : let s := aperture id
    (s.part 0).map (fun p => (p.err, p.xhwin.getLsbD 16, p.ownsAsid (p.xhwin.setWidth 16))) = some (false, true, true) ∧ 2052 + 2 ≤ 2 ^ 52 ∧
    (match engineReadRange (aperture fun p => { p with xhwin := 0x10000 }) (hostWho 0 0) (2 ^ 39) 8 with | .fault _ => true | _ => false) = true ∧ s.binds = [] := by decide +kernel
theorem witness_HostAperture_bound : let s : State := { aperture id with binds := (binding 0 id).toList }
    (match homeAccess s 0 0 0x10000 .write false with | .line _ _ u => decide (u.binds = s.binds) | _ => false) = true ∧ (binding 0 id).map (fun b => (b.pid, b.asid, b.owns 0x10000)) = some (0, 0, true) ∧
    (after (.hostApertureWrite 0 0x10000 [1] true) s).map (fun t => t.binds.map (·.rej)) = some [1] := by decide +kernel

/-! ## Partitions and the module -/

/-- A second partition: a quad, a bank and a channel of die 1. -/
def second : PartSpec := { pid := 1, quads := [12], banks := [64, 65], channels := [128], weight := 2, keyslot := 1, base0 := 100, last0 := 199, base1 := 1, last1 := 0, hwBase := 0, hwLast := 9 }
def twoParts (f g : Partition → Partition) : State :=
  { world with boot := .ready, parts := world.parts.map f ++ [g (PartSpec.make second)], banks := world.banks ++ [(64, { Bank.blank with owner := some 1 }), (65, { Bank.blank with owner := some 1 })] }
def off (p : Partition) : Partition := { p with enabled := false }
theorem test_partitionCreate : (after (.partitionCreate second) { world with boot := .ready }).map (fun t => (t.parts.map fun p => (p.pid, p.xsched, p.ceil), (t.bank 64).owner, storeGet 0 t.keys 1, t.epoch)) =
      some ([(0, 0x080010, 4), (1, 0x080010, 4)], some 1, 1, 1) ∧
    (after (.partitionCreate { second with quads := [0], banks := [5] }) { world with boot := .ready }).map (·.parts.length) = some 1 := by decide +kernel
theorem test_partitionChange : (after (.partitionChange { second with banks := [64, 66], weight := 7 }) (twoParts id off)).map (fun t => ((t.part 1).map fun p => (p.banks, p.weight), [64, 65, 66].map fun b => (t.bank b).owner)) =
      some (some ([64, 66], 7), [some 1, none, some 1]) ∧
    (after (.partitionChange { second with weight := 7 }) (twoParts id id)).map (fun t => (t.part 1).map (·.weight)) = some (some 2) := by decide +kernel
def third : PartSpec := { second with pid := 2, quads := [13], banks := [66], keyslot := 2, base0 := 200, last0 := 299, channels := [129] }
def threeParts (f : Partition → Partition) : State := { twoParts id off with parts := (twoParts id off).parts ++ [f (PartSpec.make third)] }
theorem test_bankMove : (after (.bankMove 65 2) (threeParts off)).map (fun t => (t.parts.map (·.banks), (t.bank 65).owner)) = some ([[0], [64], [65, 66]], some 2) ∧
    (after (.bankMove 65 2) (threeParts id)).map (fun t => t.parts.map (·.banks)) = some [[0], [64, 65], [66]] := by decide +kernel
theorem test_partitionError : (after (.partitionError 0 .spdm) { world with hostOut := [⟨0, 0, [1]⟩, ⟨1, 0, [1]⟩] }).map (fun t => (t.parts.map fun p => (p.err, p.cause, p.drop), t.hostOut.length)) = some ([(true, 8, 1)], 1) := by decide +kernel
theorem test_tdispStateChange : (after (.tdispStateChange 1 .error) (twoParts id fun p => { p with tdisp := .run })).map (fun t => t.parts.map fun p => (p.cause, decide (p.tdisp = .error))) = some [(0, false), (4, true)] ∧
    (after (.tdispStateChange 1 .unlocked) (twoParts id fun p => { p with tdisp := .run })).map (fun t => t.parts.map (·.err)) = some [false, false] := by decide +kernel
theorem test_spdmSessionExpiry : (after (.spdmSessionExpiry 1) (twoParts id fun p => { p with tdisp := .locked })).map (fun t => t.parts.map (·.cause)) = some [0, 8] ∧
    (after (.spdmSessionExpiry 1) (twoParts id id)).map (fun t => t.parts.map (·.cause)) = some [0, 0] := by decide +kernel
theorem test_ideIntegrityFailure : (after (.ideIntegrityFailure 3) (twoParts id fun p => { p with ideStream := 3 })).map (fun t => t.parts.map (·.cause)) = some [0, 16] := by decide +kernel
theorem test_spdmRequest : (after (.spdmRequest 0 9) world).map (·.spdm.isSome) = some true ∧ (after (.spdmRequest 0 10) world).map (·.spdm.isSome) = some false := by decide +kernel
theorem test_perFunctionReset : (after (.perFunctionReset 0) (twoParts (fun p => { p with xasid := 0x5000, xfq := 7, err := true }) id)).map
      (fun t => ((t.part 0).map fun p => (p.xasid, p.xfq, p.err), (t.live).length, t.cores.flatMap fun c => c.2.l1)) = some (some (0, 7, false), 0, []) := by decide +kernel
theorem test_powerOnBoot : (after (.powerOnBoot (List.replicate 7 ⟨true, 3⟩)) { State.reset with fuse := 3 }).map (·.boot) = some .ready ∧
    (after (.powerOnBoot (List.replicate 7 ⟨true, 2⟩)) { State.reset with fuse := 3 }).map (·.boot) = some .stopped := by decide +kernel
/-- R442: 2,801 W raises the alarm; below 2,660 W it counts. -/
theorem test_powerSample : (after (.powerSample 2801) State.reset).map (·.alarm) = some true ∧ (after (.powerSample 2659) { State.reset with alarm := true, calm := 999 }).map (·.alarm) = some false ∧
    (after (.powerSample 2660) { State.reset with alarm := true, calm := 999 }).map (fun t => (t.alarm, t.calm)) = some (true, 0) := by decide +kernel
theorem test_fatalError : (after .fatalError world).map (fun t => (t.fatal, t.issuing 0, t.running)) = some (true, false, []) := by decide +kernel
theorem test_physicalFunction0Reset : (after .physicalFunction0Reset { world with hostMem := [(5, 6)], durable := [(5, 7)] }).map (fun t => (t.boot, t.parts.length, t.hostMem, t.durable)) = some (.off, 0, [(5, 6)], [(5, 7)]) := by decide +kernel
theorem test_powerLoss : (after .powerLoss world).map (fun t => (t.boot, t.parts.length, t.mem)) = some (.off, 0, []) := by decide +kernel
theorem test_readBack : (after (.readBack (.uniform 1 5)) (State.withS { world with fatal := true } [(5, 77)])).map (·.mgmtRead) = some 77 ∧
    (after (.readBack (.uniform 1 5)) (State.withS world [(5, 77)])).map (·.mgmtRead) = some 0 := by decide +kernel
/-- R444, R96, R401, R7: an entry of the fault queue, a directory entry, a function's register; a bound partition reads all ones. -/
theorem test_readBack_entries :
    let s := { world with fatal := true, fq := [⟨0, 0, 0x123000, .store, 1, 0x40, 1, 0, 0, 3, 0, [1]⟩],
                          banks := [(0, { Bank.blank with owner := some 0, dir := [⟨0, 5, [(1, 66)]⟩] })] }
    ((after (.readBack (.fault 0 1)) s).map (·.mgmtRead), (after (.readBack (.directory 0 0)) s).map (·.mgmtRead), (after (.readBack (.function 0 0x1040)) s).map (·.mgmtRead)) =
      (some 0x123000, some 0x500000008200, some ((world.part 0).elim 0 (·.xsched))) ∧
    (after (.readBack (.function 0 0x1048)) { s with parts := s.parts.map fun p => { p with tdisp := .run } }).map (·.mgmtRead) = some 0xFFFFFFFFFFFFFFFF := by decide +kernel
theorem test_registers : (after (.xrwayWrite 0 0x506) world).map (fun t => t.parts.map (·.ceil)) = some [4] ∧ (after (.xrwayWrite 0 0x605) world).map (fun t => t.parts.map fun p => (p.floor, p.ceil, p.share)) = some [(5, 6, [5, 5, 5, 5])] ∧
    (after (.xnullackRead 0) { world with parts := world.parts.map fun p => { p with xnullack := 9 } }).map (fun t => (t.mgmtRead, t.parts.map (·.xnullack))) = some (9, [0]) ∧
    (after (.xhstatRead 0) { world with parts := world.parts.map fun p => { p with drop := 2, hfault := 3 } }).map (·.mgmtRead) = some 0x200000003 ∧
    (after (.xerrWrite 0 5) { world with parts := world.parts.map fun p => { p with cause := 0x1F } }).map (fun t => t.parts.map (·.cause)) = some [0x1A] := by decide +kernel
theorem test_registerWrite : (after (.registerWrite (.xfpool 0) 0xFFFFFFFFFFFFFFFF) world).map (fun t => t.parts.map (·.xfpool)) = some [0] ∧
    (after (.registerWrite (.xfpool 1) 0xFFFFFFFFFFFFFFFF) (twoParts id id)).map (fun t => (t.part 1).map (·.xfpool)) = some (some 0x000FFFFFFFFFF000) ∧
    (after (.registerWrite .fabsus 63) world).map (·.tsus) = some 512 ∧ (after (.registerWrite .fabsus 64) world).map (·.tsus) = some 64 := by decide +kernel
/-- R58: a set of two channels of the frame's die, owned by one partition; three channels, a channel of another die, or one of another partition are none. -/
theorem test_channelSet : let s : State := { world with parts := world.parts.map fun p => { p with channels := [0, 1, 2, 128] } }
    (after (.registerWrite (.channelSet 7 [0, 2]) 0) s).map (·.chanSets) = some [(7, [0, 2])] ∧
    ([[0, 1, 2], [0, 128], [0, 3], [0, 0], []].map fun l => (after (.registerWrite (.channelSet 7 l) 0) s).map (·.chanSets)) = List.replicate 5 (some []) ∧
    (after (.registerWrite (.channelSet 131072 [128]) 0) s).map (·.chanSets) = some [(131072, [128])] := by decide +kernel
/-- R66: a second-stage entry becomes valid only for a frame with a channel set of the partition. -/
theorem test_stage2 : let s (l : List (Nat × List Nat)) : State := { world with chanSets := l, parts := world.parts.map fun p => { p with channels := [0, 1] } }
    (after (.registerWrite (.stage2 0 4) 0xE00001) (s [(7, [0, 1])])).map (fun t => t.parts.map (·.stage2)) = some [[(4, 0xE00001)]] ∧
    (after (.registerWrite (.stage2 0 4) 0xE00001) (s [])).map (fun t => t.parts.map (·.stage2)) = some [[]] := by decide +kernel
/-- R85: words 0 and 1 of a line of a bank: V, D, BE and the owner. -/
theorem test_readBack_bank : (after (.readBack (.bank 0 0))
      { world with fatal := true, banks := [(0, { Bank.blank with owner := some 0, lines := [{ homeLine 16 with v := 3, d := 1, be := 5, own := 2, odie := 8 }] })] }).map
      (fun t => (t.mgmtRead, t.hostRead.map fun bs => (bs.length, (bs.drop 128).take 4))) = some (0x100000003, some (192, [0x35, 0, 0xA0, 1])) := by decide +kernel

theorem witness_Partitions : let s : State := { world with boot := .ready }
    s.grants (s.ownedUnits second) = true ∧ s.part 1 = none ∧ s.boot = .ready ∧ s.fatal = false ∧ s.harvested = [10, 11, 22, 23, 34, 35, 46, 47] ∧ (threeParts off).bankQuiet 65 = true ∧ (twoParts id off).grants ((twoParts id off).ownedUnits second) = true ∧
    ((twoParts id off).part 1).map (fun p => (p.enabled, p.bound)) = some (false, false) ∧ ((twoParts id off).parts.find? fun p => p.banks.contains 65).map (·.pid) = some 1 ∧
    (match (threeParts off).part 1, (threeParts off).part 2 with
     | some p, some q => PartSpec.legal { q.spec with banks := sortedUnits (65 :: q.banks) } && PartSpec.legal { p.spec with banks := p.banks.filter (· != 65) }
     | _, _ => false) = true ∧ ((threeParts off).bank 65).lines = [] := by decide +kernel
theorem witness_PartitionErrors : ((twoParts id off).parts.map (·.pid)).Nodup ∧ (world.part 0).map (fun p => (p.enabled, decide (p.tdisp = .unlocked))) = some (true, true) ∧
    ((twoParts id off).part 1).map (·.enabled) = some false := by decide +kernel
theorem witness_Module : (world.part 0).map (·.bound) = some false ∧ (world.bank 0).lines[1]? = some (homeLine 16) ∧ (world.bank 0).owner = some 0 ∧ world.evTeam 1 = some world.team ∧
    ({ world with parts := world.parts.map fun p => { p with stage2 := [(0, 1)] } } : State).parts.find? (fun p => p.sysFrames.contains (0 / 2097152)) =
      (world.parts.map fun p => { p with stage2 := [(0, 1)] })[0]? := by decide +kernel
theorem witness_RegisterMaps : (world.part 0).isSome = true ∧ (∃ x ∈ world.live, x.pid = 0) ∧ ¬(∃ x ∈ (twoParts id id).live, x.pid = 1) ∧ (twoParts id id).deqs 1 = [] ∧
    (world.part 0).map (fun p => ({ p with channels := [0, 1] } : Partition).stageOk [(7, [0, 1])] 4 0xE00001) = some true ∧ (world.part 0).map (fun p => p.stageOk [] 4 0xE00001) = some false ∧
    ({ world with parts := world.parts.map fun p => { p with stage2 := [(4, 0xE00001)] } } : State).frameUsed 7 = true ∧ world.frameUsed 7 = false := by decide +kernel

theorem test_registerWrite_object : (after (.registerWrite (.object 0 3 0x1000 64 8 2 4097) 0) world).map (fun t => t.objects.head?.map (·.window)) = some (some 8192) ∧
    (after (.registerWrite (.object 0 3 0x1000 64 0 2 4097) 0) world).map (·.objects) = some world.objects := by decide +kernel

/-! ## Steps, decoding and reset -/

/-- `smov s1, s2` as the first instruction. -/
def mov : State := State.withS (State.reset.withFetchWord 64 0x000002011E003000) [(2, 9)]
theorem test_step : (match step mov with | .next t => some (t.team.uval 1, t.path.pc, t.path.budget) | _ => none) = some (9, 136, 65534) := by decide +kernel
theorem witness_StepRunsDecoded : mov.agenda = [] ∧ mov.fatal = false ∧ (mov.turn + 1) % 4 ≠ 0 ∧ storeFind mov.running mov.sub = some ⟨0, 1, false⟩ ∧ mov.findTeam 0 1 = some mov.team ∧
    mov.team.phase = .resident ∧ mov.team.park = none ∧ mov.team.ending = none ∧ mov.team.wafers = [] ∧ ({ mov with turn := mov.turn + 1 } : State).enginesRun mov.team = true ∧ mov.path.wait = none ∧
    (match (({ mov with turn := mov.turn + 1 } : State).focusOn 0 1 false).startRun.fetch with
     | .code bs u => decide (decode bs = .instr (.smov hd ⟨1, 2⟩)) && (match u.checkCode bs with | .legal i => decide (i = .smov hd ⟨1, 2⟩) | _ => false) && !u.path.charged && !u.team.chkNow && decide (u.path.budget ≠ 0) &&
         (u.issueCycle (.smov hd ⟨1, 2⟩) (u.sweep (.smov hd ⟨1, 2⟩)) 0).isSome
     | _ => false) = true := by decide +kernel
theorem witness_RoundTrip : (Instr.mma hd ⟨.bf16, false, 0, .win 0 0, .win 0 0x40, 0, none⟩).wf = true ∧ (Instr.enc (.mma hd ⟨.bf16, false, 0, .win 0 0, .win 0 0x40, 0, none⟩)).isSome = true ∧
    decode (words [0x1E003000, 0x00000201]) = .instr (.smov hd ⟨1, 2⟩) := by decide +kernel
theorem witness_StepKeepsMemory : State.reset.memoryWf ∧ (match step State.reset with | .next _ => true | _ => false) = true :=
  ⟨by unfold State.memoryWf; decide, by decide +kernel⟩

/-- A team that TRAP has brought into solo mode. -/
def solo : State := (after (.trap hend ⟨5⟩) trapping).getD base
theorem test_sret : trapAfter (.sret hend ⟨2⟩) trapping = some (2, 0, 128) ∧ trapAfter (.sret hend ⟨2⟩) (State.withS world [(2, 134)]) = some (2, 0, 128) := by decide +kernel
theorem witness_TrapReturn : let s := State.withS solo [(2, 136)]
    s.team.solo.map (·.slot) = some false ∧ s.slot = false ∧ base.team.solo = none ∧ (s.readU 2).toNat % 4 = 0 ∧ s.team.stack.length ≤ 16 ∧
    s.writingAny 0 0 0 = false ∧ s.team.core = 0 ∧
    (match s.part 0 with | some p => (match readArea s 0 0 (s.team.saveAddr p) 0x1D80 with | .ok bs u => (trapAreaOf (u.overlay 0 0 (s.team.saveAddr p) bs) s.team p).isSome | _ => false) | none => false) = true := by decide +kernel

/-! ## More witnesses -/

/-- A descriptor with the bases of C, A, B and the log area. -/
def desc4 (c a b l : Nat) : Nat := bindDesc 0 + c + a * 2 ^ 64 + b * 2 ^ 128 + l * 2 ^ 192 - 0x20000 * 2 ^ 64 - 0x30000 * 2 ^ 128 - 0x40000 * 2 ^ 192
/-- What a BIND of the descriptor in the line at 2048 has read when it comes to its checks. -/
def bindSees (s : State) (P : State → Binding → Bool) : Bool :=
  match s.flushTeam with
  | .ok () u => decide (u.team = s.team) && (match engineReadRange u s.who 2048 128 with
    | .ok bs v => decide (v.team = s.team ∧ v.slot = s.slot ∧ v.running = s.running) && (match bindingOf bs 0 0 with | some b => P v b | none => false)
    | _ => false)
  | _ => false
def bindWith (d : Nat) (l : List Binding) : State := { State.withS (worldWith (BitVec.ofNat 1024 d)) [(1, 2048)] with binds := l, parts := world.parts.map fun p => { p with hwBase := 0, hwLast := 0x3FFFFF } }
def legalDesc : Nat := bindDesc 0x10000
def others (n : Nat) : List Binding := (List.replicate n (binding 0 id).toList).flatten
def overlaps (v : State) (b : Binding) : Bool := decide (∀ x ∈ b.extents, x.1.last ≤ 2 ^ 52) && !bindOutside v b && bindApart b (v.bindsOf 0 0)
/-- R298, R301, R297, R294: above bit 51; C in host memory; A and B in one word; A in an owned page; a live binding's owned page; no room; a fifth binding. -/
theorem test_bind_stops :
    [bindWith (desc4 (2 ^ 52) 0x20000 0x30000 0x40000) [], bindWith (desc4 (2 ^ 48) 0x20000 0x30000 0x40000) [], bindWith (desc4 0x10000 0x20000 0x20000 0x40000) [],
      bindWith (desc4 0x10000 0x10800 0x30000 0x40000) [], bindWith (desc4 0x50000 0x10800 0x30000 0x60000) (others 1)].map (trapAfter (.bind hd ⟨3, 1⟩)) =
      [some (0x0B, 0, 128), some (1, 2048, 128), some (1, 2048, 128), some (1, 2048, 128), some (1, 2048, 128)] ∧
    [bindWith (desc4 0x50000 0x20000 0x30000 0x60000) (others 4)].map (trapAfter (.bind hd ⟨3, 1⟩)) = [some (0x0F, 0, 128)] := by decide +kernel
theorem witness_BindStops :
    bindSees (bindWith (desc4 (2 ^ 52) 0x20000 0x30000 0x40000) []) (fun _ b => b.extents.any fun x => decide (2 ^ 52 < x.1.last)) = true ∧
    bindSees (bindWith (desc4 (2 ^ 48) 0x20000 0x30000 0x40000) []) (fun v b => (b.extents.all fun x => decide (x.1.last ≤ 2 ^ 52)) &&
      b.extents.any fun x => x.1.pages.any fun p => match translate v 0 0 (p * 4096) with | .ok _ true _ _ => true | _ => false) = true ∧
    bindSees (bindWith (desc4 0x10000 0x20000 0x20000 0x40000) []) (fun _ b => ((b.side false).word 0x20000).isSome && ((b.side true).word 0x20000).isSome) = true ∧
    bindSees (bindWith (desc4 0x10000 0x10800 0x30000 0x40000) []) (fun _ b => ((b.side false).word 0x10800).isSome && b.owns 0x10800) = true ∧
    bindSees (bindWith (desc4 0x50000 0x10800 0x30000 0x60000) (others 1)) (fun v b => (v.bindsOf 0 0).any fun y => ((b.side false).word 0x10800).isSome && y.owns 0x10800) = true ∧
    bindSees (bindWith (desc4 0x50000 0x20000 0x30000 0x60000) (others 4)) (fun v b => overlaps v b && ((b.side false).word 0x20000).isSome &&
      decide (4 ≤ ((v.bindsOf 0 0).filter fun y => ((y.side false).word 0x20000).isSome || ((y.side true).word 0x20000).isSome).length)) = true ∧
    1024 ≤ ((others 1024).filter fun x => x.pid == (0 : BitVec 5)).length := by decide +kernel
/-- A binding that holds a write of one byte of an operand word whose line is at home; and the same with the line in a transaction. -/
def holding : State := product fun b => { b with il := .idle, hold := [⟨9, 0x20000, 5, 1, some 0⟩] }
def holdingBusy : State := { holding with banks := holding.banks.map fun b => (b.1, { b.2 with txns := [{ sending with key := ⟨0, 0, 1024⟩ }] }) }
theorem test_unbind_held : (after (.unbind hd ⟨1⟩) (State.withS holding [(1, 0x70000)])).map (fun t => (t.binds.length, ((t.bank 0).find ⟨0, 0, 1024⟩ false).map fun l => lineNat l.data 0 4)) =
      some (0, some 5) ∧ (after (.unbind hd ⟨1⟩) (State.withS holdingBusy [(1, 0x70000)])).map (fun t => (t.path.wait, t.binds.length)) = some (some .retry, 1) := by decide +kernel
theorem witness_BindingUse_held :
    (match holding.liveBinding 0x70000 with
     | some b => decide (b.hold = [⟨9, 0x20000, 5, 1, some 0⟩]) &&
         (match releaseHeld b { holding with binds := holding.binds.filter fun x => x.slot != b.slot } with
          | .ok () u => decide (u.team = holding.team ∧ u.slot = holding.slot ∧ u.running = holding.running) | _ => false) &&
         (match releaseHeld b { holdingBusy with binds := holdingBusy.binds.filter fun x => x.slot != b.slot } with | .ok () _ => false | _ => true)
     | none => false) = true ∧ 0x20000 % 4 = 0 := by decide +kernel
theorem witness_lineBare : ({ holding with binds := [] } : State).lineBare 0 0 0x20000 0 { homeLine 1024 with data := 0xFD } := ⟨_, 0, rfl, by decide +kernel⟩

/-- A line at hand for the device, as a check. -/
def bareCheck (s : State) (pid : BitVec 5) (asid : BitVec 16) (a : Nat) (wr : Bool) : Bool :=
  match s.part pid with
  | none => false
  | some p => match p.home asid a with
    | none => false
    | some (_, bank) => match (s.bank bank).find (keyOf pid asid a) false with
      | none => false
      | some l => decide ((s.bank bank).busyOn (keyOf pid asid a) = false ∧ l.key = keyOf pid asid a ∧ l.remote = false ∧ l.perms.wt = false ∧ l.v = BitVec.allOnes 32 ∧
          l.own = 0 ∧ ((s.bank bank).dirEntry l.key).isNone = true ∧ (∀ w ∈ s.watches, w.pid ≠ pid ∨ w.asid ≠ asid) ∧ (wr = true → l.perms.w = true))
theorem bareCheck_sound {s : State} {pid : BitVec 5} {asid : BitVec 16} {a : Nat} {wr : Bool} (h : bareCheck s pid asid a wr = true) :
    ∃ bank l, s.lineBare pid asid a bank l ∧ (wr = true → l.perms.w = true) := by
  unfold bareCheck at h
  split at h <;> try contradiction
  split at h <;> try contradiction
  split at h <;> try contradiction
  rename_i _ p hp _ die bank hh _ l hl
  obtain ⟨h1, h2, h3, h4, h5, h6, h7, h8, h9⟩ := of_decide_eq_true h
  exact ⟨bank, l, ⟨p, _, hp, hh, h1, hl, h2, h3, h4, h5, h6, Option.isNone_iff_eq_none.1 h7, h8⟩, h9⟩
theorem extent_of_check {s : State} {pid : BitVec 5} {asid : BitVec 16} {x : Extent} {wr : Bool} (h1 : x.last ≤ 2 ^ 52) (h2 : x.rows = 1)
    (h : ((List.range x.width).all fun k => bareCheck s pid asid (x.base + k) wr) = true) : s.extentAtHand pid asid x wr := by
  refine ⟨h1, fun i a hi lo hi' => ?_⟩
  have hz : i = 0 := by omega
  subst hz
  have hk := List.all_eq_true.1 h (a - x.base) (List.mem_range.2 (by omega))
  rw [show x.base + (a - x.base) = a by omega] at hk
  exact bareCheck_sound hk
def bareB : Binding := (binding 0 id).getD { slot := 0, tag := 0, pid := 0, asid := 0, cbase := 0, abase := 0, bbase := 0, lbase := 0, m := 0, n := 0, k := 0, cstride := 0, astride := 0, bstride := 0, t := 0, afmt := .i8, bfmt := .i8, cfmt := .i32, bat := false, logn := 4, capseq := 0, appseq := 0, entries := [], rowMarks := [], colMarks := [], rowCnt := [], colCnt := [], il := .init, hold := [], rej := 0, err := false, lost := false }
/-- The same binding with an entry waiting, in DET or BAT. -/
def pendingB (bat : Bool) : Binding := { bareB with slot := if bat then 2 else 1, il := .apend, capseq := 1, entries := [entryA], bat := bat }
/-- The product's world with C, A, B and the log area at hand, and the binding in INIT, with an entry in DET, and with one in BAT. -/
def handy : State :=
  let line (tag : Nat) (d : BitVec 1024) : L2Line := { homeLine tag with data := d }
  { world with
    binds := [bareB, pendingB false, pendingB true],
    banks := base.banks.map fun b => (b.1, { b.2 with lines := [line 512 0xFFFFFFEB, line 1024 0xFD, line 1536 7] ++ (List.range 10).map fun k => line (2048 + k) 0 }) }
theorem handy_log : handy.extentAtHand 0 0 bareB.extentLog true := extent_of_check (by decide) (by decide) (by decide)
theorem bareB_laid : bareB.Laid := by
  refine ⟨by decide +kernel, by decide +kernel, by decide +kernel, by decide +kernel, by decide +kernel, by decide +kernel, by decide +kernel, by decide +kernel, ?_, ?_⟩
  · rintro ⟨opB, w, _, h, ho⟩
    have hw : w = (bareB.side opB).base := by
      have hs : (bareB.side opB).stride = 4 ∧ (bareB.side opB).rows = 1 ∧ (bareB.side opB).cols * elemBytes (bareB.side opB).ty = 1 := by cases opB <;> decide +kernel
      unfold Side.word at h
      rw [hs.1, hs.2.1, hs.2.2] at h
      split at h
      · simp at h
      · simp only at h
        split at h
        · omega
        · simp at h
    subst hw
    cases opB <;> revert ho <;> decide +kernel
  · intro i j hi hj
    have h : bareB.m = 1 ∧ bareB.n = 1 := by decide +kernel
    have hi : i = 0 := by omega
    have hj : j = 0 := by omega
    subst hi; subst hj
    decide +kernel
theorem handy_atHand : handy.productAtHand bareB := by
  refine ⟨bareB_laid, ?_, handy_log, fun opB => ?_, by decide +kernel, by decide +kernel⟩
  · exact extent_of_check (by decide) (by decide) (by decide)
  · cases opB <;> exact extent_of_check (by decide) (by decide) (by decide)

theorem handy_pending (bat : Bool) : handy.productAtHand (pendingB bat) := handy_atHand
theorem witness_ProductBytes :
    handy.binding 0 = some bareB ∧ bareB.slot = 0 ∧ handy.speRuns bareB = true ∧ handy.productAtHand bareB ∧ bareB.il = .init ∧
    (∀ bat, handy.binding (pendingB bat).slot = some (pendingB bat) ∧ handy.speRuns (pendingB bat) = true ∧ handy.productAtHand (pendingB bat) ∧
      (pendingB bat).il ≠ .init ∧ (pendingB bat).t = 0 ∧ (pendingB bat).bat = bat ∧ (pendingB bat).entries = [entryA] ∧ groupable [entryA] = true ∧
      (∀ x ∈ [entryA].flatMap (pendingB bat).corrections, x.1 < (pendingB bat).m ∧ x.2.1 < (pendingB bat).k) ∧
      handy.cReads (pendingB bat) 0 0 0xFFFFFFEB ∧
      TermsAt (pendingB bat) [] handy false 0 0 ((pendingB bat).brings false [entryA] 0 0) [⟨5, 0xFD, 7⟩] ∧
      (pendingB bat).correct false 0xFFFFFFEB [⟨5, 0xFD, 7⟩] = 35) := by
  have out (x : Dev Word) (c : Word) (h : (match x with | .ok d _ => decide (d = c) | _ => false) = true) : ∃ u, x = .ok c u := by
    cases x with
    | ok d u => exact ⟨u, by rw [of_decide_eq_true h]⟩
    | _ => simp at h
  have nat (x : Dev Nat) (c : Nat) (h : (match x with | .ok d _ => decide (d = c) | _ => false) = true) : ∃ u, x = .ok c u := by
    cases x with
    | ok d u => exact ⟨u, by rw [of_decide_eq_true h]⟩
    | _ => simp at h
  refine ⟨by decide +kernel, by decide +kernel, by decide +kernel, handy_atHand, by decide +kernel, fun bat => ⟨?_, ?_, handy_pending bat, ?_, ?_, ?_, ?_, by decide +kernel, ?_, ?_, ⟨?_, fun k x t hx ht => ?_⟩, ?_⟩⟩
  · cases bat <;> decide
  · cases bat <;> decide
  · cases bat <;> decide
  · cases bat <;> decide
  · cases bat <;> decide
  · cases bat <;> decide
  · cases bat <;> decide
  · cases bat <;> exact out _ _ (by decide)
  · cases bat <;> decide
  · have hb : (pendingB bat).brings false [entryA] 0 0 = [(0, 0, 0xFD, 5)] := by cases bat <;> decide
    rw [hb] at hx
    cases k with
    | succ k => simp at hx
    | zero =>
      simp only [List.getElem?_cons_zero, Option.some.injEq] at hx ht
      subst hx; subst ht
      refine ⟨rfl, rfl, nat _ _ ?_⟩
      cases bat <;> decide
  · cases bat <;> decide
theorem test_product_bytes : (after (.speApplyEntry 1) handy).map (fun t => (((t.bank 0).find ⟨0, 0, 512⟩ false).map fun l => lineNat l.data 0 4, (t.binding 1).map fun b => (b.appseq, b.il))) =
      some (some 35, some (1, .idle)) ∧ (after (.bindingError 0) ({ handy with binds := [{ bareB with err := true }] })).map (fun t => (t.binding 0).map fun b => (b.err, b.il)) = some (some (true, .idle)) := by decide +kernel

/-- The product's world after the initial product, its binding changed. -/
def capturing (f : Binding → Binding) : State := { handy with binds := [f { bareB with il := .idle }] }
def heldA : HeldWrite := ⟨9, 0x20000, 6, 1, none⟩
def memberA : Member := ⟨0, false, 0, 0⟩
theorem witness_Capture :
    (let s := capturing id
     ((s.members 0 0 0x20000).map fun m => (m.slot, m.opB, m.row, m.col)) = [(0, false, 0, 0)] ∧ s.binding 0 = some { bareB with il := .idle } ∧
      s.hostCache.contains (0, 0x20000 / 128) = false ∧ s.owned 0 0 0x20000 = false ∧ s.wordHeld 0 0 0x20000 = false ∧ (capturing fun b => { b with hold := [heldA] }).wordHeld 0 0 0x20000 = true ∧
      bareB.err = false ∧ bareB.hold = [] ∧ bareB.rowMarks = [] ∧ bareB.entries.length < 2 ^ bareB.logn ∧ elemBytes (bareB.side false).ty = 1 ∧ (bareB.side false).cols = 1 ∧
      s.speBroken { bareB with il := .idle } = false ∧ (idle fun b => { b with cbase := 2 ^ 40 }).speBroken ((binding 0 fun b => { b with cbase := 2 ^ 40 }).getD bareB) = true ∧
      (match Dev.settled (speFail (idle fun b => { b with cbase := 2 ^ 40 }) 0) with | .ok () _ => true | _ => false) = true) ∧
    (∀ banks, bareB.strayed { capturing id with banks := banks } ⟨0, 0, 1024⟩ 0x20000 [0] = false) ∧
    (capturing id).lineBare 0 0 0x20000 0 { homeLine 1024 with data := 0xFD } ∧ (capturing id).extentAtHand 0 0 bareB.extentLog true ∧
    ∀ k, k < 4 → byteAt (0xFD : BitVec 1024) k = (0xFD : Word).extractLsb' (8 * k) 8 :=
  ⟨by decide +kernel, fun banks => by with_unfolding_all rfl, ⟨_, 0, rfl, by decide +kernel⟩, handy_log, by decide +kernel⟩
/-- R306, R314, R304: a write in INIT is held, one of a marked row is a mark, any other one is an entry; home has it but where it is held. -/
theorem test_capture_bytes : [capturing id, capturing fun b => { b with il := .init }, capturing fun b => { b with rowMarks := [0] }].map (fun s =>
      (after (.operandCapture 0 0 0x20000 5 1) s).map fun t => (((t.bank 0).find ⟨0, 0, 1024⟩ false).map fun l => lineNat l.data 0 4, (t.binding 0).map fun b => (b.entries.length, b.hold.length, b.il))) =
    [some (some 5, some (1, 0, .apend)), some (some 0xFD, some (0, 1, .init)), some (some 5, some (0, 0, .idle))] := by decide +kernel

/-- TEAMID 2 with a child, TEAMID 3; the second family has a write that is not acknowledged. -/
def family : State := { world with teams := [mate, { mate with id := 3, sub := 2, slotNo := some 2, parent := some 2, path0 := some (pathAt 384 1 none) }] }
def busyFamily : State := { family with cores := [(0, { Core.blank with acks := [⟨0, 3, .store, ⟨0, 0, 9⟩, 1, 0⟩] })] }
theorem witness_Killing_family : family.teamNamed 0 2 = some mate ∧ mate.phase = .resident ∧ family.team.id ≠ 2 ∧
    (match family.killFamily 0 2 5 with | .ok () u => decide (u.team.phase ≠ .ended ∧ u.findTeam 0 2 = none ∧ u.findTeam 0 3 = none) | _ => false) = true ∧
    (match busyFamily.killFamily 0 2 5 with | .busy u => decide (u.slot = busyFamily.slot ∧ u.path = busyFamily.path) | _ => false) = true ∧
    (∃ y ∈ busyFamily.live, y.id = 3 ∧ y.parent = some 2 ∧ busyFamily.unacked y = true) := by decide +kernel
theorem test_kill_family : (after (.kill hd ⟨3, 1, 2⟩) (State.withS family [(1, 2), (2, 0xE01)])).map (fun t => (t.team.uval 3, t.teams.map (·.id))) = some (1, []) := by decide +kernel
/-- R405: a request that has reached a point does not become hard, though its team has gone on. -/
theorem test_grace_granted : (after (.graceExpiry 2) { withMate (fun _ => { small with preempt := some ⟨false, 0, true⟩ }) with cycle := 2048 }).map (fun t => t.teams.map (·.preempt)) =
    some [some ⟨false, 0, true⟩] := by decide +kernel
/-- R303, R148: a write-back of a core is not acknowledged while a binding holds a write of its line that comes from the core. -/
theorem witness_heldLine : let s (c : Option Nat) : State := { capturing (fun b => { b with hold := [{ heldA with core := c }] }) with cores := [(0, { Core.blank with acks := [⟨0, 1, .writeback, ⟨0, 0, 1024⟩, 1, 5⟩] })] }
    (s (some 0)).heldLine 0 ⟨0, 0, 1024⟩ = true ∧ (after (.requestAcknowledge 0 0) (s (some 0))).map (fun t => (t.core 0).acks.length) = some 1 ∧
    (after (.requestAcknowledge 0 0) (s none)).map (fun t => (t.core 0).acks.length) = some 0 := by decide +kernel
theorem witness_Publishing_held : let s : State := withPath (capturing fun b => { b with hold := [heldA] }) false (some (pathAt 128 1 (some (.held 9 0x20000 4))))
    (match s.path.wait with | some (.held k b m) => k == 9 && s.stillHeld k b m | _ => false) = true ∧
    (withPath (capturing id) false (some (pathAt 128 1 (some (.held 9 0x20000 4))))).stillHeld 9 0x20000 4 = false := by decide +kernel
theorem witness_Rallies_table : let s := rallying none
    (s.rally.filter fun y => y.bank == 0).take 16 = s.rally ∧ s.rally[1]? = some (post 2 none [5, 4] 1) ∧ s.writingAny 0 0 0 = false ∧ s.loads = [] ∧
    s.live.map (fun x => (x.reads 4, x.path0.map (·.spoils))) = [(false, some []), (false, some [])] ∧
    (match s.part 0 with
     | some p => (match (({ s with rally := s.rally.erase (post 1 none [4, 5] 3) } : State).focusOn 0 1 false).trapSave p 0x09 0 with | .ok () _ => true | _ => false)
     | none => false) = true := by decide +kernel
/-- R424: the weights of two partitions at a shared stop; R127: a peer's packet of a disabled partition is rejected. -/
theorem witness_Packets_weights : let s : State := { twoParts id (fun p => { p with weight := 2 }) with served := [(servedKey 3 0, 1), (servedKey 3 1, 1)] }
    s.weightOf 0 = 1 ∧ s.weightOf 1 = 2 ∧ s.mayServe 3 0 [1] = false ∧ s.mayServe 3 1 [0] = true ∧ s.mayServe 3 0 [] = true ∧
    ((twoParts id off).part 1).map (·.enabled) = some false ∧ (moving [arrived]).fairAt arrived = true := by decide +kernel
theorem test_peer_rejected : (after (.peerLinkArrival 2 ⟨1, 64, 9⟩) (twoParts id off)).map (fun t => (t.packets.length, (t.part 1).map fun p => (p.xreject, p.err))) = some (0, some (1, true)) := by decide +kernel
/-- R123, R443: a second reissue before the caddie has been at (0, 0). -/
theorem test_caddie_second : (after .caddieReissue { moving [] with cycle := 2 ^ 20, reissued := true }).map (fun t => (t.fatal, t.dump, t.running.length, t.aer.length)) = some (true, 2 ^ 62, 0, 1) := by decide +kernel
/-- R433: what waits in the port and on the link, and the answer that shows the writes on the link performed. -/
theorem witness_HostAtomics_held : let s := atoms .pcie (atom .n32 .add none)
    s.hostSent = [] ∧ (∀ w ∈ s.hostOut, w.pid ≠ 0) ∧ (s.part 0).map (·.err) = some false ∧ s.mayServe hostQueue 0 s.atomWaiters = true ∧
    ({ atoms .pcie (atom .n32 .add none) with hostAtoms := [atom .n32 .add (some 1), { atom .n32 .add none with slot := true }] } : State).hostAtoms.length = 2 := by decide +kernel
/-- R436: a write without Relaxed Ordering waits for a held one, whatever the ASID of the window now is. -/
theorem test_hostApertureWrite_ordered : let s : State := { aperture id with binds := (binding 0 fun b => { b with asid := 9, hold := [{ heldA with core := none }] }).toList }
    ((after (.hostApertureWrite 0 2052 [0xAA] false) s).map fun t => ((t.bank 0).find key16 false).map fun l => lineNat l.data 4 1) = some (some 4) ∧
    ((after (.hostApertureWrite 0 2052 [0xAA] true) s).map fun t => ((t.bank 0).find key16 false).map fun l => lineNat l.data 4 1) = some (some 0xAA) := by decide +kernel
/-- R426: another key slot has a new key; the old one has none. -/
theorem test_partitionChange_key : (after (.partitionChange { second with keyslot := 9 }) { twoParts id off with keys := [(1, 5)] }).map (fun t => ((t.part 1).map (·.keyslot), storeGet 0 t.keys 9, storeGet 0 t.keys 1, t.epoch)) =
    some (some 9, 1, 0, 1) := by decide +kernel
/-- R441, R431, R426: the boot's link and the key of the reserved regions. -/
theorem test_boot_link : ((after (.powerOnBoot (List.replicate 7 ⟨true, 3⟩)) { State.reset with fuse := 3 }).map fun t => (storeGet 0 t.keys 63, t.images, t.free)) = some (1, List.replicate 7 3, 3) := by decide +kernel
/-- R443: a dump that has failed stands. -/
theorem test_dump : (after .fatalError { world with fatal := true, dump := 3 * 2 ^ 62 }).map (·.dump) = some (3 * 2 ^ 62) ∧ 2 ^ 62 / 2 ^ 62 = 1 := by decide +kernel
/-- R58, R422: a frame gets its channel set and loses its bytes; a unit is retired, a number that names none is not. -/
def frameWorld : State := { world with parts := world.parts.map fun p => { p with channels := [0, 1] }, mem := [(7 * 2097152, 5)] }
theorem test_channelSet_loses : (after (.registerWrite (.channelSet 7 [0, 1]) 0) frameWorld).map (fun t => (storeGet [] t.chanSets 7, t.epoch)) = some ([0, 1], 1) ∧
    (after (.registerWrite (.channelSet 7 [0, 1]) 0) frameWorld).map (fun t => t.mem) = some [] := by decide +kernel
theorem test_retire : (after (.registerWrite (.retire 70) 0) world).map (·.retiredUnits) = some [70] ∧ (after (.registerWrite (.retire 50) 0) world).map (·.retiredUnits) = some [] := by decide +kernel
theorem test_readBack_stops : (after (.readBack (.certificate 0)) world).map (·.mgmtRead) = some world.mgmtRead ∧
    (moving [arrived]).unitEntries .packets ≠ [] := by decide +kernel

end Sys2Proof.Tests
end

section
/-! Proof of `Obligations.Divergence`: the reconvergence stack and its frames, BRD and JOIN. -/
namespace Sys2Proof.Machine

/-! ## The reconvergence stack as a list (R327) -/

/-- The stack around the most recent entry of a slot. -/
theorem Team.stack_split_top {t : Team} {slot : Bool} {e : StackEntry} (h : t.top slot = some e) :
    ∃ a b, t.stack = a ++ e :: b ∧ e.slot = slot ∧ NoEntry slot a := by
  obtain ⟨he, a, b, hs, ha⟩ := List.find?_eq_some_iff_append.1 h
  exact ⟨a, b, hs, by simpa using he, fun x hx => by simpa using ha x hx⟩

theorem dropTop_append {slot : Bool} {e : StackEntry} {a b : List StackEntry} (he : e.slot = slot) (ha : NoEntry slot a) :
    dropTop slot (a ++ e :: b) = a ++ b := by
  induction a with
  | nil => simp [dropTop, he]
  | cons x a ih =>
    obtain ⟨hx, ha⟩ := List.forall_mem_cons.1 ha
    simp [dropTop, hx, ih ha]

theorem replaceTop_append {slot : Bool} {e y : StackEntry} {a b : List StackEntry} (he : e.slot = slot) (ha : NoEntry slot a) :
    replaceTop slot y (a ++ e :: b) = a ++ y :: b := by
  induction a with
  | nil => simp [replaceTop, he]
  | cons x a ih =>
    obtain ⟨hx, ha⟩ := List.forall_mem_cons.1 ha
    simp [replaceTop, hx, ih ha]

/-- Dropping a slot's most recent entry pops that entry and no other. -/
theorem popped_dropTop {t : Team} {slot : Bool} {e : StackEntry} (h : t.top slot = some e) : Popped slot t.stack (dropTop slot t.stack) e := by
  obtain ⟨a, b, hs, he, ha⟩ := Team.stack_split_top h
  exact ⟨a, b, hs, by rw [hs, dropTop_append he ha], he, ha⟩

/-! ## What moves of a path leave alone -/

/-- From one state to the other only paths, the TCTL writes that wait for them, the focus slot, the runs and the note of retirement differ. -/
def PathsMove (s t : State) : Prop :=
  ∃ chk p0 p1 slot running retired,
    t = { s with team := { s.team with chkFrom := chk, path0 := p0, path1 := p1 }, slot := slot, running := running, retired := retired }

theorem PathsMove.trans {s t u : State} (h : PathsMove s t) (k : PathsMove t u) : PathsMove s u := by
  obtain ⟨_, _, _, _, _, _, rfl⟩ := h
  obtain ⟨_, _, _, _, _, _, rfl⟩ := k
  exact ⟨_, _, _, _, _, _, rfl⟩

/-- The stack and the results that are pending stand as they did. -/
theorem PathsMove.stack {s t : State} (h : PathsMove s t) : t.team.stack = s.team.stack := by
  obtain ⟨_, _, _, _, _, _, rfl⟩ := h; rfl
theorem PathsMove.top {s t : State} (h : PathsMove s t) (b : Bool) : t.team.top b = s.team.top b := by
  unfold Team.top; rw [h.stack]
theorem PathsMove.pend {s t : State} (h : PathsMove s t) : t.team.pend = s.team.pend := by
  obtain ⟨_, _, _, _, _, _, rfl⟩ := h; rfl

/-- A path written in either slot, with the focus, the TCTL writes and the note of retirement set besides. -/
theorem pathsMove_put (s : State) (chk : List (Bool × Bool)) (b slot : Bool) (p : Option Path) (r : Bool) :
    PathsMove s { s with team := { s.team with chkFrom := chk }.setPath b p, slot := slot, retired := r } := by
  cases b <;> exact ⟨_, _, _, _, _, _, rfl⟩

theorem pathsMove_setPath (s : State) (p : Path) : PathsMove s (s.setPath p) := pathsMove_put s s.team.chkFrom s.slot s.slot (some p) s.retired

theorem pathsMove_endRun (s : State) : PathsMove s s.endRun := by
  rw [State.endRun_frame]
  exact ⟨_, _, _, _, _, _, rfl⟩

theorem pathsMove_retired (s : State) : PathsMove s { s with retired := true } := ⟨_, _, _, _, _, _, rfl⟩

theorem pathsMove_goTo (s : State) (fin : Bool) (pc : Dword) : PathsMove s (s.goTo fin pc) := by
  rw [State.goTo_eq, Team.setPath_frame]
  exact ⟨_, _, _, _, _, _, rfl⟩

theorem OnlyStack.trans_paths {s u t : State} (h : OnlyStack s u) (k : PathsMove u t) : OnlyStack s t := by
  obtain ⟨_, _, _, _, _, _, rfl⟩ := k
  obtain ⟨hteam, hstay, hframes⟩ := h
  refine ⟨by rw [hteam], hstay, fun hl => ?_⟩
  obtain ⟨hmem, hcore, hu⟩ := hframes hl
  exact ⟨hmem, hcore, by rw [hu]⟩

theorem PathsMove.trans_stack {s u t : State} (h : PathsMove s u) (k : OnlyStack u t) : OnlyStack s t := by
  obtain ⟨_, _, _, _, _, _, rfl⟩ := h
  exact k

/-! ## Frames that the stack takes and gives back (R332, R350) -/

theorem State.takeFrames_some {s t : State} {pid : BitVec 5} {n : Nat} {l : List Nat} (h : s.takeFrames pid n = some (l, t)) :
    l.length = n ∧ t = { s with parts := t.parts } := by
  unfold State.takeFrames at h
  split at h
  · cases h
  · split at h
    · cases h
    · next e =>
      cases h
      unfold Partition.freeFrames at e
      simp only [Option.ite_none_right_eq_some, Option.some.injEq] at e
      obtain ⟨hn, rfl⟩ := e
      exact ⟨hn, rfl⟩

theorem quiet_dropFrame {s t : State} {core : Nat} {l : List (BitVec 5 × Nat)} (h : dropFrame core s l = some t) : Quiet s t := by
  induction l with
  | nil => cases h
  | cons x l ih =>
    simp only [dropFrame] at h
    split at h
    · next e =>
      cases h
      exact ((quiet_deviceWriteAll ..).holds _ _ e).trans ⟨rfl, rfl, rfl, rfl, rfl, rfl, rfl, rfl, id⟩
    · cases h
      exact quiet_putCore ..
    · exact ih h

/-- A core's use of a frame leaves every team and run alone, also where another frame leaves its store. -/
theorem quiet_useFrame (s : State) (core : Nat) (pid : BitVec 5) (a : Nat) : Quiet s (s.useFrame core pid a) := by
  unfold State.useFrame
  extract_lets keep s1 c s2
  have h2 : Quiet s s2 := ⟨rfl, rfl, rfl, rfl, rfl, rfl, rfl, rfl, id⟩
  clear_value s2
  split
  · exact h2
  · cases e : dropFrame core s2 c.frames.reverse with
    | none => exact h2.trans (quiet_putCore ..)
    | some t => exact h2.trans (quiet_dropFrame e)

/-- A read of a table whose values all went through a function. -/
theorem storeGet_map {α : Type} (d : α) (f : α → α) (hd : f d = d) (st : Store α) (k : Nat) :
    storeGet d (st.map fun c => (c.1, f c.2)) k = f (storeGet d st k) := by
  induction st with
  | nil => exact hd.symm
  | cons c st ih =>
    obtain ⟨a, v⟩ := c
    unfold storeGet at ih ⊢
    simp only [List.map_cons, storeFind]
    split
    · rfl
    · exact ih

/-- The cores once a core uses a frame: only their frame stores differ, as long as no frame has to leave. -/
theorem State.useFrame_room {s : State} {core : Nat} (pid : BitVec 5) (a : Nat) (h : (s.core core).frames.length < 512) :
    s.useFrame core pid a = { s with cores := (s.useFrame core pid a).cores } ∧
      ∀ c, (s.useFrame core pid a).core c = { s.core c with frames := ((s.useFrame core pid a).core c).frames } := by
  unfold State.useFrame
  extract_lets keep s1 c s2
  have hs1 : ∀ k, s1.core k = { s.core k with frames := (s.core k).frames.filter fun x => x != (pid, a) && s.frameTaken x } :=
    fun k => storeGet_map Core.blank (fun x => { x with frames := x.frames.filter fun y => y != (pid, a) && s.frameTaken y }) rfl s.cores k
  have hroom : c.frames.length < Config.frameStore := by
    have : c.frames.length ≤ (s.core core).frames.length := by
      show (s1.core core).frames.length ≤ _
      rw [hs1]
      exact List.length_filter_le ..
    exact Nat.lt_of_le_of_lt this h
  rw [if_pos hroom]
  refine ⟨rfl, fun k => ?_⟩
  have hs2 : s2.core k = { s.core k with frames := (s2.core k).frames } := by
    rw [show s2.core k = if k = core then { c with frames := (pid, a) :: c.frames } else s1.core k from State.core_putCore ..]
    split
    · next e => rw [e, show c = _ from hs1 core]
    · rw [hs1]
  exact hs2

/-! ## The stack's operations -/

/-- Of a step's work so far only the reconvergence stack of the team in focus has changed, and the frames that it spills to. -/
structure StackOnly (s u : State) : Prop where
  only : OnlyStack s u
  slot : u.slot = s.slot
  team : u.team = { s.team with stack := u.team.stack, spill := u.team.spill }

/-- A stack rewritten in place keeps its frames. -/
theorem stackOnly_put (s : State) (l : List StackEntry) : StackOnly s { s with team := { s.team with stack := l } } :=
  ⟨⟨rfl, fun _ => ⟨rfl, rfl⟩, fun _ => ⟨memorySame_of rfl rfl rfl, fun _ => rfl, rfl⟩⟩, rfl, rfl⟩

theorem StackOnly.refl (s : State) : StackOnly s s := stackOnly_put s s.team.stack

theorem StackOnly.path {s u : State} (h : StackOnly s u) (b : Bool) : u.team.path b = s.team.path b := by
  rw [h.team]; cases b <;> rfl

/-- What a pop leaves on the stack and in its spill frames. -/
theorem State.popStack_team (s : State) (b : Bool) :
    (s.popStack b).team = { s.team with stack := dropTop b s.team.stack, spill := s.team.spill.tail } := by
  unfold State.popStack
  split
  · next e => rw [e]; rfl
  · next e => rw [e]; simp [e]

theorem stackOnly_popStack (s : State) (b : Bool) : StackOnly s (s.popStack b) := by
  unfold State.popStack
  dsimp only
  split
  · next a rest e =>
    refine ⟨⟨rfl, fun h => ?_, fun _ => ⟨memorySame_of rfl rfl rfl, fun _ => rfl, rfl⟩⟩, rfl, rfl⟩
    have : rest = a :: rest := h.trans e
    simp at this
  · exact stackOnly_put ..

theorem popped_of_popStack {s : State} {b : Bool} {e : StackEntry} (h : s.team.top b = some e) {l : List StackEntry} (hl : l = (s.popStack b).team.stack) :
    Popped b s.team.stack l e := by
  rw [hl, State.popStack_team]
  exact popped_dropTop h

/-- A push fails where the stack is full and the pool has no free frame, and only there (R332). -/
theorem State.pushStack_eq_none (s : State) (e : StackEntry) : s.pushStack e = none ↔ s.canPush = false := by
  unfold State.pushStack State.canPush
  by_cases hroom : s.team.stack.length < 16
  · simp [hroom, Config.stackEntries]
  · cases s.takeFrames s.team.pid 1 <;> simp [hroom, Config.stackEntries]

/-- A push that takes a frame of the pool (R332): the entry lies on the stack, and the team's core uses the frame. -/
theorem stackOnly_spill (s : State) (parts : List Partition) (e : StackEntry) (a : Nat) :
    let w : State := { s with parts := parts, team := { s.team with stack := e :: s.team.stack, spill := a :: s.team.spill } }
    StackOnly s (w.useFrame s.team.core s.team.pid a) ∧ (w.useFrame s.team.core s.team.pid a).team.stack = e :: s.team.stack := by
  intro w
  have q := quiet_useFrame w s.team.core s.team.pid a
  have hspill : (w.useFrame s.team.core s.team.pid a).team.spill.length = s.team.spill.length + 1 := by rw [q.team]; rfl
  refine ⟨⟨⟨by rw [q.team], fun h => ?_, fun h => ?_⟩, q.slot, by rw [q.team]⟩, by rw [q.team]⟩
  · rw [h] at hspill; omega
  · have hroom : (w.core s.team.core).frames.length < 512 := h.resolve_left (by omega)
    obtain ⟨hu, hcore⟩ := State.useFrame_room s.team.pid a hroom
    exact ⟨memorySame_of q.mem q.lost (by rw [hu]), hcore, by rw [hu]⟩

theorem State.pushStack_some {s u : State} {e : StackEntry} (h : s.pushStack e = some u) : StackOnly s u ∧ u.team.stack = e :: s.team.stack := by
  unfold State.pushStack at h
  split at h
  · cases h
    exact ⟨stackOnly_put .., rfl⟩
  · split at h
    · next l s' et =>
      obtain ⟨hl, hs'⟩ := State.takeFrames_some et
      obtain ⟨a, rfl⟩ := List.length_eq_one_iff.1 hl
      cases h
      rw [hs']
      exact stackOnly_spill ..
    · cases h

/-! ## The end of the run, and where a path stands -/

/-- A change of the stack leaves the team's name and its place. -/
theorem OnlyStack.ids {s u : State} (h : OnlyStack s u) : u.team.subKey = s.team.subKey ∧ u.team.pid = s.team.pid ∧ u.team.id = s.team.id := by
  rw [h.1]; exact ⟨rfl, rfl, rfl⟩

theorem State.endRun_runOver (s : State) : RunOver s s.endRun := by
  unfold RunOver State.endRun
  split
  · simp
  · assumption

/-- The run that is over for a path is over whatever has happened to the stack before. -/
theorem RunOver.of_stack {s u t : State} (h : OnlyStack s u) (hs : u.slot = s.slot) (k : RunOver u t) : RunOver s t := by
  obtain ⟨hsub, hpid, hid⟩ := h.ids
  unfold RunOver at k ⊢
  rwa [hsub, hpid, hid, hs] at k

theorem runsAt_resume {t : State} {slot : Bool} {p : Path} {pc : Dword} {mask : LaneMask} {cycle : Nat}
    (h : t.team.path slot = some (p.resume pc mask cycle)) : RunsAt t slot pc mask := ⟨_, h, rfl, rfl, rfl, rfl⟩

theorem hasBudget_resume {t : State} {slot : Bool} {p : Path} {pc : Dword} {mask : LaneMask} {cycle : Nat}
    (h : t.team.path slot = some (p.resume pc mask cycle)) : HasBudget t slot p.budget p.sb := ⟨_, h, rfl, rfl⟩

theorem runsAt_gone {t : State} {slot : Bool} {p : Path} {pc : Dword} {cycle : Nat}
    (h : t.team.path slot = some (p.gone true pc cycle)) : RunsAt t slot pc p.mask := ⟨_, h, rfl, rfl, rfl, rfl⟩

theorem hasBudget_gone {t : State} {slot : Bool} {p : Path} {pc : Dword} {cycle : Nat}
    (h : t.team.path slot = some (p.gone true pc cycle)) : HasBudget t slot p.budget p.sb := ⟨_, h, rfl, rfl⟩

/-- A 4-byte aligned address, as the model tests it. -/
theorem low2_eq_zero_iff (x : Dword) : x.extractLsb' 0 2 = 0 ↔ x.toNat % 4 = 0 := by
  rw [← BitVec.toNat_inj]; simp [BitVec.extractLsb'_toNat]

theorem onlyPaths_goTo (s : State) (fin : Bool) (pc : Dword) : OnlyPaths s (s.goTo fin pc) :=
  ⟨outside_goTo s.team fin pc, by rw [State.goTo_team]; exact Team.setPath_frame ..⟩

/-- A run-ending instruction that changes nothing but its path's place. -/
theorem wentTo_goTo_self (s : State) (pc : Dword) : WentTo s (s.goTo true pc) pc := wentTo_goTo pc rfl rfl rfl rfl rfl rfl

/-! ## BRD (R26, R328, R332) -/

/-- The lanes that a BRD sends to its target, and those that it leaves (R328). -/
def State.taken (s : State) (g : Guard) : LaneMask := s.active &&& s.guardMask g
def State.notTaken (s : State) (g : Guard) : LaneMask := s.active &&& ~~~(s.taken g)

section
variable {h : Hdr} {o : RelO} {s : State}

/-- A BRD that no active lane takes goes on behind itself. -/
theorem exec_brd_none (h0 : s.taken h.guard = 0) : exec (.brd h o) s = .next (s.goTo true (s.path.pc + 12)) := if_pos h0

theorem exec_brd_misaligned (h0 : s.taken h.guard ≠ 0) (h4 : (s.path.pc + o.off.signExtend 64).toNat % 4 ≠ 0) :
    Traps (.brd h o) s 0x04 (s.path.pc + o.off.signExtend 64) :=
  (if_neg h0).trans (if_pos fun e => h4 ((low2_eq_zero_iff _).1 e))

/-- A BRD that every active lane takes goes to its target. -/
theorem exec_brd_all (h0 : s.taken h.guard ≠ 0) (h4 : (s.path.pc + o.off.signExtend 64).toNat % 4 = 0) (hr : s.notTaken h.guard = 0) :
    exec (.brd h o) s = .next (s.goTo true (s.path.pc + o.off.signExtend 64)) :=
  (if_neg h0).trans ((if_neg fun e => e ((low2_eq_zero_iff _).2 h4)).trans (if_pos hr))

/-- The state of a BRD that gives a path to the free slot (R328), before the path in focus goes on: that path and the new one are written, and the TCTL
writes that wait are the focus path's alone. -/
def State.fork (u : State) (p q : Path) : State :=
  { u.setPath p with
    team := { (u.setPath p).team with chkFrom := (u.setPath p).team.chkFrom.filter fun x => x.1 == u.slot }.setPath (!u.slot) (some q) }

/-- The path that the taken lanes of a BRD get in the free slot (R328). -/
def State.forked (s : State) (taken : LaneMask) (target : Dword) (cycle : Nat) : Path :=
  { Path.blank.resume target taken cycle with budget := s.path.budget, sb := s.path.sb }

section
variable (h0 : s.taken h.guard ≠ 0) (h4 : (s.path.pc + o.off.signExtend 64).toNat % 4 = 0) (hr : s.notTaken h.guard ≠ 0)
include h0 h4 hr

theorem exec_brd_full (hfull : s.canPush = false) : Traps (.brd h o) s 0x0E 0 := by
  have hnone := fun e => (State.pushStack_eq_none s e).2 hfull
  refine (if_neg h0).trans ((if_neg fun e => e ((low2_eq_zero_iff _).2 h4)).trans ((if_neg hr).trans ?_))
  simp only [hnone, ite_self]

theorem exec_brd_split (hfree : s.team.path (!s.slot) = none) {u : State} (hu : s.pushStack ⟨.split, s.slot, 0, 0⟩ = some u) :
    exec (.brd h o) s =
      .next ((u.fork { s.path with mask := s.notTaken h.guard } (s.forked (s.taken h.guard) (s.path.pc + o.off.signExtend 64) u.cycle)).goTo true
        (s.path.pc + 12)) := by
  refine (if_neg h0).trans ((if_neg fun e => e ((low2_eq_zero_iff _).2 h4)).trans ((if_neg hr).trans ((if_pos (by rw [hfree]; rfl)).trans ?_)))
  rw [hu]; rfl

theorem exec_brd_pending {q : Path} (hq : s.team.path (!s.slot) = some q) {u : State}
    (hu : s.pushStack ⟨.pending, s.slot, s.path.pc + 12, s.notTaken h.guard⟩ = some u) :
    exec (.brd h o) s = .next ((u.setPath { s.path with mask := s.taken h.guard }).goTo true (s.path.pc + o.off.signExtend 64)) := by
  refine (if_neg h0).trans ((if_neg fun e => e ((low2_eq_zero_iff _).2 h4)).trans ((if_neg hr).trans ((if_neg (by rw [hq]; simp)).trans ?_)))
  unfold State.notTaken State.taken at hu
  rw [hu]; rfl

end
end

theorem pathsMove_fork (u : State) (p q : Path) : PathsMove u (u.fork p q) := (pathsMove_setPath u p).trans (pathsMove_put ..)

theorem State.fork_path (u : State) (p q : Path) : (u.fork p q).path = p := by
  unfold State.fork State.path
  simp only [State.setPath_slot, State.setPath_team, Team.path_not_setPath]
  cases u.slot <;> rfl

theorem State.fork_other (u : State) (p q : Path) : (u.fork p q).team.path (!u.slot) = some q := Team.path_setPath ..

/-- What follows where a BRD has pushed its entry and written its paths, and the path in focus goes on in a new run. -/
theorem brd_goes_on {s u w : State} (hu : StackOnly s u) (hw : PathsMove u w) (hs : w.slot = u.slot) (pc : Dword) :
    OnlyStack s (w.goTo true pc) ∧ RunOver s (w.goTo true pc) ∧ (w.goTo true pc).retired = true ∧ (w.goTo true pc).slot = s.slot ∧
      (w.goTo true pc).team.stack = u.team.stack ∧ (w.goTo true pc).team.path s.slot = some (w.path.gone true pc w.cycle) ∧
      (w.goTo true pc).team.path (!s.slot) = w.team.path (!u.slot) := by
  have hslot : w.slot = s.slot := hs.trans hu.slot
  have honly : OnlyStack s w := hu.only.trans_paths hw
  refine ⟨honly.trans_paths (pathsMove_goTo ..), .of_stack honly hslot (State.goTo_runOver w pc), State.goTo_retired .., ?_, ?_, ?_, ?_⟩
  · rw [State.goTo_slot, hslot]
  · exact (hw.trans (pathsMove_goTo ..)).stack
  · rw [State.goTo_team, hslot, Team.path_setPath]
  · rw [State.goTo_team, hslot, Team.path_setPath_not, hu.slot]

/-- R26, R328, R332: a BRD divides nothing, traps, forks into a free slot, or pushes the lanes that do not take it. -/
theorem stated_divergence : Stated.Divergence := by
  intro h o s i taken rest target after
  refine ⟨fun h0 => ⟨_, exec_brd_none h0, wentTo_goTo_self .., onlyPaths_goTo ..⟩, fun h0 h4 => exec_brd_misaligned h0 h4,
    fun h0 h4 hr => ⟨_, exec_brd_all h0 h4 hr, wentTo_goTo_self .., onlyPaths_goTo ..⟩, fun h0 h4 hr hfull => exec_brd_full h0 h4 hr hfull,
    fun h0 h4 hr hroom => ?_⟩
  have push e : ∃ u, s.pushStack e = some u := by
    refine Option.ne_none_iff_exists'.1 fun hnone => ?_
    rw [State.pushStack_eq_none, hroom] at hnone
    cases hnone
  cases hq : s.team.path (!s.slot) with
  | none =>
    obtain ⟨u, hpush⟩ := push ⟨.split, s.slot, 0, 0⟩
    obtain ⟨hu, hstack⟩ := State.pushStack_some hpush
    obtain ⟨honly, hrun, hret, hslot, hst, hfocus, hother⟩ :=
      brd_goes_on hu (pathsMove_fork u { s.path with mask := rest } (s.forked taken target u.cycle)) rfl after
    rw [State.fork_path] at hfocus
    rw [State.fork_other] at hother
    exact ⟨_, exec_brd_split h0 h4 hr hq hpush, honly, hrun, hret, hslot, hasBudget_gone (p := { s.path with mask := rest }) hfocus, hst.trans hstack, runsAt_gone hfocus,
      ⟨_, hother, rfl, rfl, rfl, rfl⟩, _, hother, rfl, rfl⟩
  | some q =>
    obtain ⟨u, hpush⟩ := push ⟨.pending, s.slot, after, rest⟩
    obtain ⟨hu, hstack⟩ := State.pushStack_some hpush
    obtain ⟨honly, hrun, hret, hslot, hst, hfocus, hother⟩ := brd_goes_on hu (pathsMove_setPath u { s.path with mask := taken }) rfl target
    rw [State.path_setPath] at hfocus
    rw [State.setPath_team, Team.path_setPath_not, hu.slot, hu.path, hq] at hother
    exact ⟨_, exec_brd_pending h0 h4 hr hq hpush, honly, hrun, hret, hslot, hasBudget_gone (p := { s.path with mask := taken }) hfocus, hst.trans hstack, runsAt_gone hfocus, hother⟩

/-! ## JOIN (R327, R329, R330) -/

section
variable {s : State} {p : Path} {e : StackEntry} (hp : s.team.path s.slot = some p)
include hp

/-- R329: the lanes of a PENDING entry run next, and those that stand at the JOIN take its place on the stack. -/
theorem State.joinAt_pending (ht : s.team.top s.slot = some e) (hk : e.kind = .pending) :
    s.joinAt s.slot =
      ({ s with team := { s.team with stack := replaceTop s.slot ⟨.joined, s.slot, p.pc, p.mask⟩ s.team.stack } } : State).setPath
        (p.resume e.pc e.mask s.cycle) := by
  simp only [State.joinAt, hp, ht, hk, State.setPath]

/-- R329: the lanes of a JOINED entry go on together with those that stand at the JOIN. -/
theorem State.joinAt_joined (ht : s.team.top s.slot = some e) (hk : e.kind = .joined) :
    s.joinAt s.slot = (s.popStack s.slot).setPath (p.resume (p.pc + 8) (p.mask ||| e.mask) s.cycle) := by
  simp only [State.joinAt, hp, ht, hk, State.setPath, (stackOnly_popStack s s.slot).slot]

/-- R329: a SPLIT whose other path is gone holds the path no longer. -/
theorem State.joinAt_split_alone (ht : s.team.top s.slot = some e) (hk : e.kind = .split) (ho : s.team.path (!s.slot) = none) :
    s.joinAt s.slot = (s.popStack s.slot).setPath (p.resume (p.pc + 8) p.mask s.cycle) := by
  simp only [State.joinAt, hp, ht, hk, ho, State.setPath, (stackOnly_popStack s s.slot).slot, Option.isNone_none, if_true]

theorem State.joinAt_alone (ht : s.team.top s.slot = none) (ho : s.team.path (!s.slot) = none) :
    s.joinAt s.slot = s.setPath (p.resume (p.pc + 8) p.mask s.cycle) := by
  simp only [State.joinAt, hp, ht, ho, State.setPath, Option.isNone_none, if_true]

/-- R329: a path with a partner, and with a SPLIT or no entry on the stack, waits. -/
theorem State.joinAt_waits (ht : ∀ e, s.team.top s.slot = some e → e.kind = .split) (ho : s.team.path (!s.slot) ≠ none) :
    s.joinAt s.slot = s.setPath (p.waitJoin s.cycle) := by
  have hsome : ¬(s.team.path (!s.slot)).isNone = true := by simpa using ho
  cases hs : s.team.top s.slot with
  | none => simp only [State.joinAt, hp, hs, State.setPath, if_neg hsome]
  | some e => simp only [State.joinAt, hp, hs, ht e hs, State.setPath, if_neg hsome]

end

section
variable {s : State} (h : Hdr)

/-- A JOIN whose partner does not wait at one: the path goes on or waits, and its run ends. -/
theorem exec_join_alone (hw : ¬WaitsAtJoin s (!s.slot)) : exec (.join h) s = .next { (s.joinAt s.slot).endRun with retired := true } := by
  show execJoin h s = _
  unfold execJoin
  cases hq : s.team.path (!s.slot) with
  | none => simp only [hq, Bool.false_eq_true, if_false]
  | some q =>
    have hwait : (q.wait == some .join) = false := by simpa using fun e => hw ⟨q, hq, e⟩
    simp only [hq, hwait, Bool.false_eq_true, if_false]

/-- A JOIN whose partner waits at one: the two may merge (R330). -/
theorem exec_join_partner {q : Path} (hq : s.team.path (!s.slot) = some q) (hw : q.wait = some .join) :
    exec (.join h) s = .next { (s.joinAt s.slot).endRun.mergePaths (!s.slot) with retired := true } := by
  show execJoin h s = _
  unfold execJoin
  simp only [hq, hw, beq_self_eq_true, if_true]

/-- What a JOIN does whose partner does not wait: the stack changes to that of `v`, the path's slot holds `r`, and the run ends. -/
theorem join_alone {v : State} {r : Path} {P : State → Prop} (hw : ¬WaitsAtJoin s (!s.slot)) (hj : s.joinAt s.slot = v.setPath r) (hv : StackOnly s v)
    (hP : ∀ t : State, t.slot = s.slot ∧ t.team.path (!s.slot) = s.team.path (!s.slot) → t.team.path s.slot = some r → t.team.stack = v.team.stack →
      t.team.spill = v.team.spill → P t) :
    ∃ t, exec (.join h) s = .next t ∧ OnlyStack s t ∧ RunOver s t ∧ t.retired = true ∧ P t := by
  have honly : OnlyStack s (v.setPath r) := hv.only.trans_paths (pathsMove_setPath ..)
  have hteam : (v.setPath r).endRun.team = v.team.setPath s.slot (some r) := by rw [State.endRun_team, State.setPath_team, hv.slot]
  refine ⟨{ (v.setPath r).endRun with retired := true }, by rw [exec_join_alone h hw, hj],
    honly.trans_paths ((pathsMove_endRun _).trans (pathsMove_retired _)), .of_stack honly hv.slot (State.endRun_runOver _), rfl, hP _ ⟨?_, ?_⟩ ?_ ?_ ?_⟩
  · exact (State.endRun_slot _).trans hv.slot
  · rw [hteam, Team.path_setPath_not, hv.path]
  · rw [hteam, Team.path_setPath]
  · rw [hteam, Team.setPath_frame]
  · rw [hteam, Team.setPath_frame]

/-- R329: a path with a partner that does not wait, and with a SPLIT or no entry on the stack, waits at the JOIN. -/
theorem join_waits {p : Path} (hp : s.team.path s.slot = some p) (hw : ¬WaitsAtJoin s (!s.slot))
    (ht : ∀ e, s.team.top s.slot = some e → e.kind = .split) (ho : s.team.path (!s.slot) ≠ none) :
    ∃ t, exec (.join h) s = .next t ∧ OnlyStack s t ∧ RunOver s t ∧ t.retired = true ∧
      (t.slot = s.slot ∧ t.team.path (!s.slot) = s.team.path (!s.slot)) ∧ WaitsAtJoin t s.slot ∧ t.path.pc = p.pc ∧ t.path.mask = p.mask ∧
      t.team.stack = s.team.stack := by
  refine join_alone h hw (State.joinAt_waits hp ht ho) (.refl s) fun t hsame hpath hstack _ => ?_
  have hfocus : t.path = p.waitJoin s.cycle := by unfold State.path; rw [hsame.1, hpath]; rfl
  exact ⟨hsame, ⟨_, hpath, rfl⟩, by rw [hfocus]; rfl, by rw [hfocus]; rfl, hstack⟩

end

/-- R330: `m` is what two paths become that merge: the lanes and the scoreboard entries of both, the smaller budget, and a gate behind the results that
are pending. -/
structure IsMerge (pend : List Pend) (p q m : Path) : Prop where
  mask : m.mask = p.mask ||| q.mask
  wait : m.wait = none
  runCount : m.runCount = 0
  budget : m.budget = min p.budget q.budget
  sb : ∀ x, x ∈ m.sb ↔ x ∈ p.sb ∨ x ∈ q.sb
  gate : ∀ x ∈ pend, x.ready ≤ m.gate

theorem IsMerge.symm {pend : List Pend} {p q m : Path} (h : IsMerge pend p q m) : IsMerge pend q p m :=
  ⟨h.mask.trans (BitVec.or_comm ..), h.wait, h.runCount, h.budget.trans (Nat.min_comm ..), fun x => (h.sb x).trans Or.comm, h.gate⟩

/-- The most recent entry of a slot is a SPLIT. -/
def Team.SplitTop (t : Team) (slot : Bool) : Prop := ∃ e, t.top slot = some e ∧ e.kind = .split

theorem Team.SplitTop.kind_of_top {t : Team} {keep slot : Bool} {x : StackEntry} (hk : t.SplitTop keep) (hn : t.top (!keep) = none)
    (hx : t.top slot = some x) : x.kind = .split := by
  obtain ⟨e, he, hkind⟩ := hk
  by_cases hs : slot = keep
  · rw [hs, he] at hx; cases hx; exact hkind
  · rw [Bool.eq_not.2 hs, hn] at hx; cases hx

theorem PathsMove.splitTop {s t : State} (h : PathsMove s t) {b : Bool} (hk : s.team.SplitTop b) : t.team.SplitTop b := by
  unfold Team.SplitTop; rwa [h.top]

/-- The gate of a merged path lies behind every pending result. -/
theorem ready_le_gate {pend : List Pend} {x : Pend} (hx : x ∈ pend) : x.ready ≤ pend.foldl (fun m x => max m x.ready) 0 := by
  have grows (l : List Pend) (n : Nat) : n ≤ l.foldl (fun m x => max m x.ready) n ∧ ∀ x ∈ l, x.ready ≤ l.foldl (fun m x => max m x.ready) n := by
    induction l generalizing n with
    | nil => simp
    | cons y l ih =>
      obtain ⟨hn, hl⟩ := ih (max n y.ready)
      exact ⟨Nat.le_trans (Nat.le_max_left ..) hn, List.forall_mem_cons.2 ⟨Nat.le_trans (Nat.le_max_right ..) hn, hl⟩⟩
  exact (grows pend 0).2 x hx

/-- The state after a merge into slot `keep`, whose path becomes `m` (R330). -/
def State.mergedInto (u : State) (keep : Bool) (m : Path) : State :=
  let v := u.popStack keep
  { v with team := (({ v.team with chkFrom := v.team.chkFrom.map fun x => (keep, x.2) } : Team).setPath keep (some m)).setPath (!keep) none, slot := keep }

/-- What path `r` becomes where the paths `a` and `b` of slots 0 and 1 merge into its slot at a pc (R330). -/
def Path.merged (r a b : Path) (pend : List Pend) (pc : Dword) (cycle : Nat) : Path :=
  { r.resume pc (a.mask ||| b.mask) cycle with
    sb := a.sb ++ b.sb.filter fun e => !(a.sb.contains e), budget := min a.budget b.budget, gate := pend.foldl (fun m x => max m x.ready) 0 }

theorem isMerge_merged (r a b : Path) (pend : List Pend) (pc : Dword) (cycle : Nat) : IsMerge pend a b (r.merged a b pend pc cycle) where
  mask := rfl
  wait := rfl
  runCount := rfl
  budget := rfl
  sb x := by
    show x ∈ a.sb ++ b.sb.filter (fun e => !(a.sb.contains e)) ↔ _
    by_cases hx : x ∈ a.sb <;> simp [hx]
  gate _ := ready_le_gate

/-- R330: two paths that wait at JOINs merge where one slot has the SPLIT and the other no entry. -/
theorem State.mergePaths_eq {u : State} {a b : Path} {keep : Bool} (first : Bool) (h0 : u.team.path0 = some a) (h1 : u.team.path1 = some b)
    (ha : a.wait = some .join) (hb : b.wait = some .join) (hk : u.team.SplitTop keep) (hn : u.team.top (!keep) = none) :
    u.mergePaths first =
      u.mergedInto keep ((if keep then b else a).merged a b u.team.pend ((if first then b.pc else a.pc) + 8) u.cycle) := by
  obtain ⟨e, he, hkind⟩ := hk
  unfold State.mergePaths
  cases keep <;> simp only [Bool.not_false, Bool.not_true] at hn <;>
    simp only [h0, h1, ha, hb, he, hn, hkind, beq_self_eq_true, true_and, ne_eq, Bool.false_eq_true, Bool.true_eq_false, not_false_eq_true, if_true] <;> rfl

/-- R330 as the slot sees it that arrives second: the merged path stands behind the JOIN of its partner. -/
theorem State.mergePaths_partner {u : State} {slot : Bool} {p q : Path} {keep : Bool} (hp : u.team.path slot = some p)
    (hq : u.team.path (!slot) = some q) (hpw : p.wait = some .join) (hqw : q.wait = some .join) (hk : u.team.SplitTop keep)
    (hn : u.team.top (!keep) = none) :
    ∃ m, IsMerge u.team.pend p q m ∧ m.pc = q.pc + 8 ∧ u.mergePaths (!slot) = u.mergedInto keep m := by
  cases slot with
  | false => exact ⟨_, isMerge_merged .., rfl, State.mergePaths_eq true hp hq hpw hqw hk hn⟩
  | true => exact ⟨_, (isMerge_merged ..).symm, rfl, State.mergePaths_eq false hq hp hqw hpw hk hn⟩

theorem pathsMove_mergedInto (u : State) (keep : Bool) (m : Path) : PathsMove (u.popStack keep) (u.mergedInto keep m) := by
  cases keep <;> exact ⟨_, _, _, _, _, _, rfl⟩

theorem State.mergedInto_path (u : State) (keep : Bool) (m : Path) :
    (u.mergedInto keep m).team.path keep = some m ∧ (u.mergedInto keep m).team.path (!keep) = none := by
  cases keep <;> exact ⟨rfl, rfl⟩

theorem State.popStack_running (s : State) (b : Bool) : (s.popStack b).running = s.running := by
  unfold State.popStack
  dsimp only
  split <;> rfl

/-- What a merge leaves alone and what it leaves behind, after steps that moved paths only. -/
theorem merge_goes_on {s u : State} (hu : PathsMove s u) (hover : RunOver s u) {keep : Bool} (hk : s.team.SplitTop keep) (m : Path) :
    OnlyStack s { u.mergedInto keep m with retired := true } ∧ RunOver s { u.mergedInto keep m with retired := true } ∧
      ∃ e, Popped keep s.team.stack (u.mergedInto keep m).team.stack e := by
  have hmove := pathsMove_mergedInto u keep m
  refine ⟨hu.trans_stack ((stackOnly_popStack u keep).only.trans_paths (hmove.trans (pathsMove_retired _))), ?_, ?_⟩
  · unfold RunOver at hover ⊢
    rwa [show ({ u.mergedInto keep m with retired := true } : State).running = u.running from State.popStack_running u keep]
  · obtain ⟨e, he, -⟩ := hk
    rw [← hu.stack]
    exact ⟨e, popped_of_popStack ((hu.top keep).trans he) hmove.stack⟩

/-- A JOIN whose partner waits at one, where slot `keep` has the SPLIT and the other slot no entry (R330): the path comes to wait at the JOIN, and both
paths merge into `keep`. -/
theorem join_merges (h : Hdr) {s : State} {p q : Path} {keep : Bool} (hp : s.team.path s.slot = some p) (hq : s.team.path (!s.slot) = some q)
    (hw : q.wait = some .join) (hk : s.team.SplitTop keep) (hn : s.team.top (!keep) = none) :
    ∃ t, exec (.join h) s = .next t ∧ OnlyStack s t ∧ RunOver s t ∧ t.retired = true ∧ t.slot = keep ∧ t.team.path (!t.slot) = none ∧
      RunsAt t t.slot (q.pc + 8) (p.mask ||| q.mask) ∧ (∃ e, Popped t.slot s.team.stack t.team.stack e) ∧
      ∃ m, t.team.path t.slot = some m ∧ m.budget = min p.budget q.budget ∧ (∀ x, x ∈ m.sb ↔ x ∈ p.sb ∨ x ∈ q.sb) ∧
        ∀ x ∈ s.team.pend, x.ready ≤ m.gate := by
  have hj : s.joinAt s.slot = s.setPath (p.waitJoin s.cycle) := State.joinAt_waits hp (fun _ => hk.kind_of_top hn) (by rw [hq]; simp)
  have hmove := pathsMove_setPath s (p.waitJoin s.cycle)
  have hover : RunOver s (s.setPath (p.waitJoin s.cycle)).endRun := (State.endRun_runOver _).of_stack ((StackOnly.refl s).only.trans_paths hmove) rfl
  have hu : PathsMove s (s.setPath (p.waitJoin s.cycle)).endRun := hmove.trans (pathsMove_endRun _)
  have hteam : (s.setPath (p.waitJoin s.cycle)).endRun.team = s.team.setPath s.slot (some (p.waitJoin s.cycle)) := State.endRun_team _
  obtain ⟨m, hm, hpc, hmerge⟩ := State.mergePaths_partner (by rw [hteam, Team.path_setPath]) (by rw [hteam, Team.path_setPath_not, hq]) rfl hw
    (hu.splitTop hk) ((hu.top _).trans hn)
  obtain ⟨hfocus, hother⟩ := State.mergedInto_path (s.setPath (p.waitJoin s.cycle)).endRun keep m
  obtain ⟨honly, hrun, hpop⟩ := merge_goes_on hu hover hk m
  rw [hu.pend] at hm
  exact ⟨_, by rw [exec_join_partner h hq hw, hj, hmerge], honly, hrun, rfl, rfl, hother,
    ⟨m, hfocus, hpc, hm.mask, hm.wait, hm.runCount⟩, hpop, m, hfocus, hm.budget, hm.sb, hm.gate⟩

/-- R327, R329, R330: a JOIN by its slot's most recent entry, and the merge of two paths that wait at JOINs. -/
theorem stated_joins : Stated.Joins := by
  intro h s p hp i out same split
  refine ⟨fun hw e he => ?_, fun ht ho => ?_, fun ht ho hw => ?_, fun q hq hqw hk => ?_⟩
  · cases hkind : e.kind with
    | pending =>
      obtain ⟨a, b, hs, hslot, ha⟩ := Team.stack_split_top he
      exact join_alone h hw (State.joinAt_pending hp he hkind) (stackOnly_put ..) fun t hsame hpath hstack hspill =>
        ⟨hsame, runsAt_resume hpath, hasBudget_resume hpath, hspill, a, b, hs, hstack.trans (by rw [hs]; exact replaceTop_append hslot ha), ha⟩
    | joined =>
      exact join_alone h hw (State.joinAt_joined hp he hkind) (stackOnly_popStack ..) fun t hsame hpath hstack _ =>
        ⟨hsame, runsAt_resume hpath, hasBudget_resume hpath, popped_of_popStack he hstack⟩
    | split =>
      refine ⟨fun ho => ?_, fun ho => ?_⟩
      · exact join_alone h hw (State.joinAt_split_alone hp he hkind ho) (stackOnly_popStack ..) fun t hsame hpath hstack _ =>
          ⟨hsame, runsAt_resume hpath, hasBudget_resume hpath, popped_of_popStack he hstack⟩
      · exact join_waits h hp hw (fun x hx => by rw [he] at hx; cases hx; exact hkind) ho
  · exact join_alone h (fun ⟨q, hq, _⟩ => by rw [ho] at hq; cases hq) (State.joinAt_alone hp ht ho) (.refl s) fun t hsame hpath hstack _ =>
      ⟨hsame, runsAt_resume hpath, hasBudget_resume hpath, hstack⟩
  · exact join_waits h hp hw (fun x hx => by rw [ht] at hx; cases hx) ho
  · rcases hk with ⟨hs, hn⟩ | ⟨hn, hs⟩
    · obtain ⟨t, hex, honly, hrun, hret, hslot, hmerged⟩ := join_merges h hp hq hqw hs hn
      exact ⟨t, hex, honly, hrun, hret, iff_of_true hslot hs, hmerged⟩
    · obtain ⟨t, hex, honly, hrun, hret, hslot, hmerged⟩ := join_merges h hp hq hqw hs (by rwa [Bool.not_not])
      have hno : ¬split s.slot := fun ⟨x, hx, _⟩ => by rw [hn] at hx; cases hx
      exact ⟨t, hex, honly, hrun, hret, iff_of_false (by rw [hslot]; simp) hno, hmerged⟩

/-- Settles O11: BRD (R26, R328, R332) and JOIN (R327, R329, R330), clause by clause from what each does to the stack and to the paths. -/
theorem divergence : Obligations.Divergence := ⟨stated_divergence, stated_joins⟩

end Sys2Proof.Machine
end
